-- ==== Sys2Proof/Word.lean ====
section
/-! DEFINITION. The word types of the FJ4120: a byte of a frame or of the configuration memory, a reading of the
48-bit line time counter (R14), and the 32-bit state of the random source (R23). -/

namespace Sys2Proof

/-- A byte on a telemetry channel or of the configuration memory (R168, R172); also a number that rolls through 256
values (burst, fix, finding, probe and sequence numbers). -/
abbrev Byte := BitVec 8

/-- A line time: a reading of a node's 48-bit counter of ticks (R14). -/
abbrev Time := BitVec 48

/-- The state of the random source (R23). -/
abbrev Seed := BitVec 32

/-- Bytes in the order sent (R168). -/
abbrev Bytes := List Byte

end Sys2Proof
end

