-- ==== Sys2Proof/Syntax.lean ====
section
/-! DEFINITION. The commands of the block: one constructor of `Instr` per row of spec/opcode_table.json, with the
operands the rules give the event. -/

namespace Sys2Proof

/-- The two telemetry channels (R142). -/
inductive ChanId where
  | a | b
  deriving DecidableEq, Repr

/-- The places of the configuration read at which the memory must acknowledge (R2). -/
inductive AckStep where
  | deviceWrite | byteAddress | deviceRead
  deriving DecidableEq, Repr

/-- How a configuration read ended (R2): an acknowledge that failed to come, or the 64 bytes read. -/
inductive ReadOutcome where
  | notAcknowledged (step : AckStep)
  | complete (block : Bytes)
  deriving DecidableEq, Repr

/-- The commands: the part's events and operations, each one indivisible (spec/95_what_each_step_holds.md).
A frame row carries the channel and the bytes the receiver takes after those its record already holds (header, payload
and CRC; R144); an operand `i`, `place` or `slot` names an entry by its place in the list or table concerned. -/
inductive Instr where
  | resetAssert
  | resetRelease
  | configReadEnd (o : ReadOutcome)
  | configReadTimeout
  | carrierRise (ch : ChanId)
  | carrierFall (ch : ChanId)
  | jamTimeExpiry (ch : ChanId)
  | jamClearExpiry (ch : ChanId)
  | calibrationStart
  | calibrationEnd
  | calibrationDue
  | envelopeValue
  | probeBandValue
  | snapshotFull (slot : Nat)
  | probeWindowFull
  | arrivalCaptureFull
  | passEnd
  | probeDue
  | settleExpiry
  | probeGuardExpiry
  | arrivalExpiry (i : Nat)
  | silenceExpiry (place : Nat)
  | stalenessExpiry (place : Nat)
  | pairHoldExpiry (i : Nat)
  | noticeExpiry (i : Nat)
  | fixAgeExpiry (place : Nat)
  | probeFrame (ch : ChanId) (bytes : Bytes)
  | burstFrame (ch : ChanId) (bytes : Bytes)
  | fixFrame (ch : ChanId) (bytes : Bytes)
  | echoFrame (ch : ChanId) (bytes : Bytes)
  | stateFrame (ch : ChanId) (bytes : Bytes)
  | replyFrame (ch : ChanId) (bytes : Bytes)
  | otherFrame (ch : ChanId) (bytes : Bytes)
  | queryFixes (ch : ChanId) (bytes : Bytes)
  | queryFindings (ch : ChanId) (bytes : Bytes)
  | queryNeighbours (ch : ChanId) (bytes : Bytes)
  | queryState (ch : ChanId) (bytes : Bytes)
  | rebase (ch : ChanId) (bytes : Bytes)
  | clearFixes (ch : ChanId) (bytes : Bytes)
  | hush (ch : ChanId) (bytes : Bytes)
  | restart (ch : ChanId) (bytes : Bytes)
  | unknownCommand (ch : ChanId) (bytes : Bytes)
  | interframeGap
  | backoffEnd
  | frameSent
  | collision
  | floorHoldExpiry
  | noteDeadline (i : Nat)
  | hushExpiry
  | stateTimer
  | preambleAndSync (ch : ChanId)
  | lenAbove96 (ch : ChanId) (bytes : Bytes)
  deriving DecidableEq, Repr

end Sys2Proof
end

