-- ==== Sys2Proof/Decode.lean ====
section
/-! DEFINITION. The words of the table. No row of spec/opcode_table.json gives bits to its command (every "fields" is
empty and no row has "fixed"), so no word spells a command. -/

namespace Sys2Proof

/-- No row of the table gives bits, so there is no word of any width that spells a command. -/
def decodeTableWord (_nbits _w : Nat) : Option Instr := none

end Sys2Proof
end

