-- ==== Sys2Proof/Config.lean ====
section
/-! DEFINITION. The configuration values a node holds (R3, R172) and the free values of the model: what the two
samplers' inputs carry, what the receiver hears of an own frame, and the order of events that fall at one line time. A
free value has no body, so nothing can be proved of it. -/

namespace Sys2Proof

/-- The configuration values settled at the end of LOADING (R2 to R4), in the order of the table of R3. Units are the
table's. -/
structure Cfg where
  nodeId : Nat
  runNo : Nat
  position : Nat
  vf : Nat
  probePeriod : Nat
  upperTh : Nat
  lowerTh : Nat
  confirmN : Nat
  probeTh : Nat
  pairMargin : Nat
  sigLimit : Nat
  mergeRadius : Nat
  announceCount : Nat
  fixAge : Nat
  echoFloor : Nat
  markMatch : Nat
  persist : Nat
  growStep : Nat
  baseRuns : Nat
  posTol : Nat
  dual : Bool
  statePeriod : Nat
  levelBurst : Nat
  levelFix : Nat
  levelEcho : Nat
  levelReply : Nat
  levelState : Nat
  deriving DecidableEq, Repr

/-- Every field at its default, NODE_ID, RUN_NO and POSITION at 0: the values of a node whose memory did not answer
or carries no marker (R2), and the values held during LOADING (entry 2, DESIGN CHOICE). -/
def Cfg.default : Cfg where
  nodeId := 0
  runNo := 0
  position := 0
  vf := 870
  probePeriod := 1000
  upperTh := 300
  lowerTh := 200
  confirmN := 3
  probeTh := 256
  pairMargin := 40
  sigLimit := 600
  mergeRadius := 60
  announceCount := 3
  fixAge := 600
  echoFloor := 8
  markMatch := 20
  persist := 3
  growStep := 24
  baseRuns := 4
  posTol := 50
  dual := true
  statePeriod := 60
  levelBurst := 6
  levelFix := 5
  levelEcho := 4
  levelReply := 3
  levelState := 1

/-- What a sampler's converter is switched to (R28): its coupler port, or the calibration termination with the
converter's input polarity normal or swapped. -/
inductive InputSwitch where
  | port | terminated | terminatedSwapped
  deriving DecidableEq, Repr

/-- FREE VALUE (entry 5): what the return-band converter reads at its `n`-th sample, before the converter's range. -/
opaque Config.returnInput : InputSwitch → Nat → Int

/-- FREE VALUE (entry 5): what the probe-band converter reads at its `n`-th sample, before the converter's range. -/
opaque Config.probeInput : InputSwitch → Nat → Int

/-- FREE VALUE (entry 21): what the receiver of the keyed channel takes in the `n`-th airtime of an own byte; none when it
takes no byte. -/
opaque Config.loopbackByte : Nat → Option Byte

/-- FREE VALUE (entry 4): the key by which the `i`-th of the events raised together at one line time is ordered. -/
opaque Config.eventKey : Nat → Nat → Nat

end Sys2Proof
end

