-- ==== Sys2Proof/Machine/State.lean ====
section
/-! DEFINITION. The state of the node as plain data: one structure per block (the table of 00_scope.md), the queue of
waiting commands, and the values after reset. Each field's rule and reset value stand in INVENTORY.md. -/

namespace Sys2Proof.Machine

open Sys2Proof

/-! ## Node Control -/

/-- The node states of chapter 01. `held` stands while the reset line is asserted (R1), when the node is in none of
the five states. -/
inductive NodeState where
  | held | loading | calibrating | running | unnamed | clashed
  deriving DecidableEq, Repr

/-- The state of NC (R12). RUN, FAULT and the lengths derived from PROBE_PERIOD are views (Flags.lean, Ops.lean).
`sampled` (entry 25) and `fresh` (entry 5) are the model's own. -/
structure Nc where
  node : NodeState
  cfg : Cfg
  now : Time
  rng : Seed
  reading : Bool
  sampled : Bool
  fresh : Nat
  deriving DecidableEq, Repr

/-! ## Coupler Front End -/

/-- The offset calibration (R28, R30): RUNNING carries the start time and, for each sampler, the sums P and N of the
samples taken so far. -/
inductive CalState where
  | idle
  | waiting
  | running (start : Time) (returnP returnN probeP probeN : Int)
  deriving DecidableEq, Repr

/-- The probe window (R34, R35), samples in the order written. -/
inductive Window where
  | free
  | capturing (e : Time) (samples : List Int)
  | held (e : Time) (samples : List Int)
  deriving DecidableEq, Repr

/-- The arrival buffer (R38): capture start C, trigger time T and the samples in the order written. -/
inductive ArrivalBuffer where
  | free
  | capturing (c t : Time) (samples : List Int)
  | held (c t : Time) (samples : List Int)
  deriving DecidableEq, Repr

/-- A value formed from one envelope block, with the line time of the block (R18, R27, R40). -/
structure BlockValue where
  block : Time
  value : Nat
  deriving DecidableEq, Repr

/-- The state of CFE. `ring` and `history` hold the newest sample first. -/
structure Cfe where
  ring : List Int
  history : List Int
  offR : Int
  offP : Int
  cal : CalState
  calDue : Option Time
  window : Window
  arrival : ArrivalBuffer
  chirp : Option Nat
  emitter : Int
  envelope : Option BlockValue
  probeValue : Option BlockValue
  deriving DecidableEq, Repr

/-! ## Ingress Watch -/

/-- The open burst as the detector holds it (R42 to R45). -/
structure OpenBurst where
  number : Byte
  onset : Time
  peak : Nat
  duration : Nat
  below : Nat
  long : Bool
  deriving DecidableEq, Repr

/-- The envelope detector (R41): WATCH holds the onset run's count, first block and greatest value. -/
inductive Detector where
  | off
  | watch (count : Nat) (first : Time) (peak : Nat)
  | opened (burst : OpenBurst)
  deriving DecidableEq, Repr

/-- The states of a burst record (chapter 04, THE BURST RECORD). -/
inductive BurstState where
  | capturing | queued | timed | untimed | long
  deriving DecidableEq, Repr

/-- What a record takes when it becomes TIMED (R50). -/
structure Timing where
  fine : Time
  signature : List Nat
  timedAt : Time
  deriving DecidableEq, Repr

/-- A burst record. `timing` is present once TIMED; `hold` is the PAIR_HOLD expiry. -/
structure Burst where
  number : Byte
  state : BurstState
  opened : Bool
  onset : Time
  peak : Nat
  duration : Nat
  slot : Option Nat
  timing : Option Timing
  hold : Option Time
  deriving DecidableEq, Repr

/-- A snapshot slot (R47, R48): snapshot start, the kept o_r, and the samples in the order written. -/
inductive Slot where
  | free
  | filling (start : Time) (offset : Int) (samples : List Int)
  | job (start : Time) (offset : Int) (samples : List Int)
  deriving DecidableEq, Repr

/-- The state of IW. -/
structure Iw where
  detector : Detector
  bursts : List Burst
  slots : List Slot
  nextBurst : Byte
  seen : Nat
  untimed : Nat
  evicted : Nat
  deriving DecidableEq, Repr

/-! ## Correlation Engine -/

/-- A job record (chapter 05, JOBS AND THE QUEUE). -/
inductive Job where
  | burst (slot : Nat) (start : Time) (offset : Int)
  | arrival (c t : Time)
  | echo (e : Time)
  deriving DecidableEq, Repr

/-- The running job: its pass number, its current shift S and the line time at which the pass ends (R59, R60). -/
structure Running where
  job : Job
  pass : Nat
  shift : Nat
  endsAt : Time
  deriving DecidableEq, Repr

/-- The state of CE: IDLE when no job runs, BUSY otherwise (R58). -/
structure Ce where
  running : Option Running
  waiting : List Job
  deriving DecidableEq, Repr

/-! ## Peer Timing Unit -/

/-- Which of the five emission conditions of R75 failed at a test, in the rule's order. -/
structure Failing where
  hushed : Bool
  note : Bool
  window : Bool
  guard : Bool
  calibrating : Bool
  deriving DecidableEq, Repr

/-- The probe schedule (R75 to R77). -/
inductive Schedule where
  | off
  | counting (due : Time)
  | blocked (failed : Failing)
  | settling (settle : Time)
  deriving DecidableEq, Repr

/-- A pair of the emission history (R78). -/
structure Emission where
  number : Byte
  time : Time
  deriving DecidableEq, Repr

/-- A heard entry: peer, the peer's probe number, the arrival time (R81). -/
structure Heard where
  peer : Nat
  number : Byte
  arrival : Time
  deriving DecidableEq, Repr

/-- The job state of an arrival record; GOOD carries the arrival time hA (chapter 06). -/
inductive ArrivalState where
  | capturing
  | timing
  | good (arrival : Time)
  deriving DecidableEq, Repr

/-- The label of an arrival record (R85): peer, peer probe number and peer emission time eB. -/
structure Label where
  peer : Nat
  number : Byte
  emission : Time
  deriving DecidableEq, Repr

/-- An arrival record (R82 to R84). -/
structure Arrival where
  trigger : Time
  state : ArrivalState
  label : Option Label
  expiry : Option Time
  deriving DecidableEq, Repr

/-- The states of a neighbour record (chapter 06). -/
inductive PeerState where
  | heard | synced | stale | doubtful
  deriving DecidableEq, Repr

/-- The forward leg (eA, hB). -/
structure ForwardLeg where
  eA : Time
  hB : Time
  deriving DecidableEq, Repr

/-- The reverse leg (eB, hA) with the peer's probe number. -/
structure ReverseLeg where
  eB : Time
  hA : Time
  number : Byte
  deriving DecidableEq, Repr

/-- θ_m and m of the last consistent exchange (R92). -/
structure Sync where
  theta : Int
  mid : Time
  deriving DecidableEq, Repr

/-- A neighbour record. `silence` and `stale` are its two timers (R90, R94). -/
structure Neighbour where
  id : Nat
  position : Nat
  state : PeerState
  lastHeard : Time
  lastSeq : Option Byte
  forward : Option ForwardLeg
  reverse : Option ReverseLeg
  sync : Option Sync
  rate : Option Int
  jumps : Nat
  distance : Option Nat
  streak : Nat
  exchanges : Nat
  silence : Option Time
  stale : Option Time
  deriving DecidableEq, Repr

/-- The state of PTU. `guard` is the timer of the PROBE_GUARD condition (entry 11). -/
structure Ptu where
  schedule : Schedule
  lastTrigger : Option Time
  guard : Option Time
  nextProbe : Byte
  history : List Emission
  heard : List Heard
  arrivals : List Arrival
  table : List (Option Neighbour)
  partner : Option Nat
  wasted : Nat
  discarded : Nat
  deriving DecidableEq, Repr

/-! ## Pairing Unit -/

/-- A notice (R100, R107): peer onset tB, own onset tB_A. -/
structure Notice where
  number : Byte
  peerOnset : Time
  ownOnset : Time
  signature : List Nat
  arrival : Time
  expiry : Option Time
  deriving DecidableEq, Repr

/-- Burst number and peer onset of the last notice paired (R99). -/
structure LastPair where
  number : Byte
  peerOnset : Time
  deriving DecidableEq, Repr

/-- The state of PU. -/
structure Pu where
  notices : List Notice
  lastPair : Option LastPair
  pairs : Nat
  handedOn : Nat
  deriving DecidableEq, Repr

/-! ## Fix Table -/

/-- The kinds of a result and of a fix (R110). -/
inductive FixKind where
  | inside | beyondLow | beyondHigh
  deriving DecidableEq, Repr

/-- The kinds of a condition, a candidate and a finding (R134). -/
inductive FindKind where
  | new | grown | gone
  deriving DecidableEq, Repr

/-- A fix's copy of the finding that corroborates it (R124). -/
structure Corroboration where
  number : Byte
  kind : FindKind
  position : Nat
  deriving DecidableEq, Repr

/-- A fix record. `age` is its age timer (R121). -/
structure Fix where
  number : Byte
  kind : FixKind
  upperId : Nat
  upperPosition : Nat
  centre : Int
  low : Int
  high : Int
  count : Nat
  firstSeen : Time
  lastSeen : Time
  announced : Option Nat
  corroboration : Option Corroboration
  age : Option Time
  deriving DecidableEq, Repr

/-- The state of FT: 16 places (R116). -/
structure Ft where
  places : List (Option Fix)
  nextFix : Byte
  discarded : Nat
  deriving DecidableEq, Repr

/-! ## Echo Comparator -/

/-- A mark of a profile or of the baseline (R71, R131): distance in dm, magnitude in q units, polarity. -/
structure Mark where
  distance : Nat
  q : Nat
  positive : Bool
  deriving DecidableEq, Repr

/-- A condition or a candidate (R134, R135). `q` and `positive` are the profile mark's (NEW and GROWN); `before` is
the baseline q the condition read in the matching (R136). -/
structure Candidate where
  kind : FindKind
  distance : Nat
  streak : Nat
  q : Nat
  positive : Bool
  before : Nat
  deriving DecidableEq, Repr

/-- A finding (R137). -/
structure Finding where
  number : Byte
  kind : FindKind
  distance : Nat
  position : Nat
  before : Option Nat
  after : Option Nat
  confirmed : Time
  deriving DecidableEq, Repr

/-- The state of EC; `watching` false is LEARNING. -/
structure Ec where
  watching : Bool
  learned : Nat
  baseline : List Mark
  candidates : List Candidate
  findings : List Finding
  nextFinding : Byte
  rebase : Bool
  invalidStreak : Nat
  weak : Bool
  invalid : Nat
  collided : Nat
  dropped : Nat
  deriving DecidableEq, Repr

/-! ## Link Controller -/

/-- A channel with its receiver (R13, R142 to R144): carrier detect pin, CLEAR or JAMMED with its timers, the unbroken
idle time counted up to the gap (entry 13), and the receiver, HUNTING (`none`) or RECEIVING with the bytes so far. -/
structure Channel where
  carrier : Bool
  jammed : Bool
  jamTime : Option Time
  jamClear : Option Time
  idle : Nat
  receiver : Option Bytes
  deriving DecidableEq, Repr

/-- The MAC states (chapter 10, SENDING). -/
inductive Mac where
  | idle | defer | backoff | sending | held
  deriving DecidableEq, Repr

/-- The frame on air: the channel keyed, every byte from the preamble to the CRC, the start (R151), and what the receiver
of that channel has taken in each airtime since, none where it took no byte (R152). -/
structure Transmission where
  channel : ChanId
  bytes : Bytes
  start : Time
  heard : List (Option Byte)
  deriving DecidableEq, Repr

/-- The state of LC. -/
structure Lc where
  chA : Channel
  chB : Channel
  mac : Mac
  tx : Option Transmission
  ownEnd : Option Time
  nextSeq : Byte
  listenerSeq : Option Byte
  bad : Nat
  otherRun : Nat
  dropped : Nat
  deriving DecidableEq, Repr

/-! ## Note Arbiter -/

/-- The link record of a note (R149). The channel is absent until the first choice. -/
structure Link where
  channel : Option ChanId
  collA : Nat
  collB : Nat
  e : Nat
  remaining : Option Nat
  deriving DecidableEq, Repr

/-- The content of a BURST NOTE (R54). -/
structure BurstNote where
  number : Byte
  long : Bool
  onset : Time
  peak : Nat
  duration : Nat
  signature : List Nat
  deriving DecidableEq, Repr

/-- The sections of a QUERY (R164). -/
inductive Section where
  | fixes | findings | neighbours | state
  deriving DecidableEq, Repr

/-- A REPLY page (R166, R169): its section, its last-page flag and its payload bytes. -/
structure Page where
  sect : Section
  last : Bool
  payload : Bytes
  deriving DecidableEq, Repr

/-- What a note carries. A FIX NOTE carries its image of the fix and, while its record stands, the place of that
record (R123); a STATE NOTE's content is built at its sending (R163). -/
inductive Content where
  | probe (number : Byte) (e : Time) (heard : List Heard)
  | burst (note : BurstNote)
  | fix (place : Option Nat) (image : Fix)
  | echo (finding : Finding)
  | state
  | reply (page : Page)
  deriving DecidableEq, Repr

/-- A note record (chapter 11). `inFlight` marks the note in flight. -/
structure Note where
  content : Content
  level : Nat
  enqueued : Time
  deadline : Option Time
  link : Option Link
  inFlight : Bool
  deriving DecidableEq, Repr

/-- A dump in progress (R165, R166). -/
structure Dump where
  sect : Section
  next : Nat
  deriving DecidableEq, Repr

/-- The state of NA. -/
structure Na where
  queue : List Note
  floor : Nat
  floorHold : Option Time
  hush : Option Time
  stateTimer : Option Time
  dump : Option Dump
  dropped : Nat
  refused : Nat
  unknown : Nat
  deriving DecidableEq, Repr

/-! ## The whole node -/

/-- The node: its ten blocks and the queue of the commands that wait, first in first out. -/
structure State where
  nc : Nc
  cfe : Cfe
  iw : Iw
  ce : Ce
  ptu : Ptu
  pu : Pu
  ft : Ft
  ec : Ec
  lc : Lc
  na : Na
  pending : List Instr
  deriving DecidableEq, Repr

/-- The part names no condition that stops it, so there is no fault (entry 18). -/
inductive Fault where
  deriving DecidableEq, Repr

/-- Why a command has no meaning. -/
inductive Refusal where
  /-- Raised by `exec` for a command that has no meaning yet; safe. No arm raises it in this model. -/
  | notModelled (mnemonic : String)
  deriving DecidableEq, Repr

/-! ## Values after reset -/

/-- R30, R31 and the first table of chapter 03. -/
def Cfe.reset : Cfe where
  ring := List.replicate 512 0
  history := List.replicate 128 0
  offR := 0
  offP := 0
  cal := .idle
  calDue := none
  window := .free
  arrival := .free
  chirp := none
  emitter := 0
  envelope := none
  probeValue := none

/-- R57. -/
def Iw.reset : Iw where
  detector := .off
  bursts := []
  slots := List.replicate 8 .free
  nextBurst := 0
  seen := 0
  untimed := 0
  evicted := 0

/-- R74. -/
def Ce.reset : Ce where
  running := none
  waiting := []

/-- R97 and the first table of chapter 06. -/
def Ptu.reset : Ptu where
  schedule := .off
  lastTrigger := none
  guard := none
  nextProbe := 0
  history := []
  heard := []
  arrivals := []
  table := List.replicate 12 none
  partner := none
  wasted := 0
  discarded := 0

/-- R115. -/
def Pu.reset : Pu where
  notices := []
  lastPair := none
  pairs := 0
  handedOn := 0

/-- R128. -/
def Ft.reset : Ft where
  places := List.replicate 16 none
  nextFix := 0
  discarded := 0

/-- R141 and the first table of chapter 09. -/
def Ec.reset : Ec where
  watching := false
  learned := 0
  baseline := []
  candidates := []
  findings := []
  nextFinding := 0
  rebase := false
  invalidStreak := 0
  weak := false
  invalid := 0
  collided := 0
  dropped := 0

/-- A channel at the release of the reset line (R143): CLEAR, no timer, HUNTING; the carrier low (entry 23). -/
def Channel.reset : Channel where
  carrier := false
  jammed := false
  jamTime := none
  jamClear := none
  idle := 0
  receiver := none

/-- R155 and the first table of chapter 10. -/
def Lc.reset : Lc where
  chA := Channel.reset
  chB := Channel.reset
  mac := .idle
  tx := none
  ownEnd := none
  nextSeq := 0
  listenerSeq := none
  bad := 0
  otherRun := 0
  dropped := 0

/-- R167 and the first table of chapter 11. -/
def Na.reset : Na where
  queue := []
  floor := 0
  floorHold := none
  hush := none
  stateTimer := none
  dump := none
  dropped := 0
  refused := 0
  unknown := 0

/-- R12 at the release of the reset line: LOADING with the configuration read begun (R1, R2), line time 0, the random
source 0 until the end of LOADING (R23), the configuration values of entry 2. -/
def Nc.reset : Nc where
  node := .loading
  cfg := Cfg.default
  now := 0
  rng := 0
  reading := true
  sampled := false
  fresh := 0

/-- The machine right after the release of the reset line (R1; entry 1), with no command waiting. -/
def State.reset : State where
  nc := Nc.reset
  cfe := Cfe.reset
  iw := Iw.reset
  ce := Ce.reset
  ptu := Ptu.reset
  pu := Pu.reset
  ft := Ft.reset
  ec := Ec.reset
  lc := Lc.reset
  na := Na.reset
  pending := []

/-! ## Replacing one block -/

def State.withNc (s : State) (x : Nc) : State := { s with nc := x }
def State.withCfe (s : State) (x : Cfe) : State := { s with cfe := x }
def State.withIw (s : State) (x : Iw) : State := { s with iw := x }
def State.withCe (s : State) (x : Ce) : State := { s with ce := x }
def State.withPtu (s : State) (x : Ptu) : State := { s with ptu := x }
def State.withPu (s : State) (x : Pu) : State := { s with pu := x }
def State.withFt (s : State) (x : Ft) : State := { s with ft := x }
def State.withEc (s : State) (x : Ec) : State := { s with ec := x }
def State.withLc (s : State) (x : Lc) : State := { s with lc := x }
def State.withNa (s : State) (x : Na) : State := { s with na := x }
def State.withPending (s : State) (x : List Instr) : State := { s with pending := x }

end Sys2Proof.Machine
end

