-- ==== Sys2Proof/Machine/Ops.lean ====
section
/-! DEFINITION. Operations shared by every block: arithmetic on times and plain integers (R15, R16, R20 to R22), the
constants in ticks (R17), saturating counters, the random source (R23, R24), and lists with places. -/

namespace Sys2Proof.Machine

open Sys2Proof

/-! ## Times and differences (R15, R16) -/

/-- The difference of two times, reduced into −2^47 … 2^47−1 (R15). -/
def diff (a b : Time) : Int := (a - b).toInt

/-- A time plus a plain integer, reduced as a time (R15). -/
def plus (t : Time) (d : Int) : Time := t + BitVec.ofInt 48 d

/-- The line time has reached the expiry `x` (R17). -/
def reached (now x : Time) : Bool := decide (0 ≤ diff now x)

/-- A timer that runs and has reached its expiry (R17); a timer without an expiry does not run out. -/
def expired (now : Time) (timer : Option Time) : Bool := timer.any (reached now)

/-- `t` is earlier than `u` (R16). -/
def earlier (t u : Time) : Bool := decide (0 < diff u t)

/-- `t` lies in [a, b] (R16). -/
def within (t a b : Time) : Bool := decide (0 ≤ diff t a) && decide (0 ≤ diff b t)

/-! ## Constants in ticks (R17) -/

def perMs : Nat := 800000
def perSecond : Nat := 800000000
def byteTicks : Nat := 25600
def ownGuardTicks : Nat := 80000
def gapTicks : Nat := 160000
def slotTicks : Nat := 320000
/-- In envelope blocks (R45). -/
def maxBurst : Nat := 12500
def jamTimeTicks : Nat := 40000000
def jamClearTicks : Nat := 800000000
def noteWindow : Nat := 80000000
def probeGuard : Nat := 120000000
def floorHoldTicks : Nat := 160000000
def burstNoteLife : Nat := 200000000
def pairHold : Nat := 400000000
def calPeriod : Nat := 48000000000
def calLength : Nat := 2048
/-- 20 ms (R2). -/
def readLimit : Nat := 16000000

/-- PROBE_PERIOD in ticks (R17). -/
def periodTicks (c : Cfg) : Nat := perMs * c.probePeriod
/-- LEG_SPAN (R4). -/
def legSpan (c : Cfg) : Nat := 2 * periodTicks c
/-- SYNC_AGE (R4). -/
def syncAge (c : Cfg) : Nat := 4 * periodTicks c
/-- The neighbour removal time (R4). -/
def removalTicks (c : Cfg) : Nat := 10 * periodTicks c

/-! ## Rounding, clamping, saturation (R22, 00 CONVENTIONS) -/

/-- The nearest end of lo … hi when `x` is outside it. -/
def clampInt (x lo hi : Int) : Int := if x < lo then lo else if hi < x then hi else x

/-- n / d rounded to the nearest integer, halves away from zero; 0 for a zero divisor, which no rule meets. -/
def roundHalfAway (n d : Int) : Int :=
  let m : Nat := (2 * n.natAbs + d.natAbs) / (2 * d.natAbs)
  if decide (n < 0) = decide (d < 0) then m else -(m : Int)

/-- A 16-bit saturating counter after one count. -/
def bump (n : Nat) : Nat := min (n + 1) 65535

/-- A 12-bit converter sample: the nearer end outside −2048 … 2047 (R25). -/
def sample12 (x : Int) : Int := clampInt x (-2048) 2047

/-! ## The two conversions (R20, R21) -/

/-- conv: ticks of one-way travel into decimetres (R20). -/
def conv (vf : Nat) (t : Int) : Int :=
  roundHalfAway (clampInt t (-(2 ^ 31 - 1)) (2 ^ 31 - 1) * vf * 37474) 10000000

/-- ticks: decimetres into ticks of one-way travel (R21). -/
def ticks (vf : Nat) (dm : Int) : Int := roundHalfAway (dm * 10000000) (vf * 37474)

/-! ## The random source (R23, R24) -/

/-- The seed for a NODE_ID (R23): NODE_ID × 16,843,009, a 0 replaced by 1. -/
def seed (nodeId : Nat) : Seed :=
  let x := BitVec.ofNat 32 (nodeId * 16843009)
  if x = 0 then 1 else x

/-- One step of the generator (R23). -/
def rngStep (x : Seed) : Seed :=
  let a := x ^^^ (x <<< 13)
  let b := a ^^^ (a >>> 17)
  b ^^^ (b <<< 5)

/-- The number of bits needed to write N (R24), for N of 1 or more. -/
def bitsFor (n : Nat) : Nat := Nat.log2 n + 1

/-- The rejection loop of R24. The bound is the period of the generator and one more step, within which every nonzero
state, and so every low-bit pattern but at most one, has been met; it is not reached (entry 16). -/
def drawLoop (n : Nat) : Nat → Seed → Nat × Seed
  | 0, x => (0, x)
  | k + 1, x =>
    let y := rngStep x
    let v := y.toNat % 2 ^ bitsFor n
    if v ≤ n then (v, y) else drawLoop n k y

/-- A draw in 0 … n with the generator state it leaves (R24). -/
def draw (n : Nat) (x : Seed) : Nat × Seed := if n = 0 then (0, x) else drawLoop n (2 ^ 32) x

/-- A draw in µs made by the node, in ticks (R24). -/
def drawMicros (n : Nat) (s : State) : Nat × State :=
  let d := draw n s.nc.rng
  (800 * d.1, s.withNc { s.nc with rng := d.2 })

/-! ## Lists with places -/

/-- The entry in place `i` of a table of places. -/
def placed {α : Type} (xs : List (Option α)) (i : Nat) : Option α := (xs[i]?).join

/-- The lowest empty place of a table. -/
def emptyPlace {α : Type} (xs : List (Option α)) : Option Nat := xs.findIdx? (·.isNone)

/-- The occupied entries of a table, in place order. -/
def occupied {α : Type} (xs : List (Option α)) : List α := xs.filterMap id

/-- The places and entries of the occupied places, in place order. -/
def occupiedWithPlace {α : Type} (xs : List (Option α)) : List (Nat × α) :=
  xs.zipIdx.filterMap fun p => p.1.map fun x => (p.2, x)

/-- The index of the member that `better` prefers to every other, the first of equals: `better x y` says that `x` goes
before `y`. -/
def bestIdx {α : Type} (better : α → α → Bool) (ok : α → Bool) (xs : List α) : Option Nat :=
  (xs.zipIdx.foldl
    (fun best p =>
      if ok p.1 then
        match best with
        | none => some p
        | some b => if better p.1 b.1 then some p else some b
      else best) none).map (·.2)

/-- The newest `n` of a list whose newest stands at its end. -/
def keepNewest {α : Type} (n : Nat) (xs : List α) : List α := xs.drop (xs.length - n)

/-! ## Views of the node used by every block -/

/-- The node is RUNNING. -/
def State.isRunning (s : State) : Bool := s.nc.node == .running

/-- The node is CLASHED. -/
def State.isClashed (s : State) : Bool := s.nc.node == .clashed

/-- A hush is in force (R162). -/
def State.hushed (s : State) : Bool := s.na.hush.isSome

/-- "The node is calibrating" (R29). -/
def CalState.isRunning : CalState → Bool
  | .running .. => true
  | _ => false

/-- The probe window is FREE (R34). -/
def Window.isFree : Window → Bool
  | .free => true
  | _ => false

/-- The probe window is CAPTURING (R37). -/
def Window.isCapturing : Window → Bool
  | .capturing .. => true
  | _ => false

/-- The arrival buffer is FREE (R37). -/
def ArrivalBuffer.isFree : ArrivalBuffer → Bool
  | .free => true
  | _ => false

/-- The arrival buffer is CAPTURING (R30). -/
def ArrivalBuffer.isCapturing : ArrivalBuffer → Bool
  | .capturing .. => true
  | _ => false

/-- A slot is FREE (R42). -/
def Slot.isFree : Slot → Bool
  | .free => true
  | _ => false

/-- A slot is FILLING (R30). -/
def Slot.isFilling : Slot → Bool
  | .filling .. => true
  | _ => false

/-- A burst is open (R30, R41). -/
def Detector.isOpen : Detector → Bool
  | .opened _ => true
  | _ => false

/-- A note is a PROBE NOTE. -/
def Content.isProbe : Content → Bool
  | .probe .. => true
  | _ => false

/-- A note is a STATE NOTE. -/
def Content.isState : Content → Bool
  | .state => true
  | _ => false

/-- A note is a page of a dump: a REPLY page that is not a STATE REPLY (R166). -/
def Content.isDumpPage : Content → Bool
  | .reply p => p.sect != .state
  | _ => false

/-- A note is a STATE REPLY (R165). -/
def Content.isStateReply : Content → Bool
  | .reply p => p.sect == .state
  | _ => false

end Sys2Proof.Machine
end

