-- ==== Sys2Proof/Machine/Flags.lean ====
section
/-! DEFINITION. The status lines (R11), the status bits carried in the STATE NOTE (R169), the 16 statistics counters
in the order of R167, and the views of the other blocks' modes. -/

namespace Sys2Proof.Machine

open Sys2Proof

/-- RUN (R11): high in RUNNING only. -/
def State.runLine (s : State) : Bool := s.isRunning

/-- FAULT (R11): high in UNNAMED and CLASHED, and in CALIBRATING and RUNNING when EMITTER_WEAK is set. -/
def State.faultLine (s : State) : Bool :=
  match s.nc.node with
  | .held => false
  | .loading => false
  | .calibrating => s.ec.weak
  | .running => s.ec.weak
  | .unnamed => true
  | .clashed => true

/-- The transmitter is on only in SENDING (R151). -/
def State.transmitting (s : State) : Bool := s.lc.mac == .sending

/-- The engine is BUSY while a job runs (R58). -/
def Ce.busy (c : Ce) : Bool := c.running.isSome

/-- The kind of a job is ECHO. -/
def Job.isEcho : Job → Bool
  | .echo _ => true
  | _ => false

/-- The engine's answer of R73: an ECHO job is waiting or running. -/
def Ce.echoInFlight (c : Ce) : Bool := c.running.any (·.job.isEcho) || c.waiting.any (·.isEcho)

/-- Byte 1 of the STATE layout (R169). -/
def State.statusByte (s : State) : Nat :=
  (if s.hushed then 1 else 0) + (if s.lc.chA.jammed then 2 else 0) + (if s.lc.chB.jammed then 4 else 0)
    + (if s.ec.weak then 8 else 0) + (if s.ec.watching then 16 else 0)

/-- The 16 statistics counters, in the order of the table of R167. -/
def State.counters (s : State) : List Nat :=
  [s.iw.seen, s.iw.untimed, s.iw.evicted, s.pu.pairs, s.pu.handedOn, s.ft.discarded, s.ptu.wasted, s.ptu.discarded,
   s.ec.invalid, s.ec.collided, s.na.dropped, s.lc.dropped, s.lc.bad, s.lc.otherRun, s.na.refused, s.na.unknown]

/-- The eight occupancies of the STATE layout, in its order, with the outbound queue counted as `queued` (R163, R169). -/
def State.occupancies (s : State) (queued : Nat) : List Nat :=
  [s.iw.bursts.length, s.pu.notices.length, (occupied s.ptu.table).length, (occupied s.ft.places).length,
   s.ec.baseline.length, s.ec.candidates.length, s.ec.findings.length, queued]

end Sys2Proof.Machine
end

