-- ==== Sys2Proof/Machine/Correlation.lean ====
section
/-! DEFINITION. The Correlation Engine (chapter 05): the fixed tables it correlates against, the correlation of a job,
the results drawn from it, and the taking and refusing of submissions. -/

namespace Sys2Proof.Machine

open Sys2Proof

/-! ## Sine table, chirp and templates (R32, R33, R62) -/

/-- The 257 fixed entries of the sine table: entry i is 2047 × sin(π i / 512) rounded (R32). -/
def sineTable : List Int :=
  [0, 13, 25, 38, 50, 63, 75, 88, 100, 113, 126, 138, 151, 163, 176, 188] ++
  [201, 213, 226, 238, 251, 263, 275, 288, 300, 313, 325, 338, 350, 362, 375, 387] ++
  [399, 412, 424, 436, 449, 461, 473, 485, 497, 510, 522, 534, 546, 558, 570, 582] ++
  [594, 606, 618, 630, 642, 654, 666, 678, 690, 701, 713, 725, 737, 748, 760, 772] ++
  [783, 795, 807, 818, 830, 841, 852, 864, 875, 887, 898, 909, 920, 932, 943, 954] ++
  [965, 976, 987, 998, 1009, 1020, 1031, 1042, 1052, 1063, 1074, 1085, 1095, 1106, 1116, 1127] ++
  [1137, 1148, 1158, 1168, 1179, 1189, 1199, 1209, 1219, 1229, 1239, 1249, 1259, 1269, 1279, 1289] ++
  [1299, 1308, 1318, 1328, 1337, 1347, 1356, 1365, 1375, 1384, 1393, 1402, 1411, 1421, 1430, 1439] ++
  [1447, 1456, 1465, 1474, 1483, 1491, 1500, 1508, 1517, 1525, 1533, 1542, 1550, 1558, 1566, 1574] ++
  [1582, 1590, 1598, 1606, 1614, 1621, 1629, 1637, 1644, 1652, 1659, 1666, 1674, 1681, 1688, 1695] ++
  [1702, 1709, 1716, 1723, 1729, 1736, 1743, 1749, 1756, 1762, 1769, 1775, 1781, 1787, 1793, 1799] ++
  [1805, 1811, 1817, 1823, 1828, 1834, 1840, 1845, 1850, 1856, 1861, 1866, 1871, 1876, 1881, 1886] ++
  [1891, 1896, 1901, 1905, 1910, 1914, 1919, 1923, 1927, 1932, 1936, 1940, 1944, 1948, 1951, 1955] ++
  [1959, 1962, 1966, 1969, 1973, 1976, 1979, 1983, 1986, 1989, 1992, 1994, 1997, 2000, 2003, 2005] ++
  [2008, 2010, 2012, 2015, 2017, 2019, 2021, 2023, 2025, 2027, 2028, 2030, 2032, 2033, 2035, 2036] ++
  [2037, 2038, 2039, 2040, 2041, 2042, 2043, 2044, 2045, 2045, 2046, 2046, 2046, 2047, 2047, 2047] ++
  [2047]

/-- Entry `i` of the sine table. -/
def sine (i : Nat) : Int := sineTable.getD i 0

/-- The phase of chirp sample n (R33). -/
def chirpPhase (n : Nat) : Nat := (27853 * n + 15 * n * n) % 65536

/-- Chirp sample n, 0 … 255 (R33). -/
def chirpSample (n : Nat) : Int :=
  let j := (chirpPhase n / 64) % 256
  match chirpPhase n / 16384 with
  | 0 => sine j
  | 1 => sine (256 - j)
  | 2 => -sine j
  | _ => -sine (256 - j)

/-- The chirp template: the 256 chirp samples in order (R33, R62). -/
def chirpTemplate : List Int := (List.range 256).map chirpSample

/-- The onset kernel: −1024 sixteen times, then +1024 sixteen times (R62). -/
def onsetKernel : List Int := List.replicate 16 (-1024) ++ List.replicate 16 1024

/-! ## The correlation (R62, R63) -/

/-- The sum of the products of two lists, over the length of the shorter, computed exactly. -/
def dot : List Int → List Int → Int
  | x :: xs, t :: ts => x * t + dot xs ts
  | _, _ => 0

/-- The accumulators of the lags 0 … lags − 1 (R62). -/
def correlate (input template : List Int) (lags : Nat) : List Int :=
  (List.range lags).map fun k => dot (input.drop k) template

/-- A sample rectified against an offset, clamped to 2047 (R40, R62). -/
def rectify (offset x : Int) : Nat := min (x - offset).natAbs 2047

/-- The output of one accumulator at shift S (R63). -/
def narrow (shift : Nat) (acc : Int) : Int := clampInt (acc / 2 ^ shift) (-32768) 32767

/-- The clamp changed the output (R63). -/
def isClamped (shift : Nat) (acc : Int) : Bool := narrow shift acc != acc / 2 ^ shift

/-- The number of lags of a job (R58, table of JOBS AND THE QUEUE). -/
def Job.lags : Job → Nat
  | .burst .. => 481
  | .arrival .. => 257
  | .echo _ => 1793

/-- The pass time of a job, in ticks (R60, table of JOBS AND THE QUEUE). -/
def Job.passTicks : Job → Nat
  | .burst .. => 2400
  | .arrival .. => 8000
  | .echo _ => 57600

/-- The template of a job (R62). -/
def Job.template : Job → List Int
  | .burst .. => onsetKernel
  | .arrival .. => chirpTemplate
  | .echo _ => chirpTemplate

/-- The samples of a slot, none for a slot that holds nothing. -/
def Slot.samples : Slot → List Int
  | .free => []
  | .filling _ _ xs => xs
  | .job _ _ xs => xs

/-- The samples of the arrival buffer. -/
def ArrivalBuffer.samples : ArrivalBuffer → List Int
  | .free => []
  | .capturing _ _ xs => xs
  | .held _ _ xs => xs

/-- The samples of the probe window. -/
def Window.samples : Window → List Int
  | .free => []
  | .capturing _ xs => xs
  | .held _ xs => xs

/-- The input of a job: the rectified samples of its slot, or its buffer's samples raw (R62). -/
def jobInput (s : State) : Job → List Int
  | .burst slot _ offset => ((s.iw.slots.getD slot .free).samples).map fun x => (rectify offset x : Int)
  | .arrival .. => s.cfe.arrival.samples
  | .echo _ => s.cfe.window.samples

/-- The accumulators of every lag of a job (R62). -/
def jobAccs (s : State) (j : Job) : List Int := correlate (jobInput s j) j.template j.lags

/-! ## Peak and interpolation (R64, R65) -/

/-- The smallest index of the greatest member (R64). -/
def greatestIdx (ys : List Int) : Nat := (bestIdx (fun a b => decide (b < a)) (fun _ => true) ys).getD 0

/-- The magnitudes of the outputs. -/
def magnitudes (ys : List Int) : List Int := ys.map fun y => (y.natAbs : Int)

/-- The interpolation step q at lag k (R65). -/
def interpolate (ys : List Int) (k : Nat) : Int :=
  let a := ys.getD (k - 1) 0
  let b := ys.getD k 0
  let c := ys.getD (k + 1) 0
  let den := a - 2 * b + c
  if k = 0 ∨ ys.length ≤ k + 1 ∨ den = 0 then 0 else clampInt (roundHalfAway (2 * (a - c)) den) (-2) 2

/-- The time of lag k in ticks from the first sample (R65). -/
def lagTicks (ys : List Int) (k : Nat) : Int := 4 * k + interpolate ys k

/-! ## BURST TIMING results (R66, R67) -/

/-- The fine onset (R66). -/
def fineOnset (start : Time) (ys : List Int) : Time :=
  let k := greatestIdx ys
  plus start (4 * (k + 16) + interpolate ys k)

/-- The greatest of a list of magnitudes, 0 for none. -/
def greatest (xs : List Nat) : Nat := xs.foldl max 0

/-- The 16 group maxima of the rectified samples 128 … 511 (R67). -/
def groupMaxima (rectified : List Nat) : List Nat :=
  (List.range 16).map fun i => greatest ((rectified.drop (128 + 24 * i)).take 24)

/-- The signature of a snapshot (R67). -/
def signatureOf (rectified : List Nat) : List Nat :=
  let vs := groupMaxima rectified
  let vmax := greatest vs
  vs.map fun v => if vmax = 0 then 0 else v * 255 / vmax

/-! ## ARRIVAL results (R68, R69) -/

/-- Lag j is a local maximum of the magnitudes (R69). -/
def isLocalMax (zs : List Int) (j : Nat) : Bool :=
  (j == 0 || decide (zs.getD (j - 1) 0 ≤ zs.getD j 0)) &&
    (decide (zs.length ≤ j + 1) || decide (zs.getD (j + 1) 0 ≤ zs.getD j 0))

/-- The quality of an ARRIVAL result is GOOD (R69). -/
def isGood (ys : List Int) : Bool :=
  let zs := magnitudes ys
  let k := greatestIdx zs
  let p := zs.getD k 0
  decide (0 < p) &&
    (List.range zs.length).all fun j =>
      !(isLocalMax zs j && decide (4 < ((j : Int) - k).natAbs)) || decide (2 * zs.getD j 0 ≤ p)

/-- The result record of a BURST TIMING job (R66): its slot, the S of the last pass, the SATURATED flag, and fine onset
and signature when the flag is clear. -/
structure TimingResult where
  slot : Nat
  shift : Nat
  saturated : Bool
  timing : Option (Time × List Nat)
  deriving DecidableEq, Repr

/-- The result record of an ARRIVAL job (R68): capture start C, trigger time T, the S of the last pass, the SATURATED
flag, and the arrival time of a GOOD result, none for OVERLAPPED. -/
structure ArrivalResult where
  start : Time
  trigger : Time
  shift : Nat
  saturated : Bool
  good : Option Time
  deriving DecidableEq, Repr

/-- The arrival time of a GOOD result, none for OVERLAPPED (R68, R69). -/
def arrivalTime (saturated : Bool) (c : Time) (ys : List Int) : Option Time :=
  if !saturated && isGood ys then some (plus c (lagTicks ys (greatestIdx (magnitudes ys)))) else none

/-! ## ECHO results (R70 to R72) -/

/-- The result record of an ECHO job, its profile (R72): emission time E, the S of the last pass, the SATURATED flag, the
main peak M0, the validity, the COLLIDED flag and the marks. -/
structure Profile where
  emission : Time
  shift : Nat
  saturated : Bool
  mainPeak : Nat
  valid : Bool
  collided : Bool
  marks : List Mark
  deriving DecidableEq, Repr

/-- The main peak M0 (R70). -/
def mainPeak (ys : List Int) : Nat := greatest ((ys.take 4).map Int.natAbs)

/-- The magnitude of lag k in q units (R71). -/
def markQ (ys : List Int) (k : Nat) : Nat := min 255 ((ys.getD k 0).natAbs * 256 / mainPeak ys)

/-- Lag k is a mark (R71). -/
def isMark (floor : Nat) (ys : List Int) (k : Nat) : Bool :=
  let y := fun i => (ys.getD i 0).natAbs
  decide (8 ≤ k) && decide (k < 1792) && decide (y (k - 1) ≤ y k) && decide (y (k + 1) < y k) &&
    decide (floor ≤ markQ ys k)

/-- The mark record of lag k (R71). -/
def markAt (vf : Nat) (ys : List Int) (k : Nat) : Mark where
  distance := (conv vf (lagTicks ys k) / 2).toNat
  q := markQ ys k
  positive := decide (0 < ys.getD k 0)

/-- Every mark of the outputs, in order of lag and so of distance (R71, R72). -/
def allMarks (cfg : Cfg) (ys : List Int) : List Mark :=
  ((List.range ys.length).filter (isMark cfg.echoFloor ys)).map (markAt cfg.vf ys)

/-- One mark dropped: the one of lowest magnitude, of several the one of greatest distance (R72). -/
def dropWeakest (ms : List Mark) : List Mark :=
  match bestIdx (fun a b => decide (a.q < b.q) || (a.q == b.q && decide (b.distance < a.distance))) (fun _ => true) ms with
  | some i => ms.eraseIdx i
  | none => ms

/-- Marks dropped one at a time, `n` times (R72). -/
def dropMarks : Nat → List Mark → List Mark
  | 0, ms => ms
  | n + 1, ms => dropMarks n (dropWeakest ms)

/-- The result record of an ECHO job's last pass (R70 to R72). -/
def profileOf (cfg : Cfg) (e : Time) (saturated : Bool) (shift : Nat) (ys : List Int) : Profile :=
  let m0 := mainPeak ys
  if saturated || decide (m0 * 2 ^ shift < 2 ^ 18) then ⟨e, shift, saturated, m0, false, false, []⟩
  else
    let found := allMarks cfg ys
    ⟨e, shift, saturated, m0, true, found.any fun m => decide (128 ≤ m.q), dropMarks (found.length - 32) found⟩

/-! ## Taking a submission (R59) -/

/-- The running record of a job's first pass (R59). -/
def Job.start (j : Job) (now : Time) : Running := ⟨j, 1, 8, plus now j.passTicks⟩

/-- A submission: the engine with the job taken, or none when it is refused because the queue is full (R59). -/
def Ce.submit (c : Ce) (now : Time) (j : Job) : Option Ce :=
  match c.running with
  | none => some { c with running := some (j.start now) }
  | some _ => if c.waiting.length < 4 then some { c with waiting := c.waiting ++ [j] } else none

/-- The engine after a DONE: the oldest waiting job runs, or the engine is IDLE (R60). -/
def Ce.advance (c : Ce) (now : Time) : Ce :=
  match c.waiting with
  | [] => ⟨none, []⟩
  | j :: js => ⟨some (j.start now), js⟩

/-- The next pass of the running job (R60, R63). -/
def Running.again (r : Running) (now : Time) : Running :=
  { r with pass := r.pass + 1, shift := r.shift + 4, endsAt := plus now r.job.passTicks }

end Sys2Proof.Machine
end

