-- ==== Sys2Proof/Machine/Operands.lean ====
section
/-! DEFINITION. The operands of the commands: the 64 bytes of the configuration block (R2, R3, R172) and the bytes of
a frame (R168 to R171). -/

namespace Sys2Proof.Machine

open Sys2Proof

/-! ## Bytes and fields (R170) -/

/-- The number a run of bytes spells, most significant byte first (R170). -/
def beNat (bs : Bytes) : Nat := bs.foldl (fun n b => n * 256 + b.toNat) 0

/-- The field of `size` bytes at `offset`. -/
def fieldBytes (bs : Bytes) (offset size : Nat) : Bytes := (bs.drop offset).take size

/-- The number in the field of `size` bytes at `offset`. -/
def field (bs : Bytes) (offset size : Nat) : Nat := beNat (fieldBytes bs offset size)

/-- The time in the six bytes at `offset`. -/
def timeField (bs : Bytes) (offset : Nat) : Time := BitVec.ofNat 48 (field bs offset 6)

/-- The byte at `offset`, 0 beyond the end. -/
def byteAt (bs : Bytes) (offset : Nat) : Byte := bs.getD offset 0

/-- A number in `size` bytes, most significant byte first, clamped to the field's range (R170). -/
def beBytes (size n : Nat) : Bytes :=
  let v := min n (256 ^ size - 1)
  (List.range size).map fun i => BitVec.ofNat 8 (v / 256 ^ (size - 1 - i))

/-- A signed number in `size` bytes of two's complement, clamped to the field's range (R170). -/
def signedBytes (size : Nat) (x : Int) : Bytes :=
  let v := clampInt x (-(2 ^ (8 * size - 1))) (2 ^ (8 * size - 1) - 1)
  beBytes size (v % 2 ^ (8 * size)).toNat

/-- A time in six bytes (R170). -/
def timeBytes (t : Time) : Bytes := beBytes 6 t.toNat

/-- One byte of a number, clamped (R170). -/
def oneByte (n : Nat) : Byte := BitVec.ofNat 8 (min n 255)

/-! ## The configuration block (R2 to R4, R172) -/

/-- The read transaction of R2, in order: what the part, the only master, puts on the two lines or waits for. -/
inductive BusOp where
  | start | sendByte (b : Byte) | repeatedStart | receiveByte (acknowledge : Bool) | stop
  deriving DecidableEq, Repr

/-- The one transaction in which the configuration block is read (R2); the device address is 1010000. -/
def configTransaction : List BusOp :=
  [.start, .sendByte 0xA0, .sendByte 0, .repeatedStart, .sendByte 0xA1] ++
    List.replicate 63 (.receiveByte true) ++ [.receiveByte false, .stop]

/-- The first two bytes are the marker, 198 and 41 (R172). -/
def hasMarker (block : Bytes) : Bool := byteAt block 0 == 198 && byteAt block 1 == 41

/-- Every byte of a field reads 255 (R3). -/
def isErased (block : Bytes) (offset size : Nat) : Bool := (fieldBytes block offset size).all (· == 255)

/-- A field with a default: the default when erased, else clamped into its range (R3). -/
def clampedField (block : Bytes) (offset size lo hi default_ : Nat) : Nat :=
  if isErased block offset size then default_ else max lo (min hi (field block offset size))

/-- DUAL (R3): erased takes the default 1; 0 is 0 and any other value becomes 1. -/
def dualField (block : Bytes) : Bool := byteAt block 33 != 0

/-- STATE_PERIOD (R3): 0 stays 0, 1 to 4 become 5. -/
def statePeriodField (block : Bytes) : Nat :=
  if isErased block 34 2 then 60 else if field block 34 2 = 0 then 0 else max 5 (min 3600 (field block 34 2))

/-- The configuration values with the marker present (R3, R4, R172). -/
def loadCfg (block : Bytes) : Cfg :=
  let upper := clampedField block 10 2 1 2047 300
  { nodeId := field block 2 1
    runNo := field block 3 1
    position := field block 4 2
    vf := clampedField block 6 2 600 950 870
    probePeriod := clampedField block 8 2 250 4000 1000
    upperTh := upper
    lowerTh := min (clampedField block 12 2 0 2047 200) upper
    confirmN := clampedField block 14 1 0 15 3
    probeTh := clampedField block 15 2 1 2047 256
    pairMargin := clampedField block 17 2 0 500 40
    sigLimit := clampedField block 19 2 0 4080 600
    mergeRadius := clampedField block 21 2 10 1000 60
    announceCount := clampedField block 23 1 1 32 3
    fixAge := clampedField block 24 2 10 3600 600
    echoFloor := clampedField block 26 1 1 127 8
    markMatch := clampedField block 27 1 5 200 20
    persist := clampedField block 28 1 1 15 3
    growStep := clampedField block 29 1 1 127 24
    baseRuns := clampedField block 30 1 1 16 4
    posTol := clampedField block 31 2 10 500 50
    dual := dualField block
    statePeriod := statePeriodField block
    levelBurst := clampedField block 36 1 0 6 6
    levelFix := clampedField block 37 1 0 6 5
    levelEcho := clampedField block 38 1 0 6 4
    levelReply := clampedField block 39 1 0 6 3
    levelState := clampedField block 40 1 0 6 1 }

/-- The configuration values NC settles when the read ends (table of R2). -/
def settledCfg : ReadOutcome → Cfg
  | .notAcknowledged _ => Cfg.default
  | .complete block => if hasMarker block then loadCfg block else Cfg.default

/-- The read leaves the node with an identity: marker present and NODE_ID 1 … 254 (table of R2). -/
def readNames : ReadOutcome → Bool
  | .notAcknowledged _ => false
  | .complete block => hasMarker block && decide (1 ≤ field block 2 1) && decide (field block 2 1 ≤ 254)

/-- The outcome is one a read can have: a completed read gives 64 bytes (R2). -/
def readPossible : ReadOutcome → Bool
  | .notAcknowledged _ => true
  | .complete block => block.length == 64

/-! ## CRC (R171) -/

/-- One bit of the CRC (R171). -/
def crcBit (r : BitVec 16) (bit : Bool) : BitVec 16 :=
  if r.msb != bit then (r <<< 1) ^^^ 4129 else r <<< 1

/-- One byte of the CRC, from bit 7 to bit 0 (R171). -/
def crcByte (r : BitVec 16) (b : Byte) : BitVec 16 :=
  [7, 6, 5, 4, 3, 2, 1, 0].foldl (fun r i => crcBit r (b.getLsbD i)) r

/-- The CRC of the header and payload bytes (R171). -/
def crc (bs : Bytes) : BitVec 16 := bs.foldl crcByte 65535

/-! ## Frames (R168, R169) -/

/-- A frame as the acceptance reads it: the header fields and the payload (R168). -/
structure Frame where
  run : Nat
  kind : Nat
  level : Nat
  sender : Nat
  seq : Byte
  pos : Nat
  payload : Bytes
  deriving DecidableEq, Repr

/-- LEN of a header (R168). -/
def frameLen (bs : Bytes) : Nat := (byteAt bs 6).toNat

/-- The bytes from the header on are a whole frame: LEN of at most 96 and as many bytes as it calls for (R144). -/
def frameComplete (bs : Bytes) : Bool :=
  decide (7 ≤ bs.length) && decide (frameLen bs ≤ 96) && bs.length == frameLen bs + 9

/-- The frame in a run of bytes (R168). -/
def parseFrame (bs : Bytes) : Frame where
  run := (byteAt bs 0).toNat
  kind := (byteAt bs 1).toNat / 16
  level := (byteAt bs 1).toNat / 2 % 8
  sender := (byteAt bs 2).toNat
  seq := byteAt bs 3
  pos := field bs 4 2
  payload := fieldBytes bs 7 (frameLen bs)

/-- The CRC of a whole frame agrees (R145, R171). -/
def crcAgrees (bs : Bytes) : Bool :=
  (crc (bs.take (bs.length - 2))).toNat == beNat (bs.drop (bs.length - 2))

/-- The size of an entry of a REPLY page by section number (R169). -/
def entrySize : Nat → Option Nat
  | 1 => some 25
  | 2 => some 14
  | 3 => some 18
  | 4 => some 45
  | _ => none

/-- The payload length is the length the KIND gives, from the frame's own count bytes (R145, R168, R171). -/
def kindLengthOk (kind : Nat) (p : Bytes) : Bool :=
  match kind with
  | 1 => decide (8 ≤ p.length) && decide ((byteAt p 7).toNat ≤ 11) && p.length == 8 + 8 * (byteAt p 7).toNat
  | 2 => p.length == 28
  | 3 => p.length == 25
  | 4 => p.length == 14
  | 5 => p.length == 45
  | 6 =>
    let sect := (byteAt p 0).toNat % 128
    decide (4 ≤ p.length) &&
      match entrySize sect with
      | some size => if sect = 4 then p.length == 49 else p.length == 4 + (byteAt p 2).toNat * size
      | none => false
  | 8 => p.length == 4
  | _ => false

/-- A PROBE payload (R169). -/
structure ProbePayload where
  number : Byte
  emission : Time
  heard : List Heard
  deriving DecidableEq, Repr

/-- Entry i of a PROBE payload's heard list (R169). -/
def heardEntry (p : Bytes) (i : Nat) : Heard :=
  ⟨(byteAt p (8 + 8 * i)).toNat, byteAt p (9 + 8 * i), timeField p (10 + 8 * i)⟩

/-- The PROBE payload (R169). -/
def probePayload (p : Bytes) : ProbePayload where
  number := byteAt p 0
  emission := timeField p 1
  heard := (List.range (byteAt p 7).toNat).map (heardEntry p)

/-- What the node reads of a BURST payload (R170): number, LONG flag, onset, signature. -/
structure BurstPayload where
  number : Byte
  long : Bool
  onset : Time
  signature : List Nat
  deriving DecidableEq, Repr

/-- The BURST payload (R169, R170). -/
def burstPayload (p : Bytes) : BurstPayload where
  number := byteAt p 0
  long := (byteAt p 1).getLsbD 0
  onset := timeField p 2
  signature := (fieldBytes p 12 16).map (·.toNat)

/-- A COMMAND payload (R169). -/
structure CommandPayload where
  target : Nat
  code : Nat
  argument : Nat
  deriving DecidableEq, Repr

/-- The COMMAND payload (R169). -/
def commandPayload (p : Bytes) : CommandPayload where
  target := (byteAt p 0).toNat
  code := (byteAt p 1).toNat
  argument := field p 2 2

end Sys2Proof.Machine
end

