-- ==== Sys2Proof/Machine/Layouts.lean ====
section
/-! DEFINITION. What the node sends: the payload of every note, the entries and pages of a dump, and the frame on air
(R166, R168 to R171). -/

namespace Sys2Proof.Machine

open Sys2Proof

/-! ## Entries (R169) -/

/-- The kind byte of a fix (R169). -/
def FixKind.code : FixKind → Nat
  | .inside => 1
  | .beyondLow => 2
  | .beyondHigh => 3

/-- The kind byte of a finding (R169). -/
def FindKind.code : FindKind → Nat
  | .new => 1
  | .grown => 2
  | .gone => 3

/-- The state bits of a neighbour entry (R169). -/
def PeerState.code : PeerState → Nat
  | .heard => 0
  | .synced => 1
  | .stale => 2
  | .doubtful => 3

/-- The section number (R164). -/
def Section.code : Section → Nat
  | .fixes => 1
  | .findings => 2
  | .neighbours => 3
  | .state => 4

/-- A fix entry, also the FIX NOTE payload (R169). -/
def fixEntry (f : Fix) : Bytes :=
  [f.number, oneByte f.kind.code, oneByte f.upperId, oneByte f.count] ++
    beBytes 2 f.centre.toNat ++ beBytes 2 f.low.toNat ++ beBytes 2 f.high.toNat ++
    timeBytes f.firstSeen ++ timeBytes f.lastSeen ++
    (match f.corroboration with
    | some c => oneByte c.kind.code :: beBytes 2 c.position
    | none => [0, 0, 0])

/-- A finding entry, also the ECHO NOTE payload (R169). -/
def findingEntry (f : Finding) : Bytes :=
  [f.number, oneByte f.kind.code] ++ beBytes 2 f.position ++ beBytes 2 f.distance ++
    [oneByte (f.before.getD 0), oneByte (f.after.getD 0)] ++ timeBytes f.confirmed

/-- A neighbour entry (R169). -/
def neighbourEntry (n : Neighbour) : Bytes :=
  [oneByte n.id,
   oneByte (n.state.code + (if n.distance.isSome then 4 else 0) + (if n.sync.isSome then 8 else 0)
    + (if n.rate.isSome then 16 else 0))] ++
    beBytes 2 n.position ++ beBytes 2 (n.distance.getD 0) ++
    signedBytes 6 ((n.sync.map (·.theta)).getD 0) ++ signedBytes 4 (n.rate.getD 0) ++ beBytes 2 n.exchanges

/-- A heard entry of a PROBE payload (R169). -/
def heardBytes (h : Heard) : Bytes := [oneByte h.peer, h.number] ++ timeBytes h.arrival

/-- The 45 bytes of the STATE layout, with the outbound queue counted as `queued` (R163, R169). -/
def stateBody (s : State) (queued : Nat) : Bytes :=
  [2, oneByte s.statusByte, oneByte (s.ptu.partner.getD 0)] ++ (s.occupancies queued).map oneByte ++
    beBytes 2 s.ec.dropped ++ s.counters.flatMap (beBytes 2)

/-! ## Dump pages (R166) -/

/-- The table of a section as indices and entry bytes, in index order (R166). -/
def sectionEntries (s : State) : Section → List (Nat × Bytes)
  | .fixes => (occupiedWithPlace s.ft.places).map fun p => (p.1, fixEntry p.2)
  | .neighbours => (occupiedWithPlace s.ptu.table).map fun p => (p.1, neighbourEntry p.2)
  | .findings => s.ec.findings.zipIdx.map fun p => (p.2, findingEntry p.1)
  | .state => []

/-- Entries per page (R166). -/
def perPage : Section → Nat
  | .fixes => 3
  | .neighbours => 5
  | .findings => 6
  | .state => 1

/-- The page of a dump built now, and the next index after it (R166). -/
def buildPage (s : State) (d : Dump) : Page × Nat :=
  let all := sectionEntries s d.sect
  let taken := (all.filter fun p => decide (d.next ≤ p.1)).take (perPage d.sect)
  let next := (taken.getLast?.map fun p => p.1 + 1).getD d.next
  let last := !(all.any fun p => decide (next ≤ p.1))
  let first := (taken.head?.map (·.1)).getD d.next
  (⟨d.sect, last,
    [oneByte (d.sect.code + if last then 128 else 0), oneByte first, oneByte taken.length, oneByte all.length] ++
      taken.flatMap (·.2)⟩, next)

/-- The STATE REPLY page (R165, R169); the page itself is counted in the queue (entry 15). -/
def stateReply (s : State) : Page :=
  ⟨.state, true, [132, 0, 1, 1] ++ stateBody s (min 16 (s.na.queue.length + 1))⟩

/-! ## Notes and frames (R151, R168) -/

/-- The KIND of a note's frame (R168). -/
def Content.kind : Content → Nat
  | .probe .. => 1
  | .burst _ => 2
  | .fix .. => 3
  | .echo _ => 4
  | .state => 5
  | .reply _ => 6

/-- The payload of a BURST NOTE (R169). -/
def burstBytes (b : BurstNote) : Bytes :=
  [b.number, if b.long then 1 else 0] ++ timeBytes b.onset ++ beBytes 2 b.peak ++ beBytes 2 b.duration ++
    (List.range 16).map fun i => oneByte (b.signature.getD i 0)

/-- The payload of a note as it stands (R151, R169). -/
def payloadOf (s : State) : Content → Bytes
  | .probe number e heard =>
    [number] ++ timeBytes e ++ [oneByte heard.length] ++ heard.flatMap heardBytes
  | .burst b => burstBytes b
  | .fix _ image => fixEntry image
  | .echo f => findingEntry f
  | .state => stateBody s s.na.queue.length
  | .reply p => p.payload

/-- The header and payload of a frame (R151, R168). -/
def headerAndPayload (cfg : Cfg) (seq : Byte) (kind level : Nat) (payload : Bytes) : Bytes :=
  [oneByte cfg.runNo, oneByte (kind * 16 + level * 2), oneByte cfg.nodeId, seq] ++ beBytes 2 cfg.position ++
    [oneByte payload.length] ++ payload

/-- Bytes with their CRC appended, high byte first (R171). -/
def withCrc (bs : Bytes) : Bytes := bs ++ beBytes 2 (crc bs).toNat

/-- The whole frame of a note, preamble and sync first (R168). -/
def frameOf (s : State) (n : Note) : Bytes :=
  [170, 170, 147, 11] ++ withCrc (headerAndPayload s.nc.cfg s.lc.nextSeq n.content.kind n.level (payloadOf s n.content))

end Sys2Proof.Machine
end

