-- ==== Sys2Proof/Machine/Sending.lean ====
section
/-! DEFINITION. The outbound queue, the choice of the next note, pre-emption, and the MAC (R149 to R161), with the
emission conditions of the probe schedule (R75, R77), which the leaving of a note can clear. -/

namespace Sys2Proof.Machine

open Sys2Proof

/-! ## The emission conditions (R75, R77) -/

/-- Which of the five emission conditions of R75 fail. -/
def failing (s : State) : Failing where
  hushed := !s.isRunning || s.hushed
  note := s.na.queue.any (·.content.isProbe)
  window := !s.cfe.window.isFree
  guard := s.ptu.guard.isSome
  calibrating := s.cfe.cal.isRunning

/-- Some condition fails. -/
def Failing.any (f : Failing) : Bool := f.hushed || f.note || f.window || f.guard || f.calibrating

/-- The conditions that fail in both. -/
def Failing.and (f g : Failing) : Failing where
  hushed := f.hushed && g.hushed
  note := f.note && g.note
  window := f.window && g.window
  guard := f.guard && g.guard
  calibrating := f.calibrating && g.calibrating

/-- The probe schedule passes to SETTLING with a settle delay drawn in 0 … PROBE_GUARD (R76, R77). -/
def settle (s : State) : State :=
  let d := drawMicros 150000 s
  d.2.withPtu { d.2.ptu with schedule := .settling (plus s.nc.now d.1) }

/-- R77: a condition has ceased to hold; a BLOCKED schedule none of whose failed conditions still fails passes to
SETTLING (entry 12). -/
def unblock (s : State) : State :=
  match s.ptu.schedule with
  | .blocked w => if (w.and (failing s)).any then s else settle s
  | _ => s

/-! ## Taking a note into the queue (R156, R157) -/

/-- What became of an offered note (R156, R157). -/
inductive Offered where
  | taken
  | replaced (victim : Note)
  | refused
  deriving DecidableEq, Repr

/-- A new note record, queued now (R156). -/
def newNote (now : Time) (c : Content) (level : Nat) (deadline : Option Time) : Note :=
  ⟨c, level, now, deadline, none, false⟩

/-- The place of the note that a note of `level` replaces on a full queue (R157). -/
def victimIdx (level : Nat) (q : List Note) : Option Nat :=
  bestIdx (fun x y => earlier x.enqueued y.enqueued || (x.enqueued == y.enqueued && decide (x.level < y.level)))
    (fun n => !n.inFlight && decide (n.level < level)) q

/-- The queue with an offered note, and what became of the note (R156, R157). -/
def enqueue (n : Note) (a : Na) : Offered × Na :=
  if a.queue.length < 16 then (.taken, { a with queue := a.queue ++ [n] })
  else
    match victimIdx n.level a.queue with
    | none => (.refused, { a with dropped := bump a.dropped })
    | some i =>
      match a.queue[i]? with
      | none => (.refused, { a with dropped := bump a.dropped })
      | some v => (.replaced v, { a with queue := a.queue.eraseIdx i ++ [n], dropped := bump a.dropped })

/-- The next page of a dump is built and offered; a page refused ends the dump (R166). -/
def startPage (d : Dump) (s : State) : State :=
  let b := buildPage s d
  let r := enqueue (newNote s.nc.now (.reply b.1) s.nc.cfg.levelReply none) s.na
  match r.1 with
  | .refused => s.withNa { r.2 with dump := none }
  | .taken => s.withNa { r.2 with dump := some { d with next := b.2 } }
  | .replaced _ => s.withNa { r.2 with dump := some { d with next := b.2 } }

/-- A page of a dump has left the queue sent, dropped or replaced: the next page is built, or the dump returns to
IDLE after the last (R166). All three callers do this before the MAC chooses (entry 32, DESIGN CHOICE). -/
def pageGone (p : Page) (s : State) : State :=
  match s.na.dump with
  | none => s
  | some d => if p.last then s.withNa { s.na with dump := none } else startPage d s

/-- What follows the leaving of a note from the queue: a PROBE NOTE clears a failing condition (R77), a dump page
leads to the next (R166). -/
def noteGone (c : Content) (s : State) : State :=
  match c with
  | .probe .. => unblock s
  | .reply p => if p.sect = .state then s else pageGone p s
  | _ => s

/-! ## The note in flight -/

/-- The note in flight. -/
def Na.flight (a : Na) : Option Note := a.queue.find? (·.inFlight)

/-- The queue with the note in flight changed. -/
def Na.setFlight (a : Na) (f : Note → Note) : Na :=
  { a with queue := a.queue.map fun n => if n.inFlight then f n else n }

/-- The queue without the note in flight. -/
def Na.dropFlight (a : Na) : Na := { a with queue := a.queue.filter fun n => !n.inFlight }

/-- The link record of a note newly taken (R149). -/
def Link.fresh : Link := ⟨none, 0, 0, 2, none⟩

/-- The MAC in state `m`. -/
def State.setMac (s : State) (m : Mac) : State := s.withLc { s.lc with mac := m }

/-- The channel of a name. -/
def Lc.channel (l : Lc) : ChanId → Channel
  | .a => l.chA
  | .b => l.chB

/-- A channel replaced. -/
def Lc.setChannel (l : Lc) (c : ChanId) (x : Channel) : Lc :=
  match c with
  | .a => { l with chA := x }
  | .b => { l with chB := x }

/-- The choice of R149: A if CLEAR and not spent, else B if used, CLEAR and not spent, else none. -/
def channelChoice (s : State) (l : Link) : Option ChanId :=
  if !s.lc.chA.jammed && decide (l.collA < 6) then some .a
  else if s.nc.cfg.dual && !s.lc.chB.jammed && decide (l.collB < 6) then some .b
  else none

/-- Either channel is spent for the note (R149). -/
def Link.spent (l : Link) : Bool := decide (6 ≤ l.collA) || decide (6 ≤ l.collB)

/-- The link record on the chosen channel: another channel sets e to 2 and clears the remaining backoff (R149). -/
def Link.on (l : Link) (c : ChanId) : Link :=
  if l.channel = some c then l else { l with channel := some c, e := 2, remaining := none }

/-- The MAC holds the note in flight, its remaining backoff cleared (R149, R154). -/
def hold (s : State) : State :=
  (s.withNa (s.na.setFlight fun n => { n with link := n.link.map fun l => { l with remaining := none } })).setMac .held

/-- The note in flight is dropped (R153). When it is a dump page, the next page is offered here, before the MAC, IDLE
again, chooses (entry 32, DESIGN CHOICE: R158 allows either order). -/
def dropNote (n : Note) (s : State) : State :=
  let s1 := (s.withNa s.na.dropFlight).withLc { s.lc with mac := .idle, dropped := bump s.lc.dropped }
  noteGone n.content s1

/-- The channel choice for the note in flight, and what follows it (R149, R153, R154). In a hush a channel found leaves the
note HELD; with none found and one spent the note is dropped at once, after a collision too (entry 34, DESIGN CHOICE: R149,
R152 and R153 drop it, the table of R154 says HELD if collided). -/
def chooseChannel (s : State) : State :=
  match s.na.flight with
  | none => s
  | some n =>
    let l := n.link.getD Link.fresh
    match channelChoice s l with
    | some c =>
      if s.hushed then hold s
      else (s.withNa (s.na.setFlight fun n => { n with link := some (l.on c) })).setMac .defer
    | none => if l.spent then dropNote n s else hold s

/-! ## Choice of a note and pre-emption (R158, R160) -/

/-- A queued note is eligible (R158). -/
def eligible (floor : Nat) (n : Note) : Bool := n.content.isProbe || decide (floor < n.level)

/-- The place of the note R158 chooses among those not in flight. -/
def chosenIdx (a : Na) : Option Nat :=
  bestIdx (fun x y => decide (y.level < x.level) || (x.level == y.level && earlier x.enqueued y.enqueued))
    (fun n => !n.inFlight && eligible a.floor n) a.queue

/-- The note in place `i` becomes the note in flight, with its link record or a new one (R149, R154). -/
def takeNote (i : Nat) (s : State) : State :=
  chooseChannel (s.withNa { s.na with
    queue := s.na.queue.modify i fun n => { n with inFlight := true, link := some (n.link.getD Link.fresh) } })

/-- The note in flight is pre-empted while in DEFER or BACKOFF (R160). -/
def mustPreempt (s : State) : Bool :=
  match s.na.flight with
  | none => false
  | some n =>
    (!n.content.isProbe && decide (n.level ≤ s.na.floor)) ||
      s.na.queue.any fun q => !q.inFlight && eligible s.na.floor q && decide (n.level < q.level)

/-- The note in flight returns to the queue with its link record, its remaining backoff cleared (R154, R160). -/
def preempt (s : State) : State :=
  (s.withNa (s.na.setFlight fun n =>
    { n with inFlight := false, link := n.link.map fun l => { l with remaining := none } })).setMac .idle

/-- The MAC takes the next note when IDLE, and gives up a pre-empted one, until neither applies (R149, R158, R160).
Each round but the last takes a note whose channels are spent, which is dropped, or returns one pre-empted, so the
bound is not reached by a queue of 16. -/
def serveLoop : Nat → State → State
  | 0, s => s
  | k + 1, s =>
    match s.lc.mac with
    | .idle =>
      if s.isRunning && !s.hushed then
        match chosenIdx s.na with
        | some i => serveLoop k (takeNote i s)
        | none => s
      else s
    | .defer => if mustPreempt s then serveLoop k (preempt s) else s
    | .backoff => if mustPreempt s then serveLoop k (preempt s) else s
    | .sending => s
    | .held => s

/-- The MAC and the Note Arbiter after an event that can change either's choice. -/
def serve (s : State) : State := serveLoop 40 s

/-- A note offered by a block: taken only while RUNNING (R156), on a full queue by R157; the MAC may take it at once
(R158) or give up its own for it (R160), what the leaving of a note replaced brings coming first (entry 32, DESIGN
CHOICE). -/
def offer (c : Content) (level : Nat) (deadline : Option Time) (s : State) : State :=
  if s.isRunning then
    let r := enqueue (newNote s.nc.now c level deadline) s.na
    let s1 := s.withNa r.2
    match r.1 with
    | .taken => serve s1
    | .refused => s1
    | .replaced v => serve (noteGone v.content s1)
  else s

/-! ## Frames on air (R150 to R152) -/

/-- The remaining backoff has been counted out: the frame is built with a new sequence number and the transmitter
keys the note's channel (R151). -/
def startFrame (s : State) : State :=
  match s.na.flight with
  | none => s
  | some n =>
    match (n.link.getD Link.fresh).channel with
    | none => s
    | some c =>
      (s.withNa (s.na.setFlight fun n => { n with link := n.link.map fun l => { l with remaining := none } })).withLc
        { s.lc with mac := .sending, tx := some ⟨c, frameOf s n, s.nc.now, []⟩, nextSeq := s.lc.nextSeq + 1 }

/-- The transmitter is switched off; the own-frame guard takes the line time (R151, R152, R155). -/
def transmitterOff (s : State) (m : Mac) : State :=
  s.withLc { s.lc with mac := m, tx := none, ownEnd := some s.nc.now }

/-- A withdrawn note: a PROBE NOTE counts one wasted probe (R79, R161). -/
def countWithdrawn (c : Content) (s : State) : State :=
  if c.isProbe then s.withPtu { s.ptu with wasted := bump s.ptu.wasted } else s

/-- One more collision on a channel, e raised (R152). -/
def Link.collide (l : Link) (c : ChanId) : Link :=
  match c with
  | .a => { l with collA := l.collA + 1, e := min 6 (l.e + 1), remaining := none }
  | .b => { l with collB := l.collB + 1, e := min 6 (l.e + 1), remaining := none }

/-- The content of a FIX NOTE as its record stands (R123). -/
def refreshed (places : List (Option Fix)) : Content → Content
  | .fix (some p) image =>
    match placed places p with
    | some f => .fix (some p) f
    | none => .fix (some p) image
  | c => c

/-! ## Hush (R162, R154) -/

/-- A hush ends: the MAC makes its channel choice or takes a note, and the schedule's failing condition clears. -/
def endHush (s : State) : State :=
  let s1 := unblock (s.withNa { s.na with hush := none })
  match s1.lc.mac with
  | .held => serve (chooseChannel s1)
  | _ => serve s1

/-- A hush of `n` seconds begins or is restarted (R162): a note in DEFER or BACKOFF is held (R154). -/
def beginHush (n : Nat) (s : State) : State :=
  let s1 := s.withNa { s.na with hush := some (plus s.nc.now (perSecond * min n 600 : Nat)) }
  match s1.lc.mac with
  | .defer => hold s1
  | .backoff => hold s1
  | _ => s1

/-! ## The meanings of the sending rows -/

/-- The gap is met: the MAC in DEFER finds its channel idle for 160,000 ticks without a break (R150). -/
def gapMet (s : State) : Option Link :=
  match s.lc.mac, (s.na.flight.bind (·.link)) with
  | .defer, some l =>
    match l.channel with
    | some c => if !(s.lc.channel c).carrier && decide (gapTicks ≤ (s.lc.channel c).idle) then some l else none
    | none => none
  | _, _ => none

/-- INTERFRAME_GAP (R150): DEFER passes to BACKOFF, resuming the remaining backoff or drawing one; a count of 0
passes to SENDING at once (entry 14). -/
def interframeGap (s : State) : State :=
  match gapMet s with
  | none => s
  | some l =>
    match l.remaining with
    | some r => if r = 0 then startFrame (s.setMac .backoff) else s.setMac .backoff
    | none =>
      let d := draw (2 ^ l.e - 1) s.nc.rng
      let s1 := ((s.withNc { s.nc with rng := d.2 }).withNa
        (s.na.setFlight fun n => { n with link := some { l with remaining := some (slotTicks * d.1) } })).setMac .backoff
      if d.1 = 0 then startFrame s1 else s1

/-- The count of the backoff has reached 0 in BACKOFF (R150). -/
def backoffOver (s : State) : Bool :=
  s.lc.mac == .backoff && ((s.na.flight.bind (·.link)).bind (·.remaining)) == some 0

/-- BACKOFF_END (R150, R151). -/
def backoffEnd (s : State) : State := if backoffOver s then startFrame s else s

/-- Every byte taken so far equals the byte sent in its airtime (R151, R152). -/
def Transmission.agrees (t : Transmission) : Bool := t.heard == (t.bytes.take t.heard.length).map some

/-- Every byte of the frame, the last CRC byte included, has been compared and found equal (R151). -/
def Transmission.whole (t : Transmission) : Bool := t.heard == t.bytes.map some

/-- The frame on air, in SENDING. -/
def onAir (s : State) : Option Transmission := if s.lc.mac = .sending then s.lc.tx else none

/-- The frame on air has been heard whole (R151). -/
def heardWhole (s : State) : Bool := (onAir s).any (·.whole)

/-- A byte of the frame on air differs, or was not taken (R152). -/
def heardDiffering (s : State) : Bool := (onAir s).any fun t => !t.agrees

/-- FRAME_SENT (R151), when the last CRC byte has been found equal: the transmitter is switched off, the note is
reported sent and leaves the queue, and the MAC takes the next note. After a dump page the next page is offered before
the MAC chooses (entry 32, DESIGN CHOICE: R158 allows either order). -/
def frameSent (s : State) : State :=
  match s.na.flight with
  | none => s
  | some n =>
    if heardWhole s then
      serve (noteGone n.content ((transmitterOff s .idle).withNa s.na.dropFlight))
    else s

/-- COLLISION (R152), when a byte taken differs from the byte sent or none was taken: the frame is cut, the collision
counted on the note's channel and e raised. A note past its deadline is withdrawn (R161), any other goes back to DEFER
through the channel choice. At the very line time of the deadline the deadline counts as passed (entry 31, DESIGN
CHOICE: R17 allows either order). In a hush a collision that leaves no channel, with one spent, drops the note (entry 34,
DESIGN CHOICE). -/
def collision (s : State) : State :=
  match s.na.flight, s.lc.tx with
  | some n, some t =>
    if heardDiffering s then
      let off := transmitterOff s .idle
      if expired s.nc.now n.deadline then
        serve (noteGone n.content (countWithdrawn n.content (off.withNa s.na.dropFlight)))
      else
        serve (chooseChannel (off.withNa (s.na.setFlight fun n =>
          { n with link := some ((n.link.getD Link.fresh).collide t.channel),
                   content := refreshed s.ft.places n.content })))
    else s
  | _, _ => s

/-- The note in place `i` has reached its deadline and is not SENDING (R161). -/
def deadlineOver (i : Nat) (s : State) : Option Note :=
  match s.na.queue[i]? with
  | none => none
  | some n =>
    if expired s.nc.now n.deadline && !(n.inFlight && s.lc.mac == .sending) then some n else none

/-- NOTE_DEADLINE (R161): the note is withdrawn; if it was in flight the MAC takes the next. -/
def noteDeadline (i : Nat) (s : State) : State :=
  match deadlineOver i s with
  | none => s
  | some n =>
    let s1 := countWithdrawn n.content (s.withNa { s.na with queue := s.na.queue.eraseIdx i })
    let s2 := if n.inFlight then s1.setMac .idle else s1
    serve (noteGone n.content s2)

/-- FLOOR_HOLD_EXPIRY (R159): the floor returns to 0. -/
def floorHoldExpiry (s : State) : State :=
  if expired s.nc.now s.na.floorHold then serve (s.withNa { s.na with floor := 0, floorHold := none }) else s

/-- HUSH_EXPIRY (R162). -/
def hushExpiry (s : State) : State := if expired s.nc.now s.na.hush then endHush s else s

/-- STATE_TIMER (R163): the timer restarts from its expiry and a STATE NOTE is offered, unless LEVEL_STATE is 0 or
one stands in the queue. -/
def stateTimer (s : State) : State :=
  match s.na.stateTimer with
  | none => s
  | some t =>
    if reached s.nc.now t then
      let period := perSecond * s.nc.cfg.statePeriod
      let s1 := s.withNa { s.na with stateTimer := if period = 0 then none else some (plus t (period : Nat)) }
      if s.nc.cfg.levelState = 0 || s.na.queue.any (·.content.isState) then s1
      else offer .state s.nc.cfg.levelState none s1
    else s

end Sys2Proof.Machine
end

