-- ==== Sys2Proof/Machine/FixTable.lean ====
section
/-! DEFINITION. The Fix Table (chapter 08): taking a result, announcing, corroboration, ageing, CLEAR FIXES. -/

namespace Sys2Proof.Machine

open Sys2Proof

/-- The result of a pair (R111). -/
structure Result where
  kind : FixKind
  upperId : Nat
  upperPosition : Nat
  x : Int
  time : Time
  deriving DecidableEq, Repr

/-- The expiry of a fix's age timer: the first line time at which now − last seen exceeds FIX_AGE (R121). -/
def ageExpiry (cfg : Cfg) (lastSeen : Time) : Time := plus lastSeen (perSecond * cfg.fixAge + 1 : Nat)

/-! ## Queued FIX NOTEs (R123) -/

/-- A note is SENDING. -/
def isSending (m : Mac) (n : Note) : Bool := n.inFlight && m == .sending

/-- A note stands for the fix record in place `p`. -/
def Content.standsFor (p : Nat) : Content → Bool
  | .fix q _ => q == some p
  | _ => false

/-- A FIX NOTE of the record in place `p` follows the record's change, unless it is SENDING (R123). -/
def followFix (m : Mac) (p : Nat) (f : Fix) (n : Note) : Note :=
  if n.content.standsFor p && !isSending m n then { n with content := .fix (some p) f } else n

/-- A FIX NOTE of the record removed from place `p` keeps its content and stands for no record (R123). -/
def unlinkFix (p : Nat) (n : Note) : Note :=
  match n.content with
  | .fix (some q) image => if q = p then { n with content := .fix none image } else n
  | _ => n

/-- The record `f` in place `p`, with its queued FIX NOTEs following it (R123). -/
def putFix (p : Nat) (f : Fix) (s : State) : State :=
  (s.withFt { s.ft with places := s.ft.places.set p (some f) }).withNa
    { s.na with queue := s.na.queue.map (followFix s.lc.mac p f) }

/-- The record in place `p` is removed (R121, R120); its notes stay in the queue (R123). -/
def removeFix (p : Nat) (s : State) : State :=
  (s.withFt { s.ft with places := s.ft.places.set p none }).withNa
    { s.na with queue := s.na.queue.map (unlinkFix p) }

/-! ## Announcing (R122, R123) -/

/-- `c` is an announce point for ANNOUNCE_COUNT `a` (R122). -/
def isAnnouncePoint (a c : Nat) : Bool :=
  c == 255 || (decide (c ≤ 255) && (List.range 9).any fun k => a * 2 ^ k == c)

/-- The announce test finds an announce event (R122). -/
def announceDue (a : Nat) (f : Fix) : Bool :=
  isAnnouncePoint a f.count && f.announced.all fun l => decide (l < f.count)

/-- An announce event of the fix in place `p` (R122, R123). -/
def announce (p : Nat) (f : Fix) (s : State) : State :=
  let f' := { f with announced := some f.count }
  let s1 := putFix p f' s
  if s.nc.cfg.levelFix = 0 then s1
  else if s.na.queue.any fun n => n.content.standsFor p && !isSending s.lc.mac n then s1
  else offer (.fix (some p) f') s.nc.cfg.levelFix none s1

/-- The announce test of the fix in place `p` (R122). -/
def announceTest (p : Nat) (s : State) : State :=
  match placed s.ft.places p with
  | some f => if announceDue s.nc.cfg.announceCount f then announce p f s else s
  | none => s

/-! ## Corroboration (R124 to R126) -/

/-- A finding qualifies for a fix (R124). -/
def qualifies (radius : Nat) (f : Fix) (g : Finding) : Bool :=
  g.kind != .gone && decide (f.low - radius ≤ g.position) && decide ((g.position : Int) ≤ f.high + radius)

/-- The distance of a finding from a fix's centre. -/
def offCentre (f : Fix) (g : Finding) : Nat := ((g.position : Int) - f.centre).natAbs

/-- The finding R124 chooses: nearest the centre, then earliest confirmed, then earliest in the list. -/
def corroborator (radius : Nat) (f : Fix) (gs : List Finding) : Option Finding :=
  (bestIdx (fun g h => decide (offCentre f g < offCentre f h) ||
      (offCentre f g == offCentre f h && earlier g.confirmed h.confirmed)) (qualifies radius f) gs).bind (gs[·]?)

/-- The copy a fix takes of a finding (R124). -/
def Finding.copy (g : Finding) : Corroboration := ⟨g.number, g.kind, g.position⟩

/-- The corroboration test of the fix in place `p`, made only on INSIDE fixes (R124). -/
def corroborate (p : Nat) (s : State) : State :=
  match placed s.ft.places p with
  | none => s
  | some f =>
    if f.kind = .inside then
      match corroborator s.nc.cfg.mergeRadius f s.ec.findings with
      | none => s
      | some g =>
        let f' := { f with corroboration := some g.copy }
        match f.corroboration with
        | none => announce p f' (putFix p f' s)
        | some _ => putFix p f' s
    else s

/-- A NEW or GROWN finding is offered: the corroboration test of every fix (R125), places 0 to 15 in turn, which is the
order in which the FIX NOTEs of several announce events join the queue (entry 30, DESIGN CHOICE: R125 fixes no order). -/
def corroborateAll (s : State) : State := (List.range 16).foldl (fun s p => corroborate p s) s

/-- A record without its corroboration (R126). -/
def Fix.bare (f : Fix) : Fix := { f with corroboration := none }

/-- A queued FIX NOTE follows its record in `places`, unless it is SENDING (R123). -/
def followTable (m : Mac) (places : List (Option Fix)) (n : Note) : Note :=
  if isSending m n then n else { n with content := refreshed places n.content }

/-- A REBASE has been taken: every fix loses its corroboration, and the queued notes follow (R126). -/
def uncorroborateAll (s : State) : State :=
  let places := s.ft.places.map (Option.map Fix.bare)
  (s.withFt { s.ft with places := places }).withNa
    { s.na with queue := s.na.queue.map (followTable s.lc.mac places) }

/-! ## Taking a result (R117 to R120) -/

/-- A fix can take a result (R117). -/
def canTake (radius : Nat) (r : Result) (f : Fix) : Bool :=
  f.kind == r.kind && f.upperId == r.upperId && f.upperPosition == r.upperPosition &&
    decide ((r.x - f.centre).natAbs ≤ radius)

/-- The place of the fix a result merges into (R117). -/
def mergePlace (radius : Nat) (r : Result) (places : List (Option Fix)) : Option Nat :=
  let xs := occupiedWithPlace places
  let gap := fun f : Nat × Fix => (r.x - f.2.centre).natAbs
  ((bestIdx (fun a b => decide (gap a < gap b) || (gap a == gap b && earlier a.2.firstSeen b.2.firstSeen))
      (fun a => canTake radius r a.2) xs).bind (xs[·]?)).map (·.1)

/-- The record after a merge (R118, steps 1 to 4). -/
def Fix.merge (cfg : Cfg) (r : Result) (f : Fix) : Fix :=
  { f with
    centre := f.centre + (r.x - f.centre).tdiv (f.count + 1)
    count := min (f.count + 1) 255
    low := min f.low r.x
    high := max f.high r.x
    lastSeen := r.time
    age := some (ageExpiry cfg r.time) }

/-- A new fix (R119). -/
def Result.newFix (cfg : Cfg) (number : Byte) (r : Result) : Fix where
  number := number
  kind := r.kind
  upperId := r.upperId
  upperPosition := r.upperPosition
  centre := r.x
  low := r.x
  high := r.x
  count := 1
  firstSeen := r.time
  lastSeen := r.time
  announced := none
  corroboration := none
  age := some (ageExpiry cfg r.time)

/-- The tests that end a merge and the making of a fix (R118, R119). -/
def fixTests (p : Nat) (s : State) : State := corroborate p (announceTest p s)

/-- A new fix is made in place `p` (R119). -/
def makeFix (p : Nat) (r : Result) (s : State) : State :=
  let s1 := s.withFt { s.ft with nextFix := s.ft.nextFix + 1 }
  fixTests p (putFix p (r.newFix s.nc.cfg s.ft.nextFix) s1)

/-- The place of the fix a new one replaces on a full table (R120). -/
def replacedPlace (places : List (Option Fix)) : Option Nat :=
  let xs := occupiedWithPlace places
  ((bestIdx (fun a b => earlier a.2.lastSeen b.2.lastSeen) (fun a => a.2.count == 1) xs).bind (xs[·]?)).map (·.1)

/-- The table takes a result (R117 to R120). -/
def takeResult (r : Result) (s : State) : State :=
  match mergePlace s.nc.cfg.mergeRadius r s.ft.places with
  | some p =>
    match placed s.ft.places p with
    | some f => fixTests p (putFix p (f.merge s.nc.cfg r) s)
    | none => s
  | none =>
    match emptyPlace s.ft.places with
    | some p => makeFix p r s
    | none =>
      match replacedPlace s.ft.places with
      | some p => makeFix p r (removeFix p s)
      | none => s.withFt { s.ft with discarded := bump s.ft.discarded }

/-! ## Ageing and CLEAR FIXES -/

/-- FIX_AGE_EXPIRY (R121). -/
def fixAgeExpiry (p : Nat) (s : State) : State :=
  match placed s.ft.places p with
  | some f => if expired s.nc.now f.age then removeFix p s else s
  | none => s

/-- A FIX NOTE stands for no record any more (R127). -/
def unlinkAny (n : Note) : Note :=
  match n.content with
  | .fix _ image => { n with content := .fix none image }
  | _ => n

/-- CLEAR FIXES taken (R127): every place emptied, the counters kept, the notes left with their content. -/
def clearTable (s : State) : State :=
  (s.withFt { s.ft with places := List.replicate 16 none }).withNa
    { s.na with queue := s.na.queue.map unlinkAny }

end Sys2Proof.Machine
end

