-- ==== Sys2Proof/Machine/Pairing.lean ====
section
/-! DEFINITION. The Pairing Unit (chapter 07): notices, window, score, pairing in either order, location. -/

namespace Sys2Proof.Machine

open Sys2Proof

/-! ## The partner and its clock (R95, R96) -/

/-- The entry of a peer in the neighbour table. -/
def entryOf (table : List (Option Neighbour)) (id : Nat) : Option Neighbour :=
  (occupied table).find? fun n => n.id == id

/-- The partner's entry. -/
def State.partnerEntry (s : State) : Option Neighbour := s.ptu.partner.bind (entryOf s.ptu.table)

/-- θ(t) of an entry that holds θ_m and m, the rate taken as 0 when absent (R95). -/
def thetaAt (y : Sync) (rate : Option Int) (t : Time) : Int :=
  y.theta + (diff t y.mid * rate.getD 0) / 2 ^ 32

/-- The own time of a peer time (R95). -/
def ownTime (y : Sync) (rate : Option Int) (tp : Time) : Time := plus tp (-(thetaAt y rate (plus tp (-y.theta))))

/-! ## Window and score (R101 to R103) -/

/-- The pairing window W in ticks against a partner (R101). -/
def pairWindow (cfg : Cfg) (upper : Nat) : Int :=
  ticks cfg.vf ((((upper : Int) - cfg.position).natAbs + cfg.pairMargin : Nat) : Int)

/-- The signature score (R102). -/
def score (xs ys : List Nat) : Nat :=
  ((List.range 16).map fun i => ((xs.getD i 0 : Int) - ys.getD i 0).natAbs).sum

/-- |tA − tB_A| (R101). -/
def onsetGap (a b : Time) : Nat := (diff a b).natAbs

/-- A record and a notice match (R103); the record's timing is given once it is TIMED. -/
def onsetsMatch (cfg : Cfg) (upper : Nat) (t : Timing) (n : Notice) : Bool :=
  decide ((onsetGap t.fine n.ownOnset : Int) ≤ pairWindow cfg upper) && decide (score t.signature n.signature ≤ cfg.sigLimit)

/-- The record is TIMED and matches the notice (R103). -/
def Burst.matchesNotice (cfg : Cfg) (upper : Nat) (n : Notice) (b : Burst) : Bool :=
  b.state == .timed && b.timing.any fun t => onsetsMatch cfg upper t n

/-- Score and gap of a record and a notice. -/
def pairRank (n : Notice) (b : Burst) : Nat × Nat :=
  match b.timing with
  | some t => (score t.signature n.signature, onsetGap t.fine n.ownOnset)
  | none => (0, 0)

/-- Lower score, then smaller gap. -/
def rankLess (x y : Nat × Nat) : Bool := decide (x.1 < y.1) || (x.1 == y.1 && decide (x.2 < y.2))

/-- The place of the record a notice pairs with (R104). -/
def recordFor (cfg : Cfg) (upper : Nat) (n : Notice) (bs : List Burst) : Option Nat :=
  bestIdx (fun b c => rankLess (pairRank n b) (pairRank n c) ||
    (pairRank n b == pairRank n c && earlier b.onset c.onset)) (·.matchesNotice cfg upper n) bs

/-- The place of the notice a record pairs with (R105). -/
def noticeFor (cfg : Cfg) (upper : Nat) (t : Timing) (ns : List Notice) : Option Nat :=
  bestIdx (fun m n => rankLess (score t.signature m.signature, onsetGap t.fine m.ownOnset)
    (score t.signature n.signature, onsetGap t.fine n.ownOnset)) (onsetsMatch cfg upper t) ns

/-! ## Location (R109 to R112) -/

/-- X2 of a pair (R109). -/
def twiceX (cfg : Cfg) (upper : Nat) (tA tBA : Time) : Int := cfg.position + upper + conv cfg.vf (diff tA tBA)

/-- The kind and position of a result (R110). -/
def located (own upper x2 : Int) : FixKind × Int :=
  if x2 ≤ 2 * own then (.beyondLow, own) else if 2 * upper ≤ x2 then (.beyondHigh, upper) else (.inside, x2 / 2)

/-- The result is given to the Fix Table, not handed on (R112). -/
def keepsResult (s : State) (upper : Nat) : FixKind → Bool
  | .inside => true
  | .beyondLow => !(occupied s.ptu.table).any fun n => n.state == .synced && decide (n.position < s.nc.cfg.position)
  | .beyondHigh => !(occupied s.ptu.table).any fun n => n.state == .synced && decide (upper < n.position)

/-- The result of a pair (R109 to R111). -/
def pairResult (s : State) (u : Neighbour) (tA tBA : Time) : Result :=
  let k := located s.nc.cfg.position u.position (twiceX s.nc.cfg u.position tA tBA)
  ⟨k.1, u.id, u.position, k.2, s.nc.now⟩

/-- Steps 3 to 6 of a pair (R106): last pair, count, and the result to the Fix Table or handed on. The record and the
notice have left their lists. -/
def completePair (u : Neighbour) (t : Timing) (n : Notice) (s : State) : State :=
  let s1 := s.withPu { s.pu with lastPair := some ⟨n.number, n.peerOnset⟩, pairs := bump s.pu.pairs }
  let r := pairResult s u t.fine n.ownOnset
  if keepsResult s u.position r.kind then takeResult r s1
  else s1.withPu { s1.pu with handedOn := bump s1.pu.handedOn }

/-! ## Pairing from either side -/

/-- A note is a copy (R99). -/
def isCopy (p : Pu) (b : BurstPayload) : Bool :=
  p.notices.any (fun n => n.number == b.number && n.peerOnset == b.onset) ||
    p.lastPair == some ⟨b.number, b.onset⟩

/-- A notice joins the list, dropping the oldest of a full one (R107). -/
def joinNotices (n : Notice) (p : Pu) : Pu := { p with notices := keepNewest 16 (p.notices ++ [n]) }

/-- The notice formed from a note (R100, R107). -/
def noticeOf (now : Time) (y : Sync) (rate : Option Int) (b : BurstPayload) : Notice :=
  ⟨b.number, b.onset, ownTime y rate b.onset, b.signature, now, some (plus now pairHold)⟩

/-- A notice taken: the best matching record pairs with it, or it joins the list (R104, R106, R107). -/
def placeNotice (u : Neighbour) (n : Notice) (s : State) : State :=
  match (recordFor s.nc.cfg u.position n s.iw.bursts) with
  | none => s.withPu (joinNotices n s.pu)
  | some i =>
    match (s.iw.bursts[i]?).bind (·.timing) with
    | none => s.withPu (joinNotices n s.pu)
    | some t => completePair u t n (s.withIw { s.iw with bursts := s.iw.bursts.eraseIdx i })

/-- A BURST NOTE from peer `p`, after the refresh (R98 to R100, R104). -/
def judgeBurstNote (p : Nat) (b : BurstPayload) (s : State) : State :=
  if s.ptu.partner = some p ∧ b.long = false then
    if isCopy s.pu b then s
    else
      match s.partnerEntry with
      | none => s
      | some u =>
        match u.sync with
        | none => s
        | some y => placeNotice u (noticeOf s.nc.now y u.rate b) s
  else s

/-- A record that has just become TIMED, in place `i` of the burst list, is offered (R105). -/
def offerRecord (i : Nat) (s : State) : State :=
  match s.partnerEntry, (s.iw.bursts[i]?).bind (·.timing) with
  | some u, some t =>
    match noticeFor s.nc.cfg u.position t s.pu.notices with
    | none => s
    | some j =>
      match s.pu.notices[j]? with
      | none => s
      | some n =>
        completePair u t n ((s.withIw { s.iw with bursts := s.iw.bursts.eraseIdx i }).withPu
          { s.pu with notices := s.pu.notices.eraseIdx j })
  | _, _ => s

/-- NOTICE_EXPIRY (R107). -/
def noticeExpiry (i : Nat) (s : State) : State :=
  match s.pu.notices[i]? with
  | some n => if expired s.nc.now n.expiry then s.withPu { s.pu with notices := s.pu.notices.eraseIdx i } else s
  | none => s

end Sys2Proof.Machine
end

