-- ==== Sys2Proof/Machine/EchoComparator.lean ====
section
/-! DEFINITION. The Echo Comparator (chapter 09): coverage, profile classes, learning, matching, conditions,
candidates, confirmation, findings, partner changes and REBASE. -/

namespace Sys2Proof.Machine

open Sys2Proof

/-- The coverage limit against a partner's position, or with none (R129). -/
def coverageLimit (cfg : Cfg) (partner : Option Neighbour) : Int :=
  match partner with
  | some u => (u.position : Int) - cfg.position
  | none => conv cfg.vf 7168 / 2

/-- |difference| of two distances. -/
def apart (a b : Nat) : Nat := ((a : Int) - b).natAbs

/-- The place of the nearest baseline mark within MARK_MATCH of a distance among those `ok`, of two equally near the
one of smaller distance (R131, R133, R136). -/
def nearestMark (reach d : Nat) (ok : Mark → Bool) (b : List Mark) : Option Nat :=
  bestIdx (fun x y => decide (apart x.distance d < apart y.distance d) ||
      (apart x.distance d == apart y.distance d && decide (x.distance < y.distance)))
    (fun x => decide (apart x.distance d ≤ reach) && ok x) b

/-- A mark inserted at its place in distance order. -/
def insertMark (m : Mark) : List Mark → List Mark
  | [] => [m]
  | x :: xs => if x.distance < m.distance then x :: insertMark m xs else m :: x :: xs

/-! ## Learning (R131) -/

/-- A profile mark merged into a baseline mark (R131). -/
def Mark.learn (b m : Mark) : Mark :=
  if b.q < m.q then { b with q := m.q, positive := m.positive } else b

/-- One profile mark laid into the baseline (R131). -/
def learnMark (reach : Nat) (e : Ec) (m : Mark) : Ec :=
  match nearestMark reach m.distance (fun _ => true) e.baseline with
  | some i => { e with baseline := e.baseline.modify i (·.learn m) }
  | none =>
    if e.baseline.length < 24 then { e with baseline := insertMark m e.baseline }
    else { e with dropped := bump e.dropped }

/-- A clean profile in LEARNING (R131). -/
def learnProfile (cfg : Cfg) (marks : List Mark) (e : Ec) : Ec :=
  let e1 := marks.foldl (learnMark cfg.markMatch) e
  { e1 with learned := e1.learned + 1, watching := decide (cfg.baseRuns ≤ e1.learned + 1) }

/-! ## Matching and conditions (R133, R134) -/

/-- A baseline mark with the profile mark that has taken it. -/
abbrev Taken := Mark × Option Mark

/-- The place of the baseline mark a profile mark takes (R133). -/
def takenBy (reach : Nat) (b : List Taken) (m : Mark) : Option Nat :=
  bestIdx (fun x y => decide (apart x.1.distance m.distance < apart y.1.distance m.distance) ||
      (apart x.1.distance m.distance == apart y.1.distance m.distance && decide (x.1.distance < y.1.distance)))
    (fun x => decide (apart x.1.distance m.distance ≤ reach) && x.2.isNone) b

/-- One profile mark matched (R133): the baseline with what is taken, and the unmatched profile marks so far. -/
def matchMark (reach : Nat) (acc : List Taken × List Mark) (m : Mark) : List Taken × List Mark :=
  match takenBy reach acc.1 m with
  | some i => (acc.1.modify i (fun x => (x.1, some m)), acc.2)
  | none => (acc.1, acc.2 ++ [m])

/-- The greedy matching of a profile (R133). -/
def matchProfile (reach : Nat) (baseline marks : List Mark) : List Taken × List Mark :=
  marks.foldl (matchMark reach) (baseline.map fun b => (b, none), [])

/-- The condition an unmatched profile mark raises (R134). -/
def newCondition (m : Mark) : Candidate := ⟨.new, m.distance, 1, m.q, m.positive, 0⟩

/-- The condition a baseline mark raises, matched or not (R134). -/
def baselineCondition (growStep : Nat) (x : Taken) : Option Candidate :=
  match x.2 with
  | none => some ⟨.gone, x.1.distance, 1, 0, false, x.1.q⟩
  | some m =>
    if x.1.q + growStep ≤ m.q ∨ m.positive ≠ x.1.positive then
      some ⟨.grown, x.1.distance, 1, m.q, m.positive, x.1.q⟩
    else none

/-- NEW before GROWN before GONE (R134). -/
def FindKind.rank : FindKind → Nat
  | .new => 0
  | .grown => 1
  | .gone => 2

/-- The order of conditions and of confirmations: increasing distance, at one distance by kind (R134, R136). -/
def Candidate.notAfter (a b : Candidate) : Bool :=
  decide (a.distance < b.distance) || (a.distance == b.distance && decide (a.kind.rank ≤ b.kind.rank))

/-- A candidate inserted in that order. -/
def insertCandidate (c : Candidate) : List Candidate → List Candidate
  | [] => [c]
  | x :: xs => if x.notAfter c then x :: insertCandidate c xs else c :: x :: xs

/-- A list in that order. -/
def sortCandidates (cs : List Candidate) : List Candidate := cs.foldl (fun acc c => insertCandidate c acc) []

/-- The conditions of a profile within the coverage, in order (R134). -/
def conditions (cfg : Cfg) (limit : Int) (baseline marks : List Mark) : List Candidate :=
  let m := matchProfile cfg.markMatch baseline marks
  sortCandidates (((m.2.map newCondition) ++ m.1.filterMap (baselineCondition cfg.growStep)).filter
    fun c => decide ((c.distance : Int) ≤ limit))

/-! ## Candidates (R135) -/

/-- A candidate and whether this profile has continued it. -/
abbrev Continued := Candidate × Bool

/-- A candidate is of the condition's kind and within MARK_MATCH of it (R135). -/
def Candidate.near (reach : Nat) (c x : Candidate) : Bool := x.kind == c.kind && decide (apart x.distance c.distance ≤ reach)

/-- The candidate a condition continues (R135, step 1). -/
def continuedBy (reach : Nat) (c : Candidate) (xs : List Continued) : Option Nat :=
  bestIdx (fun x y => decide (apart x.1.distance c.distance < apart y.1.distance c.distance) ||
      (apart x.1.distance c.distance == apart y.1.distance c.distance && decide (x.1.distance < y.1.distance)))
    (fun x => c.near reach x.1 && !x.2) xs

/-- A candidate continued by a condition (R135, step 1). -/
def Candidate.continueAs (c x : Candidate) : Candidate := { c with streak := x.streak + 1 }

/-- One condition laid against the candidates (R135, step 1): it continues one, is absorbed, or is left over. -/
def continueOne (reach : Nat) (acc : List Continued × List Candidate) (c : Candidate) :
    List Continued × List Candidate :=
  match continuedBy reach c acc.1 with
  | some i => (acc.1.modify i (fun x => (c.continueAs x.1, true)), acc.2)
  | none => if acc.1.any fun x => c.near reach x.1 then acc else (acc.1, acc.2 ++ [c])

/-- One condition that neither continued nor was absorbed (R135, step 3): the kept candidates and those created. -/
def createOne (reach : Nat) (acc : List Candidate × List Candidate) (c : Candidate) : List Candidate × List Candidate :=
  if acc.2.any (c.near reach) then acc
  else if acc.1.length + acc.2.length < 8 then (acc.1, acc.2 ++ [c])
  else acc

/-- The candidates after the three steps of R135. -/
def nextCandidates (reach : Nat) (conds cands : List Candidate) : List Candidate :=
  let r := conds.foldl (continueOne reach) (cands.map fun c => (c, false), [])
  let kept := (r.1.filter (·.2)).map (·.1)
  let made := r.2.foldl (createOne reach) (kept, [])
  made.1 ++ made.2

/-! ## Confirmation and findings (R136 to R138) -/

/-- The baseline change of a confirmation and the baseline q it read (R136). -/
def confirmBaseline (reach : Nat) (c : Candidate) (e : Ec) : Ec × Nat :=
  let at_ := nearestMark reach c.distance (fun _ => true) e.baseline
  let q := ((at_.bind (e.baseline[·]?)).map (·.q)).getD c.before
  match c.kind, at_ with
  | .gone, some i => ({ e with baseline := e.baseline.eraseIdx i }, q)
  | .gone, none => (e, q)
  | .grown, some i => ({ e with baseline := e.baseline.modify i fun b => { b with q := c.q, positive := c.positive } }, q)
  | .grown, none => (e, q)
  | .new, some i => ({ e with baseline := e.baseline.modify i fun b => { b with q := c.q, positive := c.positive } }, q)
  | .new, none =>
    if e.baseline.length < 24 then ({ e with baseline := insertMark ⟨c.distance, c.q, c.positive⟩ e.baseline }, q)
    else ({ e with dropped := bump e.dropped }, q)

/-- The finding of a confirmation (R136, R137). -/
def findingOf (cfg : Cfg) (now : Time) (number : Byte) (c : Candidate) (q : Nat) : Finding where
  number := number
  kind := c.kind
  distance := c.distance
  position := min (cfg.position + c.distance) 65535
  before := if c.kind = .new then none else some q
  after := if c.kind = .gone then none else some c.q
  confirmed := now

/-- A finding appended, the oldest of eight removed (R137). -/
def addFinding (f : Finding) (e : Ec) : Ec :=
  { e with findings := keepNewest 8 (e.findings ++ [f]), nextFinding := e.nextFinding + 1 }

/-- A finding handed on: its ECHO NOTE, and the offer of a NEW or GROWN one to the Fix Table (R138). -/
def handFinding (f : Finding) (s : State) : State :=
  let s1 := if s.nc.cfg.levelEcho = 0 then s else offer (.echo f) s.nc.cfg.levelEcho none s
  if f.kind = .gone then s1 else corroborateAll s1

/-- One candidate confirmed (R136). -/
def confirm (s : State) (c : Candidate) : State :=
  let r := confirmBaseline s.nc.cfg.markMatch c s.ec
  let f := findingOf s.nc.cfg s.nc.now r.1.nextFinding c r.2
  let e := addFinding f r.1
  handFinding f (s.withEc { e with candidates := e.candidates.erase c })

/-- A clean profile in WATCHING (R133 to R138). -/
def compareProfile (marks : List Mark) (s : State) : State :=
  let cfg := s.nc.cfg
  let conds := conditions cfg (coverageLimit cfg s.partnerEntry) s.ec.baseline marks
  let cands := nextCandidates cfg.markMatch conds s.ec.candidates
  (sortCandidates (cands.filter fun c => c.streak == cfg.persist)).foldl confirm
    (s.withEc { s.ec with candidates := cands })

/-! ## Profiles and REBASE (R130, R140) -/

/-- A REBASE taken (R140). -/
def takeRebase (s : State) : State :=
  uncorroborateAll (s.withEc
    { s.ec with baseline := [], candidates := [], findings := [], learned := 0, watching := false, rebase := false })

/-- An INVALID profile (R130). -/
def Ec.countInvalid (e : Ec) : Ec :=
  let n := min (e.invalidStreak + 1) 3
  { e with invalid := bump e.invalid, invalidStreak := n, weak := e.weak || n == 3 }

/-- A profile sorted and handled by its class (R130). -/
def classifyProfile (p : Profile) (s : State) : State :=
  if p.valid = false then s.withEc s.ec.countInvalid
  else if p.collided then s.withEc { s.ec with collided := bump s.ec.collided }
  else
    let e := { s.ec with invalidStreak := 0, weak := false }
    if e.watching then compareProfile p.marks (s.withEc e) else s.withEc (learnProfile s.nc.cfg p.marks e)

/-- An offered profile handled in one act, which ends with a pending REBASE (R130, R140). -/
def handleProfile (p : Profile) (s : State) : State :=
  let s1 := classifyProfile p s
  if s1.ec.rebase then takeRebase s1 else s1

/-- The REBASE command (R140): taken at once, or pending while an ECHO job waits or runs (R73). -/
def rebaseCommand (s : State) : State :=
  let s1 := s.withEc { s.ec with rebase := true }
  if s.ce.echoInFlight then s1 else takeRebase s1

/-! ## Partner changes (R96, R108, R139) -/

/-- The partner by R96: the SYNCED entry of smallest position above POSITION, of two the lower ID. -/
def choosePartner (own : Nat) (table : List (Option Neighbour)) : Option Nat :=
  let xs := occupied table
  ((bestIdx (fun a b => decide (a.position < b.position) || (a.position == b.position && decide (a.id < b.id)))
      (fun n => n.state == .synced && decide (own < n.position)) xs).bind (xs[·]?)).map (·.id)

/-- The candidates within a coverage limit (R139). -/
def Ec.narrowTo (e : Ec) (limit : Int) : Ec :=
  { e with candidates := e.candidates.filter fun c => decide ((c.distance : Int) ≤ limit) }

/-- The partner is chosen again; a change empties the notice list and narrows the candidates (R96, R108, R139). -/
def reviewPartner (s : State) : State :=
  let p := choosePartner s.nc.cfg.position s.ptu.table
  if p = s.ptu.partner then s
  else
    let s1 := (s.withPtu { s.ptu with partner := p }).withPu { s.pu with notices := [], lastPair := none }
    s1.withEc (s1.ec.narrowTo (coverageLimit s1.nc.cfg s1.partnerEntry))

end Sys2Proof.Machine
end

