-- ==== Sys2Proof/Machine/Peers.lean ====
section
/-! DEFINITION. The neighbour table, legs, exchanges, the heard and arrival lists (chapter 06, R81 to R97). -/

namespace Sys2Proof.Machine

open Sys2Proof

/-! ## The exchange (R91 to R94) -/

/-- θ_new, m_new and d_dm of an exchange (R92, steps 1 to 7). -/
structure Exchange where
  theta : Int
  mid : Time
  distance : Int
  deriving DecidableEq, Repr

/-- The computation of R92. -/
def exchangeOf (vf : Nat) (f : ForwardLeg) (r : ReverseLeg) (rate : Int) : Exchange :=
  let fwd := diff f.hB f.eA
  let rev := diff r.hA r.eB
  let sum := fwd + rev
  { theta := fwd - sum / 2
    mid := plus f.eA (diff r.hA f.eA / 2)
    distance := conv vf ((sum - diff f.eA r.hA * rate / 2 ^ 32) / 2) }

/-- The exchange is consistent (R92). -/
def Exchange.consistent (cfg : Cfg) (peer : Nat) (x : Exchange) : Bool :=
  decide (0 ≤ x.distance) &&
    decide ((x.distance - (((peer : Int) - cfg.position).natAbs : Int)).natAbs ≤ cfg.posTol)

/-- The bound of a rate (R93). -/
def rateLimit : Int := 2 ^ 23 - 1

/-- Rate and jump streak after a jump (R93, steps 3 and 6): at the third, `adopt` is taken and the streak returns to 0. -/
def jumped (rate adopt : Option Int) (jumps : Nat) : Option Int × Nat :=
  if 3 ≤ jumps + 1 then (adopt, 0) else (rate, jumps + 1)

/-- The rate update of R93 from Δθ and Δm: the new rate and jump streak. -/
def updateRate (dTheta dMid : Int) (rate : Option Int) (jumps : Nat) : Option Int × Nat :=
  if dMid < 2 ^ 24 then (rate, jumps)
  else if 2 ^ 31 ≤ (dTheta.natAbs : Int) then jumped rate none jumps
  else
    let meas := clampInt ((dTheta * 2 ^ 32).tdiv dMid) (-rateLimit) rateLimit
    match rate with
    | none => (some meas, 0)
    | some r =>
      if 2 ^ 19 < ((meas - r).natAbs : Int) then jumped rate (some meas) jumps
      else (some (r + (meas - r).tdiv 4), 0)

/-- State and consistent streak after an exchange (table of R94). -/
def stateAfter (st : PeerState) (streak : Nat) (consistent : Bool) : PeerState × Nat :=
  if consistent then
    match st with
    | .doubtful => if 2 ≤ streak then (.synced, 0) else (.doubtful, streak + 1)
    | _ => (.synced, 0)
  else (.doubtful, 0)

/-- The staleness expiry of a midpoint: the first line time at which now − m exceeds SYNC_AGE (R94). -/
def staleExpiry (cfg : Cfg) (mid : Time) : Time := plus mid (syncAge cfg + 1 : Nat)

/-- An entry whose midpoint is already older than SYNC_AGE becomes STALE at once (R94). -/
def settleStale (cfg : Cfg) (now : Time) (n : Neighbour) : Neighbour :=
  match n.sync with
  | some y => if (syncAge cfg : Int) < diff now y.mid then { n with state := .stale, stale := none } else n
  | none => n

/-- The entry with θ_m, m and the rate of a consistent exchange (R92, R93). -/
def Neighbour.adopt (cfg : Cfg) (x : Exchange) (n : Neighbour) : Neighbour :=
  let r := match n.sync with
    | some y => updateRate (x.theta - y.theta) (diff x.mid y.mid) n.rate n.jumps
    | none => (n.rate, n.jumps)
  { n with sync := some ⟨x.theta, x.mid⟩, rate := r.1, jumps := r.2, stale := some (staleExpiry cfg x.mid) }

/-- The entry after an exchange from its two legs (R91 to R94). An entry made SYNCED from legs so old that it turns STALE
at once is never SYNCED for the choice of the partner, which follows the whole act (entry 29, DESIGN CHOICE). -/
def Neighbour.exchange (cfg : Cfg) (now : Time) (f : ForwardLeg) (r : ReverseLeg) (n : Neighbour) : Neighbour :=
  let x := exchangeOf cfg.vf f r (n.rate.getD 0)
  let ok := x.consistent cfg n.position
  let n1 := if ok then n.adopt cfg x else n
  let st := stateAfter n.state n.streak ok
  settleStale cfg now { n1 with
    state := st.1, streak := st.2, exchanges := bump n.exchanges
    distance := some (clampInt x.distance 0 65535).toNat }

/-- The legs of an entry lie within LEG_SPAN (R91). -/
def legsClose (cfg : Cfg) (f : ForwardLeg) (r : ReverseLeg) : Bool := decide ((diff f.eA r.hA).natAbs ≤ legSpan cfg)

/-- A forward leg stored, and the exchange test (R86, R91). -/
def Neighbour.storeForward (cfg : Cfg) (now : Time) (f : ForwardLeg) (n : Neighbour) : Neighbour :=
  let n1 := { n with forward := some f }
  match n.reverse with
  | none => n1
  | some r => if legsClose cfg f r then n1.exchange cfg now f r else { n1 with reverse := none }

/-- A reverse leg stored, and the exchange test (R85, R91). -/
def Neighbour.storeReverse (cfg : Cfg) (now : Time) (r : ReverseLeg) (n : Neighbour) : Neighbour :=
  let n1 := { n with reverse := some r }
  match n.forward with
  | none => n1
  | some f => if legsClose cfg f r then n1.exchange cfg now f r else { n1 with forward := none }

/-! ## Entries and refresh (R87 to R90) -/

/-- The entry of peer `id` changed by `f`, the rest of the table as it stands. -/
def updateEntry (id : Nat) (f : Neighbour → Neighbour) (table : List (Option Neighbour)) : List (Option Neighbour) :=
  table.map fun o => o.map fun n => if n.id = id then f n else n

/-- A new entry (R87). -/
def newNeighbour (cfg : Cfg) (now : Time) (id pos : Nat) (seq : Byte) : Neighbour where
  id := id
  position := pos
  state := .heard
  lastHeard := now
  lastSeq := some seq
  forward := none
  reverse := none
  sync := none
  rate := none
  jumps := 0
  distance := none
  streak := 0
  exchanges := 0
  silence := some (plus now (removalTicks cfg : Nat))
  stale := none

/-- An entry whose announced position has changed (R89). -/
def Neighbour.move (pos : Nat) (n : Neighbour) : Neighbour :=
  { n with position := pos, state := .heard, forward := none, reverse := none, sync := none, rate := none,
           distance := none, jumps := 0, streak := 0, stale := none }

/-- An entry refreshed by a frame (R87, R89, R90). -/
def Neighbour.refresh (cfg : Cfg) (now : Time) (pos : Nat) (seq : Byte) (n : Neighbour) : Neighbour :=
  let n1 := { n with lastHeard := now, lastSeq := some seq, silence := some (plus now (removalTicks cfg : Nat)) }
  if n.position = pos then n1 else n1.move pos

/-- The place a new peer takes from another on a full table: the HEARD or STALE entry heard least lately, of two the
lower ID (R88). -/
def replaceable (table : List (Option Neighbour)) : Option Nat :=
  let xs := occupiedWithPlace table
  ((bestIdx (fun a b => earlier a.2.lastHeard b.2.lastHeard ||
        (a.2.lastHeard == b.2.lastHeard && decide (a.2.id < b.2.id)))
      (fun a => a.2.state == .heard || a.2.state == .stale) xs).bind (xs[·]?)).map (·.1)

/-- The place a new entry takes (R88, R166). -/
def newPlace (table : List (Option Neighbour)) : Option Nat :=
  match emptyPlace table with
  | some i => some i
  | none => replaceable table

/-- The table after a frame of sender `id` (R87 to R90). -/
def refreshTable (cfg : Cfg) (now : Time) (id pos : Nat) (seq : Byte) (table : List (Option Neighbour)) :
    List (Option Neighbour) :=
  if (entryOf table id).isSome then updateEntry id (·.refresh cfg now pos seq) table
  else
    match newPlace table with
    | some i => table.set i (some (newNeighbour cfg now id pos seq))
    | none => table

/-- The table replaced, and the partner chosen again (R96). -/
def setTable (table : List (Option Neighbour)) (s : State) : State :=
  reviewPartner (s.withPtu { s.ptu with table := table })

/-- The refresh of a frame's sender (R87). -/
def refreshSender (f : Frame) (s : State) : State :=
  setTable (refreshTable s.nc.cfg s.nc.now f.sender f.pos f.seq s.ptu.table) s

/-- SILENCE_EXPIRY of the entry in a place (R90). -/
def silenceExpiry (place : Nat) (s : State) : State :=
  match placed s.ptu.table place with
  | some n => if expired s.nc.now n.silence then setTable (s.ptu.table.set place none) s else s
  | none => s

/-- An entry at its staleness expiry (R94). -/
def Neighbour.turnStale (n : Neighbour) : Neighbour :=
  { n with stale := none, state := if n.state = .synced ∨ n.state = .doubtful then .stale else n.state }

/-- STALENESS_EXPIRY of the entry in a place (R94). -/
def stalenessExpiry (place : Nat) (s : State) : State :=
  match placed s.ptu.table place with
  | some n => if expired s.nc.now n.stale then setTable (s.ptu.table.set place (some n.turnStale)) s else s
  | none => s

/-! ## The heard and arrival lists (R81 to R85) -/

/-- A heard entry appended, the oldest of twelve dropped (R81). -/
def addHeard (h : Heard) (p : Ptu) : Ptu := { p with heard := keepNewest 11 (p.heard ++ [h]) }

/-- Arrivals discarded counts `n` more. -/
def countDiscarded (n : Nat) (p : Ptu) : Ptu := { p with discarded := min (p.discarded + n) 65535 }

/-- An arrival record for a trigger (R82): of four, the one of earliest trigger is removed first and counted. -/
def addArrival (t : Time) (p : Ptu) : Ptu :=
  let a : Arrival := ⟨t, .capturing, none, some (plus t (noteWindow : Nat))⟩
  if p.arrivals.length < 4 then { p with arrivals := p.arrivals ++ [a] }
  else
    match bestIdx (fun x y => earlier x.trigger y.trigger) (fun _ => true) p.arrivals with
    | some i => { countDiscarded 1 p with arrivals := p.arrivals.eraseIdx i ++ [a] }
    | none => { p with arrivals := p.arrivals ++ [a] }

/-- The place of the record of a trigger time (R83). -/
def arrivalIdx (t : Time) (p : Ptu) : Option Nat := p.arrivals.findIdx? fun a => a.trigger == t

/-- A labelled GOOD record becomes a reverse leg (R85). -/
def makeReverseLeg (l : Label) (hA : Time) (s : State) : State :=
  let t := updateEntry l.peer (·.storeReverse s.nc.cfg s.nc.now ⟨l.emission, hA, l.number⟩) s.ptu.table
  let s1 := setTable t s
  s1.withPtu (addHeard ⟨l.peer, l.number, hA⟩ s1.ptu)

/-- The record in place `i` removed. -/
def Ptu.dropArrival (i : Nat) (p : Ptu) : Ptu := { p with arrivals := p.arrivals.eraseIdx i }

/-- An ARRIVAL result taken, GOOD with its arrival time or OVERLAPPED (R83). -/
def arrivalResult (r : ArrivalResult) (s : State) : State :=
  match arrivalIdx r.trigger s.ptu with
  | none => s
  | some i =>
    match r.good, (s.ptu.arrivals[i]?).bind (·.label) with
    | none, _ => s.withPtu (countDiscarded 1 (s.ptu.dropArrival i))
    | some hA, none => s.withPtu { s.ptu with arrivals := s.ptu.arrivals.modify i fun a => { a with state := .good hA } }
    | some hA, some l => makeReverseLeg l hA (s.withPtu (s.ptu.dropArrival i))

/-- The ARRIVAL submission was refused: the record is removed and counted (R83). -/
def arrivalRefused (t : Time) (s : State) : State :=
  match arrivalIdx t s.ptu with
  | none => s
  | some i => s.withPtu (countDiscarded 1 (s.ptu.dropArrival i))

/-- The ARRIVAL job was taken: the record passes to TIMING (R83). -/
def arrivalTiming (t : Time) (s : State) : State :=
  match arrivalIdx t s.ptu with
  | none => s
  | some i => s.withPtu { s.ptu with arrivals := s.ptu.arrivals.modify i fun a => { a with state := .timing } }

/-- ARRIVAL_EXPIRY of the record in place `i` (R84); a labelled record has no expiry. -/
def arrivalExpiry (i : Nat) (s : State) : State :=
  match s.ptu.arrivals[i]? with
  | some a => if expired s.nc.now a.expiry then s.withPtu (s.ptu.dropArrival i) else s
  | none => s

/-! ## PROBE NOTEs (R85, R86) -/

/-- The record is unlabelled with its trigger in [tr − NOTE_WINDOW, tr] (R85, step 2). -/
def inNoteWindow (tr : Time) (a : Arrival) : Bool :=
  a.label.isNone && within a.trigger (plus tr (-(noteWindow : Int))) tr

/-- The one record of the window is labelled; GOOD already, it becomes a reverse leg at once (R85). -/
def labelArrival (i : Nat) (l : Label) (s : State) : State :=
  match s.ptu.arrivals[i]? with
  | none => s
  | some a =>
    match a.state with
    | .good hA => makeReverseLeg l hA (s.withPtu (s.ptu.dropArrival i))
    | _ => s.withPtu { s.ptu with arrivals := s.ptu.arrivals.modify i fun a => { a with label := some l, expiry := none } }

/-- The label step of a PROBE NOTE (R85, step 2). -/
def labelStep (peer : Nat) (p : ProbePayload) (s : State) : State :=
  let n := s.ptu.arrivals.countP (inNoteWindow s.nc.now)
  if n = 1 then
    match s.ptu.arrivals.findIdx? (inNoteWindow s.nc.now) with
    | some i => labelArrival i ⟨peer, p.number, p.emission⟩ s
    | none => s
  else if n = 0 then s
  else s.withPtu (countDiscarded n
    { s.ptu with arrivals := s.ptu.arrivals.filter fun a => !inNoteWindow s.nc.now a })

/-- One heard entry of a note taken for a forward leg (R86). -/
def forwardLeg (peer : Nat) (s : State) (h : Heard) : State :=
  if h.peer = s.nc.cfg.nodeId then
    match s.ptu.history.find? fun e => e.number == h.number with
    | some e => setTable (updateEntry peer (·.storeForward s.nc.cfg s.nc.now ⟨e.time, h.arrival⟩) s.ptu.table) s
    | none => s
  else s

/-- A PROBE NOTE from peer `f.sender`: refresh, label, forward legs (R85). -/
def handleProbeNote (f : Frame) (s : State) : State :=
  let p := probePayload f.payload
  p.heard.foldl (forwardLeg f.sender) (labelStep f.sender p (refreshSender f s))

end Sys2Proof.Machine
end

