-- ==== Sys2Proof/Machine/Coupler.lean ====
section
/-! DEFINITION. The Coupler Front End and the probe schedule (chapter 03, R75 to R80): sampling, calibration, emission,
probe window, probe-band detector and arrival buffer. -/

namespace Sys2Proof.Machine

open Sys2Proof

/-! ## Sample instants (R18, R25 to R27) -/

/-- The latest sample instant whose samples have been taken. -/
def newestInstant (s : State) : Time :=
  if s.nc.now.toNat % 4 = 0 ∧ s.nc.sampled = false then plus s.nc.now (-4)
  else plus s.nc.now (-((s.nc.now.toNat % 4 : Nat) : Int))

/-- The samples from instant `t` on, oldest first, out of a history that holds the newest first. -/
def samplesFrom (s : State) (history : List Int) (t : Time) : List Int :=
  let d := diff (newestInstant s) t
  if d < 0 then [] else (history.take (d.toNat / 4 + 1)).reverse

/-- The value of the 16 newest samples of a history: the greatest |x − offset|, clamped to 2047 (R27, R40). -/
def blockValue (offset : Int) (history : List Int) : Nat := greatest ((history.take 16).map (rectify offset))

/-! ## Offset calibration (R28 to R31) -/

/-- What the samplers are switched to at a line time (R28). -/
def inputSwitch (c : CalState) (now : Time) : InputSwitch :=
  match c with
  | .running start .. => if diff now start < 1024 then .terminated else .terminatedSwapped
  | _ => .port

/-- The sums of a running calibration with the samples at `now` (R28). -/
def CalState.add (now : Time) (xr xp : Int) : CalState → CalState
  | .running start rP rN pP pN =>
    if diff now start < 1024 then .running start (rP + xr) rN (pP + xp) pN
    else .running start rP (rN + xr) pP (pN + xp)
  | c => c

/-- The offset from the sums P and N (R28). -/
def offsetOf (p n : Int) : Int := clampInt (roundHalfAway (p + n) 512) (-255) 255

/-- A condition of R30 defers the calibration; the first after a reset is not deferred. -/
def calDeferred (s : State) : Bool :=
  s.nc.node != .calibrating &&
    (s.iw.detector.isOpen || s.iw.slots.any (·.isFilling) || s.cfe.window.isCapturing || s.cfe.arrival.isCapturing)

/-- A WAITING calibration can start at this line time: a block's line time before its sample is taken (R28, R30). A node
that enters CALIBRATING at a block's line time after that line time's sample starts at the next block, and so does a
WAITING periodic calibration whose last deferring condition ends there after the sample: a probe window filled by that
sample (E = 4 mod 64), or an open burst closed by a clash (entry 28, DESIGN CHOICE: R30 says at or after and R17 allows
either order, R28 wants the sample at the start in its sum). -/
def calCanStart (s : State) : Bool :=
  s.cfe.cal == .waiting && s.nc.now.toNat % 64 == 0 && !s.nc.sampled && !calDeferred s

/-- CALIBRATION_START (R28 to R30): the inputs are switched and the value of the block before is suppressed. -/
def calibrationStart (s : State) : State :=
  if calCanStart s then
    s.withCfe { s.cfe with cal := .running s.nc.now 0 0 0 0, envelope := none, probeValue := none }
  else s

/-- The node enters RUNNING (R6): the probe, STATE and ingress schedules start. -/
def enterRunning (s : State) : State :=
  let s1 := s.withNc { s.nc with node := .running }
  let d := drawMicros (1000 * s.nc.cfg.probePeriod) s1
  let s2 := d.2.withPtu { d.2.ptu with schedule := .counting (plus s.nc.now d.1) }
  let period := perSecond * s.nc.cfg.statePeriod
  let s3 := s2.withNa { s2.na with stateTimer := if period = 0 then none else some (plus s.nc.now (period : Nat)) }
  s3.withIw { s3.iw with detector := if s.nc.cfg.confirmN = 0 then .off else .watch 0 0 0 }

/-- CALIBRATION_END (R28, R30, R6): 2048 ticks after the start the offsets are written and the next due time is set;
the first calibration of a node still CALIBRATING leads to RUNNING. -/
def calibrationEnd (s : State) : State :=
  match s.cfe.cal with
  | .running start rP rN pP pN =>
    if (calLength : Int) ≤ diff s.nc.now start then
      let s1 := s.withCfe { s.cfe with
        offR := offsetOf rP rN, offP := offsetOf pP pN, cal := .idle
        calDue := some (plus s.nc.now (calPeriod : Nat)) }
      if s.nc.node = .calibrating then enterRunning s1 else unblock s1
    else s
  | _ => s

/-- CALIBRATION_DUE (R30). -/
def calibrationDue (s : State) : State :=
  if expired s.nc.now s.cfe.calDue then
    s.withCfe { s.cfe with calDue := none, cal := if s.cfe.cal = .idle then .waiting else s.cfe.cal }
  else s

/-! ## Emission (R34, R76) -/

/-- The first sample instant at or after a line time (R34). -/
def nextInstant (t : Time) : Time := plus t (((4 - t.toNat % 4) % 4 : Nat) : Int)

/-- The CFE accepts an emission request (R34). -/
def acceptsEmission (s : State) : Bool := s.isRunning && s.cfe.window.isFree && !s.cfe.cal.isRunning

/-- The CFE's part of an accepted emission (R34): the window captures from E and the chirp leaves from E. -/
def beginEmission (s : State) : State :=
  let e := nextInstant s.nc.now
  let taken := samplesFrom s s.cfe.history e
  s.withCfe { s.cfe with
    window := .capturing e taken
    chirp := some taken.length
    emitter := if taken.isEmpty then s.cfe.emitter else chirpSample 0 }

/-- The PTU's part of an accepted emission (R76, R78, R79): number, history, next due time, PROBE NOTE. -/
def recordEmission (s : State) : State :=
  let e := nextInstant s.nc.now
  let number := s.ptu.nextProbe
  let heard := s.ptu.heard
  let s1 := s.withPtu { s.ptu with
    nextProbe := number + 1
    history := keepNewest 4 (s.ptu.history ++ [⟨number, e⟩])
    heard := [] }
  let d := drawMicros (125 * s.nc.cfg.probePeriod) s1
  let s2 := d.2.withPtu { d.2.ptu with schedule := .counting (plus e (periodTicks s.nc.cfg + d.1 : Nat)) }
  offer (.probe number e heard) 7 (some (plus e (noteWindow : Nat))) s2

/-- The emission test of R75 and R77: BLOCKED with the conditions that fail, else an emission is requested (R76). -/
def emissionTest (s : State) : State :=
  let f := failing s
  if f.any then s.withPtu { s.ptu with schedule := .blocked f }
  else if acceptsEmission s then recordEmission (beginEmission s)
  else settle s

/-- PROBE_DUE (R75). -/
def probeDue (s : State) : State :=
  match s.ptu.schedule with
  | .counting due => if reached s.nc.now due then emissionTest s else s
  | _ => s

/-- SETTLE_EXPIRY (R77). -/
def settleExpiry (s : State) : State :=
  match s.ptu.schedule with
  | .settling t => if reached s.nc.now t then emissionTest s else s
  | _ => s

/-- PROBE_GUARD_EXPIRY (R77): the guard condition ceases to hold. -/
def probeGuardExpiry (s : State) : State :=
  if expired s.nc.now s.ptu.guard then unblock (s.withPtu { s.ptu with guard := none }) else s

/-! ## Probe-band detector and buffers (R35, R37, R38, R80, R83) -/

/-- A trigger can be taken (R37). -/
def canTrigger (s : State) : Bool :=
  s.isRunning && s.cfe.arrival.isFree && !s.cfe.window.isCapturing && !s.cfe.cal.isRunning

/-- A taken trigger at T (R37, R38, R77, R82). -/
def trigger (t : Time) (s : State) : State :=
  let c := plus t (-256)
  (s.withCfe { s.cfe with arrival := .capturing c t (samplesFrom s s.cfe.history c) }).withPtu
    (addArrival t { s.ptu with lastTrigger := some t, guard := some (plus t (probeGuard + 1 : Nat)) })

/-- PROBE_BAND_VALUE (R37). -/
def probeBandValue (s : State) : State :=
  match s.cfe.probeValue with
  | none => s
  | some v =>
    let s1 := s.withCfe { s.cfe with probeValue := none }
    if decide (s.nc.cfg.probeTh ≤ v.value) && canTrigger s then trigger v.block s1 else s1

/-- The probe window passes to FREE, which clears a failing condition of the schedule (R35, R77). -/
def freeWindow (s : State) : State := unblock (s.withCfe { s.cfe with window := .free })

/-- PROBE_WINDOW_FULL (R35, R80). -/
def probeWindowFull (s : State) : State :=
  match s.cfe.window with
  | .capturing e samples =>
    if 2048 ≤ samples.length then
      if s.isClashed then freeWindow s
      else
        match s.ce.submit s.nc.now (.echo e) with
        | some c => (s.withCfe { s.cfe with window := .held e samples }).withCe c
        | none => freeWindow s
    else s
  | _ => s

/-- ARRIVAL_CAPTURE_FULL (R38, R39, R83). -/
def arrivalCaptureFull (s : State) : State :=
  match s.cfe.arrival with
  | .capturing c t samples =>
    if 512 ≤ samples.length then
      if s.isClashed then s.withCfe { s.cfe with arrival := .free }
      else
        match s.ce.submit s.nc.now (.arrival c t) with
        | some x => arrivalTiming t ((s.withCfe { s.cfe with arrival := .held c t samples }).withCe x)
        | none => arrivalRefused t (s.withCfe { s.cfe with arrival := .free })
    else s
  | _ => s

end Sys2Proof.Machine
end

