-- ==== Sys2Proof/Machine/IngressWatch.lean ====
section
/-! DEFINITION. The Ingress Watch (chapter 04): the envelope detector, burst records, snapshot slots, BURST NOTEs and
the taking of BURST TIMING results. -/

namespace Sys2Proof.Machine

open Sys2Proof

/-! ## Slots and records -/

/-- A slot set. -/
def Iw.setSlot (i : Nat) (x : Slot) (w : Iw) : Iw := { w with slots := w.slots.set i x }

/-- The records changed by `f`. -/
def Iw.mapBursts (f : Burst → Burst) (w : Iw) : Iw := { w with bursts := w.bursts.map f }

/-- The place of the record that holds a slot (R46, R50). -/
def Iw.holder (i : Nat) (w : Iw) : Option Nat := w.bursts.findIdx? fun b => b.slot == some i

/-- A record made UNTIMED: it holds no slot (table of BURST RECORD). -/
def Burst.toUntimed (b : Burst) : Burst := { b with state := .untimed, slot := none }

/-- The record in place `i` becomes UNTIMED and is counted; it leaves the list at once if its burst has ended (R49,
R50, R52). -/
def Iw.untime (i : Nat) (w : Iw) : Iw :=
  let w1 := { w with untimed := bump w.untimed }
  match w.bursts[i]? with
  | none => w1
  | some b =>
    if b.opened then { w1 with bursts := w.bursts.modify i Burst.toUntimed }
    else { w1 with bursts := w.bursts.eraseIdx i }

/-! ## BURST NOTEs (R54) -/

/-- A BURST NOTE offered unless LEVEL_BURST is 0 (R54). -/
def offerBurst (b : BurstNote) (s : State) : State :=
  if s.nc.cfg.levelBurst = 0 then s
  else offer (.burst b) s.nc.cfg.levelBurst (some (plus s.nc.now (burstNoteLife : Nat))) s

/-- The note of a record that has become TIMED (R54). -/
def Burst.timedNote (b : Burst) (t : Timing) : BurstNote := ⟨b.number, false, t.fine, b.peak, b.duration, t.signature⟩

/-- The open record of the list, if the open burst's record is still in it (R51). -/
def Iw.openRecord (w : Iw) : Option Burst := w.bursts.find? (·.opened)

/-- The note of a burst that has become LONG (R54). -/
def OpenBurst.longNote (o : OpenBurst) (record : Option Burst) : BurstNote :=
  ⟨o.number, true, o.onset, o.peak, o.duration,
   ((record.bind (·.timing)).map (·.signature)).getD (List.replicate 16 0)⟩

/-! ## Onset (R42, R53) -/

/-- The place of the record evicted from a full list (R53). -/
def evictIdx (bs : List Burst) : Option Nat :=
  bestIdx (fun x y => earlier x.onset y.onset) (fun b => b.state == .timed || b.state == .untimed) bs

/-- Room made in a full list: a TIMED record evicted is counted (R53). -/
def Iw.makeRoom (w : Iw) : Iw :=
  if w.bursts.length < 16 then w
  else
    match evictIdx w.bursts with
    | none => w
    | some i =>
      { w with
        bursts := w.bursts.eraseIdx i
        evicted := if (w.bursts[i]?).any (·.state == .timed) then bump w.evicted else w.evicted }

/-- The lowest FREE slot (R42). -/
def Iw.freeSlot (w : Iw) : Option Nat := w.slots.findIdx? (·.isFree)

/-- The snapshot of an onset as it stands at the declaration: the samples from c − 512 on (R48). -/
def newSnapshot (s : State) (c : Time) : Slot :=
  .filling (plus c (-512)) s.cfe.offR (samplesFrom s s.cfe.ring (plus c (-512)))

/-- An onset declared: coarse onset `c`, the greatest value of the run (R42). -/
def onset (c : Time) (peak : Nat) (s : State) : State :=
  let w := s.iw.makeRoom
  let n := s.nc.cfg.confirmN
  let number := w.nextBurst
  let slot := w.freeSlot
  let record : Burst :=
    ⟨number, if slot.isSome then .capturing else .untimed, true, c, peak, n, slot, none, none⟩
  let o : OpenBurst := ⟨number, c, peak, n, 0, false⟩
  s.withIw { w with
    detector := .opened o
    bursts := w.bursts ++ [record]
    slots := match slot with
      | some i => w.slots.set i (newSnapshot s c)
      | none => w.slots
    nextBurst := number + 1
    seen := bump w.seen
    untimed := if slot.isSome then w.untimed else bump w.untimed }

/-! ## The open burst (R43 to R45) -/

/-- The open burst after one value (R43). The running duration never falls: it saturates, and stays at 65535 in a burst
so long that the difference of R15 has gone round. -/
def OpenBurst.take (lower : Nat) (v : BlockValue) (o : OpenBurst) : OpenBurst :=
  let index := (diff v.block o.onset / 64).toNat
  if lower ≤ v.value then
    { o with below := 0, duration := max o.duration (min (index + 1) 65535), peak := max o.peak v.value }
  else { o with below := o.below + 1, peak := max o.peak v.value }

/-- The open record follows the detector (R43). -/
def Burst.follow (o : OpenBurst) (b : Burst) : Burst :=
  if b.opened then { b with peak := o.peak, duration := o.duration } else b

/-- A record whose burst has become LONG (R45). -/
def Burst.toLong (b : Burst) : Burst :=
  if b.opened then
    match b.state with
    | .queued => { b with state := .long, slot := none }
    | .timed => { b with state := .long, hold := none }
    | .untimed => { b with state := .long }
    | .capturing => b
    | .long => b
  else b

/-- The end of the open burst for its record: the mark cleared, an UNTIMED or LONG record removed (R44). -/
def endRecords (bs : List Burst) : List Burst :=
  (bs.filter fun b => !(b.opened && (b.state == .untimed || b.state == .long))).map fun b => { b with opened := false }

/-- WATCH with the count at 0. -/
def Detector.fresh : Detector := .watch 0 0 0

/-- A value taken in OPEN (R43 to R45). -/
def openValue (o : OpenBurst) (v : BlockValue) (s : State) : State :=
  let o1 := o.take s.nc.cfg.lowerTh v
  let w := s.iw.mapBursts (Burst.follow o1)
  if 8 ≤ o1.below then s.withIw { w with detector := .fresh, bursts := endRecords w.bursts }
  else if maxBurst ≤ o1.duration ∧ o1.long = false then
    let o2 := { o1 with long := true }
    offerBurst (o2.longNote w.openRecord) (s.withIw { w.mapBursts Burst.toLong with detector := .opened o2 })
  else s.withIw { w with detector := .opened o1 }

/-! ## The onset run (R41) -/

/-- A value taken in WATCH with a run of `count` blocks from `first` (R41, R42). -/
def watchValue (count : Nat) (first : Time) (peak : Nat) (v : BlockValue) (s : State) : State :=
  if v.value < s.nc.cfg.upperTh then s.withIw { s.iw with detector := .fresh }
  else
    let joins := decide (0 < count) && v.block == plus first (64 * count : Nat)
    let n := if joins then count + 1 else 1
    let f := if joins then first else v.block
    let p := if joins then max peak v.value else v.value
    if s.nc.cfg.confirmN ≤ n then onset f p s else s.withIw { s.iw with detector := .watch n f p }

/-- ENVELOPE_VALUE (R40, R41): the value delivered is taken while RUNNING with CONFIRM_N of 1 or more. -/
def envelopeValue (s : State) : State :=
  match s.cfe.envelope with
  | none => s
  | some v =>
    let s1 := s.withCfe { s.cfe with envelope := none }
    if s.isRunning && decide (1 ≤ s.nc.cfg.confirmN) then
      match s.iw.detector with
      | .off => s1
      | .watch count first peak => watchValue count first peak v s1
      | .opened o => openValue o v s1
    else s1

/-! ## Snapshots and results (R49, R50, R56) -/

/-- The record of a slot made UNTIMED without being counted and left in the list (R49, R50 in CLASHED). -/
def Iw.untimeClashed (i : Nat) (w : Iw) : Iw :=
  match w.holder i with
  | some j => { w with bursts := w.bursts.modify j Burst.toUntimed }
  | none => w

/-- The BURST TIMING job of a full slot is submitted (R49). -/
def submitSnapshot (i : Nat) (start : Time) (offset : Int) (samples : List Int) (s : State) : State :=
  match s.ce.submit s.nc.now (.burst i start offset) with
  | some c =>
    let w := s.iw.setSlot i (.job start offset samples)
    (s.withCe c).withIw (match w.holder i with
      | some j => { w with bursts := w.bursts.modify j fun b => { b with state := .queued } }
      | none => w)
  | none =>
    let w := s.iw.setSlot i .free
    s.withIw (match w.holder i with
      | some j => w.untime j
      | none => w)

/-- SNAPSHOT_FULL of a slot (R49). -/
def snapshotFull (i : Nat) (s : State) : State :=
  match s.iw.slots.getD i .free with
  | .filling start offset samples =>
    if 512 ≤ samples.length then
      if s.isClashed then s.withIw ((s.iw.setSlot i .free).untimeClashed i)
      else submitSnapshot i start offset samples s
    else s
  | _ => s

/-- A record becomes TIMED: the BURST NOTE is offered and the record is offered to pairing (R50). -/
def becomeTimed (j : Nat) (t : Timing) (s : State) : State :=
  match s.iw.bursts[j]? with
  | none => s
  | some b =>
    let b' := { b with state := .timed, slot := none, timing := some t, hold := some (plus t.timedAt (pairHold : Nat)) }
    offerRecord j (offerBurst (b'.timedNote t) (s.withIw { s.iw with bursts := s.iw.bursts.set j b' }))

/-- A BURST TIMING result taken (R50). -/
def burstResult (r : TimingResult) (s : State) : State :=
  let w := s.iw.setSlot r.slot .free
  match w.holder r.slot with
  | none => s.withIw w
  | some j =>
    if s.isClashed then s.withIw (w.untimeClashed r.slot)
    else
      match r.timing with
      | none => s.withIw (w.untime j)
      | some x => becomeTimed j ⟨x.1, x.2, s.nc.now⟩ (s.withIw w)

/-- PAIR_HOLD_EXPIRY of the record in place `i` (R52). -/
def pairHoldExpiry (i : Nat) (s : State) : State :=
  match s.iw.bursts[i]? with
  | some b => if expired s.nc.now b.hold then s.withIw { s.iw with bursts := s.iw.bursts.eraseIdx i } else s
  | none => s

end Sys2Proof.Machine
end

