-- ==== Sys2Proof/Machine/Passes.lean ====
section
/-! DEFINITION. The end of a correlation pass (R60, R63): a rerun with a larger shift, or the DONE of the job and what
its submitter does with the result (R50, R83, R80, R130). -/

namespace Sys2Proof.Machine

open Sys2Proof

/-- The pass found a clamped output (R63). -/
def passClamped (s : State) (r : Running) : Bool := (jobAccs s r.job).any (isClamped r.shift)

/-- The outputs of a pass (R63). -/
def passOutputs (s : State) (r : Running) : List Int := (jobAccs s r.job).map (narrow r.shift)

/-- The result record of a BURST TIMING job (R66, R67). -/
def timingResult (s : State) (r : Running) (saturated : Bool) (slot : Nat) (start : Time) (offset : Int) :
    TimingResult where
  slot := slot
  shift := r.shift
  saturated := saturated
  timing :=
    if saturated then none
    else some (fineOnset start (passOutputs s r),
      signatureOf (((s.iw.slots.getD slot .free).samples).map (rectify offset)))

/-- The result record of an ARRIVAL job (R68). -/
def arrivalRecord (s : State) (r : Running) (saturated : Bool) (c t : Time) : ArrivalResult where
  start := c
  trigger := t
  shift := r.shift
  saturated := saturated
  good := arrivalTime saturated c (passOutputs s r)

/-- The result record of an ECHO job (R72). -/
def echoResult (s : State) (r : Running) (saturated : Bool) (e : Time) : Profile :=
  profileOf s.nc.cfg e saturated r.shift (passOutputs s r)

/-- The result of a DONE at its submitter; the engine has already gone on (R60). An ARRIVAL or ECHO result is
discarded in CLASHED (R8, R80, R83). `before` is the state whose buffers the pass read. -/
def deliver (before : State) (r : Running) (saturated : Bool) (s : State) : State :=
  match r.job with
  | .burst slot start offset => burstResult (timingResult before r saturated slot start offset) s
  | .arrival c t =>
    let s1 := s.withCfe { s.cfe with arrival := .free }
    if s.isClashed then s1 else arrivalResult (arrivalRecord before r saturated c t) s1
  | .echo e =>
    let s1 := freeWindow s
    if s.isRunning then handleProfile (echoResult before r saturated e) s1 else s1

/-- PASS_END (R60, R63). -/
def passEnd (s : State) : State :=
  match s.ce.running with
  | none => s
  | some r =>
    if reached s.nc.now r.endsAt then
      let clamped := passClamped s r
      if clamped && decide (r.shift < 20) then s.withCe { s.ce with running := some (r.again s.nc.now) }
      else deliver s r clamped (s.withCe (s.ce.advance s.nc.now))
    else s

end Sys2Proof.Machine
end

