-- ==== Sys2Proof/Machine/NodeControl.lean ====
section
/-! DEFINITION. Node Control (chapter 01): the reset line, the end of the configuration read, the entry to CLASHED and
RESTART, as they touch every block. -/

namespace Sys2Proof.Machine

open Sys2Proof

/-- The channel is followed in this node state: its carrier and receive data are read (R13, R142). -/
def followed (s : State) (c : ChanId) : Bool :=
  match s.nc.node with
  | .held => false
  | .loading => false
  | _ => c == .a || s.nc.cfg.dual

/-! ## The reset line (R1) -/

/-- A channel while the reset line is asserted: nothing decoded, CLEAR with no timer (R1, R13). -/
def Channel.quiet (c : Channel) : Channel := { c with jammed := false, jamTime := none, jamClear := none, receiver := none }

/-- The reset line is asserted (R1, R14): samplers, emitter and transmitter are quiet, receivers decode nothing, the
line time is held at 0, and every operation in progress ends where it stands with no result; the detector is OFF (R40),
the probe schedule OFF (R75), the hush over (R162), the STATE timer cleared (R163), and the MAC IDLE with no note in
flight. The tables and lists stand until the release (entry 1). -/
def assertReset (s : State) : State :=
  { s with
    nc := { s.nc with node := .held, now := 0, reading := false, sampled := false }
    cfe := { s.cfe with cal := .idle, calDue := none, window := .free, arrival := .free, chirp := none, emitter := 0,
                        envelope := none, probeValue := none }
    iw := { s.iw with detector := .off, slots := List.replicate 8 .free }
    ce := Ce.reset
    ptu := { s.ptu with schedule := .off }
    lc := { s.lc with chA := s.lc.chA.quiet, chB := s.lc.chB.quiet, mac := .idle, tx := none }
    na := { s.na.setFlight fun n => { n with inFlight := false } with hush := none, stateTimer := none } }

/-- The reset line releases (R1): every block takes its power-on values, the line time starts from 0, and the node
enters LOADING and begins the read. The carrier pins are the outside's; the commands that wait stay. -/
def releaseReset (s : State) : State :=
  if s.nc.node = .held then
    { State.reset with
      nc := { Nc.reset with fresh := s.nc.fresh }
      lc := { Lc.reset with chA := { Channel.reset with carrier := s.lc.chA.carrier },
                            chB := { Channel.reset with carrier := s.lc.chB.carrier } }
      pending := s.pending }
  else s

/-! ## The end of LOADING (R2 to R5, R7, R13) -/

/-- A channel when the node leaves LOADING or restarts: CLEAR and HUNTING, the JAM_TIME timer started if it is followed
and its carrier is up (R13, R143). -/
def Channel.begin (follow : Bool) (now : Time) (c : Channel) : Channel :=
  { c with
    jammed := false
    jamTime := if follow && c.carrier then some (plus now (jamTimeTicks : Nat)) else none
    jamClear := none
    receiver := none }

/-- The node leaves LOADING with the values `cfg` for `node` (R2, R13, R23). The first calibration of CALIBRATING waits
for the next block's line time as WAITING (entry 28, DESIGN CHOICE: R30 names no state for that wait). -/
def leaveLoading (node : NodeState) (cfg : Cfg) (s : State) : State :=
  { s with
    nc := { s.nc with node := node, cfg := cfg, rng := seed cfg.nodeId, reading := false }
    cfe := { s.cfe with cal := if node = .calibrating then .waiting else .idle }
    lc := { s.lc with
      chA := { s.lc.chA.begin true s.nc.now with idle := 0 }
      chB := { s.lc.chB.begin cfg.dual s.nc.now with idle := 0 } } }

/-- The node state after a read (table of R2). -/
def stateAfterRead (o : ReadOutcome) : NodeState := if readNames o then .calibrating else .unnamed

/-- The read can end now: in LOADING, within 20 ms of the release (R2). -/
def readCanEnd (o : ReadOutcome) (s : State) : Bool :=
  s.nc.node == .loading && readPossible o && decide (s.nc.now.toNat ≤ readLimit)

/-- CONFIG_READ_END (R2 to R5). -/
def configReadEnd (o : ReadOutcome) (s : State) : State :=
  if readCanEnd o s then leaveLoading (stateAfterRead o) (settledCfg o) s else s

/-- The read has not ended within 20 ms of the release (R2). -/
def readTimedOut (s : State) : Bool := s.nc.node == .loading && decide (readLimit ≤ s.nc.now.toNat)

/-- CONFIG_READ_TIMEOUT (R2). -/
def configReadTimeout (s : State) : State :=
  if readTimedOut s then leaveLoading .unnamed Cfg.default s else s

/-! ## CLASHED (R8) -/

/-- The Ingress Watch at a clash (R56). -/
def Iw.clash (w : Iw) : Iw :=
  { w with detector := .off, bursts := w.bursts.map fun b => { b with opened := false, hold := none } }

/-- The Peer Timing Unit at a clash (R97). -/
def Ptu.clash (p : Ptu) : Ptu :=
  { p with
    schedule := .off
    arrivals := p.arrivals.map fun a => { a with expiry := none }
    table := p.table.map (Option.map fun n => { n with silence := none, stale := none }) }

/-- The Pairing Unit at a clash (R114). -/
def Pu.clash (p : Pu) : Pu := { p with notices := p.notices.map fun n => { n with expiry := none } }

/-- The Fix Table at a clash (R128). -/
def Ft.clash (t : Ft) : Ft := { t with places := t.places.map (Option.map fun f => { f with age := none }) }

/-- The Link Controller at a clash (R155): a frame on air is cut, the guard taking the line time. -/
def Lc.clash (now : Time) (l : Lc) : Lc :=
  { l with mac := .idle, tx := none, ownEnd := if l.mac = .sending then some now else l.ownEnd }

/-- The Note Arbiter at a clash (R8, R167). -/
def Na.clash (a : Na) : Na :=
  { a with queue := [], floor := 0, floorHold := none, hush := none, stateTimer := none, dump := none }

/-- The node enters CLASHED (R8). -/
def enterClashed (s : State) : State :=
  { s with
    nc := { s.nc with node := .clashed }
    iw := s.iw.clash
    ptu := s.ptu.clash
    pu := s.pu.clash
    ft := s.ft.clash
    lc := s.lc.clash s.nc.now
    na := s.na.clash }

/-- A reported clash (R8): it has no effect but in CALIBRATING and RUNNING. -/
def reportClash (s : State) : State :=
  if s.nc.node = .calibrating ∨ s.nc.node = .running then enterClashed s else s

/-! ## RESTART (R9, R10, R12) -/

/-- The restart (R9): every block takes its RESTART values, the kept values stand, and the node enters CALIBRATING. The
calibration state is WAITING until the next block's line time (entry 28, DESIGN CHOICE: R31 gives IDLE as the RESTART
value and R30 names no state for the wait that follows at once). -/
def restartNode (s : State) : State :=
  { s with
    nc := { s.nc with node := .calibrating, rng := seed s.nc.cfg.nodeId, reading := false }
    cfe := { Cfe.reset with cal := .waiting }
    iw := { Iw.reset with nextBurst := s.iw.nextBurst }
    ce := Ce.reset
    ptu := { Ptu.reset with nextProbe := s.ptu.nextProbe }
    pu := Pu.reset
    ft := { Ft.reset with nextFix := s.ft.nextFix }
    ec := { Ec.reset with nextFinding := s.ec.nextFinding }
    lc := { Lc.reset with
      chA := s.lc.chA.begin (followed s .a) s.nc.now
      chB := s.lc.chB.begin (followed s .b) s.nc.now
      nextSeq := s.lc.nextSeq }
    na := Na.reset }

end Sys2Proof.Machine
end

