-- ==== Sys2Proof/Machine/Receiving.lean ====
section
/-! DEFINITION. Channels, reception, acceptance and dispatch (R142 to R148), the command service (R164 to R166). -/

namespace Sys2Proof.Machine

open Sys2Proof

/-! ## Channels (R13, R143, R149) -/

/-- The channel of the note in flight. -/
def flightChannel (s : State) : Option ChanId := (s.na.flight.bind (·.link)).bind (·.channel)

/-- A rise of carrier returns BACKOFF on that channel to DEFER, with at least one tick still to count (R150). -/
def backoffRise (c : ChanId) (s : State) : State :=
  if s.lc.mac = .backoff ∧ flightChannel s = some c then
    (s.withNa (s.na.setFlight fun n =>
      { n with link := n.link.map fun l => { l with remaining := l.remaining.map (max 1) } })).setMac .defer
  else s

/-- A channel whose carrier has risen (R143). -/
def Channel.rise (follow : Bool) (now : Time) (c : Channel) : Channel :=
  { c with
    carrier := true
    jamTime := if follow && !c.jammed then some (plus now (jamTimeTicks : Nat)) else none
    jamClear := none }

/-- CARRIER_RISE (R13, R143, R150). -/
def carrierRise (ch : ChanId) (s : State) : State :=
  let c := s.lc.channel ch
  if c.carrier then s
  else backoffRise ch (s.withLc (s.lc.setChannel ch (c.rise (followed s ch) s.nc.now)))

/-- A channel whose carrier has fallen (R143, R144, R150). -/
def Channel.fall (follow : Bool) (now : Time) (c : Channel) : Channel :=
  { c with
    carrier := false
    jamTime := none
    jamClear := if follow && c.jammed then some (plus now (jamClearTicks : Nat)) else none
    idle := 0
    receiver := none }

/-- CARRIER_FALL (R13, R143, R144): a reception in progress ends as a bad frame. -/
def carrierFall (ch : ChanId) (s : State) : State :=
  let c := s.lc.channel ch
  if c.carrier then
    let l := s.lc.setChannel ch (c.fall (followed s ch) s.nc.now)
    s.withLc { l with bad := if c.receiver.isSome then bump l.bad else l.bad }
  else s

/-- The choice of channel after a change of channel `ch`'s state: always in HELD, in DEFER and BACKOFF when the note's
own channel has become JAMMED (R149). -/
def channelChanged (ch : ChanId) (s : State) : State :=
  match s.lc.mac with
  | .held => serve (chooseChannel s)
  | .defer => if flightChannel s = some ch ∧ (s.lc.channel ch).jammed then serve (chooseChannel s) else s
  | .backoff => if flightChannel s = some ch ∧ (s.lc.channel ch).jammed then serve (chooseChannel s) else s
  | .idle => s
  | .sending => s

/-- JAM_TIME_EXPIRY (R143). -/
def jamTimeExpiry (ch : ChanId) (s : State) : State :=
  let c := s.lc.channel ch
  if expired s.nc.now c.jamTime then
    channelChanged ch (s.withLc (s.lc.setChannel ch { c with jammed := true, jamTime := none }))
  else s

/-- JAM_CLEAR_EXPIRY (R143). -/
def jamClearExpiry (ch : ChanId) (s : State) : State :=
  let c := s.lc.channel ch
  if expired s.nc.now c.jamClear then
    channelChanged ch (s.withLc (s.lc.setChannel ch { c with jammed := false, jamClear := none }))
  else s

/-! ## Reception (R144) -/

/-- A receiver set. -/
def setReceiver (ch : ChanId) (r : Option Bytes) (s : State) : State :=
  s.withLc (s.lc.setChannel ch { s.lc.channel ch with receiver := r })

/-- PREAMBLE_AND_SYNC (R144). -/
def preambleAndSync (ch : ChanId) (s : State) : State :=
  if followed s ch && (s.lc.channel ch).receiver.isNone then setReceiver ch (some []) s else s

/-- The bytes of a reception with those that follow, none in HUNTING or when the receiver is off. -/
def received (s : State) (ch : ChanId) (bytes : Bytes) : Option Bytes :=
  if followed s ch then (s.lc.channel ch).receiver.map (· ++ bytes) else none

/-- The frame that completes with the bytes that follow, if one does (R144). -/
def completed (s : State) (ch : ChanId) (bytes : Bytes) : Option Bytes :=
  (received s ch bytes).filter frameComplete

/-- A frame counted bad (R144, R145). -/
def countBad (s : State) : State := s.withLc { s.lc with bad := bump s.lc.bad }

/-- LEN_ABOVE_96 (R144): the reception ends at the end of the header. -/
def lenAbove96 (ch : ChanId) (bytes : Bytes) (s : State) : State :=
  match received s ch bytes with
  | some bs => if bs.length = 7 ∧ 96 < frameLen bs then countBad (setReceiver ch none s) else s
  | none => s

/-! ## Acceptance (R145 to R148) -/

/-- How a completed frame is judged. -/
inductive Verdict where
  | badCrc
  | otherRun
  | clash
  | dropped
  | note (f : Frame)
  | command (f : Frame)
  deriving DecidableEq, Repr

/-- The frame is handed on to no block (R145 to R148). -/
def Verdict.isDrop : Verdict → Bool
  | .note _ => false
  | .command _ => false
  | .badCrc => true
  | .otherRun => true
  | .clash => true
  | .dropped => true

/-- A frame of the own ID is an own echo (R146). -/
def ownEcho (s : State) : Bool :=
  s.lc.mac == .sending || s.lc.ownEnd.any fun t => within s.nc.now t (plus t (ownGuardTicks : Nat))

/-- The sender's last sequence by the duplicate check (R147). -/
def lastSeqOf (s : State) (sender : Nat) : Option Byte := (entryOf s.ptu.table sender).bind (·.lastSeq)

/-- The sender and duplicate checks and the dispatch by node state (R146 to R148). -/
def judgeSender (s : State) (f : Frame) : Verdict :=
  if f.sender = s.nc.cfg.nodeId then if ownEcho s then .dropped else .clash
  else if f.sender = 0 then .dropped
  else if f.sender = 255 then
    if f.kind = 8 ∧ s.lc.listenerSeq ≠ some f.seq ∧ (s.isRunning = true ∨ s.isClashed = true) then .command f
    else .dropped
  else if f.kind ≠ 8 ∧ lastSeqOf s f.sender ≠ some f.seq ∧ s.isRunning = true then .note f
  else .dropped

/-- The checks of a completed frame, in order (R145 to R148, R7). -/
def judge (s : State) (bs : Bytes) : Verdict :=
  let f := parseFrame bs
  if crcAgrees bs = false then .badCrc
  else if f.run ≠ s.nc.cfg.runNo then .otherRun
  else if s.nc.node = .unnamed then .dropped
  else if kindLengthOk f.kind f.payload = false then .dropped
  else judgeSender s f

/-- What a frame that is not dispatched leaves: counted where its check counts it, or a clash reported (R145, R146). -/
def dropFrame (v : Verdict) (s : State) : State :=
  match v with
  | .badCrc => countBad s
  | .otherRun => s.withLc { s.lc with otherRun := bump s.lc.otherRun }
  | .clash => reportClash s
  | _ => s

/-- The reception of a frame of KIND `kind` from a peer: dispatched to `act` when accepted, else dropped as its check
says; a frame of another kind is no event of the row (entry 7). -/
def noteRow (kind : Nat) (act : Frame → State → State) (ch : ChanId) (bytes : Bytes) (s : State) : State :=
  match completed s ch bytes with
  | none => s
  | some bs =>
    match judge s bs with
    | .note f => if f.kind = kind then act f (setReceiver ch none s) else s
    | .command _ => s
    | v => dropFrame v (setReceiver ch none s)

/-- The reception of a COMMAND frame whose payload the row names: handed to the command service (R147, R164). -/
def commandRow (mine : CommandPayload → Bool) (act : CommandPayload → State → State) (ch : ChanId) (bytes : Bytes)
    (s : State) : State :=
  match completed s ch bytes with
  | none => s
  | some bs =>
    match judge s bs with
    | .note _ => s
    | .command f =>
      let p := commandPayload f.payload
      if mine p then
        let s0 := setReceiver ch none s
        let s1 := s0.withLc { s0.lc with listenerSeq := some f.seq }
        if p.target ≠ s.nc.cfg.nodeId ∧ p.target ≠ 0 then s1
        else if s.isRunning = true ∨ p.code = 5 then act p s1
        else s1
      else s
    | v => dropFrame v (setReceiver ch none s)

/-- A frame that some check drops (R145 to R148). -/
def otherRow (ch : ChanId) (bytes : Bytes) (s : State) : State :=
  match completed s ch bytes with
  | none => s
  | some bs =>
    match judge s bs with
    | .note _ => s
    | .command _ => s
    | v => dropFrame v (setReceiver ch none s)

/-! ## Dispatch of peers' notes (R148) -/

/-- The quiet floor raised by a FIX or ECHO frame of level `lv` (R159). -/
def raiseFloor (lv : Nat) (s : State) : State :=
  serve (s.withNa { s.na with
    floor := max s.na.floor (min lv 6), floorHold := some (plus s.nc.now (floorHoldTicks : Nat)) })

/-- A BURST frame (R98). -/
def handleBurstNote (f : Frame) (s : State) : State :=
  judgeBurstNote f.sender (burstPayload f.payload) (refreshSender f s)

/-- A FIX or ECHO frame (R148, R159). -/
def handleReport (f : Frame) (s : State) : State := raiseFloor f.level (refreshSender f s)

/-! ## The command service (R162, R164 to R166) -/

/-- A QUERY refused (R165). -/
def refuseQuery (s : State) : State := s.withNa { s.na with refused := bump s.na.refused }

/-- The first page of a dump (R165, R166). -/
def startDump (sect : Section) (s : State) : State := serve (startPage ⟨sect, 0⟩ s)

/-- A QUERY of a table (R165). -/
def queryTable (sect : Section) (s : State) : State :=
  if s.nc.cfg.levelReply = 0 then refuseQuery s
  else
    match s.na.dump with
    | none => startDump sect s
    | some _ => refuseQuery s

/-- A QUERY of section STATE (R165). The body is built before the reply is offered, so its notes-dropped counter does not
count a note that the reply itself then replaces on a full queue (entry 15, DESIGN CHOICE). -/
def queryOfState (s : State) : State :=
  if s.nc.cfg.levelReply = 0 then refuseQuery s
  else if s.na.queue.any (·.content.isStateReply) then s
  else offer (.reply (stateReply s)) s.nc.cfg.levelReply none s

/-- HUSH with argument n (R162). -/
def hushCommand (n : Nat) (s : State) : State :=
  if n = 0 then if s.hushed then endHush s else s
  else beginHush n s

/-- An unknown command counted (R164). -/
def countUnknown (s : State) : State := s.withNa { s.na with unknown := bump s.na.unknown }

/-- The payload is a QUERY of section number `n`. -/
def isQuery (n : Nat) (p : CommandPayload) : Bool := p.code == 1 && p.argument == n

/-- The payload is an unknown command (R164). -/
def isUnknown (p : CommandPayload) : Bool :=
  !(decide (1 ≤ p.code) && decide (p.code ≤ 5)) ||
    (p.code == 1 && !(decide (1 ≤ p.argument) && decide (p.argument ≤ 4)))

end Sys2Proof.Machine
end

