-- ==== Sys2Proof/Machine/Tick.lean ====
section
/-! DEFINITION. The clock (entry 3): what the part does by itself when no command waits. It raises the events that fall
at the present line time (R17), else takes the two samples of a sample instant (R25), else takes what the receiver hears
of an own byte (R152), else adds one tick to the line time (R14). -/

namespace Sys2Proof.Machine

open Sys2Proof

/-! ## Samples (R18, R25 to R27, R34, R35, R38, R48) -/

/-- The detectors form values in this node state (R7, R27, R40). -/
def detecting : NodeState → Bool
  | .calibrating => true
  | .running => true
  | .clashed => true
  | _ => false

/-- A FILLING slot with one more return-band sample (R48). -/
def Slot.take (x : Int) : Slot → Slot
  | .filling start offset xs => if xs.length < 512 then .filling start offset (xs ++ [x]) else .filling start offset xs
  | w => w

/-- A CAPTURING probe window with the probe-band sample of line time `now`, from E on (R35). -/
def Window.take (now : Time) (x : Int) : Window → Window
  | .capturing e xs =>
    if 0 ≤ diff now e ∧ xs.length < 2048 then .capturing e (xs ++ [x]) else .capturing e xs
  | w => w

/-- A CAPTURING arrival buffer with one more probe-band sample (R38). -/
def ArrivalBuffer.take (x : Int) : ArrivalBuffer → ArrivalBuffer
  | .capturing c t xs => if xs.length < 512 then .capturing c t (xs ++ [x]) else .capturing c t xs
  | w => w

/-- The chirp generator at a sample instant: the emitter output and the next position (R34). Between the instants the
output holds its last value, so that the chirp's last sample shows from E + 1020 to E + 1023 and quiet from E + 1024
(entry 33, DESIGN CHOICE: R34 gives the output at the sample instants). -/
def emit : Option Nat → Int × Option Nat
  | some n => if n < 256 then (chirpSample n, some (n + 1)) else (0, none)
  | none => (0, none)

/-- The probe-band value formed when a block's last sample has been taken, 60 ticks into the block (R27, R29). -/
def formProbeValue (s : State) (history : List Int) (cal : CalState) : Option BlockValue :=
  if s.nc.now.toNat % 64 = 60 ∧ detecting s.nc.node = true ∧ cal.isRunning = false then
    some ⟨plus s.nc.now (-60), blockValue s.cfe.offP history⟩
  else s.cfe.probeValue

/-- The Coupler Front End with the samples `xr` and `xp` of the present line time. -/
def sampledCfe (s : State) (xr xp : Int) : Cfe :=
  let c := s.cfe
  let history := (xp :: c.history).take 128
  { c with
    ring := (xr :: c.ring).take 512
    history := history
    cal := c.cal.add s.nc.now xr xp
    window := c.window.take s.nc.now xp
    arrival := c.arrival.take xp
    chirp := (emit c.chirp).2
    emitter := (emit c.chirp).1
    probeValue := formProbeValue s history c.cal }

/-- Both samples of a sample instant are taken (R25): the converters' readings are free values (entry 5). -/
def takeSample (s : State) : State :=
  let sw := inputSwitch s.cfe.cal s.nc.now
  let xr := sample12 (Config.returnInput sw s.nc.fresh)
  let xp := sample12 (Config.probeInput sw s.nc.fresh)
  ((s.withCfe (sampledCfe s xr xp)).withIw { s.iw with slots := s.iw.slots.map (Slot.take xr) }).withNc
    { s.nc with sampled := true, fresh := s.nc.fresh + 1 }

/-- The present line time is a sample instant whose samples are not taken yet (R18, R25). -/
def sampleDue (s : State) : Bool := s.nc.now.toNat % 4 == 0 && !s.nc.sampled

/-! ## The loopback of the frame on air (R142, R151, R152) -/

/-- The airtime of the next byte to be compared has ended (R151). -/
def byteDue (s : State) : Bool :=
  (onAir s).any fun t =>
    decide (t.heard.length < t.bytes.length) &&
      decide (((byteTicks * (t.heard.length + 1) : Nat) : Int) ≤ diff s.nc.now t.start)

/-- A receiver with what it takes in an airtime: a RECEIVING one adds a byte to its frame (R144). -/
def Channel.hear (v : Option Byte) (c : Channel) : Channel :=
  { c with receiver := c.receiver.map (· ++ v.toList) }

/-- At the end of an own byte's airtime the receiver of the keyed channel takes a byte or none, a free value (entry 21); it
serves the loopback comparison and the reception alike (R142). -/
def takeByte (s : State) : State :=
  match s.lc.tx with
  | none => s
  | some t =>
    let v := Config.loopbackByte s.nc.fresh
    let l := s.lc.setChannel t.channel ((s.lc.channel t.channel).hear v)
    (s.withLc { l with tx := some { t with heard := t.heard ++ [v] } }).withNc { s.nc with fresh := s.nc.fresh + 1 }

/-- The receiver of the keyed channel has decoded the preamble and sync of the own frame (R144). -/
def syncHeard (s : State) (ch : ChanId) : Bool :=
  followed s ch && (s.lc.channel ch).receiver.isNone &&
    (onAir s).any fun t => t.channel == ch && t.heard.length == 4 && t.agrees

/-- The bytes taken end the reception at its header: LEN above 96 (R144). -/
def overlong (s : State) (ch : ChanId) : Bool :=
  (received s ch []).any fun bs => bs.length == 7 && decide (96 < frameLen bs)

/-- The bytes taken complete a frame that is handed on to no block, as the own frame is (R144 to R146). -/
def droppable (s : State) (ch : ChanId) : Bool := (completed s ch []).any fun bs => (judge s bs).isDrop

/-! ## The tick (R14, R150) -/

/-- A channel after one more tick: its unbroken idle time, counted up to the gap (R150; entry 13). -/
def Channel.tick (follow : Bool) (c : Channel) : Channel :=
  if follow && !c.carrier then { c with idle := min (c.idle + 1) gapTicks } else c

/-- The backoff counts one tick of its idle channel (R150). -/
def Note.countTick (l : Lc) (n : Note) : Note :=
  { n with link := n.link.map fun k =>
      match k.channel with
      | some c => if (l.channel c).carrier then k else { k with remaining := k.remaining.map (· - 1) }
      | none => k }

/-- The envelope value of the block just completed, due at the line time `now` (R29, R40). -/
def formEnvelope (s : State) (now : Time) : Option BlockValue :=
  if now.toNat % 64 = 0 ∧ detecting s.nc.node = true ∧ s.cfe.cal.isRunning = false then
    some ⟨plus now (-64), blockValue s.cfe.offR s.cfe.ring⟩
  else s.cfe.envelope

/-- One tick of the line time (R14). -/
def advance (s : State) : State :=
  let now := s.nc.now + 1
  { s with
    nc := { s.nc with now := now, sampled := false }
    cfe := { s.cfe with envelope := formEnvelope s now }
    lc := { s.lc with chA := s.lc.chA.tick (followed s .a), chB := s.lc.chB.tick (followed s .b) }
    na := if s.lc.mac = .backoff then s.na.setFlight (Note.countTick s.lc) else s.na }

/-! ## The events of a line time (R17) -/

/-- The command when its condition holds. -/
def dueIf (b : Bool) (i : Instr) : List Instr := if b then [i] else []

/-- The commands `f k` for the places `k` of a list whose member meets `p`. -/
def dueAt {α : Type} (p : α → Bool) (f : Nat → Instr) (xs : List α) : List Instr :=
  (xs.zipIdx.filter fun x => p x.1).map fun x => f x.2

/-- The timer of an entry of a table of places has run out. -/
def placeExpired {α : Type} (now : Time) (timer : α → Option Time) (o : Option α) : Bool :=
  o.any fun x => expired now (timer x)

/-- A slot is FILLING and full (R49). -/
def Slot.isFull : Slot → Bool
  | .filling _ _ xs => decide (512 ≤ xs.length)
  | _ => false

/-- The probe window is CAPTURING and full (R35). -/
def Window.isFull : Window → Bool
  | .capturing _ xs => decide (2048 ≤ xs.length)
  | _ => false

/-- The arrival buffer is CAPTURING and full (R38). -/
def ArrivalBuffer.isFull : ArrivalBuffer → Bool
  | .capturing _ _ xs => decide (512 ≤ xs.length)
  | _ => false

/-- A running calibration has lasted 2048 ticks (R28). -/
def calOver (s : State) : Bool :=
  match s.cfe.cal with
  | .running start .. => decide ((calLength : Int) ≤ diff s.nc.now start)
  | _ => false

/-- The schedule is COUNTING and due (R75). -/
def probeIsDue (s : State) : Bool :=
  match s.ptu.schedule with
  | .counting t => reached s.nc.now t
  | _ => false

/-- The schedule is SETTLING and its settle time has come (R77). -/
def settleIsDue (s : State) : Bool :=
  match s.ptu.schedule with
  | .settling t => reached s.nc.now t
  | _ => false

/-- The events of NC, CFE and CE that fall at the present line time. -/
def dueFront (s : State) : List Instr :=
  dueIf (readTimedOut s) .configReadTimeout ++
  dueIf (calCanStart s) .calibrationStart ++
  dueIf (calOver s) .calibrationEnd ++
  dueIf (expired s.nc.now s.cfe.calDue) .calibrationDue ++
  dueIf s.cfe.envelope.isSome .envelopeValue ++
  dueIf s.cfe.probeValue.isSome .probeBandValue ++
  dueAt Slot.isFull .snapshotFull s.iw.slots ++
  dueIf s.cfe.window.isFull .probeWindowFull ++
  dueIf s.cfe.arrival.isFull .arrivalCaptureFull ++
  dueIf (s.ce.running.any fun r => reached s.nc.now r.endsAt) .passEnd

/-- The events of PTU, IW, PU and FT that fall at the present line time. -/
def dueTables (s : State) : List Instr :=
  let now := s.nc.now
  dueIf (probeIsDue s) .probeDue ++
  dueIf (settleIsDue s) .settleExpiry ++
  dueIf (expired now s.ptu.guard) .probeGuardExpiry ++
  dueAt (fun a => expired now a.expiry) .arrivalExpiry s.ptu.arrivals ++
  dueAt (placeExpired now (·.silence)) .silenceExpiry s.ptu.table ++
  dueAt (placeExpired now (·.stale)) .stalenessExpiry s.ptu.table ++
  dueAt (fun b => expired now b.hold) .pairHoldExpiry s.iw.bursts ++
  dueAt (fun n => expired now n.expiry) .noticeExpiry s.pu.notices ++
  dueAt (placeExpired now (·.age)) .fixAgeExpiry s.ft.places

/-- The events of a receiver that the bytes it holds bring about (R144). -/
def dueReception (s : State) (ch : ChanId) : List Instr :=
  dueIf (syncHeard s ch) (.preambleAndSync ch) ++
  dueIf (overlong s ch) (.lenAbove96 ch []) ++
  dueIf (droppable s ch) (.otherFrame ch [])

/-- The events of LC and NA that fall at the present line time. -/
def dueLink (s : State) : List Instr :=
  let now := s.nc.now
  dueIf (expired now s.lc.chA.jamTime) (.jamTimeExpiry .a) ++
  dueIf (expired now s.lc.chB.jamTime) (.jamTimeExpiry .b) ++
  dueIf (expired now s.lc.chA.jamClear) (.jamClearExpiry .a) ++
  dueIf (expired now s.lc.chB.jamClear) (.jamClearExpiry .b) ++
  dueIf (gapMet s).isSome .interframeGap ++
  dueIf (backoffOver s) .backoffEnd ++
  dueIf (heardWhole s && s.na.flight.isSome) .frameSent ++
  dueIf (heardDiffering s && s.na.flight.isSome) .collision ++
  dueReception s .a ++
  dueReception s .b ++
  dueIf (expired now s.na.floorHold) .floorHoldExpiry ++
  dueAt (fun n => expired now n.deadline && !(n.inFlight && s.lc.mac == .sending)) .noteDeadline s.na.queue ++
  dueIf (expired now s.na.hush) .hushExpiry ++
  dueIf (expired now s.na.stateTimer) .stateTimer

/-- The events that fall at the present line time and are the part's own. -/
def dueEvents (s : State) : List Instr := dueFront s ++ dueTables s ++ dueLink s

/-- An event with its key, inserted in the order of the keys. -/
def insertByKey (x : Nat × Instr) : List (Nat × Instr) → List (Nat × Instr)
  | [] => [x]
  | y :: ys => if x.1 ≤ y.1 then x :: y :: ys else y :: insertByKey x ys

/-- Events of one line time in an order that nothing fixes: the order of their free keys (R17; entry 4). -/
def inKeyOrder (n : Nat) (xs : List Instr) : List Instr :=
  ((xs.zipIdx.map fun x => (Config.eventKey n x.2, x.1)).foldr insertByKey []).map (·.2)

/-- The events of a line time put in the queue. -/
def raise (s : State) : State :=
  (s.withPending (inKeyOrder s.nc.fresh (dueEvents s))).withNc { s.nc with fresh := s.nc.fresh + 1 }

/-- What the part does when no command waits (entry 3); while the reset line is asserted, nothing (R1, R14). The events due
at a line time come before its samples, and these before a byte of the own frame (entry 4, DESIGN CHOICE: R17, R37 and
R59 allow either order). So an event that a sample brings about, PROBE_BAND_VALUE, SNAPSHOT_FULL, PROBE_WINDOW_FULL or
ARRIVAL_CAPTURE_FULL, comes after the timer expiries and the PASS_END of its line time. -/
def idle (s : State) : State :=
  if s.nc.node = .held then s
  else if !(dueEvents s).isEmpty then raise s
  else if sampleDue s then takeSample s
  else if byteDue s then takeByte s
  else advance s

end Sys2Proof.Machine
end

