-- ==== Sys2Proof/Machine/Commands.lean ====
section
/-! DEFINITION. The meaning of every command: one definition per row of spec/opcode_table.json, over the operations of
the block concerned. Each leaves the queue of waiting commands as it stands. -/

namespace Sys2Proof.Machine

open Sys2Proof

/-- What a step of this machine answers. -/
abbrev Answer : Type := Host.Outcome State Fault Refusal

/-- An operation of a node whose reset line is not asserted; while it is, every operation has ended and nothing happens
(R1). -/
def live (f : State → State) (s : State) : State := if s.nc.node = .held then s else f s

/-- The payload is a command of code `n`. -/
def isCode (n : Nat) (p : CommandPayload) : Bool := p.code == n

/-- RESET_ASSERT (R1). -/
def execResetAssert (s : State) : Answer := .next (assertReset s)

/-- RESET_RELEASE (R1). -/
def execResetRelease (s : State) : Answer := .next (releaseReset s)

/-- CONFIG_READ_END (R2). -/
def execConfigReadEnd (o : ReadOutcome) (s : State) : Answer := .next (configReadEnd o s)

/-- CONFIG_READ_TIMEOUT (R2). -/
def execConfigReadTimeout (s : State) : Answer := .next (configReadTimeout s)

/-- CARRIER_RISE (R143). -/
def execCarrierRise (ch : ChanId) (s : State) : Answer := .next (carrierRise ch s)

/-- CARRIER_FALL (R143). -/
def execCarrierFall (ch : ChanId) (s : State) : Answer := .next (carrierFall ch s)

/-- JAM_TIME_EXPIRY (R143). -/
def execJamTimeExpiry (ch : ChanId) (s : State) : Answer := .next (live (jamTimeExpiry ch) s)

/-- JAM_CLEAR_EXPIRY (R143). -/
def execJamClearExpiry (ch : ChanId) (s : State) : Answer := .next (live (jamClearExpiry ch) s)

/-- CALIBRATION_START (R30). -/
def execCalibrationStart (s : State) : Answer := .next (live calibrationStart s)

/-- CALIBRATION_END (R28). -/
def execCalibrationEnd (s : State) : Answer := .next (live calibrationEnd s)

/-- CALIBRATION_DUE (R30). -/
def execCalibrationDue (s : State) : Answer := .next (live calibrationDue s)

/-- ENVELOPE_VALUE (R41). -/
def execEnvelopeValue (s : State) : Answer := .next (live envelopeValue s)

/-- PROBE_BAND_VALUE (R37). -/
def execProbeBandValue (s : State) : Answer := .next (live probeBandValue s)

/-- SNAPSHOT_FULL (R49). -/
def execSnapshotFull (slot : Nat) (s : State) : Answer := .next (live (snapshotFull slot) s)

/-- PROBE_WINDOW_FULL (R35). -/
def execProbeWindowFull (s : State) : Answer := .next (live probeWindowFull s)

/-- ARRIVAL_CAPTURE_FULL (R38). -/
def execArrivalCaptureFull (s : State) : Answer := .next (live arrivalCaptureFull s)

/-- PASS_END (R60). -/
def execPassEnd (s : State) : Answer := .next (live passEnd s)

/-- PROBE_DUE (R75). -/
def execProbeDue (s : State) : Answer := .next (live probeDue s)

/-- SETTLE_EXPIRY (R77). -/
def execSettleExpiry (s : State) : Answer := .next (live settleExpiry s)

/-- PROBE_GUARD_EXPIRY (R77). -/
def execProbeGuardExpiry (s : State) : Answer := .next (live probeGuardExpiry s)

/-- ARRIVAL_EXPIRY (R84). -/
def execArrivalExpiry (i : Nat) (s : State) : Answer := .next (live (arrivalExpiry i) s)

/-- SILENCE_EXPIRY (R90). -/
def execSilenceExpiry (place : Nat) (s : State) : Answer := .next (live (silenceExpiry place) s)

/-- STALENESS_EXPIRY (R94). -/
def execStalenessExpiry (place : Nat) (s : State) : Answer := .next (live (stalenessExpiry place) s)

/-- PAIR_HOLD_EXPIRY (R52). -/
def execPairHoldExpiry (i : Nat) (s : State) : Answer := .next (live (pairHoldExpiry i) s)

/-- NOTICE_EXPIRY (R107). -/
def execNoticeExpiry (i : Nat) (s : State) : Answer := .next (live (noticeExpiry i) s)

/-- FIX_AGE_EXPIRY (R121). -/
def execFixAgeExpiry (place : Nat) (s : State) : Answer := .next (live (fixAgeExpiry place) s)

/-- PROBE_FRAME (R85). -/
def execProbeFrame (ch : ChanId) (bytes : Bytes) (s : State) : Answer :=
  .next (noteRow 1 handleProbeNote ch bytes s)

/-- BURST_FRAME (R98). -/
def execBurstFrame (ch : ChanId) (bytes : Bytes) (s : State) : Answer :=
  .next (noteRow 2 handleBurstNote ch bytes s)

/-- FIX_FRAME (R159). -/
def execFixFrame (ch : ChanId) (bytes : Bytes) (s : State) : Answer := .next (noteRow 3 handleReport ch bytes s)

/-- ECHO_FRAME (R159). -/
def execEchoFrame (ch : ChanId) (bytes : Bytes) (s : State) : Answer := .next (noteRow 4 handleReport ch bytes s)

/-- STATE_FRAME (R87). -/
def execStateFrame (ch : ChanId) (bytes : Bytes) (s : State) : Answer := .next (noteRow 5 refreshSender ch bytes s)

/-- REPLY_FRAME (R87). -/
def execReplyFrame (ch : ChanId) (bytes : Bytes) (s : State) : Answer := .next (noteRow 6 refreshSender ch bytes s)

/-- OTHER_FRAME (R145). -/
def execOtherFrame (ch : ChanId) (bytes : Bytes) (s : State) : Answer := .next (otherRow ch bytes s)

/-- QUERY_FIXES (R165). -/
def execQueryFixes (ch : ChanId) (bytes : Bytes) (s : State) : Answer :=
  .next (commandRow (isQuery 1) (fun _ => queryTable .fixes) ch bytes s)

/-- QUERY_FINDINGS (R165). -/
def execQueryFindings (ch : ChanId) (bytes : Bytes) (s : State) : Answer :=
  .next (commandRow (isQuery 2) (fun _ => queryTable .findings) ch bytes s)

/-- QUERY_NEIGHBOURS (R165). -/
def execQueryNeighbours (ch : ChanId) (bytes : Bytes) (s : State) : Answer :=
  .next (commandRow (isQuery 3) (fun _ => queryTable .neighbours) ch bytes s)

/-- QUERY_STATE (R165). -/
def execQueryState (ch : ChanId) (bytes : Bytes) (s : State) : Answer :=
  .next (commandRow (isQuery 4) (fun _ => queryOfState) ch bytes s)

/-- REBASE (R140). -/
def execRebase (ch : ChanId) (bytes : Bytes) (s : State) : Answer :=
  .next (commandRow (isCode 2) (fun _ => rebaseCommand) ch bytes s)

/-- CLEAR_FIXES (R127). -/
def execClearFixes (ch : ChanId) (bytes : Bytes) (s : State) : Answer :=
  .next (commandRow (isCode 3) (fun _ => clearTable) ch bytes s)

/-- HUSH (R162). -/
def execHush (ch : ChanId) (bytes : Bytes) (s : State) : Answer :=
  .next (commandRow (isCode 4) (fun p => hushCommand p.argument) ch bytes s)

/-- RESTART (R9). -/
def execRestart (ch : ChanId) (bytes : Bytes) (s : State) : Answer :=
  .next (commandRow (isCode 5) (fun _ => restartNode) ch bytes s)

/-- UNKNOWN_COMMAND (R164). -/
def execUnknownCommand (ch : ChanId) (bytes : Bytes) (s : State) : Answer :=
  .next (commandRow isUnknown (fun _ => countUnknown) ch bytes s)

/-- INTERFRAME_GAP (R150). -/
def execInterframeGap (s : State) : Answer := .next (live interframeGap s)

/-- BACKOFF_END (R150). -/
def execBackoffEnd (s : State) : Answer := .next (live backoffEnd s)

/-- FRAME_SENT (R151). -/
def execFrameSent (s : State) : Answer := .next (live frameSent s)

/-- COLLISION (R152). -/
def execCollision (s : State) : Answer := .next (live collision s)

/-- FLOOR_HOLD_EXPIRY (R159). -/
def execFloorHoldExpiry (s : State) : Answer := .next (live floorHoldExpiry s)

/-- NOTE_DEADLINE (R161). -/
def execNoteDeadline (i : Nat) (s : State) : Answer := .next (live (noteDeadline i) s)

/-- HUSH_EXPIRY (R162). -/
def execHushExpiry (s : State) : Answer := .next (live hushExpiry s)

/-- STATE_TIMER (R163). -/
def execStateTimer (s : State) : Answer := .next (live stateTimer s)

/-- PREAMBLE_AND_SYNC (R144). -/
def execPreambleAndSync (ch : ChanId) (s : State) : Answer := .next (preambleAndSync ch s)

/-- LEN_ABOVE_96 (R144). -/
def execLenAbove96 (ch : ChanId) (bytes : Bytes) (s : State) : Answer := .next (lenAbove96 ch bytes s)

end Sys2Proof.Machine
end

