-- ==== Sys2Proof/Machine/Dispatch.lean ====
section
/-! DEFINITION. Every command sent to its meaning, one arm per constructor of Instr. -/

namespace Sys2Proof.Machine

open Sys2Proof

def exec (i : Instr) (s : State) : Host.Outcome State Fault Refusal :=
  match i with
  | .resetAssert => Sys2Proof.Machine.execResetAssert s
  | .resetRelease => Sys2Proof.Machine.execResetRelease s
  | .configReadEnd o => Sys2Proof.Machine.execConfigReadEnd o s
  | .configReadTimeout => Sys2Proof.Machine.execConfigReadTimeout s
  | .carrierRise ch => Sys2Proof.Machine.execCarrierRise ch s
  | .carrierFall ch => Sys2Proof.Machine.execCarrierFall ch s
  | .jamTimeExpiry ch => Sys2Proof.Machine.execJamTimeExpiry ch s
  | .jamClearExpiry ch => Sys2Proof.Machine.execJamClearExpiry ch s
  | .calibrationStart => Sys2Proof.Machine.execCalibrationStart s
  | .calibrationEnd => Sys2Proof.Machine.execCalibrationEnd s
  | .calibrationDue => Sys2Proof.Machine.execCalibrationDue s
  | .envelopeValue => Sys2Proof.Machine.execEnvelopeValue s
  | .probeBandValue => Sys2Proof.Machine.execProbeBandValue s
  | .snapshotFull slot => Sys2Proof.Machine.execSnapshotFull slot s
  | .probeWindowFull => Sys2Proof.Machine.execProbeWindowFull s
  | .arrivalCaptureFull => Sys2Proof.Machine.execArrivalCaptureFull s
  | .passEnd => Sys2Proof.Machine.execPassEnd s
  | .probeDue => Sys2Proof.Machine.execProbeDue s
  | .settleExpiry => Sys2Proof.Machine.execSettleExpiry s
  | .probeGuardExpiry => Sys2Proof.Machine.execProbeGuardExpiry s
  | .arrivalExpiry k => Sys2Proof.Machine.execArrivalExpiry k s
  | .silenceExpiry place => Sys2Proof.Machine.execSilenceExpiry place s
  | .stalenessExpiry place => Sys2Proof.Machine.execStalenessExpiry place s
  | .pairHoldExpiry k => Sys2Proof.Machine.execPairHoldExpiry k s
  | .noticeExpiry k => Sys2Proof.Machine.execNoticeExpiry k s
  | .fixAgeExpiry place => Sys2Proof.Machine.execFixAgeExpiry place s
  | .probeFrame ch bytes => Sys2Proof.Machine.execProbeFrame ch bytes s
  | .burstFrame ch bytes => Sys2Proof.Machine.execBurstFrame ch bytes s
  | .fixFrame ch bytes => Sys2Proof.Machine.execFixFrame ch bytes s
  | .echoFrame ch bytes => Sys2Proof.Machine.execEchoFrame ch bytes s
  | .stateFrame ch bytes => Sys2Proof.Machine.execStateFrame ch bytes s
  | .replyFrame ch bytes => Sys2Proof.Machine.execReplyFrame ch bytes s
  | .otherFrame ch bytes => Sys2Proof.Machine.execOtherFrame ch bytes s
  | .queryFixes ch bytes => Sys2Proof.Machine.execQueryFixes ch bytes s
  | .queryFindings ch bytes => Sys2Proof.Machine.execQueryFindings ch bytes s
  | .queryNeighbours ch bytes => Sys2Proof.Machine.execQueryNeighbours ch bytes s
  | .queryState ch bytes => Sys2Proof.Machine.execQueryState ch bytes s
  | .rebase ch bytes => Sys2Proof.Machine.execRebase ch bytes s
  | .clearFixes ch bytes => Sys2Proof.Machine.execClearFixes ch bytes s
  | .hush ch bytes => Sys2Proof.Machine.execHush ch bytes s
  | .restart ch bytes => Sys2Proof.Machine.execRestart ch bytes s
  | .unknownCommand ch bytes => Sys2Proof.Machine.execUnknownCommand ch bytes s
  | .interframeGap => Sys2Proof.Machine.execInterframeGap s
  | .backoffEnd => Sys2Proof.Machine.execBackoffEnd s
  | .frameSent => Sys2Proof.Machine.execFrameSent s
  | .collision => Sys2Proof.Machine.execCollision s
  | .floorHoldExpiry => Sys2Proof.Machine.execFloorHoldExpiry s
  | .noteDeadline k => Sys2Proof.Machine.execNoteDeadline k s
  | .hushExpiry => Sys2Proof.Machine.execHushExpiry s
  | .stateTimer => Sys2Proof.Machine.execStateTimer s
  | .preambleAndSync ch => Sys2Proof.Machine.execPreambleAndSync ch s
  | .lenAbove96 ch bytes => Sys2Proof.Machine.execLenAbove96 ch bytes s

end Sys2Proof.Machine
end

