-- ==== Sys2Proof/Safety.lean ====
section
/-! DEFINITION. What is said of whole states and of two states: the invariants every step keeps, which blocks a step
leaves unchanged, and which frames are accepted. -/

namespace Sys2Proof.Machine

open Sys2Proof

/-! ## What a step leaves unchanged -/

/-- The ten blocks (00, BLOCK DIAGRAM). -/
inductive Block where
  | nc | cfe | iw | ce | ptu | pu | ft | ec | lc | na
  deriving DecidableEq, Repr

/-- A block is the same in two states. -/
def Block.same (s t : State) : Block → Prop
  | .nc => t.nc = s.nc
  | .cfe => t.cfe = s.cfe
  | .iw => t.iw = s.iw
  | .ce => t.ce = s.ce
  | .ptu => t.ptu = s.ptu
  | .pu => t.pu = s.pu
  | .ft => t.ft = s.ft
  | .ec => t.ec = s.ec
  | .lc => t.lc = s.lc
  | .na => t.na = s.na

/-- Nothing but the named blocks differs between two states; the queue of waiting commands is the same. -/
def UnchangedBut (bs : List Block) (s t : State) : Prop := (∀ b : Block, b ∉ bs → b.same s t) ∧ t.pending = s.pending

/-! ## The link: the MAC, the note in flight and the transmitter (R149, R151, R156) -/

/-- The MAC has a note in flight exactly when it is not IDLE, and one only; that note has a channel while the MAC waits
for it, counts or sends; a frame is on air exactly in SENDING. -/
structure LinkOk (s : State) : Prop where
  oneFlight : s.na.queue.countP (·.inFlight) = if s.lc.mac = .idle then 0 else 1
  routed : s.lc.mac ≠ .idle → s.lc.mac ≠ .held →
    ∀ n ∈ s.na.queue, n.inFlight = true → ∃ l c, n.link = some l ∧ l.channel = some c
  onAir : s.lc.tx.isSome = true ↔ s.lc.mac = .sending

/-! ## The engine and the buffers (R47, R58) -/

/-- The jobs running or waiting, in order (R58). -/
def Ce.jobs (c : Ce) : List Job := (c.running.map (·.job)).toList ++ c.waiting

/-- The buffer a job names: slot 0 … 7, 8 for the arrival buffer, 9 for the probe window. -/
def Job.buffer : Job → Nat
  | .burst slot .. => slot
  | .arrival .. => 8
  | .echo _ => 9

/-- The buffer of a job is held for it, with the values the job keeps (R47, R58). -/
def State.holds (s : State) : Job → Prop
  | .burst slot start offset => ∃ xs, s.iw.slots[slot]? = some (.job start offset xs)
  | .arrival c t => ∃ xs, s.cfe.arrival = .held c t xs
  | .echo e => ∃ xs, s.cfe.window = .held e xs

/-- There are 8 slots; at most 4 jobs wait, none while the engine is IDLE, each has its buffer held for it, and no two
name one buffer. -/
structure EngineOk (s : State) : Prop where
  slots : s.iw.slots.length = 8
  idle : s.ce.running = none → s.ce.waiting = []
  room : s.ce.waiting.length ≤ 4
  held : ∀ j ∈ s.ce.jobs, s.holds j
  apart : (s.ce.jobs.map Job.buffer).Nodup

/-! ## The burst list (R42, R47, R51, R53) -/

/-- There are 8 slots; the burst list holds at most 16 records; a CAPTURING or QUEUED record has its own slot, which is not
FREE; in WATCH no record is open or LONG, in OPEN a LONG record is the open one; before RUNNING the list is empty. -/
structure BurstsOk (s : State) : Prop where
  slots : s.iw.slots.length = 8
  room : s.iw.bursts.length ≤ 16
  apart : (s.iw.bursts.filterMap (·.slot)).Nodup
  slotted : ∀ b ∈ s.iw.bursts, b.state = .capturing ∨ b.state = .queued → ∃ i, i < 8 ∧ b.slot = some i
  taken : s.nc.node ≠ .held → ∀ b ∈ s.iw.bursts, ∀ i, b.slot = some i → s.iw.slots[i]? ≠ some .free
  shut : ∀ c f p, s.iw.detector = .watch c f p → ∀ b ∈ s.iw.bursts, b.opened = false ∧ b.state ≠ .long
  long : ∀ o, s.iw.detector = .opened o → ∀ b ∈ s.iw.bursts, b.state = .long → b.opened = true
  before : s.nc.node = .loading ∨ s.nc.node = .calibrating → s.iw.bursts = []

/-! ## Sizes and ranges -/

/-- The histories of CFE have their sizes (R26, R27) and the offsets their range (R28). -/
structure FrontBounded (s : State) : Prop where
  ring : s.cfe.ring.length = 512
  history : s.cfe.history.length = 128
  offR : s.cfe.offR.natAbs ≤ 255
  offP : s.cfe.offP.natAbs ≤ 255

/-- The tables of PTU, PU, FT and EC hold no more than their places (R78, R81, R82, R87, R107, R116, R132, R135, R137)
and the invalid streak stops at 3 (R130). -/
structure TablesBounded (s : State) : Prop where
  history : s.ptu.history.length ≤ 4
  heard : s.ptu.heard.length ≤ 11
  arrivals : s.ptu.arrivals.length ≤ 4
  neighbours : s.ptu.table.length = 12
  notices : s.pu.notices.length ≤ 16
  fixes : s.ft.places.length = 16
  baseline : s.ec.baseline.length ≤ 24
  candidates : s.ec.candidates.length ≤ 8
  findings : s.ec.findings.length ≤ 8
  invalidStreak : s.ec.invalidStreak ≤ 3

/-- The outbound queue holds at most 16 notes (R156) and the quiet floor is at most 6 (R159). -/
structure QueueBounded (s : State) : Prop where
  queue : s.na.queue.length ≤ 16
  floor : s.na.floor ≤ 6

/-- The 16 statistics counters stay within 16 bits (R167). -/
def CountersBounded (s : State) : Prop := ∀ n ∈ s.counters, n ≤ 65535

/-! ## The clock's events (R17) -/

/-- A frame on air whose bytes heard are those sent, so far as they were heard. -/
def Hears (s : State) (x : Transmission) : Prop :=
  s.lc.mac = .sending ∧ s.lc.tx = some x ∧ x.heard = (x.bytes.take x.heard.length).map some

/-- The timer or the condition that makes an event the part's own at the present line time (R17): the rule of each is that
of its row. The other rows come from outside. -/
def Due (s : State) : Instr → Prop
  | .configReadTimeout => s.nc.node = .loading ∧ 16000000 ≤ s.nc.now.toNat
  | .calibrationStart => s.cfe.cal = .waiting ∧ s.nc.now.toNat % 64 = 0 ∧ s.nc.sampled = false ∧
      (s.nc.node = .calibrating ∨ (s.iw.detector.isOpen = false ∧ (∀ w ∈ s.iw.slots, w.isFilling = false) ∧
        s.cfe.window.isCapturing = false ∧ s.cfe.arrival.isCapturing = false))
  | .calibrationEnd => ∃ start a b c d, s.cfe.cal = .running start a b c d ∧ 2048 ≤ diff s.nc.now start
  | .calibrationDue => expired s.nc.now s.cfe.calDue = true
  | .envelopeValue => s.cfe.envelope ≠ none
  | .probeBandValue => s.cfe.probeValue ≠ none
  | .snapshotFull i => ∃ start o xs, s.iw.slots[i]? = some (.filling start o xs) ∧ 512 ≤ xs.length
  | .probeWindowFull => ∃ e xs, s.cfe.window = .capturing e xs ∧ 2048 ≤ xs.length
  | .arrivalCaptureFull => ∃ c u xs, s.cfe.arrival = .capturing c u xs ∧ 512 ≤ xs.length
  | .passEnd => ∃ r, s.ce.running = some r ∧ reached s.nc.now r.endsAt = true
  | .probeDue => ∃ d, s.ptu.schedule = .counting d ∧ reached s.nc.now d = true
  | .settleExpiry => ∃ d, s.ptu.schedule = .settling d ∧ reached s.nc.now d = true
  | .probeGuardExpiry => expired s.nc.now s.ptu.guard = true
  | .arrivalExpiry i => ∃ a, s.ptu.arrivals[i]? = some a ∧ expired s.nc.now a.expiry = true
  | .silenceExpiry i => ∃ n, s.ptu.table[i]? = some (some n) ∧ expired s.nc.now n.silence = true
  | .stalenessExpiry i => ∃ n, s.ptu.table[i]? = some (some n) ∧ expired s.nc.now n.stale = true
  | .pairHoldExpiry i => ∃ b, s.iw.bursts[i]? = some b ∧ expired s.nc.now b.hold = true
  | .noticeExpiry i => ∃ n, s.pu.notices[i]? = some n ∧ expired s.nc.now n.expiry = true
  | .fixAgeExpiry i => ∃ f, s.ft.places[i]? = some (some f) ∧ expired s.nc.now f.age = true
  | .jamTimeExpiry ch => expired s.nc.now (s.lc.channel ch).jamTime = true
  | .jamClearExpiry ch => expired s.nc.now (s.lc.channel ch).jamClear = true
  | .interframeGap => s.lc.mac = .defer ∧ ∃ n l c, s.na.flight = some n ∧ n.link = some l ∧ l.channel = some c ∧
      (s.lc.channel c).carrier = false ∧ 160000 ≤ (s.lc.channel c).idle
  | .backoffEnd => s.lc.mac = .backoff ∧ ∃ n l, s.na.flight = some n ∧ n.link = some l ∧ l.remaining = some 0
  | .frameSent => s.na.flight ≠ none ∧ ∃ x, Hears s x ∧ x.heard.length = x.bytes.length
  | .collision => s.na.flight ≠ none ∧ s.lc.mac = .sending ∧ ∃ x, s.lc.tx = some x ∧ ¬Hears s x
  | .preambleAndSync ch => followed s ch = true ∧ (s.lc.channel ch).receiver = none ∧
      ∃ x, Hears s x ∧ x.channel = ch ∧ x.heard.length = 4
  | .lenAbove96 ch bytes => bytes = [] ∧ followed s ch = true ∧
      ∃ bs, (s.lc.channel ch).receiver = some bs ∧ bs.length = 7 ∧ 96 < (byteAt bs 6).toNat
  | .otherFrame ch bytes => bytes = [] ∧
      ∃ bs, completed s ch [] = some bs ∧ ∀ f, judge s bs ≠ .note f ∧ judge s bs ≠ .command f
  | .floorHoldExpiry => expired s.nc.now s.na.floorHold = true
  | .noteDeadline i => ∃ n, s.na.queue[i]? = some n ∧ expired s.nc.now n.deadline = true ∧
      ¬(n.inFlight = true ∧ s.lc.mac = .sending)
  | .hushExpiry => expired s.nc.now s.na.hush = true
  | .stateTimer => expired s.nc.now s.na.stateTimer = true
  | _ => False

/-- `v` is the greatest |x − offset| of the samples, clamped to 2047 (R27, R40). -/
def GreatestExcursion (offset : Int) (xs : List Int) (v : Nat) : Prop :=
  (∀ x ∈ xs, min (x - offset).natAbs 2047 ≤ v) ∧ (xs ≠ [] → ∃ x ∈ xs, v = min (x - offset).natAbs 2047)

/-- The two band detectors form values (R7, R27, R40): in CALIBRATING, RUNNING and CLASHED, no calibration running. -/
def Detects (s : State) : Prop :=
  (s.nc.node = .calibrating ∨ s.nc.node = .running ∨ s.nc.node = .clashed) ∧ s.cfe.cal.isRunning = false

/-! ## The choices of lists and tables -/

/-- `x`, in place `i`, is the member that meets `ok` whose distance is nearest `d`, of two equally near the one of smaller
distance (R131, R133, R135, R136). -/
def Nearest {α : Type} (distance : α → Nat) (d : Nat) (ok : α → Prop) (xs : List α) (i : Nat) (x : α) : Prop :=
  xs[i]? = some x ∧ ok x ∧ ∀ j y, xs[j]? = some y → j ≠ i → ok y →
    apart (distance x) d < apart (distance y) d ∨
      (apart (distance x) d = apart (distance y) d ∧ distance x < distance y)

/-- A record's timing and a notice match against a partner at `upper` (R101 to R103). -/
def Matches (cfg : Cfg) (upper : Nat) (t : Timing) (n : Notice) : Prop :=
  ((diff t.fine n.ownOnset).natAbs : Int) ≤ ticks cfg.vf (((upper : Int) - cfg.position).natAbs + cfg.pairMargin : Nat) ∧
    score t.signature n.signature ≤ cfg.sigLimit

/-- `i` holds the TIMED record, with timing `t`, that a notice pairs with: of those that match, lowest score, then smallest
gap, then earliest coarse onset (R103, R104). -/
def BestRecord (cfg : Cfg) (upper : Nat) (n : Notice) (bs : List Burst) (i : Nat) (t : Timing) : Prop :=
  ∃ b, bs[i]? = some b ∧ b.state = .timed ∧ b.timing = some t ∧ Matches cfg upper t n ∧
    ∀ j c u, bs[j]? = some c → j ≠ i → c.state = .timed → c.timing = some u → Matches cfg upper u n →
      score t.signature n.signature < score u.signature n.signature ∨
      (score t.signature n.signature = score u.signature n.signature ∧
        ((diff t.fine n.ownOnset).natAbs < (diff u.fine n.ownOnset).natAbs ∨
          ((diff t.fine n.ownOnset).natAbs = (diff u.fine n.ownOnset).natAbs ∧ earlier b.onset c.onset = true)))

/-- `j` holds the notice that a record pairs with: of those that match, lowest score, then smallest gap, then the oldest
(R105). -/
def BestNotice (cfg : Cfg) (upper : Nat) (t : Timing) (ns : List Notice) (j : Nat) (n : Notice) : Prop :=
  ns[j]? = some n ∧ Matches cfg upper t n ∧ ∀ k m, ns[k]? = some m → k ≠ j → Matches cfg upper t m →
    score t.signature n.signature < score t.signature m.signature ∨
    (score t.signature n.signature = score t.signature m.signature ∧
      ((diff t.fine n.ownOnset).natAbs < (diff t.fine m.ownOnset).natAbs ∨
        ((diff t.fine n.ownOnset).natAbs = (diff t.fine m.ownOnset).natAbs ∧ j < k)))

/-- The result of a pair stays with the Fix Table: no SYNCED entry lies beyond its end (R112). -/
def Kept (table : List (Option Neighbour)) (own upper : Nat) (k : FixKind) : Prop :=
  (k = .beyondLow → ∀ n ∈ occupied table, n.state = .synced → own ≤ n.position) ∧
  (k = .beyondHigh → ∀ n ∈ occupied table, n.state = .synced → n.position ≤ upper)

/-- The fix can take the result (R117). -/
def Fits (radius : Nat) (r : Result) (f : Fix) : Prop :=
  f.kind = r.kind ∧ f.upperId = r.upperId ∧ f.upperPosition = r.upperPosition ∧ (r.x - f.centre).natAbs ≤ radius

/-- The announce test finds an announce event (R122). -/
def Announces (a : Nat) (f : Fix) : Prop :=
  ((∃ k, f.count = a * 2 ^ k ∧ f.count ≤ 255) ∨ f.count = 255) ∧ ∀ l, f.announced = some l → l < f.count

/-- The finding can corroborate the fix (R124). -/
def Corroborates (radius : Nat) (f : Fix) (g : Finding) : Prop :=
  (g.kind = .new ∨ g.kind = .grown) ∧ f.low - radius ≤ g.position ∧ (g.position : Int) ≤ f.high + radius

/-! ## The results of the engine (R64, R65, R69) -/

/-- `k` is the place of the peak of `ys`: the smallest place of its greatest member (R64). -/
def Peak (ys : List Int) (k : Nat) : Prop :=
  k < ys.length ∧ ∀ j, j < ys.length → ys.getD j 0 ≤ ys.getD k 0 ∧ (j < k → ys.getD j 0 < ys.getD k 0)

/-- `r` is n / d rounded to the nearest integer, a half going away from zero. -/
def Rounded (n d r : Int) : Prop :=
  2 * (n - d * r).natAbs ≤ d.natAbs ∧ (2 * (n - d * r).natAbs = d.natAbs → n.natAbs ≤ (d * r).natAbs)

/-- `q` is the interpolation step of `ys` at lag `k` (R65): of a, b and c, the outputs at k − 1, k and k + 1, it is
2 (a − c) / (a − 2b + c) rounded, then clamped to −2 … 2; at the first and the last lag, and where the divisor is 0, it
is 0. -/
def Interpolates (ys : List Int) (k : Nat) (q : Int) : Prop :=
  let a := ys.getD (k - 1) 0
  let c := ys.getD (k + 1) 0
  let d := a - 2 * ys.getD k 0 + c
  (k = 0 ∨ ys.length ≤ k + 1 ∨ d = 0 → q = 0) ∧
  (0 < k → k + 1 < ys.length → d ≠ 0 → ∃ r, Rounded (2 * (a - c)) d r ∧ q = max (-2) (min 2 r))

/-- An ARRIVAL result with peak lag `k` is GOOD (R69): its magnitude there is above 0 and at least twice that of every
local maximum more than 4 lags away. -/
def GoodArrival (ys : List Int) (k : Nat) : Prop :=
  let z := fun j : Nat => (ys.getD j 0).natAbs
  0 < z k ∧ ∀ j, j < ys.length → (0 < j → z (j - 1) ≤ z j) → (j + 1 < ys.length → z (j + 1) ≤ z j) →
    4 < ((j : Int) - k).natAbs → 2 * z j ≤ z k

/-- `v` is the greatest member of `xs`. -/
def Greatest (xs : List Nat) (v : Nat) : Prop := v ∈ xs ∧ ∀ x ∈ xs, x ≤ v

/-- Lag `k` of the outputs of a valid ECHO result with main peak `m0` is a mark (R71). -/
def MarkAt (floor m0 : Nat) (ys : List Int) (k : Nat) : Prop :=
  let z := fun j : Nat => (ys.getD j 0).natAbs
  8 ≤ k ∧ k < 1792 ∧ z (k - 1) ≤ z k ∧ z (k + 1) < z k ∧ floor ≤ min 255 (z k * 256 / m0)

/-! ## The STATE layout (R163, R169) -/

/-- `bs` is the STATE layout of the node, its outbound queue counted as `queued` notes. -/
def StateLayout (s : State) (queued : Nat) (bs : Bytes) : Prop :=
  ∃ bits : Byte, bs = [2, bits, oneByte (s.ptu.partner.getD 0)] ++
      ([s.iw.bursts.length, s.pu.notices.length, (occupied s.ptu.table).length, (occupied s.ft.places).length,
        s.ec.baseline.length, s.ec.candidates.length, s.ec.findings.length, queued].map oneByte ++
      (beBytes 2 s.ec.dropped ++
      [s.iw.seen, s.iw.untimed, s.iw.evicted, s.pu.pairs, s.pu.handedOn, s.ft.discarded, s.ptu.wasted,
        s.ptu.discarded, s.ec.invalid, s.ec.collided, s.na.dropped, s.lc.dropped, s.lc.bad, s.lc.otherRun,
        s.na.refused, s.na.unknown].flatMap (beBytes 2))) ∧
    bits.getLsbD 0 = s.na.hush.isSome ∧ bits.getLsbD 1 = s.lc.chA.jammed ∧ bits.getLsbD 2 = s.lc.chB.jammed ∧
    bits.getLsbD 3 = s.ec.weak ∧ bits.getLsbD 4 = s.ec.watching ∧ ∀ k, 5 ≤ k → bits.getLsbD k = false

/-! ## Configuration fields (R3) -/

/-- `v` is what NC takes of the field of `size` bytes at `offset` with range lo … hi (R3): the default of an erased field, the
value as read when it lies in range, else the nearer end. -/
def FieldTaken (block : Bytes) (offset size lo hi standard v : Nat) : Prop :=
  ((∀ k, k < size → byteAt block (offset + k) = 255) → v = standard) ∧
  ((∃ k, k < size ∧ byteAt block (offset + k) ≠ 255) →
    (field block offset size < lo → v = lo) ∧ (hi < field block offset size → v = hi) ∧
    (lo ≤ field block offset size → field block offset size ≤ hi → v = field block offset size))

/-! ## Frames as the statements name them -/

/-- The bytes complete a frame on the channel that passes every check and is a note of `kind` (R144 to R148). -/
def NoteAccepted (s : State) (ch : ChanId) (bytes : Bytes) (kind : Nat) (f : Frame) : Prop :=
  ∃ bs, completed s ch bytes = some bs ∧ judge s bs = .note f ∧ f.kind = kind

/-- The bytes complete a COMMAND frame on the channel that passes every check, is addressed to the node or to all, and
carries payload `p` (R144 to R148, R164). -/
def CommandAccepted (s : State) (ch : ChanId) (bytes : Bytes) (f : Frame) (p : CommandPayload) : Prop :=
  ∃ bs, completed s ch bytes = some bs ∧ judge s bs = .command f ∧ p = commandPayload f.payload ∧
    (p.target = s.nc.cfg.nodeId ∨ p.target = 0)

/-- The state in which an accepted frame's handling begins: the receiver of the channel hunts again (R144). -/
def afterReception (s : State) (ch : ChanId) : State := setReceiver ch none s

end Sys2Proof.Machine
end

