-- ==== Sys2Proof/Certificates/Slice0/Obligations.lean ====
section
/-! DEFINITION. The statements for the provers, by chapter of the spec. Numbers in ticks are those of the table of R17. -/

open Sys2Proof Sys2Proof.Machine

/-! ## The machine: queue, clock, resets -/

/-- A step takes the command at the front of the queue and answers what `exec` answers on the queue's rest. -/
def Obligations.StepRunsFrontCommand : Prop :=
  ∀ (c : Instr) (rest : List Instr) (s : State), s.pending = c :: rest → step s = exec c (s.withPending rest)

/-- Every command answers a next state and leaves the commands that wait as they are. That none faults or refuses is
entry 18 (DEDUCED), that an impossible event changes nothing entry 6 (DEDUCED), and the queue is the model's own (entry
27, DESIGN CHOICE). -/
def Obligations.EveryCommandRunsAndLeavesTheQueue : Prop :=
  ∀ (i : Instr) (s : State), ∃ t, exec i s = .next t ∧ t.pending = s.pending

/-- Entries 3 and 4, DESIGN CHOICE of the model: on an empty queue with no event due and no sample to take, a step takes
what the receiver hears of an own byte whose airtime has ended, a free value (entry 21), into the comparison and the
reception (R142, R152); with no such byte it adds one tick to the line time (R14). With the tick count the idle time of
followed idle channels, up to 160,000 (entry 13, DEDUCED), and the backoff (R150), and the envelope value of the block
just completed falls due (R40). The emitter output stays as it is, as between sample instants it does (entry 33, DESIGN
CHOICE). -/
def Obligations.EmptyQueueStepHearsAByteOrAddsOneTick : Prop :=
  ∀ s : State, s.pending = [] → s.nc.node ≠ .held → dueEvents s = [] →
    (s.nc.now.toNat % 4 ≠ 0 ∨ s.nc.sampled = true) →
    (∀ x, s.lc.mac = .sending → s.lc.tx = some x → x.heard.length < x.bytes.length →
      ((25600 * (x.heard.length + 1) : Nat) : Int) ≤ diff s.nc.now x.start →
      ∃ t v, step s = .next t ∧ t.nc = { s.nc with fresh := s.nc.fresh + 1 } ∧
        t.lc = { s.lc.setChannel x.channel { s.lc.channel x.channel with
            receiver := (s.lc.channel x.channel).receiver.map (· ++ Option.toList v) } with
          tx := some { x with heard := x.heard ++ [v] } } ∧ UnchangedBut [.nc, .lc] s t) ∧
    ((∀ x, s.lc.mac = .sending → s.lc.tx = some x → x.heard.length < x.bytes.length →
        diff s.nc.now x.start < ((25600 * (x.heard.length + 1) : Nat) : Int)) →
      ∃ t, step s = .next t ∧ t.nc = { s.nc with now := s.nc.now + 1, sampled := false } ∧
        t.lc = { s.lc with chA := t.lc.chA, chB := t.lc.chB } ∧
        (∀ ch, t.lc.channel ch = { s.lc.channel ch with
          idle := if followed s ch = true ∧ (s.lc.channel ch).carrier = false
            then min ((s.lc.channel ch).idle + 1) 160000 else (s.lc.channel ch).idle }) ∧
        (s.lc.mac ≠ .backoff → t.na = s.na) ∧
        (s.lc.mac = .backoff → t.na = { s.na with queue := s.na.queue.map fun n =>
          if n.inFlight = true then { n with link := n.link.map fun l => { l with
            remaining := if (l.channel.all fun c => (s.lc.channel c).carrier) = true then l.remaining
              else l.remaining.map (· - 1) } } else n }) ∧
        t.cfe = { s.cfe with envelope := t.cfe.envelope } ∧
        ((s.nc.now + 1).toNat % 64 = 0 → Detects s → ∃ v,
          t.cfe.envelope = some ⟨plus (s.nc.now + 1) (-64), v⟩ ∧
          GreatestExcursion s.cfe.offR (s.cfe.ring.take 16) v) ∧
        ((s.nc.now + 1).toNat % 64 ≠ 0 ∨ ¬Detects s → t.cfe.envelope = s.cfe.envelope) ∧
        UnchangedBut [.nc, .cfe, .lc, .na] s t)

/-- Entries 3 and 4, DESIGN CHOICE of the model: on an empty queue with events due at the line time, a step puts those
events in the queue, in some order. The events due are those whose timer or condition `Due` names: by the rule of each row
(R17) and the log entries it rests on, 21 (DESIGN CHOICE: FRAME_SENT, COLLISION, PREAMBLE_AND_SYNC, LEN_ABOVE_96 and
OTHER_FRAME raised from the bytes heard, with no further bytes), 28 (DESIGN CHOICE: CALIBRATION_START only before the sample of
its line time), 10, 11, 14 and 26 (DEDUCED: CALIBRATION_END, PROBE_GUARD_EXPIRY, BACKOFF_END, CONFIG_READ_TIMEOUT). -/
def Obligations.EmptyQueueStepRaisesDueEvents : Prop :=
  (∀ s : State, s.pending = [] → s.nc.node ≠ .held → dueEvents s ≠ [] →
    ∃ t, step s = .next t ∧ t.pending.Perm (dueEvents s) ∧
      t = { s with pending := t.pending, nc := { s.nc with fresh := s.nc.fresh + 1 } }) ∧
  ∀ (s : State) (i : Instr), i ∈ dueEvents s ↔ Due s i

/-- R18, R25 to R29, R33 to R35, R38, R48 by entries 3 and 5: at a sample instant with nothing due, a step takes one 12-bit
sample of each band, free values, into the histories, the calibration's sums, the captures in progress and the FILLING
slots, and forms the probe-band value of a block whose last sample it is. The emitter output takes its value for the instant,
the chirp's sample or quiet, and holds it until the next (entry 33, DESIGN CHOICE). -/
def Obligations.EmptyQueueStepTakesSamples : Prop :=
  ∀ s : State, s.pending = [] → s.nc.node ≠ .held → dueEvents s = [] → s.nc.now.toNat % 4 = 0 → s.nc.sampled = false →
    ∃ t xr xp, step s = .next t ∧ -2048 ≤ xr ∧ xr ≤ 2047 ∧ -2048 ≤ xp ∧ xp ≤ 2047 ∧
      t.cfe = { s.cfe with
        ring := (xr :: s.cfe.ring).take 512, history := (xp :: s.cfe.history).take 128
        cal := t.cfe.cal, window := t.cfe.window, arrival := t.cfe.arrival, chirp := t.cfe.chirp
        emitter := t.cfe.emitter, probeValue := t.cfe.probeValue } ∧
      (∀ start rP rN pP pN, s.cfe.cal = .running start rP rN pP pN →
        (diff s.nc.now start < 1024 → t.cfe.cal = .running start (rP + xr) rN (pP + xp) pN) ∧
        (1024 ≤ diff s.nc.now start → t.cfe.cal = .running start rP (rN + xr) pP (pN + xp))) ∧
      (s.cfe.cal.isRunning = false → t.cfe.cal = s.cfe.cal) ∧
      (s.nc.now.toNat % 64 = 60 → Detects s → ∃ v, t.cfe.probeValue = some ⟨plus s.nc.now (-60), v⟩ ∧
        GreatestExcursion s.cfe.offP ((xp :: s.cfe.history).take 16) v) ∧
      (s.nc.now.toNat % 64 ≠ 60 ∨ ¬Detects s → t.cfe.probeValue = s.cfe.probeValue) ∧
      t.iw = { s.iw with slots := t.iw.slots } ∧
      (∀ (i : Nat) (start : Time) (o : Int) (xs : List Int), s.iw.slots[i]? = some (Slot.filling start o xs) →
        xs.length < 512 → t.iw.slots[i]? = some (Slot.filling start o (xs ++ [xr]))) ∧
      (∀ i : Nat, (s.iw.slots[i]?).all (fun w : Slot => !w.isFilling || decide (512 ≤ w.samples.length)) = true →
        t.iw.slots[i]? = s.iw.slots[i]?) ∧
      (∀ e xs, s.cfe.window = .capturing e xs → 0 ≤ diff s.nc.now e → xs.length < 2048 →
        t.cfe.window = .capturing e (xs ++ [xp])) ∧
      ((∀ e xs, s.cfe.window = .capturing e xs → diff s.nc.now e < 0 ∨ 2048 ≤ xs.length) →
        t.cfe.window = s.cfe.window) ∧
      (∀ c u xs, s.cfe.arrival = .capturing c u xs → xs.length < 512 →
        t.cfe.arrival = .capturing c u (xs ++ [xp])) ∧
      ((∀ c u xs, s.cfe.arrival = .capturing c u xs → 512 ≤ xs.length) → t.cfe.arrival = s.cfe.arrival) ∧
      (∀ n, s.cfe.chirp = some n → n < 256 → t.cfe.emitter = chirpSample n ∧ t.cfe.chirp = some (n + 1)) ∧
      ((∀ n, s.cfe.chirp = some n → 256 ≤ n) → t.cfe.emitter = 0 ∧ t.cfe.chirp = none) ∧
      t.nc = { s.nc with sampled := true, fresh := s.nc.fresh + 1 } ∧ UnchangedBut [.nc, .cfe, .iw] s t

/-- What the release of the reset line leaves (R1, R12, R30, R31, R57, R74, R97, R115, R128, R141, R155, R167), every list
and table empty. That State.reset is the machine at that instant is entry 1 (DEDUCED); the empty queue of waiting commands
is entry 27 (DESIGN CHOICE). -/
def Obligations.ResetStateValues : Prop :=
  State.reset.nc.node = .loading ∧ State.reset.nc.now = 0 ∧ State.reset.nc.rng = 0 ∧
    State.reset.runLine = false ∧ State.reset.faultLine = false ∧
    State.reset.counters = List.replicate 16 0 ∧ State.reset.ec.dropped = 0 ∧
    State.reset.cfe.ring = List.replicate 512 0 ∧ State.reset.cfe.history = List.replicate 128 0 ∧
    State.reset.cfe.offR = 0 ∧ State.reset.cfe.offP = 0 ∧ State.reset.cfe.cal = .idle ∧
    State.reset.cfe.window = .free ∧ State.reset.cfe.arrival = .free ∧
    State.reset.iw.bursts = [] ∧ State.reset.iw.slots = List.replicate 8 .free ∧ State.reset.iw.nextBurst = 0 ∧
    State.reset.ce = ⟨none, []⟩ ∧
    State.reset.ptu.schedule = .off ∧ State.reset.ptu.nextProbe = 0 ∧ State.reset.ptu.history = [] ∧
    State.reset.ptu.heard = [] ∧ State.reset.ptu.arrivals = [] ∧
    State.reset.ptu.table = List.replicate 12 none ∧ State.reset.ptu.partner = none ∧
    State.reset.pu.notices = [] ∧ State.reset.pu.lastPair = none ∧
    State.reset.ft.places = List.replicate 16 none ∧ State.reset.ft.nextFix = 0 ∧
    State.reset.ec.watching = false ∧ State.reset.ec.baseline = [] ∧ State.reset.ec.candidates = [] ∧
    State.reset.ec.findings = [] ∧ State.reset.ec.nextFinding = 0 ∧
    State.reset.lc.mac = .idle ∧ State.reset.lc.nextSeq = 0 ∧ State.reset.lc.listenerSeq = none ∧
    State.reset.na.queue = [] ∧ State.reset.na.floor = 0 ∧ State.reset.na.hush = none ∧ State.reset.na.dump = none ∧
    State.reset.pending = []

/-- The invariants hold right after reset. -/
def Obligations.ResetStateMeetsInvariants : Prop :=
  LinkOk State.reset ∧ EngineOk State.reset ∧ BurstsOk State.reset ∧ FrontBounded State.reset ∧
    TablesBounded State.reset ∧ QueueBounded State.reset ∧ CountersBounded State.reset

/-- R1: an assertion of the reset line ends every operation where it stands: the detector and the probe schedule are OFF
(R40, R75), a hush is over (R162) and the STATE timer stopped (R163). Entry 1 (DEDUCED): the tables and lists stand till the
release. While the line is asserted no command but the line's own and the carrier edges changes anything; the edges are
followed as pins (entries 9 and 23, DESIGN CHOICE), and the clock stands (entry 3, DESIGN CHOICE; R14). -/
def Obligations.ResetLineStopsTheNode : Prop :=
  (∀ s : State, ∃ t, exec .resetAssert s = .next t ∧
    t.nc = { s.nc with node := .held, now := 0, reading := false, sampled := false } ∧
    t.runLine = false ∧ t.faultLine = false ∧
    t.cfe = { s.cfe with
      cal := .idle, calDue := none, window := .free, arrival := .free, chirp := none, emitter := 0, envelope := none
      probeValue := none } ∧
    t.iw = { s.iw with detector := .off, slots := List.replicate 8 .free } ∧ t.ce = ⟨none, []⟩ ∧
    t.ptu = { s.ptu with schedule := .off } ∧
    t.lc = { s.lc with mac := .idle, tx := none, chA := t.lc.chA, chB := t.lc.chB } ∧
    (∀ c, t.lc.channel c = { s.lc.channel c with
      jammed := false, jamTime := none, jamClear := none, receiver := none }) ∧
    t.na = { s.na with hush := none, stateTimer := none, queue := t.na.queue } ∧
    t.na.queue = s.na.queue.map (fun n => { n with inFlight := false }) ∧
    UnchangedBut [.nc, .cfe, .iw, .ce, .ptu, .lc, .na] s t) ∧
  (∀ (i : Instr) (s : State), s.nc.node = .held → i ≠ .resetAssert → i ≠ .resetRelease →
    (∀ ch, i ≠ .carrierRise ch ∧ i ≠ .carrierFall ch) → exec i s = .next s) ∧
  (∀ (ch : ChanId) (s : State), s.nc.node = .held → s.lc.mac = .idle →
    ((s.lc.channel ch).carrier = false → ∃ t, exec (.carrierRise ch) s = .next t ∧
      t.lc = s.lc.setChannel ch { s.lc.channel ch with carrier := true, jamTime := none, jamClear := none } ∧
      UnchangedBut [.lc] s t) ∧
    ((s.lc.channel ch).carrier = true → (s.lc.channel ch).receiver = none →
      ∃ t, exec (.carrierFall ch) s = .next t ∧
        t.lc = s.lc.setChannel ch { s.lc.channel ch with
          carrier := false, jamTime := none, jamClear := none, idle := 0 } ∧ UnchangedBut [.lc] s t)) ∧
  (∀ s : State, s.nc.node = .held → s.pending = [] → step s = .next s)

/-- R23, R24: the seed, the generator's step in its three stages, and the draw in 0 … N: the number of the first output
whose low bits do not exceed N. A state other than 0 never steps to 0. The bound on the rejections is entry 16 (DESIGN
CHOICE). -/
def Obligations.RandomSourceStepsAndDraws : Prop :=
  seed 0 = 1 ∧ (∀ id, 1 ≤ id → id ≤ 255 → (seed id).toNat = id * 16843009) ∧
  (∀ x : Seed, ∃ a b, a = x ^^^ (x <<< 13) ∧ b = a ^^^ (a >>> 17) ∧ rngStep x = b ^^^ (b <<< 5)) ∧
  (∀ x : Seed, x ≠ 0 → rngStep x ≠ 0) ∧
  (∀ x, draw 0 x = (0, x)) ∧ (∀ n x, (draw n x).1 ≤ n) ∧
  (∀ (n b m : Nat) (x : Seed), 0 < n → 2 ^ (b - 1) ≤ n → n < 2 ^ b → m < 2 ^ 32 →
    (∀ k, k < m → n < (rngStep^[k + 1] x).toNat % 2 ^ b) → (rngStep^[m + 1] x).toNat % 2 ^ b ≤ n →
    draw n x = ((rngStep^[m + 1] x).toNat % 2 ^ b, rngStep^[m + 1] x))

/-- R1: at the release every block takes its power-on values and the node enters LOADING. The carrier pins, kept as last
given (entry 23), the commands that wait (entry 27), the count of free values taken (`fresh`, entry 5) and the configuration
values held during LOADING (entry 2) are DESIGN CHOICES of the model. -/
def Obligations.ResetReleaseGivesPowerOnValues : Prop :=
  ∀ s : State, s.nc.node = .held →
    ∃ t, exec .resetRelease s = .next t ∧ t.nc = { Nc.reset with fresh := s.nc.fresh } ∧
      t.nc.node = .loading ∧ t.nc.now = 0 ∧ t.nc.reading = true ∧
      t.cfe = Cfe.reset ∧ t.iw = Iw.reset ∧ t.ce = Ce.reset ∧ t.ptu = Ptu.reset ∧ t.pu = Pu.reset ∧
      t.ft = Ft.reset ∧ t.ec = Ec.reset ∧ t.na = Na.reset ∧
      t.lc.chA = { Channel.reset with carrier := s.lc.chA.carrier } ∧
      t.lc.chB = { Channel.reset with carrier := s.lc.chB.carrier } ∧
      t.lc.mac = .idle ∧ t.lc.tx = none ∧ t.lc.ownEnd = none ∧ t.lc.nextSeq = 0 ∧ t.lc.listenerSeq = none ∧
      t.lc.bad = 0 ∧ t.lc.otherRun = 0 ∧ t.lc.dropped = 0 ∧ t.pending = s.pending

/-! ## Node states and configuration (chapter 01) -/

/-- R2, R5, R7, R13, R23: the end of the read, and the read not ended within 20 ms, which both may come at line time 16,000,000
(entry 26, DEDUCED). R13, R143, R144: both channels are then CLEAR and HUNTING, JAM_TIME running on a used one whose carrier is
up; R150: their idle time counts from then (entry 13, DEDUCED). That the calibration then waits as WAITING is entry 28 (DESIGN CHOICE). -/
def Obligations.ConfigurationReadEndsLoading : Prop :=
  (∀ (o : ReadOutcome) (s : State), s.nc.node = .loading → readPossible o = true → s.nc.now.toNat ≤ 16000000 →
    ∃ t, exec (.configReadEnd o) s = .next t ∧ t.nc.cfg = settledCfg o ∧
      (t.nc.node = .calibrating ∨ t.nc.node = .unnamed) ∧
      (t.nc.node = .calibrating ↔ ∃ block, o = .complete block ∧ byteAt block 0 = 198 ∧ byteAt block 1 = 41 ∧
        1 ≤ (byteAt block 2).toNat ∧ (byteAt block 2).toNat ≤ 254) ∧
      t.nc.rng = seed (settledCfg o).nodeId ∧ t.nc.reading = false ∧ t.nc.now = s.nc.now ∧
      (t.nc.node = .calibrating → t.cfe.cal = .waiting) ∧ (t.nc.node = .unnamed → t.cfe.cal = .idle) ∧
      t.lc.chA.jamTime = (if s.lc.chA.carrier = true then some (plus s.nc.now 40000000) else none) ∧
      t.nc = { s.nc with node := t.nc.node, cfg := t.nc.cfg, rng := t.nc.rng, reading := false } ∧
      t.cfe = { s.cfe with cal := t.cfe.cal } ∧ t.lc = { s.lc with chA := t.lc.chA, chB := t.lc.chB } ∧
      (∀ c, t.lc.channel c = { s.lc.channel c with
        jammed := false, jamClear := none, receiver := none, idle := 0
        jamTime := if (c = .a ∨ (settledCfg o).dual = true) ∧ (s.lc.channel c).carrier = true
          then some (plus s.nc.now 40000000) else none }) ∧
      UnchangedBut [.nc, .cfe, .lc] s t) ∧
  (∀ s : State, s.nc.node = .loading → 16000000 ≤ s.nc.now.toNat →
    ∃ t, exec .configReadTimeout s = .next t ∧ t.nc.node = .unnamed ∧ t.nc.cfg = Cfg.default ∧
      t.nc.rng = 1 ∧ t.nc.now = s.nc.now ∧ t.cfe.cal = .idle ∧
      t.nc = { s.nc with node := .unnamed, cfg := Cfg.default, rng := 1, reading := false } ∧
      t.cfe = { s.cfe with cal := .idle } ∧ t.lc = { s.lc with chA := t.lc.chA, chB := t.lc.chB } ∧
      (∀ c, t.lc.channel c = { s.lc.channel c with
        jammed := false, jamClear := none, receiver := none, idle := 0
        jamTime := if (s.lc.channel c).carrier = true then some (plus s.nc.now 40000000) else none }) ∧
      UnchangedBut [.nc, .cfe, .lc] s t)

/-- R3, R4, R172: of the 64 bytes every field with a range is taken as read when in range, at the nearer end when not, and
at its default when every byte of it reads 255; NODE_ID, RUN_NO and POSITION are taken as read; LOWER_TH is at most
UPPER_TH. -/
def Obligations.LoadedConfigurationLiesInRange : Prop :=
  ∀ block : Bytes, block.length = 64 →
    let c := loadCfg block
    c.nodeId = (byteAt block 2).toNat ∧ c.runNo = (byteAt block 3).toNat ∧
    c.position = 256 * (byteAt block 4).toNat + (byteAt block 5).toNat ∧
    FieldTaken block 6 2 600 950 870 c.vf ∧ FieldTaken block 8 2 250 4000 1000 c.probePeriod ∧
    FieldTaken block 10 2 1 2047 300 c.upperTh ∧
    (∃ v, FieldTaken block 12 2 0 2047 200 v ∧ c.lowerTh = min v c.upperTh) ∧
    FieldTaken block 14 1 0 15 3 c.confirmN ∧ FieldTaken block 15 2 1 2047 256 c.probeTh ∧
    FieldTaken block 17 2 0 500 40 c.pairMargin ∧ FieldTaken block 19 2 0 4080 600 c.sigLimit ∧
    FieldTaken block 21 2 10 1000 60 c.mergeRadius ∧ FieldTaken block 23 1 1 32 3 c.announceCount ∧
    FieldTaken block 24 2 10 3600 600 c.fixAge ∧ FieldTaken block 26 1 1 127 8 c.echoFloor ∧
    FieldTaken block 27 1 5 200 20 c.markMatch ∧ FieldTaken block 28 1 1 15 3 c.persist ∧
    FieldTaken block 29 1 1 127 24 c.growStep ∧ FieldTaken block 30 1 1 16 4 c.baseRuns ∧
    FieldTaken block 31 2 10 500 50 c.posTol ∧
    (byteAt block 33 = 0 → c.dual = false) ∧ (byteAt block 33 ≠ 0 → c.dual = true) ∧
    (field block 34 2 = 0 → c.statePeriod = 0) ∧ (field block 34 2 ≠ 0 → FieldTaken block 34 2 5 3600 60 c.statePeriod) ∧
    FieldTaken block 36 1 0 6 6 c.levelBurst ∧ FieldTaken block 37 1 0 6 5 c.levelFix ∧
    FieldTaken block 38 1 0 6 4 c.levelEcho ∧ FieldTaken block 39 1 0 6 3 c.levelReply ∧
    FieldTaken block 40 1 0 6 1 c.levelState

/-! ## Conversions (chapter 02) -/

/-- R20, R21: conv clamps its input, and both conversions round the quotient to the nearest integer with halves away from
zero and take the input's sign. -/
def Obligations.ConversionsRoundToNearest : Prop :=
  (∀ (vf : Nat) (t : Int),
    let x := max (-(2 ^ 31 - 1)) (min (2 ^ 31 - 1) t) * vf * 37474
    2 * (x - 10000000 * conv vf t).natAbs ≤ 10000000 ∧
    (2 * (x - 10000000 * conv vf t).natAbs = 10000000 → x.natAbs ≤ (10000000 * conv vf t).natAbs) ∧
    (0 ≤ t → 0 ≤ conv vf t) ∧ (t ≤ 0 → conv vf t ≤ 0) ∧ conv vf 0 = 0 ∧ conv vf (-t) = -conv vf t) ∧
  (∀ (vf : Nat) (dm : Int), 0 < vf →
    let y := dm * 10000000
    let d : Int := vf * 37474
    2 * (y - d * ticks vf dm).natAbs ≤ d.natAbs ∧
    (2 * (y - d * ticks vf dm).natAbs = d.natAbs → y.natAbs ≤ (d * ticks vf dm).natAbs) ∧
    (0 ≤ dm → 0 ≤ ticks vf dm) ∧ ticks vf (-dm) = -ticks vf dm) ∧
  ticks 600 66035 = 29369

/-! ## Front end and schedule (chapters 03 and 06) -/

/-- R30: a calibration that waits starts at a block's line time when nothing defers it, and not when something does; the
due timer makes an IDLE calibration wait. R28, R30, R6: 2048 ticks after its start (entry 10, DEDUCED) a calibration writes
both offsets and sets the next due time. R77: its end lets a BLOCKED probe schedule go on (`unblock`). The first one of a
CALIBRATING node leads to RUNNING with its schedules instead. That a node enters CALIBRATING with the calibration WAITING, and starts it at the next block if it comes after the sample of a
block's line time, is entry 28 (DESIGN CHOICE), and so is that no calibration starts after that sample. -/
def Obligations.CalibrationWaitsStartsAndEnds : Prop :=
  (∀ s : State, s.nc.node ≠ .held → s.cfe.cal = .waiting → s.nc.now.toNat % 64 = 0 → s.nc.sampled = false →
    ((s.iw.detector.isOpen = false ∧ (∀ w ∈ s.iw.slots, w.isFilling = false) ∧ s.cfe.window.isCapturing = false ∧
        s.cfe.arrival.isCapturing = false) ∨ s.nc.node = .calibrating) →
    ∃ t, exec .calibrationStart s = .next t ∧
      t.cfe = { s.cfe with cal := .running s.nc.now 0 0 0 0, envelope := none, probeValue := none } ∧
      UnchangedBut [.cfe] s t) ∧
  (∀ s : State, s.nc.node ≠ .calibrating →
    (s.iw.detector.isOpen = true ∨ (∃ w ∈ s.iw.slots, w.isFilling = true) ∨ s.cfe.window.isCapturing = true ∨
      s.cfe.arrival.isCapturing = true) → exec .calibrationStart s = .next s) ∧
  (∀ s : State, s.nc.node ≠ .held → expired s.nc.now s.cfe.calDue = true →
    ∃ t, exec .calibrationDue s = .next t ∧
      t.cfe = { s.cfe with calDue := none, cal := if s.cfe.cal = .idle then .waiting else s.cfe.cal } ∧
      UnchangedBut [.cfe] s t) ∧
  (∀ (s : State) (start : Time) (rP rN pP pN : Int), s.nc.node ≠ .held → s.cfe.cal = .running start rP rN pP pN →
    2048 ≤ diff s.nc.now start →
    let cfe := { s.cfe with
        offR := clampInt (roundHalfAway (rP + rN) 512) (-255) 255
        offP := clampInt (roundHalfAway (pP + pN) 512) (-255) 255
        cal := .idle, calDue := some (plus s.nc.now 48000000000) }
    (s.nc.node ≠ .calibrating → exec .calibrationEnd s = .next (unblock { s with cfe := cfe })) ∧
    (s.nc.node = .calibrating → ∃ t, exec .calibrationEnd s = .next t ∧ t.cfe = cfe ∧
        t.nc = { s.nc with node := .running, rng := t.nc.rng } ∧ t.runLine = true ∧
        (∃ d : Nat, d ≤ 1000 * s.nc.cfg.probePeriod ∧ t.ptu = { s.ptu with
          schedule := .counting (plus s.nc.now (800 * d : Nat)) }) ∧
        t.na = { s.na with
          stateTimer := if s.nc.cfg.statePeriod = 0 then none
            else some (plus s.nc.now (800000000 * s.nc.cfg.statePeriod : Nat)) } ∧
        t.iw = { s.iw with detector := if s.nc.cfg.confirmN = 0 then .off else .watch 0 0 0 } ∧
        UnchangedBut [.nc, .cfe, .iw, .ptu, .na] s t))

/-- R37: a probe-band value is taken as a trigger exactly under the four conditions and at PROBE_TH or more; any other value is
let go. R38: the capture begins with the samples from T − 256 on that are already taken (`samplesFrom`). R82: of four arrival
records the one of earliest trigger is discarded and counted. R77: PROBE_GUARD, taken as a timer, runs to T + 120,000,001
(entry 11, DEDUCED). R26, R27: a history holds its newest sample first, and the samples from an instant on are read from it
oldest first, up to the latest instant whose samples are taken; that the bit `sampled` says so at the line time itself is entry
25 (DESIGN CHOICE). -/
def Obligations.ProbeBandValueTriggersCapture : Prop :=
  (∀ (s : State) (v : BlockValue), s.nc.node ≠ .held → s.cfe.probeValue = some v →
    (s.nc.node = .running → s.cfe.arrival = .free → s.cfe.window.isCapturing = false → s.cfe.cal.isRunning = false →
      s.nc.cfg.probeTh ≤ v.value →
      ∃ t xs, exec .probeBandValue s = .next t ∧ t.cfe = { s.cfe with
          probeValue := none, arrival := .capturing (plus v.block (-256)) v.block xs } ∧
        xs = samplesFrom s s.cfe.history (plus v.block (-256)) ∧
        t.ptu = { s.ptu with
          lastTrigger := some v.block, guard := some (plus v.block 120000001)
          arrivals := t.ptu.arrivals, discarded := t.ptu.discarded } ∧
        (∃ kept, t.ptu.arrivals = kept ++ [⟨v.block, .capturing, none, some (plus v.block 80000000)⟩] ∧
          (s.ptu.arrivals.length < 4 → kept = s.ptu.arrivals ∧ t.ptu.discarded = s.ptu.discarded) ∧
          (s.ptu.arrivals.length = 4 → kept.length = 3 ∧ t.ptu.discarded = min (s.ptu.discarded + 1) 65535 ∧
            ∀ (i : Nat) (a : Arrival), s.ptu.arrivals[i]? = some a →
              (∀ (j : Nat) (b : Arrival), s.ptu.arrivals[j]? = some b → j ≠ i →
                earlier a.trigger b.trigger = true ∨ (earlier b.trigger a.trigger = false ∧ i < j)) →
              kept = s.ptu.arrivals.eraseIdx i)) ∧
        UnchangedBut [.cfe, .ptu] s t) ∧
    (s.nc.node ≠ .running ∨ s.cfe.arrival ≠ .free ∨ s.cfe.window.isCapturing = true ∨ s.cfe.cal.isRunning = true ∨
      v.value < s.nc.cfg.probeTh →
      ∃ t, exec .probeBandValue s = .next t ∧ t.cfe = { s.cfe with probeValue := none } ∧ UnchangedBut [.cfe] s t)) ∧
  (∀ (s : State) (history : List Int) (from_ : Time),
    let newest := if s.nc.now.toNat % 4 = 0 ∧ s.nc.sampled = false then plus s.nc.now (-4)
      else plus s.nc.now (-((s.nc.now.toNat % 4 : Nat) : Int))
    (diff newest from_ < 0 → samplesFrom s history from_ = []) ∧
    (0 ≤ diff newest from_ →
      samplesFrom s history from_ = (history.take ((diff newest from_).toNat / 4 + 1)).reverse))

/-- R35, R80, R39, R83: a full probe window or arrival capture is handed to the engine, or freed when the queue is full
or the node is CLASHED; the window's freeing lets a BLOCKED probe schedule go on (R77, `unblock`); the arrival record of a capture handed over passes to TIMING, that of one refused is removed and
counted. -/
def Obligations.FullCapturesAreHandedOver : Prop :=
  (∀ (s : State) (e : Time) (xs : List Int), s.nc.node ≠ .held → s.cfe.window = .capturing e xs → 2048 ≤ xs.length →
    (s.nc.node ≠ .clashed → s.ce.running = none → exec .probeWindowFull s = .next { s with
      cfe := { s.cfe with window := .held e xs }
      ce := { s.ce with running := some ⟨.echo e, 1, 8, plus s.nc.now 57600⟩ } }) ∧
    (s.nc.node ≠ .clashed → s.ce.running ≠ none → s.ce.waiting.length < 4 → exec .probeWindowFull s = .next { s with
      cfe := { s.cfe with window := .held e xs }
      ce := { s.ce with waiting := s.ce.waiting ++ [.echo e] } }) ∧
    (s.nc.node = .clashed ∨ (s.ce.running ≠ none ∧ 4 ≤ s.ce.waiting.length) →
      exec .probeWindowFull s = .next (unblock { s with cfe := { s.cfe with window := .free } }))) ∧
  (∀ (s : State) (c u : Time) (xs : List Int), s.nc.node ≠ .held → s.cfe.arrival = .capturing c u xs →
    512 ≤ xs.length →
    ∃ t, exec .arrivalCaptureFull s = .next t ∧
      (s.nc.node ≠ .clashed → s.ce.running = none ∨ s.ce.waiting.length < 4 →
        t.cfe = { s.cfe with arrival := .held c u xs } ∧
        (s.ce.running = none → t.ce = { s.ce with running := some ⟨.arrival c u, 1, 8, plus s.nc.now 8000⟩ }) ∧
        (s.ce.running ≠ none → t.ce = { s.ce with waiting := s.ce.waiting ++ [.arrival c u] }) ∧
        (∀ i a, s.ptu.arrivals[i]? = some a → a.trigger = u →
          (∀ k, k < i → ∀ x, s.ptu.arrivals[k]? = some x → x.trigger ≠ u) →
          t.ptu = { s.ptu with arrivals := s.ptu.arrivals.set i { a with state := .timing } }) ∧
        ((∀ a ∈ s.ptu.arrivals, a.trigger ≠ u) → t.ptu = s.ptu) ∧ UnchangedBut [.cfe, .ce, .ptu] s t) ∧
      (s.nc.node ≠ .clashed → s.ce.running ≠ none → 4 ≤ s.ce.waiting.length →
        t.cfe = { s.cfe with arrival := .free } ∧
        (∀ i a, s.ptu.arrivals[i]? = some a → a.trigger = u →
          (∀ k, k < i → ∀ x, s.ptu.arrivals[k]? = some x → x.trigger ≠ u) →
          t.ptu = { s.ptu with
            arrivals := s.ptu.arrivals.eraseIdx i, discarded := min (s.ptu.discarded + 1) 65535 }) ∧
        ((∀ a ∈ s.ptu.arrivals, a.trigger ≠ u) → t.ptu = s.ptu) ∧ UnchangedBut [.cfe, .ptu] s t) ∧
      (s.nc.node = .clashed → t.cfe = { s.cfe with arrival := .free } ∧ UnchangedBut [.cfe] s t))

/-- R75, R76, R78, R79, R34: when the five conditions hold, PROBE_DUE and SETTLE_EXPIRY emit: the first sample instant from
now on is E, the window captures from E, with the sample of E and the first chirp sample in it if that is already taken
(`samplesFrom`, by the bit of entry 25, DESIGN CHOICE), the number is used and recorded, the heard list goes into the PROBE
NOTE, and the next due time is set. The MAC's choice that follows is `serve`. -/
def Obligations.EmissionTakesNumberAndNote : Prop :=
  ∀ s : State, s.nc.node = .running → s.na.hush = none → (∀ n ∈ s.na.queue, n.content.isProbe = false) →
    s.cfe.window = .free → s.ptu.guard = none → s.cfe.cal.isRunning = false → s.na.queue.length < 16 →
    ∀ i, (i = .probeDue ∧ (∃ d, s.ptu.schedule = .counting d ∧ reached s.nc.now d = true)) ∨
        (i = .settleExpiry ∧ (∃ d, s.ptu.schedule = .settling d ∧ reached s.nc.now d = true)) →
    ∃ (u : State) (e : Time) (d : Nat) (xs : List Int) (n : Note), exec i s = .next (serve u) ∧
      e.toNat % 4 = 0 ∧ 0 ≤ diff e s.nc.now ∧ diff e s.nc.now ≤ 3 ∧
      xs = samplesFrom s s.cfe.history e ∧ u.cfe = { s.cfe with
        window := .capturing e xs, chirp := some xs.length
        emitter := if xs = [] then s.cfe.emitter else chirpSample 0 } ∧
      u.cfe.window = .capturing e xs ∧ u.cfe.chirp.isSome = true ∧ u.ptu.nextProbe = s.ptu.nextProbe + 1 ∧
      u.ptu.history = keepNewest 4 (s.ptu.history ++ [⟨s.ptu.nextProbe, e⟩]) ∧ u.ptu.heard = [] ∧
      d ≤ 125 * s.nc.cfg.probePeriod ∧
      u.ptu.schedule = .counting (plus e (800000 * s.nc.cfg.probePeriod + 800 * d : Nat)) ∧
      u.na.queue = s.na.queue ++ [n] ∧ n.content = .probe s.ptu.nextProbe e s.ptu.heard ∧ n.level = 7 ∧
      n.deadline = some (plus e 80000000) ∧ n.enqueued = s.nc.now ∧ n.link = none ∧ n.inFlight = false ∧
      u.nc = { s.nc with rng := u.nc.rng } ∧ u.na = { s.na with queue := u.na.queue } ∧
      u.ptu = { s.ptu with
        nextProbe := u.ptu.nextProbe, history := u.ptu.history, heard := [], schedule := u.ptu.schedule } ∧
      UnchangedBut [.nc, .cfe, .ptu, .na] s u

/-- R75, R77: when any of the five conditions fails the schedule passes to BLOCKED with the conditions that failed, and
nothing else happens. When the last trigger has aged past PROBE_GUARD, taken as a timer (entry 11, DEDUCED), a schedule
BLOCKED by the guard alone passes to SETTLING with a delay of 0 … PROBE_GUARD; one that failed at its test for a hush or a
window in force now stays BLOCKED, though that hush or window may have ended and begun again since (entry 12, DEDUCED). R77:
when any condition ceases to hold (`unblock`), a BLOCKED schedule none of whose failed conditions still fails passes to
SETTLING, and nothing else changes. -/
def Obligations.EmissionHeldBackUntilConditionsClear : Prop :=
  (∀ s : State, s.nc.node ≠ .held →
      (s.nc.node ≠ .running ∨ s.na.hush ≠ none ∨ (∃ n ∈ s.na.queue, n.content.isProbe = true) ∨ s.cfe.window ≠ .free ∨
        s.ptu.guard ≠ none ∨ s.cfe.cal.isRunning = true) →
      ∀ i, (i = .probeDue ∧ (∃ d, s.ptu.schedule = .counting d ∧ reached s.nc.now d = true)) ∨
          (i = .settleExpiry ∧ (∃ d, s.ptu.schedule = .settling d ∧ reached s.nc.now d = true)) →
      ∃ t, exec i s = .next t ∧ t.ptu = { s.ptu with schedule := .blocked (failing s) } ∧ UnchangedBut [.ptu] s t) ∧
  (∀ s : State, s.nc.node ≠ .held → expired s.nc.now s.ptu.guard = true →
    ∃ t, exec .probeGuardExpiry s = .next t ∧ t.ptu.guard = none ∧
      t.ptu = { s.ptu with guard := none, schedule := t.ptu.schedule } ∧ t.nc = { s.nc with rng := t.nc.rng } ∧
      (∀ w, s.ptu.schedule = .blocked w →
        (w.hushed = false ∧ w.note = false ∧ w.window = false ∧ w.calibrating = false →
          ∃ d : Nat, d ≤ 150000 ∧ t.ptu.schedule = .settling (plus s.nc.now (800 * d : Nat))) ∧
        ((w.hushed = true ∧ s.na.hush ≠ none) ∨ (w.window = true ∧ s.cfe.window ≠ .free) →
          t.ptu.schedule = .blocked w)) ∧
      t = unblock (s.withPtu { s.ptu with guard := none }) ∧
      UnchangedBut [.nc, .ptu] s t) ∧
  ∀ s : State,
    ((∀ w, s.ptu.schedule ≠ .blocked w) → unblock s = s) ∧
    (∀ w, s.ptu.schedule = .blocked w →
      let stands := (w.hushed = true ∧ (s.nc.node ≠ .running ∨ s.na.hush ≠ none)) ∨
        (w.note = true ∧ ∃ n ∈ s.na.queue, n.content.isProbe = true) ∨ (w.window = true ∧ s.cfe.window ≠ .free) ∨
        (w.guard = true ∧ s.ptu.guard ≠ none) ∨ (w.calibrating = true ∧ s.cfe.cal.isRunning = true)
      (stands → unblock s = s) ∧
      (¬stands → ∃ (d : Nat) (x : Seed), d ≤ 150000 ∧ unblock s = { s with
        nc := { s.nc with rng := x }
        ptu := { s.ptu with schedule := .settling (plus s.nc.now (800 * d : Nat)) } }))

/-- R92: θ_new, m_new and the distance of an exchange from its four times and the rate held, halves and shifts taken as floors
(R22). For two clocks that do not drift: from an emission at eA heard at eA + θ + d on the peer's clock and one at eB on the
peer's clock heard at eB − θ + d, the exchange gives back the offset θ and the distance of d ticks. R93: the rate update from
Δθ and Δm, with the jump streak that adopts or drops a rate at its third jump. -/
def Obligations.ExchangeFindsOffsetDistanceAndRate : Prop :=
  (∀ (vf : Nat) (eA eB : Time) (theta d : Int) (number : Byte),
    -(2 ^ 47) ≤ theta + d → theta + d < 2 ^ 47 → -(2 ^ 47) ≤ d - theta → d - theta < 2 ^ 47 →
    let x := exchangeOf vf ⟨eA, plus eA (theta + d)⟩ ⟨eB, plus eB (d - theta), number⟩ 0
    x.theta = theta ∧ x.distance = conv vf d) ∧
  (∀ (vf : Nat) (f : ForwardLeg) (r : ReverseLeg) (rate : Int),
    let fwd := diff f.hB f.eA
    let sum := fwd + diff r.hA r.eB
    exchangeOf vf f r rate = ⟨fwd - sum / 2, plus f.eA (diff r.hA f.eA / 2),
      conv vf ((sum - diff f.eA r.hA * rate / 2 ^ 32) / 2)⟩) ∧
  (∀ (dTheta dMid : Int) (rate : Option Int) (jumps : Nat),
    (dMid < 2 ^ 24 → updateRate dTheta dMid rate jumps = (rate, jumps)) ∧
    (2 ^ 24 ≤ dMid → 2 ^ 31 ≤ dTheta.natAbs →
      updateRate dTheta dMid rate jumps = if jumps < 2 then (rate, jumps + 1) else (none, 0)) ∧
    (2 ^ 24 ≤ dMid → dTheta.natAbs < 2 ^ 31 → ∃ m : Int,
      m = max (-(2 ^ 23 - 1)) (min (2 ^ 23 - 1) ((dTheta * 2 ^ 32).tdiv dMid)) ∧
      (rate = none → updateRate dTheta dMid rate jumps = (some m, 0)) ∧
      (∀ r, rate = some r → 2 ^ 19 < (m - r).natAbs →
        updateRate dTheta dMid rate jumps = if jumps < 2 then (rate, jumps + 1) else (some m, 0)) ∧
      (∀ r, rate = some r → (m - r).natAbs ≤ 2 ^ 19 →
        updateRate dTheta dMid rate jumps = (some (r + (m - r).tdiv 4), 0))))

/-- R91, R92, R94: a leg stored makes an exchange with the leg of the other direction when the two lie within LEG_SPAN, and
clears that leg when they do not; the exchange is counted and its distance kept; a consistent one takes θ, m and the rate
(`updateRate`) and restarts the staleness timer, an inconsistent one leaves them; the state and the streak follow the table,
and an entry whose m is past SYNC_AGE is STALE at once. -/
def Obligations.ExchangeVerdictSetsTheEntry : Prop :=
  (∀ (cfg : Cfg) (now : Time) (f : ForwardLeg) (n : Neighbour),
    (n.reverse = none → n.storeForward cfg now f = { n with forward := some f }) ∧
    (∀ r, n.reverse = some r → 1600000 * cfg.probePeriod < (diff f.eA r.hA).natAbs →
      n.storeForward cfg now f = { n with forward := some f, reverse := none }) ∧
    (∀ r, n.reverse = some r → (diff f.eA r.hA).natAbs ≤ 1600000 * cfg.probePeriod →
      n.storeForward cfg now f = { n with forward := some f }.exchange cfg now f r)) ∧
  (∀ (cfg : Cfg) (now : Time) (r : ReverseLeg) (n : Neighbour),
    (n.forward = none → n.storeReverse cfg now r = { n with reverse := some r }) ∧
    (∀ f, n.forward = some f → 1600000 * cfg.probePeriod < (diff f.eA r.hA).natAbs →
      n.storeReverse cfg now r = { n with reverse := some r, forward := none }) ∧
    (∀ f, n.forward = some f → (diff f.eA r.hA).natAbs ≤ 1600000 * cfg.probePeriod →
      n.storeReverse cfg now r = { n with reverse := some r }.exchange cfg now f r)) ∧
  (∀ (cfg : Cfg) (now : Time) (f : ForwardLeg) (r : ReverseLeg) (n : Neighbour),
    let x := exchangeOf cfg.vf f r (n.rate.getD 0)
    let m := n.exchange cfg now f r
    m = { n with
      state := m.state, streak := m.streak, sync := m.sync, rate := m.rate, jumps := m.jumps, stale := m.stale
      exchanges := min (n.exchanges + 1) 65535, distance := some (max 0 (min 65535 x.distance)).toNat } ∧
    (0 ≤ x.distance → (x.distance - ((n.position : Int) - cfg.position).natAbs).natAbs ≤ cfg.posTol →
      m.sync = some ⟨x.theta, x.mid⟩ ∧
      (n.sync = none → m.rate = n.rate ∧ m.jumps = n.jumps) ∧
      (∀ y, n.sync = some y →
        (m.rate, m.jumps) = updateRate (x.theta - y.theta) (diff x.mid y.mid) n.rate n.jumps) ∧
      (n.state ≠ .doubtful ∨ 2 ≤ n.streak → m.streak = 0) ∧
      (n.state = .doubtful → n.streak < 2 → m.streak = n.streak + 1) ∧
      (diff now x.mid ≤ (3200000 * cfg.probePeriod : Nat) →
        m.stale = some (plus x.mid (3200000 * cfg.probePeriod + 1 : Nat)) ∧
        m.state = if n.state = .doubtful ∧ n.streak < 2 then .doubtful else .synced) ∧
      ((3200000 * cfg.probePeriod : Nat) < diff now x.mid → m.stale = none ∧ m.state = .stale)) ∧
    (x.distance < 0 ∨ cfg.posTol < (x.distance - ((n.position : Int) - cfg.position).natAbs).natAbs →
      m.sync = n.sync ∧ m.rate = n.rate ∧ m.jumps = n.jumps ∧ m.streak = 0 ∧
      ((∀ y, n.sync = some y → diff now y.mid ≤ (3200000 * cfg.probePeriod : Nat)) →
        m.stale = n.stale ∧ m.state = .doubtful) ∧
      (∀ y, n.sync = some y → (3200000 * cfg.probePeriod : Nat) < diff now y.mid → m.stale = none ∧ m.state = .stale)))

/-- R96: the partner chosen is a SYNCED entry above the own position, the nearest such, of two the lower ID; none is
chosen exactly when there is no such entry. -/
def Obligations.PartnerIsNearestSyncedAbove : Prop :=
  ∀ (own : Nat) (table : List (Option Neighbour)),
    (∀ id, choosePartner own table = some id → ∃ n ∈ occupied table, n.id = id ∧ n.state = .synced ∧
      own < n.position ∧ ∀ m ∈ occupied table, m.state = .synced → own < m.position →
        n.position < m.position ∨ (n.position = m.position ∧ n.id ≤ m.id)) ∧
    (choosePartner own table = none ↔ ∀ m ∈ occupied table, m.state = .synced → m.position ≤ own)

/-! ## Ingress watch and engine (chapters 04 and 05) -/

/-- R40 to R42, R48, R53: in WATCH a value below UPPER_TH sets the count to 0, one that follows the run raises it, one that
does not starts a run of its own block; outside RUNNING a value is let go. The value that completes the run declares the
onset: counted, numbered, a record appended, the lowest free slot taken with the samples from the snapshot's start on that are
already taken (`samplesFrom`, by the bit of entry 25, DESIGN CHOICE), the detector OPEN; a full list first gives up its TIMED or
UNTIMED record of earliest coarse onset, a TIMED one counted. -/
def Obligations.WatchValuesCountAndDeclareOnsets : Prop :=
  (∀ (s : State) (v : BlockValue) (count : Nat) (first f : Time) (peak p : Nat), s.nc.node = .running →
    s.cfe.envelope = some v → s.iw.detector = .watch count first peak → s.nc.cfg.upperTh ≤ v.value →
    (count = 0 ∧ s.nc.cfg.confirmN = 1 ∧ f = v.block ∧ p = v.value) ∨
      (0 < count ∧ v.block = plus first (64 * count : Nat) ∧ s.nc.cfg.confirmN = count + 1 ∧ f = first ∧
        p = max peak v.value) →
    ∃ (t : State) (kept : List Burst) (b : Burst), exec .envelopeValue s = .next t ∧
      t.iw = { s.iw with
        detector := .opened ⟨s.iw.nextBurst, f, p, s.nc.cfg.confirmN, 0, false⟩, bursts := kept ++ [b]
        slots := t.iw.slots, nextBurst := s.iw.nextBurst + 1, seen := min (s.iw.seen + 1) 65535
        untimed := t.iw.untimed, evicted := t.iw.evicted } ∧
      (s.iw.bursts.length < 16 → kept = s.iw.bursts ∧ t.iw.evicted = s.iw.evicted) ∧
      (16 ≤ s.iw.bursts.length → ∀ i x, s.iw.bursts[i]? = some x → x.state = .timed ∨ x.state = .untimed →
        (∀ j y, s.iw.bursts[j]? = some y → j ≠ i → y.state = .timed ∨ y.state = .untimed →
          earlier x.onset y.onset = true) →
        kept = s.iw.bursts.eraseIdx i ∧
          t.iw.evicted = if x.state = .timed then min (s.iw.evicted + 1) 65535 else s.iw.evicted) ∧
      b = ⟨s.iw.nextBurst, b.state, true, f, p, s.nc.cfg.confirmN, b.slot, none, none⟩ ∧
      ((∀ w ∈ s.iw.slots, w ≠ .free) → b.state = .untimed ∧ b.slot = none ∧ t.iw.slots = s.iw.slots ∧
        t.iw.untimed = min (s.iw.untimed + 1) 65535) ∧
      (∀ i, s.iw.slots[i]? = some .free → (∀ j, j < i → s.iw.slots[j]? ≠ some .free) →
        b.state = .capturing ∧ b.slot = some i ∧ t.iw.untimed = s.iw.untimed ∧
        ∃ xs, xs = samplesFrom s s.cfe.ring (plus f (-512)) ∧
          t.iw.slots = s.iw.slots.set i (.filling (plus f (-512)) s.cfe.offR xs)) ∧
      t.cfe = { s.cfe with envelope := none } ∧ UnchangedBut [.cfe, .iw] s t) ∧
  (∀ (s : State) (v : BlockValue) (count : Nat) (first : Time) (peak : Nat), s.nc.node = .running →
    s.cfe.envelope = some v → s.iw.detector = .watch count first peak → 1 ≤ s.nc.cfg.confirmN →
    ∃ t, exec .envelopeValue s = .next t ∧ t.cfe = { s.cfe with envelope := none } ∧ UnchangedBut [.cfe, .iw] s t ∧
      (v.value < s.nc.cfg.upperTh → t.iw = { s.iw with detector := .watch 0 0 0 }) ∧
      (s.nc.cfg.upperTh ≤ v.value → 0 < count → v.block = plus first (64 * count : Nat) →
        count + 1 < s.nc.cfg.confirmN →
        t.iw = { s.iw with detector := .watch (count + 1) first (max peak v.value) }) ∧
      (s.nc.cfg.upperTh ≤ v.value → (count = 0 ∨ v.block ≠ plus first (64 * count : Nat)) → 1 < s.nc.cfg.confirmN →
        t.iw = { s.iw with detector := .watch 1 v.block v.value })) ∧
  (∀ (s : State), s.nc.node ≠ .held → (s.nc.node ≠ .running ∨ s.nc.cfg.confirmN = 0) →
    s.cfe.envelope ≠ none → ∃ t, exec .envelopeValue s = .next t ∧
      t.cfe = { s.cfe with envelope := none } ∧ UnchangedBut [.cfe] s t)

/-- R43 to R45, R54: each value in OPEN updates the below-run, the running duration and the peak, and the open record follows.
The eighth consecutive value below LOWER_TH ends the burst, which removes an UNTIMED or LONG record. The value that brings
the duration to 12,500 makes the burst LONG once: a QUEUED record gives up its slot, a TIMED one its PAIR_HOLD timer, and
the BURST NOTE of the burst is offered. -/
def Obligations.OpenBurstEndsOrTurnsLong : Prop :=
  (∀ (s : State) (v : BlockValue) (o : OpenBurst), s.nc.node = .running → 1 ≤ s.nc.cfg.confirmN →
    s.cfe.envelope = some v → s.iw.detector = .opened o →
    let peak := max o.peak v.value
    let index := diff v.block o.onset / 64
    ∃ t, exec .envelopeValue s = .next t ∧ t.cfe = { s.cfe with envelope := none } ∧
      (v.value < s.nc.cfg.lowerTh → o.below < 7 → o.long = true ∨ o.duration < 12500 →
        t.iw = { s.iw with
          detector := .opened { o with below := o.below + 1, peak := peak }
          bursts := s.iw.bursts.map fun b =>
            if b.opened = true then { b with peak := peak, duration := o.duration } else b } ∧
        UnchangedBut [.cfe, .iw] s t) ∧
      (v.value < s.nc.cfg.lowerTh → 7 ≤ o.below →
        t.iw = { s.iw with
          detector := .watch 0 0 0
          bursts := (s.iw.bursts.filter fun b => !(b.opened && (b.state == .untimed || b.state == .long))).map fun b =>
            if b.opened = true then { b with opened := false, peak := peak, duration := o.duration } else b } ∧
        UnchangedBut [.cfe, .iw] s t) ∧
      (s.nc.cfg.lowerTh ≤ v.value → o.long = true ∨ (o.duration < 12500 ∧ index < 12499) → ∃ d,
        d = max o.duration (min (index.toNat + 1) 65535) ∧
        t.iw = { s.iw with
          detector := .opened { o with below := 0, duration := d, peak := peak }
          bursts := s.iw.bursts.map fun b => if b.opened = true then { b with peak := peak, duration := d } else b } ∧
        UnchangedBut [.cfe, .iw] s t) ∧
      (s.nc.cfg.lowerTh ≤ v.value → o.long = false → 12499 ≤ index → ∃ d,
        d = max o.duration (min (index.toNat + 1) 65535) ∧
        t.iw = { s.iw with
          detector := .opened { o with below := 0, duration := d, peak := peak, long := true }
          bursts := s.iw.bursts.map fun b => if b.opened = true then { b with
              peak := peak, duration := d, state := if b.state = .capturing then .capturing else .long
              slot := if b.state = .queued then none else b.slot
              hold := if b.state = .timed then none else b.hold }
            else b } ∧
        (s.nc.cfg.levelBurst = 0 → UnchangedBut [.cfe, .iw] s t) ∧
        (s.nc.cfg.levelBurst ≠ 0 → s.na.queue.length < 16 → ∃ (u : State) (xs : List Nat), t = serve u ∧
          u.na = { s.na with queue := s.na.queue ++ [⟨.burst ⟨o.number, true, o.onset, peak, d, xs⟩,
            s.nc.cfg.levelBurst, s.nc.now, some (plus s.nc.now 200000000), none, false⟩] } ∧
          (∀ b x, s.iw.bursts.find? (·.opened) = some b → b.timing = some x → xs = x.signature) ∧
          ((∀ b, s.iw.bursts.find? (·.opened) = some b → b.timing = none) → xs = List.replicate 16 0) ∧
          UnchangedBut [.cfe, .iw, .na] s u)))

/-- R49, R55, R56: a full slot's job is submitted: taken, its record QUEUED; refused, the slot freed and its record UNTIMED
and counted; CLASHED, not submitted and not counted. -/
def Obligations.FullSnapshotSubmitsJob : Prop :=
  ∀ (s : State) (i j : Nat) (start : Time) (o : Int) (xs : List Int) (b : Burst), s.nc.node ≠ .held →
    s.iw.slots[i]? = some (.filling start o xs) → 512 ≤ xs.length → s.iw.bursts[j]? = some b → b.slot = some i →
    (∀ k, k < j → ∀ a, s.iw.bursts[k]? = some a → a.slot ≠ some i) →
    ∃ t, exec (.snapshotFull i) s = .next t ∧
      (s.nc.node ≠ .clashed → s.ce.running = none ∨ s.ce.waiting.length < 4 →
        t.iw.slots = s.iw.slots.set i (.job start o xs) ∧
        t.iw.bursts = s.iw.bursts.set j { b with state := .queued } ∧ t.iw.untimed = s.iw.untimed ∧
        (s.ce.running = none →
          t.ce = { s.ce with running := some ⟨.burst i start o, 1, 8, plus s.nc.now 2400⟩ }) ∧
        (s.ce.running ≠ none → t.ce = { s.ce with waiting := s.ce.waiting ++ [.burst i start o] }) ∧
        UnchangedBut [.iw, .ce] s t) ∧
      (s.nc.node ≠ .clashed → s.ce.running ≠ none → 4 ≤ s.ce.waiting.length →
        t.iw.slots = s.iw.slots.set i .free ∧ t.iw.untimed = min (s.iw.untimed + 1) 65535 ∧
        (b.opened = true → t.iw.bursts = s.iw.bursts.set j { b with state := .untimed, slot := none }) ∧
        (b.opened = false → t.iw.bursts = s.iw.bursts.eraseIdx j) ∧ UnchangedBut [.iw] s t) ∧
      (s.nc.node = .clashed → t.iw.slots = s.iw.slots.set i .free ∧ t.iw.untimed = s.iw.untimed ∧
        t.iw.bursts = s.iw.bursts.set j { b with state := .untimed, slot := none } ∧ UnchangedBut [.iw] s t)

/-- R60, R63: at a pass's end a clamped output below S 20 makes the job run again with S + 4 and nothing else; the last
pass starts the oldest waiting job and frees the job's own buffer. -/
def Obligations.PassEndRerunsOrReportsDone : Prop :=
  ∀ (s : State) (r : Running), s.nc.node ≠ .held → s.ce.running = some r → reached s.nc.now r.endsAt = true →
    ∃ t, exec .passEnd s = .next t ∧
      ((∃ a ∈ jobAccs s r.job, isClamped r.shift a = true) → r.shift < 20 →
        t.ce = { s.ce with running := some ⟨r.job, r.pass + 1, r.shift + 4, plus s.nc.now r.job.passTicks⟩ } ∧
        UnchangedBut [.ce] s t) ∧
      ((∀ a ∈ jobAccs s r.job, isClamped r.shift a = false) ∨ 20 ≤ r.shift →
        t.ce = s.ce.advance s.nc.now ∧ (s.ce.waiting = [] → t.ce = ⟨none, []⟩) ∧
        (∀ j js, s.ce.waiting = j :: js → t.ce = ⟨some ⟨j, 1, 8, plus s.nc.now j.passTicks⟩, js⟩) ∧
        (∀ i start o, r.job = .burst i start o → t.iw.slots = s.iw.slots.set i .free ∧ t.cfe = s.cfe) ∧
        (∀ c u, r.job = .arrival c u → t.cfe = { s.cfe with arrival := .free } ∧ t.iw.slots = s.iw.slots) ∧
        (∀ e, r.job = .echo e → t.cfe = { s.cfe with window := .free } ∧ t.iw.slots = s.iw.slots)) ∧
      t.nc = { s.nc with rng := t.nc.rng }

/-- R50, R54, R80, R83, R130: what a DONE does with its result. In RUNNING, no output clamped: the record of a BURST TIMING job
becomes TIMED with the fine onset and signature, its BURST NOTE is offered (`offerBurst`) and then the record to pairing
(`offerRecord`); an unlabelled arrival record becomes GOOD with the arrival time, a labelled one a reverse leg
(`makeReverseLeg`), one OVERLAPPED is discarded and counted; a result without its record is let go; an INVALID profile is
counted, and a pending REBASE then taken (R140). CLASHED: the result is let go, the burst's record UNTIMED and not counted, the
arrival list as it stands. SATURATED: the burst's record is UNTIMED and counted, and leaves if its burst has ended, as
`deliver` takes such a result (no accumulator of a BURST TIMING job is clamped at S 20, R63); the arrival is discarded and
counted, the profile INVALID. R64, R65: the peak and the interpolation step. R66, R67: the fine onset and the 16 points of the
signature. R68, R69: the arrival time, of a GOOD result alone. -/
def Obligations.DoneResultReachesItsRecord : Prop :=
  (∀ (s : State) (r : Running), s.nc.node = .running → s.ce.running = some r → reached s.nc.now r.endsAt = true →
    (∀ a ∈ jobAccs s r.job, isClamped r.shift a = false) →
    ∃ t, exec .passEnd s = .next t ∧
      (∀ i start o xs j b, r.job = .burst i start o → s.iw.slots[i]? = some (.job start o xs) →
        s.iw.bursts[j]? = some b → b.slot = some i → (∀ k, k < j → ∀ a, s.iw.bursts[k]? = some a → a.slot ≠ some i) →
        ∃ (u : State) (fine : Time) (sig : List Nat), fine = fineOnset start (passOutputs s r) ∧
          sig = signatureOf (xs.map (rectify o)) ∧
          u.iw = { s.iw with
            slots := s.iw.slots.set i .free
            bursts := s.iw.bursts.set j { b with
              state := .timed, slot := none, hold := some (plus s.nc.now 400000000)
              timing := some ⟨fine, sig, s.nc.now⟩ } } ∧
          t = offerRecord j (offerBurst ⟨b.number, false, fine, b.peak, b.duration, sig⟩ u) ∧
          (s.nc.cfg.levelBurst = 0 → s.ptu.partner = none → t = u) ∧ u.ce = s.ce.advance s.nc.now ∧
          UnchangedBut [.iw, .ce] s u) ∧
      (∀ c u i a hA, r.job = .arrival c u → s.ptu.arrivals[i]? = some a → a.trigger = u → a.label = none →
        (∀ k, k < i → ∀ x, s.ptu.arrivals[k]? = some x → x.trigger ≠ u) →
        arrivalTime false c (passOutputs s r) = some hA →
        t.ptu = { s.ptu with arrivals := s.ptu.arrivals.set i { a with state := .good hA } } ∧
        UnchangedBut [.cfe, .ce, .ptu] s t) ∧
      (∀ c u i a l hA, r.job = .arrival c u → s.ptu.arrivals[i]? = some a → a.trigger = u → a.label = some l →
        (∀ k, k < i → ∀ x, s.ptu.arrivals[k]? = some x → x.trigger ≠ u) →
        arrivalTime false c (passOutputs s r) = some hA →
        t = makeReverseLeg l hA { s with
          cfe := { s.cfe with arrival := .free }
          ce := s.ce.advance s.nc.now
          ptu := { s.ptu with arrivals := s.ptu.arrivals.eraseIdx i } }) ∧
      (∀ c u i a, r.job = .arrival c u → s.ptu.arrivals[i]? = some a → a.trigger = u →
        (∀ k, k < i → ∀ x, s.ptu.arrivals[k]? = some x → x.trigger ≠ u) → arrivalTime false c (passOutputs s r) = none →
        t.ptu = { s.ptu with
          arrivals := s.ptu.arrivals.eraseIdx i, discarded := min (s.ptu.discarded + 1) 65535 } ∧
        UnchangedBut [.cfe, .ce, .ptu] s t)) ∧
  (∀ (n : BurstNote) (u : State), (u.nc.cfg.levelBurst = 0 → offerBurst n u = u) ∧
    (u.nc.cfg.levelBurst ≠ 0 → u.nc.node = .running → u.na.queue.length < 16 → ∃ v, offerBurst n u = serve v ∧
      v.na = { u.na with queue := u.na.queue ++
        [⟨.burst n, u.nc.cfg.levelBurst, u.nc.now, some (plus u.nc.now 200000000), none, false⟩] } ∧
      UnchangedBut [.na] u v)) ∧
  (∀ (s : State) (r : Running), s.nc.node = .running ∨ s.nc.node = .clashed → s.ce.running = some r →
    reached s.nc.now r.endsAt = true → (∀ a ∈ jobAccs s r.job, isClamped r.shift a = false) ∨ 20 ≤ r.shift →
    (∀ i start o, r.job = .burst i start o → (∀ b ∈ s.iw.bursts, b.slot ≠ some i) → exec .passEnd s = .next { s with
      iw := { s.iw with slots := s.iw.slots.set i .free }
      ce := s.ce.advance s.nc.now }) ∧
    (∀ c u, r.job = .arrival c u → s.nc.node = .clashed ∨ (∀ a ∈ s.ptu.arrivals, a.trigger ≠ u) →
      exec .passEnd s = .next { s with
        cfe := { s.cfe with arrival := .free }
        ce := s.ce.advance s.nc.now }) ∧
    (∀ i start o j b, r.job = .burst i start o → s.nc.node = .clashed → s.iw.bursts[j]? = some b → b.slot = some i →
      (∀ k, k < j → ∀ a, s.iw.bursts[k]? = some a → a.slot ≠ some i) → exec .passEnd s = .next { s with
        iw := { s.iw with
          slots := s.iw.slots.set i .free, bursts := s.iw.bursts.set j { b with state := .untimed, slot := none } }
        ce := s.ce.advance s.nc.now }) ∧
    (∀ e, r.job = .echo e → s.nc.node = .clashed → exec .passEnd s = .next (unblock { s with
      cfe := { s.cfe with window := .free }
      ce := s.ce.advance s.nc.now }))) ∧
  (∀ (s : State) (r : Running), s.nc.node = .running →
    (∀ i start o j b, r.job = .burst i start o → s.iw.bursts[j]? = some b → b.slot = some i →
      (∀ k, k < j → ∀ a, s.iw.bursts[k]? = some a → a.slot ≠ some i) → deliver s r true s = { s with
        iw := { s.iw with
          slots := s.iw.slots.set i .free, untimed := min (s.iw.untimed + 1) 65535
          bursts := if b.opened = true then s.iw.bursts.set j { b with state := .untimed, slot := none }
            else s.iw.bursts.eraseIdx j } }) ∧
    (∀ c u i a, s.ce.running = some r → reached s.nc.now r.endsAt = true →
      (∃ a ∈ jobAccs s r.job, isClamped r.shift a = true) → 20 ≤ r.shift →
      r.job = .arrival c u → s.ptu.arrivals[i]? = some a → a.trigger = u →
      (∀ k, k < i → ∀ x, s.ptu.arrivals[k]? = some x → x.trigger ≠ u) → exec .passEnd s = .next { s with
        cfe := { s.cfe with arrival := .free }
        ce := s.ce.advance s.nc.now
        ptu := { s.ptu with
          arrivals := s.ptu.arrivals.eraseIdx i, discarded := min (s.ptu.discarded + 1) 65535 } })) ∧
  (∀ (s : State) (r : Running) (e : Time), s.nc.node = .running → s.ce.running = some r → r.job = .echo e →
    reached s.nc.now r.endsAt = true →
    ((∀ a ∈ jobAccs s r.job, isClamped r.shift a = false) ∧ mainPeak (passOutputs s r) * 2 ^ r.shift < 2 ^ 18) ∨
      ((∃ a ∈ jobAccs s r.job, isClamped r.shift a = true) ∧ 20 ≤ r.shift) →
    let w := unblock { s with
      cfe := { s.cfe with window := .free }
      ce := s.ce.advance s.nc.now }
    let t := w.withEc { s.ec with
      invalid := min (s.ec.invalid + 1) 65535, invalidStreak := min (s.ec.invalidStreak + 1) 3
      weak := s.ec.weak || decide (2 ≤ s.ec.invalidStreak) }
    exec .passEnd s = .next (if s.ec.rebase = true then takeRebase t else t) ∧
      UnchangedBut [.nc, .cfe, .ce, .ptu, .ec] s t) ∧
  (∀ ys : List Int,
    let p := greatestIdx ys
    let k := greatestIdx (ys.map fun y => (y.natAbs : Int))
    (ys ≠ [] → Peak ys p ∧ Peak (ys.map fun y => (y.natAbs : Int)) k) ∧ (∀ j, Interpolates ys j (interpolate ys j)) ∧
    (∀ start, fineOnset start ys = plus start (4 * (p + 16) + interpolate ys p)) ∧
    (∀ c, arrivalTime true c ys = none) ∧
    (GoodArrival ys k → ∀ c, arrivalTime false c ys = some (plus c (4 * k + interpolate ys k))) ∧
    (¬GoodArrival ys k → ∀ c, arrivalTime false c ys = none)) ∧
  (∀ xs : List Nat, xs.length = 512 → ∃ (v : Nat → Nat) (top : Nat),
    (∀ i, i < 16 → Greatest ((xs.drop (128 + 24 * i)).take 24) (v i)) ∧ Greatest ((List.range 16).map v) top ∧
    signatureOf xs = (List.range 16).map fun i => if top = 0 then 0 else v i * 255 / top)

/-- R63: with samples in the converter's range, the accumulators of a BURST TIMING job stay within 16 × 2047 × 1024 and
those of an ARRIVAL or ECHO job within 256 × 2048 × 2047, so none is clamped at S 12 and S 16. -/
def Obligations.AccumulatorsStayInBounds : Prop :=
  ∀ (s : State) (j : Job),
    (∀ w ∈ s.iw.slots, ∀ x ∈ w.samples, -2048 ≤ x ∧ x ≤ 2047) →
    (∀ x ∈ s.cfe.arrival.samples, -2048 ≤ x ∧ x ≤ 2047) → (∀ x ∈ s.cfe.window.samples, -2048 ≤ x ∧ x ≤ 2047) →
    ∀ a ∈ jobAccs s j,
      (∀ i start o, j = .burst i start o → a.natAbs ≤ 33538048 ∧ isClamped 12 a = false) ∧
      a.natAbs ≤ 1073217536 ∧ isClamped 16 a = false

/-! ## Timers of lists and tables (chapters 04, 06 to 08) -/

/-- R52, R84, R107, R121: a list or table entry whose timer has run out is removed, and nothing is counted. R123: the queued
notes of a fix removed keep their content, level, deadline and place and stand for no record (`unlinkFix`); no other note
changes. R90, R94: a silent entry leaves the neighbour table, a SYNCED or DOUBTFUL entry past SYNC_AGE becomes STALE. R96,
R108, R139: with the table so set (`setTable`) the partner is chosen again, and a change of partner empties the notice list,
clears the last pair and drops the candidates beyond the new coverage. -/
def Obligations.ExpiredEntriesLeaveTheirTables : Prop :=
  (∀ s : State, s.nc.node ≠ .held →
    (∀ i b, s.iw.bursts[i]? = some b → expired s.nc.now b.hold = true →
      ∃ t, exec (.pairHoldExpiry i) s = .next t ∧ t.iw = { s.iw with bursts := s.iw.bursts.eraseIdx i } ∧
        UnchangedBut [.iw] s t) ∧
    (∀ i a, s.ptu.arrivals[i]? = some a → expired s.nc.now a.expiry = true →
      ∃ t, exec (.arrivalExpiry i) s = .next t ∧ t.ptu = { s.ptu with arrivals := s.ptu.arrivals.eraseIdx i } ∧
        UnchangedBut [.ptu] s t) ∧
    (∀ i n, s.pu.notices[i]? = some n → expired s.nc.now n.expiry = true →
      ∃ t, exec (.noticeExpiry i) s = .next t ∧ t.pu = { s.pu with notices := s.pu.notices.eraseIdx i } ∧
        UnchangedBut [.pu] s t) ∧
    (∀ p f, s.ft.places[p]? = some (some f) → expired s.nc.now f.age = true →
      ∃ t, exec (.fixAgeExpiry p) s = .next t ∧ t.ft = { s.ft with places := s.ft.places.set p none } ∧
        t.na = { s.na with queue := s.na.queue.map (unlinkFix p) } ∧ t.na.queue.length = s.na.queue.length ∧
        (∀ n ∈ t.na.queue, n.content.standsFor p = false) ∧ UnchangedBut [.ft, .na] s t)) ∧
  (∀ (p : Nat) (n : Note),
    (∀ image, n.content = .fix (some p) image → unlinkFix p n = { n with content := .fix none image }) ∧
    (n.content.standsFor p = false → unlinkFix p n = n)) ∧
  (∀ (s : State) (p : Nat) (n : Neighbour), s.nc.node ≠ .held → s.ptu.table[p]? = some (some n) →
    (expired s.nc.now n.silence = true →
      ∃ t, exec (.silenceExpiry p) s = .next t ∧ t = setTable (s.ptu.table.set p none) s ∧
        t.ptu.table = s.ptu.table.set p none ∧
        t.ptu.partner = choosePartner s.nc.cfg.position t.ptu.table ∧
        (t.ptu.partner ≠ s.ptu.partner → t.pu = { s.pu with notices := [], lastPair := none }) ∧
        (t.ptu.partner = s.ptu.partner → t.pu = s.pu ∧ t.ec = s.ec) ∧ UnchangedBut [.ptu, .pu, .ec] s t) ∧
    (expired s.nc.now n.stale = true →
      ∃ t m, exec (.stalenessExpiry p) s = .next t ∧ t = setTable (s.ptu.table.set p (some m)) s ∧
        t.ptu.table = s.ptu.table.set p (some m) ∧
        m = { n with stale := none, state := m.state } ∧
        (n.state = .synced ∨ n.state = .doubtful → m.state = .stale) ∧
        (n.state = .heard ∨ n.state = .stale → m.state = n.state) ∧
        t.ptu.partner = choosePartner s.nc.cfg.position t.ptu.table ∧ UnchangedBut [.ptu, .pu, .ec] s t)) ∧
  (∀ (table : List (Option Neighbour)) (s : State),
    let q := choosePartner s.nc.cfg.position table
    (q = s.ptu.partner → setTable table s = s.withPtu { s.ptu with table := table }) ∧
    (q ≠ s.ptu.partner → setTable table s = { s with
      ptu := { s.ptu with table := table, partner := q }
      pu := { s.pu with notices := [], lastPair := none }
      ec := { s.ec with
        candidates := s.ec.candidates.filter fun c =>
          decide ((c.distance : Int) ≤ coverageLimit s.nc.cfg (q.bind (entryOf table))) } }))

/-! ## Pairing, location and fixes (chapters 07 and 08) -/

/-- R102: the signature score is the sum of the 16 absolute differences; it lies in 0 … 4080 and is 0 for identical
signatures; against 16 points of 0 it is the sum of the other's points. R110: the kind and position of a result by X2, never
outside p_L … p_U, an INSIDE one in p_L … p_U − 1. -/
def Obligations.ScoreAndLocationOfAPair : Prop :=
  (∀ xs ys : List Nat, xs.length = 16 → ys.length = 16 → (∀ x ∈ xs, x ≤ 255) → (∀ y ∈ ys, y ≤ 255) →
    score xs ys = ((xs.zip ys).map fun p => max p.1 p.2 - min p.1 p.2).sum ∧ score xs ys ≤ 4080 ∧
    score xs xs = 0 ∧ score (List.replicate 16 0) ys = ys.sum) ∧
  (∀ own upper x2 : Int, own < upper →
    (x2 ≤ 2 * own → located own upper x2 = (.beyondLow, own)) ∧
    (2 * upper ≤ x2 → located own upper x2 = (.beyondHigh, upper)) ∧
    (2 * own < x2 → x2 < 2 * upper → (located own upper x2).1 = .inside ∧
      2 * (located own upper x2).2 ≤ x2 ∧ x2 < 2 * (located own upper x2).2 + 2 ∧
      own ≤ (located own upper x2).2 ∧ (located own upper x2).2 ≤ upper - 1) ∧
    ¬(x2 ≤ 2 * own ∧ 2 * upper ≤ x2) ∧ own ≤ (located own upper x2).2 ∧ (located own upper x2).2 ≤ upper)

/-- R116, R118: a merge keeps low ≤ centre ≤ high and the count within 1 … 255, moves the centre no farther than the
result, and widens low and high by it. R117, R119, R120: a result merges into the fix that fits it, of several the one of
nearest centre, earliest first seen, lowest place; with none it makes a new fix in the lowest empty place; on a full table it
replaces the count-1 fix of earliest last seen, whose queued notes stand for no record after (`unlinkFix`, R123), or is
discarded and counted. The tests of the fix follow (`fixTests`). -/
def Obligations.ResultsMergeOrMakeFixes : Prop :=
  (∀ (cfg : Cfg) (r : Result) (f : Fix), f.low ≤ f.centre → f.centre ≤ f.high → 1 ≤ f.count → f.count ≤ 255 →
    let g := f.merge cfg r
    g.low = min f.low r.x ∧ g.high = max f.high r.x ∧ g.low ≤ g.centre ∧ g.centre ≤ g.high ∧
    min f.centre r.x ≤ g.centre ∧ g.centre ≤ max f.centre r.x ∧
    g.count = min (f.count + 1) 255 ∧ g.lastSeen = r.time ∧ g.firstSeen = f.firstSeen ∧ g.number = f.number ∧
    g.age = some (plus r.time (800000000 * cfg.fixAge + 1 : Nat))) ∧
  (∀ (s : State) (r : Result),
    let new : Fix := ⟨s.ft.nextFix, r.kind, r.upperId, r.upperPosition, r.x, r.x, r.x, 1, r.time, r.time, none, none,
      some (plus r.time (800000000 * s.nc.cfg.fixAge + 1 : Nat))⟩
    let gap := fun f : Fix => (r.x - f.centre).natAbs
    (∀ (p : Nat) (f : Fix), s.ft.places[p]? = some (some f) → Fits s.nc.cfg.mergeRadius r f →
      (∀ (q : Nat) (g : Fix), s.ft.places[q]? = some (some g) → q ≠ p → Fits s.nc.cfg.mergeRadius r g →
        gap f < gap g ∨ (gap f = gap g ∧ (earlier f.firstSeen g.firstSeen = true ∨
          (earlier g.firstSeen f.firstSeen = false ∧ p < q)))) →
      takeResult r s = fixTests p (putFix p (f.merge s.nc.cfg r) s)) ∧
    ((∀ f ∈ occupied s.ft.places, ¬Fits s.nc.cfg.mergeRadius r f) →
      (∀ p : Nat, s.ft.places[p]? = some none → (∀ q : Nat, q < p → s.ft.places[q]? ≠ some none) →
        ∃ u, takeResult r s = fixTests p (putFix p new u) ∧ u.ft = { s.ft with nextFix := s.ft.nextFix + 1 } ∧
          UnchangedBut [.ft] s u) ∧
      ((∀ p : Nat, s.ft.places[p]? ≠ some none) →
        (∀ (p : Nat) (f : Fix), s.ft.places[p]? = some (some f) → f.count = 1 →
          (∀ (q : Nat) (g : Fix), s.ft.places[q]? = some (some g) → q ≠ p → g.count = 1 → earlier f.lastSeen g.lastSeen = true ∨
            (earlier g.lastSeen f.lastSeen = false ∧ p < q)) →
          ∃ u, takeResult r s = fixTests p (putFix p new u) ∧
            u.ft = { s.ft with places := s.ft.places.set p none, nextFix := s.ft.nextFix + 1 } ∧
            u.na = { s.na with queue := s.na.queue.map (unlinkFix p) } ∧
            (∀ n ∈ u.na.queue, n.content.standsFor p = false) ∧
            UnchangedBut [.ft, .na] s u) ∧
        ((∀ f ∈ occupied s.ft.places, f.count ≠ 1) →
          takeResult r s = s.withFt { s.ft with discarded := min (s.ft.discarded + 1) 65535 }))))

/-- R122: a fix is announced when its count stands at an announce point above its last announced count. R123: the record put
in its place is followed by its queued FIX NOTEs but one SENDING; an announce event offers a note at LEVEL_FIX unless that
is 0 or one already follows. R124: the test of an INSIDE fix takes the qualifying finding nearest its centre, of several the
earliest confirmed, then the earlier in the list; a fix that held none is announced. R125: a confirmation tests every fix;
that it does so in the order of the places is entry 30 (DESIGN CHOICE). -/
def Obligations.FixesAreAnnouncedAndCorroborated : Prop :=
  (∀ (s : State) (p : Nat) (f : Fix), putFix p f s = { s with
    ft := { s.ft with places := s.ft.places.set p (some f) }
    na := { s.na with queue := s.na.queue.map fun n =>
      if n.content.standsFor p = true ∧ ¬(n.inFlight = true ∧ s.lc.mac = .sending)
        then { n with content := .fix (some p) f } else n } }) ∧
  (∀ (s : State) (p : Nat) (f : Fix), s.ft.places[p]? = some (some f) →
    fixTests p s = corroborate p (announceTest p s) ∧
    (Announces s.nc.cfg.announceCount f → announceTest p s = announce p f s) ∧
    (¬Announces s.nc.cfg.announceCount f → announceTest p s = s)) ∧
  (∀ (s : State) (p : Nat) (f : Fix),
    let g := { f with announced := some f.count }
    (s.nc.cfg.levelFix = 0 ∨ (∃ n ∈ s.na.queue, n.content.standsFor p = true ∧
        ¬(n.inFlight = true ∧ s.lc.mac = .sending)) → announce p f s = putFix p g s) ∧
    (s.nc.cfg.levelFix ≠ 0 → (∀ n ∈ s.na.queue, n.content.standsFor p = true → n.inFlight = true ∧ s.lc.mac = .sending) →
      s.nc.node = .running → s.na.queue.length < 16 → ∃ v, announce p f s = serve v ∧
        v.ft = { s.ft with places := s.ft.places.set p (some g) } ∧
        v.na = { s.na with
          queue := s.na.queue ++ [⟨.fix (some p) g, s.nc.cfg.levelFix, s.nc.now, none, none, false⟩] } ∧
        UnchangedBut [.ft, .na] s v)) ∧
  (∀ (s : State) (p : Nat) (f : Fix), s.ft.places[p]? = some (some f) →
    let off := fun g : Finding => ((g.position : Int) - f.centre).natAbs
    (f.kind ≠ .inside ∨ (∀ g ∈ s.ec.findings, ¬Corroborates s.nc.cfg.mergeRadius f g) → corroborate p s = s) ∧
    (f.kind = .inside → ∀ (i : Nat) (g : Finding), s.ec.findings[i]? = some g → Corroborates s.nc.cfg.mergeRadius f g →
      (∀ (j : Nat) (h : Finding), s.ec.findings[j]? = some h → j ≠ i → Corroborates s.nc.cfg.mergeRadius f h →
        off g < off h ∨ (off g = off h ∧ (earlier g.confirmed h.confirmed = true ∨
          (earlier h.confirmed g.confirmed = false ∧ i < j)))) →
      let c := { f with corroboration := some ⟨g.number, g.kind, g.position⟩ }
      (f.corroboration = none → corroborate p s = announce p c (putFix p c s)) ∧
      (f.corroboration ≠ none → corroborate p s = putFix p c s))) ∧
  (∀ s : State, corroborateAll s = (List.range 16).foldl (fun s p => corroborate p s) s)

/-! ## Echo profiles and findings (chapter 09) -/

/-- R72, R80, R130, R131: the profile of an unclamped ECHO job whose main peak passes the test of R70 is COLLIDED when some
mark found has q 128 or more, and is then counted and touches nothing else; a clean one in LEARNING is laid into the
baseline mark by mark (`learnMark`) and counted, the last of BASE_RUNS leading to WATCHING. The window is freed first, which
the probe schedule may follow (`unblock`, R35, R77). R140: the act ends with a pending REBASE (`takeRebase`), which empties the
baseline, the candidates and the findings, leads to LEARNING and takes the corroboration off every fix and its queued notes
(R126). R70: the main peak. R71, R72: the marks, in order of distance. A mark merges into the nearest
baseline mark in reach, takes a place of its own in distance order, or is dropped and counted on a full baseline. Of more
than 32 marks the weakest, of several the farthest, are dropped. -/
def Obligations.EchoProfilesAreLearnedOrCounted : Prop :=
  (∀ (s : State) (r : Running) (e : Time), s.nc.node = .running → s.ce.running = some r → r.job = .echo e →
    reached s.nc.now r.endsAt = true → (∀ a ∈ jobAccs s r.job, isClamped r.shift a = false) →
    2 ^ 18 ≤ mainPeak (passOutputs s r) * 2 ^ r.shift →
    let found := allMarks s.nc.cfg (passOutputs s r)
    let w := unblock { s with
      cfe := { s.cfe with window := .free }
      ce := s.ce.advance s.nc.now }
    ∃ t, exec .passEnd s = .next (if s.ec.rebase = true then takeRebase t else t) ∧
      (s.ec.watching = false ∨ (∃ m ∈ found, 128 ≤ m.q) → t = w.withEc t.ec) ∧
      ((∃ m ∈ found, 128 ≤ m.q) → t.ec = { s.ec with collided := min (s.ec.collided + 1) 65535 } ∧
        UnchangedBut [.nc, .cfe, .ce, .ptu, .ec] s t) ∧
      ((∀ m ∈ found, m.q < 128) → s.ec.watching = false → ∃ l : Ec,
        l = (dropMarks (found.length - 32) found).foldl (learnMark s.nc.cfg.markMatch)
          { s.ec with invalidStreak := 0, weak := false } ∧
        t.ec = { l with learned := s.ec.learned + 1, watching := decide (s.nc.cfg.baseRuns ≤ s.ec.learned + 1) } ∧
        UnchangedBut [.nc, .cfe, .ce, .ptu, .ec] s t)) ∧
  (∀ (reach : Nat) (e : Ec) (m : Mark),
    (∀ i b, Nearest (·.distance) m.distance (fun x => apart x.distance m.distance ≤ reach) e.baseline i b →
      learnMark reach e m = { e with baseline := e.baseline.set i { b with
        q := max b.q m.q, positive := if b.q < m.q then m.positive else b.positive } }) ∧
    ((∀ b ∈ e.baseline, reach < apart b.distance m.distance) →
      (e.baseline.length < 24 → ∃ bs, learnMark reach e m = { e with baseline := bs } ∧ bs.Perm (m :: e.baseline) ∧
        (e.baseline.Pairwise (fun x y => x.distance < y.distance) → bs.Pairwise fun x y => x.distance < y.distance)) ∧
      (24 ≤ e.baseline.length → learnMark reach e m = { e with dropped := min (e.dropped + 1) 65535 }))) ∧
  (∀ (n : Nat) (ms : List Mark), dropMarks 0 ms = ms ∧ dropMarks (n + 1) ms = dropMarks n (dropWeakest ms) ∧
    ∀ i m, ms[i]? = some m → (∀ j x, ms[j]? = some x → j ≠ i → m.q < x.q ∨ (m.q = x.q ∧ x.distance < m.distance)) →
      dropWeakest ms = ms.eraseIdx i) ∧
  (∀ s : State, ∃ t, takeRebase s = t ∧
    t.ec = { s.ec with
      baseline := [], candidates := [], findings := [], learned := 0, watching := false, rebase := false } ∧
    t.ft = { s.ft with places := s.ft.places.map (Option.map fun x => { x with corroboration := none }) } ∧
    t.na = { s.na with queue := s.na.queue.map fun n => if n.inFlight = true ∧ s.lc.mac = .sending then n
      else { n with content := refreshed t.ft.places n.content } } ∧ UnchangedBut [.ft, .ec, .na] s t) ∧
  (∀ ys : List Int, 4 ≤ ys.length → Greatest ((ys.take 4).map Int.natAbs) (mainPeak ys)) ∧
  (∀ (cfg : Cfg) (ys : List Int), ∃ ks : List Nat, ks.Pairwise (· < ·) ∧
    (∀ k, k ∈ ks ↔ MarkAt cfg.echoFloor (mainPeak ys) ys k) ∧
    allMarks cfg ys = ks.map (fun k => ⟨(conv cfg.vf (4 * k + interpolate ys k) / 2).toNat,
      min 255 ((ys.getD k 0).natAbs * 256 / mainPeak ys), decide (0 < ys.getD k 0)⟩) ∧
    (allMarks cfg ys).Pairwise fun a b => a.distance ≤ b.distance)

/-- R129, R130, R133 to R136: a clean profile in WATCHING raises the conditions within the coverage, lays them against the
candidates, and confirms those whose streak equals PERSIST in order of distance and kind (`confirm`); the window is freed
first (`unblock`), and a pending REBASE is taken at the end (`takeRebase`, R140). A profile mark takes the nearest baseline
mark in reach that none has taken; a condition continues the nearest candidate of its kind in reach not yet continued, is
absorbed when all are, and otherwise starts a candidate if there are fewer than 8 and none just made absorbs it. -/
def Obligations.WatchedProfilesMoveTheCandidates : Prop :=
  (∀ (s : State) (r : Running) (e : Time), s.nc.node = .running → s.ce.running = some r → r.job = .echo e →
    reached s.nc.now r.endsAt = true → (∀ a ∈ jobAccs s r.job, isClamped r.shift a = false) →
    2 ^ 18 ≤ mainPeak (passOutputs s r) * 2 ^ r.shift → s.ec.watching = true →
    let found := allMarks s.nc.cfg (passOutputs s r)
    (∀ m ∈ found, m.q < 128) →
    let w := unblock { s with
      cfe := { s.cfe with window := .free }
      ce := s.ce.advance s.nc.now }
    ∃ (t u : State) (cands order : List Candidate), t = order.foldl confirm u ∧
      exec .passEnd s = .next (if s.ec.rebase = true then takeRebase t else t) ∧ u = w.withEc u.ec ∧
      cands = nextCandidates s.nc.cfg.markMatch (conditions s.nc.cfg (coverageLimit s.nc.cfg s.partnerEntry)
        s.ec.baseline (dropMarks (found.length - 32) found)) s.ec.candidates ∧
      order.Perm (cands.filter fun c => c.streak == s.nc.cfg.persist) ∧
      order.Pairwise (fun a b => a.distance < b.distance ∨ (a.distance = b.distance ∧ a.kind.rank ≤ b.kind.rank)) ∧
      u.ec = { s.ec with invalidStreak := 0, weak := false, candidates := cands } ∧
      UnchangedBut [.nc, .cfe, .ce, .ptu, .ec] s u) ∧
  (∀ (cfg : Cfg) (n : Neighbour), coverageLimit cfg none = conv cfg.vf 7168 / 2 ∧
    coverageLimit cfg (some n) = (n.position : Int) - cfg.position) ∧
  (∀ (reach : Nat) (b : List Taken) (un : List Mark) (m : Mark),
    (∀ i x, Nearest (·.1.distance) m.distance (fun y => apart y.1.distance m.distance ≤ reach ∧ y.2 = none) b i x →
      matchMark reach (b, un) m = (b.set i (x.1, some m), un)) ∧
    ((∀ y ∈ b, apart y.1.distance m.distance ≤ reach → y.2 ≠ none) → matchMark reach (b, un) m = (b, un ++ [m]))) ∧
  (∀ (cfg : Cfg) (limit : Int) (baseline marks : List Mark),
    let k := marks.foldl (matchMark cfg.markMatch) (baseline.map fun b => (b, none), [])
    (conditions cfg limit baseline marks).Pairwise
      (fun a b => a.distance < b.distance ∨ (a.distance = b.distance ∧ a.kind.rank ≤ b.kind.rank)) ∧
    ∀ c, c ∈ conditions cfg limit baseline marks ↔ (c.distance : Int) ≤ limit ∧
      ((∃ m ∈ k.2, c = ⟨.new, m.distance, 1, m.q, m.positive, 0⟩) ∨
        (∃ b, (b, none) ∈ k.1 ∧ c = ⟨.gone, b.distance, 1, 0, false, b.q⟩) ∨
        ∃ b m, (b, some m) ∈ k.1 ∧ (b.q + cfg.growStep ≤ m.q ∨ m.positive ≠ b.positive) ∧
          c = ⟨.grown, b.distance, 1, m.q, m.positive, b.q⟩)) ∧
  (∀ (reach : Nat) (xs : List Continued) (left : List Candidate) (c : Candidate),
    (∀ i x, Nearest (·.1.distance) c.distance
        (fun y => y.1.kind = c.kind ∧ apart y.1.distance c.distance ≤ reach ∧ y.2 = false) xs i x →
      continueOne reach (xs, left) c = (xs.set i ({ c with streak := x.1.streak + 1 }, true), left)) ∧
    ((∀ y ∈ xs, y.1.kind = c.kind → apart y.1.distance c.distance ≤ reach → y.2 = true) →
      ((∃ y ∈ xs, y.1.kind = c.kind ∧ apart y.1.distance c.distance ≤ reach) →
        continueOne reach (xs, left) c = (xs, left)) ∧
      ((∀ y ∈ xs, y.1.kind = c.kind → reach < apart y.1.distance c.distance) →
        continueOne reach (xs, left) c = (xs, left ++ [c])))) ∧
  (∀ (reach : Nat) (kept made : List Candidate) (c : Candidate),
    ((∃ x ∈ made, x.kind = c.kind ∧ apart x.distance c.distance ≤ reach) →
      createOne reach (kept, made) c = (kept, made)) ∧
    ((∀ x ∈ made, x.kind = c.kind → reach < apart x.distance c.distance) → createOne reach (kept, made) c =
      (kept, if kept.length + made.length < 8 then made ++ [c] else made))) ∧
  (∀ (reach : Nat) (conds cands : List Candidate),
    let k := conds.foldl (continueOne reach) (cands.map fun c => (c, false), [])
    let made := k.2.foldl (createOne reach) ((k.1.filter (·.2)).map (·.1), [])
    nextCandidates reach conds cands = made.1 ++ made.2)

/-- R136 to R138: a confirmation changes the baseline by the candidate's kind, makes a finding under the next number, removes
the candidate, and hands the finding on (`handFinding`): an ECHO NOTE at LEVEL_ECHO unless that is 0, and for a NEW or GROWN
finding the corroboration test of every fix. The finding list keeps its newest 8. -/
def Obligations.ConfirmationMakesAFinding : Prop :=
  (∀ (s : State) (c : Candidate),
    ∃ (f : Finding) (e : Ec), confirm s c = handFinding f (s.withEc e) ∧
      f = ⟨s.ec.nextFinding, c.kind, c.distance, min (s.nc.cfg.position + c.distance) 65535, f.before,
        if c.kind = .gone then none else some c.q, s.nc.now⟩ ∧
      e = { s.ec with
        baseline := e.baseline, dropped := e.dropped, candidates := s.ec.candidates.erase c
        findings := keepNewest 8 (s.ec.findings ++ [f]), nextFinding := s.ec.nextFinding + 1 } ∧
      (c.kind = .new → f.before = none) ∧
      (∀ i m, Nearest (·.distance) c.distance (fun x => apart x.distance c.distance ≤ s.nc.cfg.markMatch)
          s.ec.baseline i m → e.dropped = s.ec.dropped ∧
        (c.kind = .gone → e.baseline = s.ec.baseline.eraseIdx i) ∧
        (c.kind ≠ .gone → e.baseline = s.ec.baseline.set i { m with q := c.q, positive := c.positive }) ∧
        (c.kind ≠ .new → f.before = some m.q)) ∧
      ((∀ m ∈ s.ec.baseline, s.nc.cfg.markMatch < apart m.distance c.distance) →
        (c.kind ≠ .new → e.baseline = s.ec.baseline ∧ e.dropped = s.ec.dropped ∧ f.before = some c.before) ∧
        (c.kind = .new → s.ec.baseline.length < 24 → e.baseline.Perm (⟨c.distance, c.q, c.positive⟩ :: s.ec.baseline) ∧
          (s.ec.baseline.Pairwise (fun x y => x.distance < y.distance) →
            e.baseline.Pairwise fun x y => x.distance < y.distance) ∧ e.dropped = s.ec.dropped) ∧
        (c.kind = .new → 24 ≤ s.ec.baseline.length →
          e.baseline = s.ec.baseline ∧ e.dropped = min (s.ec.dropped + 1) 65535))) ∧
  (∀ (f : Finding) (s : State), ∃ u, handFinding f s = (if f.kind = .gone then u else corroborateAll u) ∧
    (s.nc.cfg.levelEcho = 0 → u = s) ∧
    (s.nc.cfg.levelEcho ≠ 0 → s.nc.node = .running → s.na.queue.length < 16 → ∃ v, u = serve v ∧
      v.na = { s.na with
        queue := s.na.queue ++ [⟨.echo f, s.nc.cfg.levelEcho, s.nc.now, none, none, false⟩] } ∧
      UnchangedBut [.na] s v))

/-! ## Reception (chapter 10) -/

/-- R145 to R148: which completed frames are handed on as notes of peers, and which as commands; which of the own ID report a
clash and which are an own echo. R145, R168, R169, R171: the kinds, and the payload length of each from the payload's own
count bytes (`kindLengthOk`). That the own-frame guard still holds at its last line time is entry 22 (DESIGN CHOICE). -/
def Obligations.AcceptanceMakesEveryCheck : Prop :=
  (∀ (s : State) (bs : Bytes) (f : Frame),
    (judge s bs = .note f ↔ f = parseFrame bs ∧ crcAgrees bs = true ∧ f.run = s.nc.cfg.runNo ∧
      s.nc.node = .running ∧ kindLengthOk f.kind f.payload = true ∧ f.kind ≠ 8 ∧ f.sender ≠ s.nc.cfg.nodeId ∧
      f.sender ≠ 0 ∧ f.sender ≠ 255 ∧ (∀ n, entryOf s.ptu.table f.sender = some n → n.lastSeq ≠ some f.seq)) ∧
    (judge s bs = .command f ↔ f = parseFrame bs ∧ crcAgrees bs = true ∧ f.run = s.nc.cfg.runNo ∧
      (s.nc.node = .running ∨ s.nc.node = .clashed) ∧ kindLengthOk f.kind f.payload = true ∧ f.kind = 8 ∧
      f.sender = 255 ∧ s.nc.cfg.nodeId ≠ 255 ∧ s.lc.listenerSeq ≠ some f.seq) ∧
    (judge s bs = .clash ↔ crcAgrees bs = true ∧ (parseFrame bs).run = s.nc.cfg.runNo ∧ s.nc.node ≠ .unnamed ∧
      kindLengthOk (parseFrame bs).kind (parseFrame bs).payload = true ∧ (parseFrame bs).sender = s.nc.cfg.nodeId ∧
      s.lc.mac ≠ .sending ∧ ∀ e, s.lc.ownEnd = some e → within s.nc.now e (plus e 80000) = false) ∧
    (judge s bs = .badCrc ↔ crcAgrees bs = false) ∧
    (judge s bs = .otherRun ↔ crcAgrees bs = true ∧ (parseFrame bs).run ≠ s.nc.cfg.runNo)) ∧
  (∀ (kind : Nat) (p : Bytes),
    let count := fun i : Nat => (byteAt p i).toNat
    kindLengthOk kind p = true ↔
      (kind = 1 ∧ 8 ≤ p.length ∧ count 7 ≤ 11 ∧ p.length = 8 + 8 * count 7) ∨ (kind = 2 ∧ p.length = 28) ∨
      (kind = 3 ∧ p.length = 25) ∨ (kind = 4 ∧ p.length = 14) ∨ (kind = 5 ∧ p.length = 45) ∨
      (kind = 6 ∧ 4 ≤ p.length ∧
        ((count 0 % 128 = 1 ∧ p.length = 4 + count 2 * 25) ∨ (count 0 % 128 = 2 ∧ p.length = 4 + count 2 * 14) ∨
          (count 0 % 128 = 3 ∧ p.length = 4 + count 2 * 18) ∨ (count 0 % 128 = 4 ∧ p.length = 49))) ∨
      (kind = 8 ∧ p.length = 4))

/-- R87 to R89, R96, R144, R148: an accepted frame of any note kind sends its receiver hunting again and refreshes its sender's
entry, made if there was none and the table has a place for it. An entry at another position is made HEARD there with its
legs, clock and streaks cleared; a new entry takes the lowest empty place, or on a full table that of the HEARD or STALE entry
heard least lately, of two the lower ID. What a STATE or REPLY frame does is this refresh alone (`refreshSender`). -/
def Obligations.AcceptedFramesRefreshTheSender : Prop :=
  ∀ (s : State) (ch : ChanId) (bytes : Bytes) (kind : Nat) (f : Frame) (i : Instr),
    NoteAccepted s ch bytes kind f →
    (i, kind) ∈ [(.probeFrame ch bytes, 1), (.burstFrame ch bytes, 2), (.fixFrame ch bytes, 3),
      (.echoFrame ch bytes, 4), (.stateFrame ch bytes, 5), (.replyFrame ch bytes, 6)] →
    ∃ t, exec i s = .next t ∧ (t.lc.channel ch).receiver = none ∧
      ((∃ n ∈ occupied s.ptu.table, n.id = f.sender) ∨ newPlace s.ptu.table ≠ none →
        ∃ n ∈ occupied t.ptu.table, n.id = f.sender ∧ n.lastHeard = s.nc.now ∧ n.lastSeq = some f.seq ∧
          n.position = f.pos ∧ n.silence = some (plus s.nc.now (8000000 * s.nc.cfg.probePeriod : Nat))) ∧
      t.nc = { s.nc with rng := t.nc.rng } ∧ t.cfe = s.cfe ∧ t.ce = s.ce ∧ t.iw.slots = s.iw.slots ∧
      (3 ≤ kind → ∃ silence new, silence = some (plus s.nc.now (8000000 * s.nc.cfg.probePeriod : Nat)) ∧
        new = (⟨f.sender, f.pos, .heard, s.nc.now, some f.seq, none, none, none, none, 0, none, 0, 0, silence,
          none⟩ : Neighbour) ∧ t.ptu.partner = choosePartner s.nc.cfg.position t.ptu.table ∧
        ((∃ n ∈ occupied s.ptu.table, n.id = f.sender) → t.ptu.table = s.ptu.table.map (Option.map fun m =>
          if m.id = f.sender then
            if m.position = f.pos then { m with lastHeard := s.nc.now, lastSeq := some f.seq, silence := silence }
            else { new with id := m.id, exchanges := m.exchanges }
          else m)) ∧
        ((∀ n ∈ occupied s.ptu.table, n.id ≠ f.sender) →
          (∀ i : Nat, s.ptu.table[i]? = some none → (∀ j : Nat, j < i → s.ptu.table[j]? ≠ some none) →
            t.ptu.table = s.ptu.table.set i (some new)) ∧
          ((∀ i : Nat, s.ptu.table[i]? ≠ some none) →
            (∀ (i : Nat) (n : Neighbour), s.ptu.table[i]? = some (some n) → n.state = .heard ∨ n.state = .stale →
              (∀ (j : Nat) (m : Neighbour), s.ptu.table[j]? = some (some m) → j ≠ i → m.state = .heard ∨ m.state = .stale →
                earlier n.lastHeard m.lastHeard = true ∨ (n.lastHeard = m.lastHeard ∧ n.id < m.id)) →
              t.ptu.table = s.ptu.table.set i (some new)) ∧
            ((∀ n ∈ occupied s.ptu.table, n.state = .synced ∨ n.state = .doubtful) → t.ptu.table = s.ptu.table)))) ∧
      (kind = 5 ∨ kind = 6 → t = refreshSender f (afterReception s ch) ∧ UnchangedBut [.ptu, .pu, .ec, .lc] s t)

/-- R85: a PROBE frame refreshes its sender's entry (`refreshSender`), makes the label step (`labelStep`) and takes its heard
list, oldest first, for forward legs (`forwardLeg`). The label step labels the one unlabelled arrival record within
NOTE_WINDOW: one not yet GOOD waits for its result without an expiry, one GOOD already leaves as a reverse leg
(`makeReverseLeg`); with several such records all are discarded and counted, with none nothing happens. R81, R85, R91: a
reverse leg is stored in the peer's entry, if it has one (`storeReverse`), and a heard entry joins the list of eleven. R86: a
heard entry of this node whose number stands in the emission history is stored as the sender's forward leg
(`storeForward`); any other gives nothing. R96: the partner is then chosen on the table as the leg leaves it (`setTable`),
once, also where an exchange makes the entry SYNCED and then STALE at once (entry 29, DESIGN CHOICE). -/
def Obligations.ProbeNoteLabelsTheOneArrival : Prop :=
  (∀ (s : State) (ch : ChanId) (bytes : Bytes) (f : Frame), NoteAccepted s ch bytes 1 f →
    ∃ t, exec (.probeFrame ch bytes) s = .next t ∧
      t = (probePayload f.payload).heard.foldl (forwardLeg f.sender)
        (labelStep f.sender (probePayload f.payload) (refreshSender f (afterReception s ch))) ∧
      (∀ (i : Nat) (a : Arrival), s.ptu.arrivals[i]? = some a → inNoteWindow s.nc.now a = true →
        (∀ (j : Nat) (b : Arrival), s.ptu.arrivals[j]? = some b → j ≠ i → inNoteWindow s.nc.now b = false) →
        ((∀ hA, a.state ≠ .good hA) → t.ptu.heard = s.ptu.heard ∧ t.ptu.arrivals = s.ptu.arrivals.set i { a with
          label := some ⟨f.sender, (probePayload f.payload).number, (probePayload f.payload).emission⟩
          expiry := none }) ∧
        (∀ hA, a.state = .good hA → t.ptu.arrivals = s.ptu.arrivals.eraseIdx i ∧
          t.ptu.heard = keepNewest 11 (s.ptu.heard ++ [⟨f.sender, (probePayload f.payload).number, hA⟩]))) ∧
      (2 ≤ s.ptu.arrivals.countP (inNoteWindow s.nc.now) →
        t.ptu.arrivals = s.ptu.arrivals.filter (fun a => !inNoteWindow s.nc.now a) ∧
        t.ptu.discarded = min (s.ptu.discarded + s.ptu.arrivals.countP (inNoteWindow s.nc.now)) 65535) ∧
      ((∀ a ∈ s.ptu.arrivals, inNoteWindow s.nc.now a = false) →
        t.ptu.arrivals = s.ptu.arrivals ∧ t.ptu.discarded = s.ptu.discarded)) ∧
  (∀ (s : State) (peer : Nat) (p : ProbePayload),
    let l : Label := ⟨peer, p.number, p.emission⟩
    let among := s.ptu.arrivals.countP (inNoteWindow s.nc.now)
    (∀ (i : Nat) (a : Arrival), s.ptu.arrivals[i]? = some a → inNoteWindow s.nc.now a = true →
      (∀ (j : Nat) (b : Arrival), s.ptu.arrivals[j]? = some b → j ≠ i → inNoteWindow s.nc.now b = false) →
      ((∀ hA, a.state ≠ .good hA) → labelStep peer p s = s.withPtu { s.ptu with
        arrivals := s.ptu.arrivals.set i { a with label := some l, expiry := none } }) ∧
      (∀ hA, a.state = .good hA → labelStep peer p s =
        makeReverseLeg l hA (s.withPtu { s.ptu with arrivals := s.ptu.arrivals.eraseIdx i }))) ∧
    (2 ≤ among → labelStep peer p s = s.withPtu { s.ptu with
      arrivals := s.ptu.arrivals.filter fun a => !inNoteWindow s.nc.now a
      discarded := min (s.ptu.discarded + among) 65535 }) ∧
    (among = 0 → labelStep peer p s = s)) ∧
  (∀ (l : Label) (hA : Time) (s : State), ∃ u,
    u = setTable (s.ptu.table.map (Option.map fun n => if n.id = l.peer
      then n.storeReverse s.nc.cfg s.nc.now ⟨l.emission, hA, l.number⟩ else n)) s ∧
    makeReverseLeg l hA s = u.withPtu { u.ptu with
      heard := keepNewest 11 (s.ptu.heard ++ [⟨l.peer, l.number, hA⟩]) }) ∧
  (∀ (peer : Nat) (s : State) (h : Heard),
    (h.peer ≠ s.nc.cfg.nodeId ∨ (∀ e ∈ s.ptu.history, e.number ≠ h.number) → forwardLeg peer s h = s) ∧
    (h.peer = s.nc.cfg.nodeId → ∀ (i : Nat) (e : Emission), s.ptu.history[i]? = some e → e.number = h.number →
      (∀ (j : Nat) (x : Emission), j < i → s.ptu.history[j]? = some x → x.number ≠ h.number) →
      forwardLeg peer s h = setTable (s.ptu.table.map (Option.map fun n => if n.id = peer
        then n.storeForward s.nc.cfg s.nc.now ⟨e.time, h.arrival⟩ else n)) s))

/-- R159, R87, R160: an accepted FIX or ECHO frame refreshes its sender, then raises the quiet floor to its level, 7 taken as
6, and restarts FLOOR_HOLD; the MAC's choice and the pre-emption that the raised floor brings follow (`serve`). -/
def Obligations.ReportFramesRaiseTheFloor : Prop :=
  ∀ (s : State) (ch : ChanId) (bytes : Bytes) (kind : Nat) (f : Frame) (i : Instr),
    NoteAccepted s ch bytes kind f →
    (i, kind) ∈ [(.fixFrame ch bytes, 3), (.echoFrame ch bytes, 4)] →
    let u := refreshSender f (afterReception s ch)
    ∃ t, exec i s = .next t ∧ t = serve { u with na := { u.na with
        floor := max s.na.floor (min f.level 6), floorHold := some (plus s.nc.now 160000000) } } ∧
      t.na.floor = max s.na.floor (min f.level 6) ∧
      t.na.floorHold = some (plus s.nc.now 160000000) ∧ t.cfe = s.cfe ∧ t.iw = s.iw ∧ t.ce = s.ce ∧ t.ft = s.ft

/-- R98, R99: a BURST frame of a peer that is not the partner, with the LONG flag set, that is a copy (`isCopy`), or against a
partner whose clock is not known, refreshes its sender (`refreshSender`) and does nothing more. R100, R103 to R107, R109,
R112: one of the partner with the LONG flag clear, no copy, forms a notice with its onset in own time (R95). The best
matching TIMED record pairs with it and leaves the burst list; with none it joins the notice list. A record just TIMED pairs
likewise with the best matching notice. A pair sets the last pair, counts, and its result goes to the Fix Table
(`takeResult`), or is handed on and counted when a SYNCED entry lies beyond its end. -/
def Obligations.BurstNotesPairOrJoinNotices : Prop :=
  (∀ (s : State) (ch : ChanId) (bytes : Bytes) (f : Frame), NoteAccepted s ch bytes 2 f →
    let p := burstPayload f.payload
    let u := refreshSender f (afterReception s ch)
    u.ptu.partner ≠ some f.sender ∨ p.long = true ∨ isCopy u.pu p = true ∨
      (∀ n, entryOf u.ptu.table f.sender = some n → n.sync = none) → exec (.burstFrame ch bytes) s = .next u) ∧
  (∀ (x : Pu) (p : BurstPayload), isCopy x p = true ↔
    (∃ n ∈ x.notices, n.number = p.number ∧ n.peerOnset = p.onset) ∨ x.lastPair = some ⟨p.number, p.onset⟩) ∧
  (∀ (y : Sync) (rate : Option Int) (tp : Time),
    let theta := fun t : Time => y.theta + diff t y.mid * rate.getD 0 / 2 ^ 32
    ownTime y rate tp = plus tp (-(theta (plus tp (-y.theta))))) ∧
  (∀ (s : State) (ch : ChanId) (bytes : Bytes) (f : Frame) (u : Neighbour) (y : Sync),
    NoteAccepted s ch bytes 2 f → s.ptu.partner = some f.sender →
    choosePartner s.nc.cfg.position s.ptu.table = s.ptu.partner →
    (∀ m ∈ occupied s.ptu.table, m.id = f.sender → m.position = f.pos) → entryOf s.ptu.table f.sender = some u →
    u.sync = some y → (burstPayload f.payload).long = false → isCopy s.pu (burstPayload f.payload) = false →
    let p := burstPayload f.payload
    let n : Notice :=
      ⟨p.number, p.onset, ownTime y u.rate p.onset, p.signature, s.nc.now, some (plus s.nc.now 400000000)⟩
    ((∀ b ∈ s.iw.bursts, ∀ t, b.state = .timed → b.timing = some t → ¬Matches s.nc.cfg u.position t n) →
      ∃ t, exec (.burstFrame ch bytes) s = .next t ∧
        t.pu = { s.pu with notices := keepNewest 16 (s.pu.notices ++ [n]) } ∧
        t.ptu.partner = s.ptu.partner ∧ UnchangedBut [.ptu, .pu, .lc] s t) ∧
    (∀ i t, BestRecord s.nc.cfg u.position n s.iw.bursts i t →
      ∃ v w, exec (.burstFrame ch bytes) s = .next (completePair w t n v) ∧
        w = { u with lastHeard := s.nc.now, lastSeq := some f.seq, silence := w.silence } ∧
        v.iw = { s.iw with bursts := s.iw.bursts.eraseIdx i } ∧ v.ptu = { s.ptu with table := v.ptu.table } ∧
        (v.lc.channel ch).receiver = none ∧ UnchangedBut [.iw, .ptu, .lc] s v)) ∧
  (∀ (s : State) (i id : Nat) (b : Burst) (t : Timing) (u : Neighbour), s.ptu.partner = some id →
    entryOf s.ptu.table id = some u → s.iw.bursts[i]? = some b → b.timing = some t →
    ((∀ n ∈ s.pu.notices, ¬Matches s.nc.cfg u.position t n) → offerRecord i s = s) ∧
    (∀ j n, BestNotice s.nc.cfg u.position t s.pu.notices j n →
      offerRecord i s = completePair u t n { s with
        iw := { s.iw with bursts := s.iw.bursts.eraseIdx i }
        pu := { s.pu with notices := s.pu.notices.eraseIdx j } })) ∧
  (∀ (u : Neighbour) (t : Timing) (n : Notice) (s : State),
    let k := located s.nc.cfg.position u.position
      ((s.nc.cfg.position : Int) + u.position + conv s.nc.cfg.vf (diff t.fine n.ownOnset))
    let v := s.withPu { s.pu with
      lastPair := some ⟨n.number, n.peerOnset⟩, pairs := min (s.pu.pairs + 1) 65535 }
    (Kept s.ptu.table s.nc.cfg.position u.position k.1 →
      completePair u t n s = takeResult ⟨k.1, u.id, u.position, k.2, s.nc.now⟩ v) ∧
    (¬Kept s.ptu.table s.nc.cfg.position u.position k.1 →
      completePair u t n s = v.withPu { v.pu with handedOn := min (s.pu.handedOn + 1) 65535 }))

/-- R144 to R146, R8: a completed frame that some check drops is counted where its check counts it, its receiver hunting
again; one of the own ID outside the own-frame guard (entry 22, DESIGN CHOICE, at its last line time) sends a CALIBRATING or
RUNNING node to CLASHED: queue, floor, hush and dump gone, the frame on air cut, every list timer stopped, nothing else
changed; in CLASHED it changes no more. -/
def Obligations.DroppedFramesAreCounted : Prop :=
  ∀ (s : State) (ch : ChanId) (bytes bs : Bytes), completed s ch bytes = some bs →
    let l := s.lc.setChannel ch { s.lc.channel ch with receiver := none }
    (judge s bs = .badCrc →
      exec (.otherFrame ch bytes) s = .next (s.withLc { l with bad := min (s.lc.bad + 1) 65535 })) ∧
    (judge s bs = .otherRun →
      exec (.otherFrame ch bytes) s = .next (s.withLc { l with otherRun := min (s.lc.otherRun + 1) 65535 })) ∧
    (judge s bs = .dropped → exec (.otherFrame ch bytes) s = .next (s.withLc l)) ∧
    (judge s bs = .clash →
      (s.nc.node = .calibrating ∨ s.nc.node = .running → ∃ t, exec (.otherFrame ch bytes) s = .next t ∧ t = { s with
        nc := { s.nc with node := .clashed }
        iw := { s.iw with
          detector := .off, bursts := s.iw.bursts.map fun b => { b with opened := false, hold := none } }
        ptu := { s.ptu with
          schedule := .off
          arrivals := s.ptu.arrivals.map fun a => { a with expiry := none }
          table := s.ptu.table.map (Option.map fun n => { n with silence := none, stale := none }) }
        pu := { s.pu with notices := s.pu.notices.map fun n => { n with expiry := none } }
        ft := { s.ft with places := s.ft.places.map (Option.map fun f => { f with age := none }) }
        lc := { l with
          mac := .idle, tx := none, ownEnd := if s.lc.mac = .sending then some s.nc.now else s.lc.ownEnd }
        na := { s.na with
          queue := [], floor := 0, floorHold := none, hush := none, stateTimer := none, dump := none } } ∧
        t.runLine = false ∧ t.faultLine = true) ∧
      (s.nc.node = .clashed → exec (.otherFrame ch bytes) s = .next (s.withLc l)))

/-- R144: the preamble and sync start a reception in HUNTING; a LEN above 96 ends it at the end of the header as a bad
frame. Neither changes anything else. -/
def Obligations.ReceptionBeginsAndIsCutByLength : Prop :=
  (∀ (s : State) (ch : ChanId), followed s ch = true → (s.lc.channel ch).receiver = none →
    exec (.preambleAndSync ch) s = .next (s.withLc
      (s.lc.setChannel ch { s.lc.channel ch with receiver := some [] }))) ∧
  (∀ (s : State) (ch : ChanId) (held bytes : Bytes), followed s ch = true →
    (s.lc.channel ch).receiver = some held → (held ++ bytes).length = 7 → 96 < (byteAt (held ++ bytes) 6).toNat →
    exec (.lenAbove96 ch bytes) s = .next (s.withLc { s.lc.setChannel ch { s.lc.channel ch with receiver := none } with
      bad := min (s.lc.bad + 1) 65535 }))

/-- R143, R144, R150: a rise of carrier starts JAM_TIME on a followed CLEAR channel, stops JAM_CLEAR, and returns BACKOFF on
that channel to DEFER with what remains of its count, at least one tick (entry 14, DEDUCED); a fall stops JAM_TIME, starts
JAM_CLEAR on a followed JAMMED channel, and ends a reception as a bad frame. Neither changes anything else. R143, R149: at
JAM_TIME's expiry the channel is JAMMED, at JAM_CLEAR's it is CLEAR; a HELD MAC makes its choice again (`chooseChannel`), one in
DEFER or BACKOFF when its own channel has become JAMMED, any other goes on as it was. -/
def Obligations.CarrierAndJamTimersMoveTheChannel : Prop :=
  (∀ (s : State) (ch : ChanId), (s.lc.channel ch).carrier = false →
    let l := s.lc.setChannel ch { s.lc.channel ch with
      carrier := true
      jamTime := if followed s ch = true ∧ (s.lc.channel ch).jammed = false
        then some (plus s.nc.now 40000000) else none
      jamClear := none }
    (s.lc.mac = .backoff → flightChannel s = some ch → exec (.carrierRise ch) s = .next { s with
      lc := { l with mac := .defer }
      na := { s.na with queue := s.na.queue.map fun n => if n.inFlight = true
        then { n with link := n.link.map fun k => { k with remaining := k.remaining.map (max 1) } } else n } }) ∧
    (s.lc.mac ≠ .backoff ∨ flightChannel s ≠ some ch → exec (.carrierRise ch) s = .next (s.withLc l))) ∧
  (∀ (s : State) (ch : ChanId), (s.lc.channel ch).carrier = true →
    exec (.carrierFall ch) s = .next (s.withLc { s.lc.setChannel ch { s.lc.channel ch with
        carrier := false, jamTime := none, idle := 0, receiver := none
        jamClear := if followed s ch = true ∧ (s.lc.channel ch).jammed = true
          then some (plus s.nc.now 800000000) else none } with
      bad := if (s.lc.channel ch).receiver.isSome = true then min (s.lc.bad + 1) 65535 else s.lc.bad })) ∧
  (∀ (s : State) (ch : ChanId), s.nc.node ≠ .held →
    (expired s.nc.now (s.lc.channel ch).jamTime = true →
      let u := s.withLc (s.lc.setChannel ch { s.lc.channel ch with jammed := true, jamTime := none })
      (s.lc.mac = .held ∨ ((s.lc.mac = .defer ∨ s.lc.mac = .backoff) ∧ flightChannel s = some ch) →
        exec (.jamTimeExpiry ch) s = .next (serve (chooseChannel u))) ∧
      (s.lc.mac = .idle ∨ s.lc.mac = .sending ∨
          ((s.lc.mac = .defer ∨ s.lc.mac = .backoff) ∧ flightChannel s ≠ some ch) →
        exec (.jamTimeExpiry ch) s = .next u)) ∧
    (expired s.nc.now (s.lc.channel ch).jamClear = true →
      let u := s.withLc (s.lc.setChannel ch { s.lc.channel ch with jammed := false, jamClear := none })
      (s.lc.mac = .held → exec (.jamClearExpiry ch) s = .next (serve (chooseChannel u))) ∧
      (s.lc.mac ≠ .held → exec (.jamClearExpiry ch) s = .next u)))

/-! ## Sending (chapters 10 and 11) -/

/-- R156, R157: a note offered to a RUNNING node joins a queue with room; on a full one it replaces the oldest queued note of
strictly lower level, of several the lowest level, then the first in the queue, or is refused; both are counted. What the
leaving of the note replaced brings (`noteGone`) comes before the MAC's choice (`serve`; entry 32, DESIGN CHOICE). In any other
state it is refused uncounted. R160, R154: a note in DEFER or BACKOFF that is a PROBE NOTE or above the floor, and that no
eligible note stands above, stays; else it returns to the queue with its link record, its remaining backoff cleared, and the
MAC passes to IDLE, where it takes the best eligible note at once, under the link record that note holds or a new one. -/
def Obligations.FullQueueReplacesAndFlightIsPreempted : Prop :=
  (∀ (s : State) (c : Content) (level : Nat) (deadline : Option Time),
    let n : Note := ⟨c, level, s.nc.now, deadline, none, false⟩
    (s.nc.node ≠ .running → offer c level deadline s = s) ∧
    (s.nc.node = .running → s.na.queue.length < 16 →
      offer c level deadline s = serve (s.withNa { s.na with queue := s.na.queue ++ [n] })) ∧
    (s.nc.node = .running → 16 ≤ s.na.queue.length →
      ((∀ m ∈ s.na.queue, m.inFlight = false → level ≤ m.level) →
        offer c level deadline s = s.withNa { s.na with dropped := min (s.na.dropped + 1) 65535 }) ∧
      (∀ (i : Nat) (v : Note), s.na.queue[i]? = some v → v.inFlight = false → v.level < level →
        (∀ (j : Nat) (m : Note), s.na.queue[j]? = some m → j ≠ i → m.inFlight = false → m.level < level →
          earlier v.enqueued m.enqueued = true ∨ (v.enqueued = m.enqueued ∧
            (v.level < m.level ∨ (v.level = m.level ∧ i < j)))) →
        offer c level deadline s = serve (noteGone v.content (s.withNa { s.na with
          queue := s.na.queue.eraseIdx i ++ [n], dropped := min (s.na.dropped + 1) 65535 }))))) ∧
  (∀ (s : State) (n : Note), LinkOk s → s.lc.mac = .defer ∨ s.lc.mac = .backoff → s.na.flight = some n →
    let above := fun q : Note => q.inFlight = false ∧ eligible s.na.floor q = true ∧ n.level < q.level
    let u : State := { s with
      lc := { s.lc with mac := .idle }
      na := { s.na with queue := s.na.queue.map fun m => if m.inFlight = true
        then { m with inFlight := false, link := m.link.map fun l => { l with remaining := none } } else m } }
    ((n.content.isProbe = true ∨ s.na.floor < n.level) → (∀ q ∈ s.na.queue, ¬above q) → serve s = s) ∧
    (¬(n.content.isProbe = true ∨ s.na.floor < n.level) ∨ (∃ q ∈ s.na.queue, above q) →
      ((∀ q ∈ s.na.queue, q.inFlight = false → eligible s.na.floor q = false) → serve s = u) ∧
      (∀ (i : Nat) (q : Note), s.nc.node = .running → s.na.hush = none → s.lc.chA.jammed = false →
        s.na.queue[i]? = some q → q.inFlight = false → eligible s.na.floor q = true →
        (∀ (j : Nat) (m : Note), s.na.queue[j]? = some m → j ≠ i → m.inFlight = false → eligible s.na.floor m = true →
          m.level < q.level ∨ (m.level = q.level ∧ (earlier q.enqueued m.enqueued = true ∨
            (earlier m.enqueued q.enqueued = false ∧ i < j)))) →
        let k := q.link.getD ⟨none, 0, 0, 2, none⟩
        k.collA < 6 → serve s = { u with
          lc := { s.lc with mac := .defer }
          na := { s.na with queue := u.na.queue.set i { q with
            inFlight := true
            link := some (if k.channel = some .a then k
              else { k with channel := some .a, e := 2, remaining := none }) } } })))

/-- R150: with the gap met the MAC passes from DEFER to BACKOFF, with the remaining backoff it holds or a draw in
0 … 2^e − 1 slots; a draw of 0 passes on to SENDING at once (entry 14, DEDUCED). R151, R168: the count at 0 starts the frame:
preamble, sync, header, payload and CRC under the next sequence number, keyed on the note's channel. The notes not in flight
stay as they are. -/
def Obligations.BackoffIsDrawnAndEndsInTheFrame : Prop :=
  (∀ (s : State) (n : Note) (l : Link) (c : ChanId), s.nc.node ≠ .held → s.lc.mac = .defer → s.na.flight = some n →
    n.link = some l → l.channel = some c → (s.lc.channel c).carrier = false → 160000 ≤ (s.lc.channel c).idle →
    ∃ t, exec .interframeGap s = .next t ∧
      (∀ r, l.remaining = some r → 0 < r → t = s.withLc { s.lc with mac := .backoff }) ∧
      (l.remaining = none → ∃ d : Nat, d ≤ 2 ^ l.e - 1 ∧
        (0 < d → t.lc = { s.lc with mac := .backoff } ∧
          (∃ m, t.na.flight = some m ∧ m = { n with link := some { l with remaining := some (320000 * d) } }) ∧
          t.na = { s.na with queue := s.na.queue.map fun q =>
            if q.inFlight = true then { q with link := some { l with remaining := some (320000 * d) } } else q }) ∧
        (d = 0 → t.lc.mac = .sending ∧ t.lc.nextSeq = s.lc.nextSeq + 1 ∧
          t.lc = { s.lc with
            mac := .sending, nextSeq := s.lc.nextSeq + 1
            tx := some ⟨c, [170, 170, 147, 11] ++ withCrc (headerAndPayload s.nc.cfg s.lc.nextSeq n.content.kind n.level
              (payloadOf s n.content)), s.nc.now, []⟩ } ∧
          t.na = { s.na with queue := s.na.queue.map fun q =>
            if q.inFlight = true then { q with link := some { l with remaining := none } } else q }) ∧
        t.nc = { s.nc with rng := t.nc.rng } ∧ UnchangedBut [.nc, .lc, .na] s t)) ∧
  (∀ (s : State) (n : Note) (l : Link) (c : ChanId), s.nc.node ≠ .held → s.lc.mac = .backoff → s.na.flight = some n →
    n.link = some l → l.channel = some c → l.remaining = some 0 →
    ∃ t, exec .backoffEnd s = .next t ∧
      t.lc = { s.lc with
        mac := .sending, nextSeq := s.lc.nextSeq + 1
        tx := some ⟨c, [170, 170, 147, 11] ++ withCrc (headerAndPayload s.nc.cfg s.lc.nextSeq n.content.kind n.level
          (payloadOf s n.content)), s.nc.now, []⟩ } ∧
      t.na.flight = some { n with link := some { l with remaining := none } } ∧
      t.na = { s.na with queue := s.na.queue.map fun q =>
        if q.inFlight = true then { q with link := q.link.map fun k => { k with remaining := none } } else q } ∧
      UnchangedBut [.lc, .na] s t)

/-- R149, R153, R154: the choice of channel for the note in flight: A if CLEAR and not spent there, else B if used, CLEAR and
not spent; a change of channel sets e to 2 and clears the remaining backoff. With one usable in a hush, or neither usable and
neither spent, the note is HELD, its remaining backoff cleared; with neither usable and one spent it is dropped and counted, and what
its leaving brings (`noteGone`) follows, before the MAC, IDLE again, chooses a note (entry 32, DESIGN CHOICE). The drop is made in a hush as out of it, after
a collision too (entry 34, DESIGN CHOICE). -/
def Obligations.ChannelIsChosenHeldOrTheNoteDropped : Prop :=
  ∀ (s : State) (n : Note), s.na.flight = some n →
    let l := n.link.getD ⟨none, 0, 0, 2, none⟩
    let a := s.lc.chA.jammed = false ∧ l.collA < 6
    let b := s.nc.cfg.dual = true ∧ s.lc.chB.jammed = false ∧ l.collB < 6
    let with_ := fun (m : Mac) (f : Note → Option Link) => ({ s with
      lc := { s.lc with mac := m }
      na := { s.na with queue := s.na.queue.map fun n => if n.inFlight = true then { n with link := f n } else n } } :
        State)
    let on := fun (c : ChanId) => with_ .defer fun _ =>
      some (if l.channel = some c then l else { l with channel := some c, e := 2, remaining := none })
    let held := with_ .held fun n => n.link.map fun k => { k with remaining := none }
    (a → s.na.hush = none → chooseChannel s = on .a) ∧
    (¬a → b → s.na.hush = none → chooseChannel s = on .b) ∧
    (a ∨ b → s.na.hush ≠ none → chooseChannel s = held) ∧
    (¬a → ¬b → l.collA < 6 → l.collB < 6 → chooseChannel s = held) ∧
    (¬a → ¬b → 6 ≤ l.collA ∨ 6 ≤ l.collB → chooseChannel s = noteGone n.content { s with
      lc := { s.lc with mac := .idle, dropped := min (s.lc.dropped + 1) 65535 }
      na := { s.na with queue := s.na.queue.filter fun m => !m.inFlight } })

/-- R151, R156: when the last CRC byte has been compared and found equal the transmitter is off, the guard takes the line
time and the note leaves the queue; what its leaving brings (`noteGone`) and the MAC's next choice (`serve`) follow, in that
order (entry 32, DESIGN CHOICE). What `noteGone` is, here and wherever a note leaves the queue: the leaving of a PROBE NOTE
clears a condition of a BLOCKED probe schedule (R77, `unblock`); that of a page of the dump in progress ends the dump after
the last page, or else builds the next page and offers it (R166) by R157, a page refused ending the dump; that of any other
note brings nothing. -/
def Obligations.FrameSentRemovesTheNote : Prop :=
  (∀ (s : State) (n : Note) (x : Transmission), s.nc.node ≠ .held → s.lc.mac = .sending → s.na.flight = some n →
    s.lc.tx = some x → x.heard = x.bytes.map some →
    exec .frameSent s = .next (serve (noteGone n.content { s with
      lc := { s.lc with mac := .idle, tx := none, ownEnd := some s.nc.now }
      na := { s.na with queue := s.na.queue.filter fun m => !m.inFlight } }))) ∧
  (∀ (s : State) (c : Content),
    (c.isProbe = true → noteGone c s = unblock s) ∧
    (c.isProbe = false → (∀ p, c = .reply p → p.sect = .state ∨ s.na.dump = none) → noteGone c s = s) ∧
    (∀ (p : Page) (d : Dump), c = .reply p → p.sect ≠ .state → s.na.dump = some d →
      let level := s.nc.cfg.levelReply
      let next : Note := ⟨.reply (buildPage s d).1, level, s.nc.now, none, none, false⟩
      let onward := some { d with next := (buildPage s d).2 }
      (p.last = true → noteGone c s = { s with na := { s.na with dump := none } }) ∧
      (p.last = false → s.na.queue.length < 16 →
        noteGone c s = { s with na := { s.na with queue := s.na.queue ++ [next], dump := onward } }) ∧
      (p.last = false → 16 ≤ s.na.queue.length → (∀ m ∈ s.na.queue, m.inFlight = false → level ≤ m.level) →
        noteGone c s = { s with na := { s.na with dropped := min (s.na.dropped + 1) 65535, dump := none } }) ∧
      (∀ (i : Nat) (v : Note), p.last = false → 16 ≤ s.na.queue.length → s.na.queue[i]? = some v →
        v.inFlight = false → v.level < level →
        (∀ (j : Nat) (m : Note), s.na.queue[j]? = some m → j ≠ i → m.inFlight = false → m.level < level →
          earlier v.enqueued m.enqueued = true ∨ (v.enqueued = m.enqueued ∧
            (v.level < m.level ∨ (v.level = m.level ∧ i < j)))) →
        noteGone c s = { s with na := { s.na with
          queue := s.na.queue.eraseIdx i ++ [next], dropped := min (s.na.dropped + 1) 65535, dump := onward } })))

/-- R152, R161: a byte that differs from the byte sent, or that the receiver did not take, cuts the frame; before its deadline
the note counts a collision on its channel, raises e, follows its fix record again (R123) and goes through the choice of
channel (`chooseChannel`), the other notes as they were; past it, the note is withdrawn. That the deadline counts as passed at
its own line time is entry 31 (DESIGN CHOICE); that a collision in a hush which leaves no channel, with one spent, drops the
note by that choice of channel and does not hold it is entry 34 (DESIGN CHOICE). -/
def Obligations.CollisionCutsTheFrame : Prop :=
  ∀ (s : State) (n : Note) (x : Transmission), s.nc.node ≠ .held → s.lc.mac = .sending →
    s.na.flight = some n → s.lc.tx = some x → x.heard ≠ (x.bytes.take x.heard.length).map some →
    let lc := { s.lc with mac := .idle, tx := none, ownEnd := some s.nc.now }
    (expired s.nc.now n.deadline = false → exec .collision s = .next (serve (chooseChannel { s with
      lc := lc
      na := { s.na with queue := s.na.queue.map fun q => if q.inFlight = true then
        let k := q.link.getD ⟨none, 0, 0, 2, none⟩
        { q with
          content := refreshed s.ft.places q.content
          link := some { k with
            e := min 6 (k.e + 1), remaining := none
            collA := if x.channel = .a then k.collA + 1 else k.collA
            collB := if x.channel = .b then k.collB + 1 else k.collB } } else q } }))) ∧
    (expired s.nc.now n.deadline = true → exec .collision s = .next (serve (noteGone n.content { s with
      lc := lc
      na := { s.na with queue := s.na.queue.filter fun m => !m.inFlight }
      ptu := { s.ptu with
        wasted := if n.content.isProbe = true then min (s.ptu.wasted + 1) 65535 else s.ptu.wasted } })))

/-- R158, R149: an IDLE MAC of a RUNNING node not hushed takes the eligible note that no other goes before, and with
channel A CLEAR waits in DEFER on A with a new link record. -/
def Obligations.IdleMacTakesTheBestNote : Prop :=
  ∀ (s : State) (i : Nat) (n : Note), LinkOk s → s.nc.node = .running → s.na.hush = none → s.lc.mac = .idle →
    s.lc.chA.jammed = false → s.na.queue[i]? = some n → n.link = none → eligible s.na.floor n = true →
    (∀ j m, s.na.queue[j]? = some m → eligible s.na.floor m = true → j ≠ i →
      m.level < n.level ∨ (m.level = n.level ∧ (earlier n.enqueued m.enqueued = true ∨
        (earlier m.enqueued n.enqueued = false ∧ i < j)))) →
    (serve s).lc.mac = .defer ∧
      (serve s).na.flight = some { n with inFlight := true, link := some ⟨some .a, 0, 0, 2, none⟩ } ∧
      UnchangedBut [.lc, .na] s (serve s)

/-- R161, R79, R159, R162, R163: the timers of the queue, the floor, the hush and the STATE NOTE. At a hush's end the schedule
(`unblock`, R77) and the MAC go on, a note HELD making its choice of channel again (`chooseChannel`, `serve`), as at HUSH 0.
STATE_TIMER restarts from its expiry and a STATE NOTE is offered (`offer`), unless LEVEL_STATE is 0 or one stands queued. -/
def Obligations.NoteTimersRunOut : Prop :=
  ∀ s : State, s.nc.node ≠ .held →
    (∀ i n, s.na.queue[i]? = some n → expired s.nc.now n.deadline = true →
      ¬(n.inFlight = true ∧ s.lc.mac = .sending) →
      ∃ u, exec (.noteDeadline i) s = .next (serve (noteGone n.content u)) ∧
        u.na = { s.na with queue := s.na.queue.eraseIdx i } ∧
        u.lc = { s.lc with mac := if n.inFlight = true then .idle else s.lc.mac } ∧
        u.ptu = { s.ptu with
          wasted := if n.content.isProbe = true then min (s.ptu.wasted + 1) 65535 else s.ptu.wasted } ∧
        UnchangedBut [.ptu, .lc, .na] s u) ∧
    (expired s.nc.now s.na.floorHold = true →
      ∃ u, exec .floorHoldExpiry s = .next (serve u) ∧ u.na = { s.na with floor := 0, floorHold := none } ∧
        UnchangedBut [.na] s u) ∧
    (expired s.nc.now s.na.hush = true →
      let u := unblock { s with na := { s.na with hush := none } }
      ∃ t, exec .hushExpiry s = .next t ∧ t = (if s.lc.mac = .held then serve (chooseChannel u) else serve u) ∧
        t.na.hush = none ∧ t.na.floor = s.na.floor ∧
        t.nc = { s.nc with rng := t.nc.rng } ∧ t.cfe = s.cfe ∧ t.iw = s.iw ∧ t.ce = s.ce ∧ t.ft = s.ft ∧ t.ec = s.ec) ∧
    (∀ x, s.na.stateTimer = some x → reached s.nc.now x = true → s.nc.cfg.statePeriod ≠ 0 →
      let na := { s.na with stateTimer := some (plus x (800000000 * s.nc.cfg.statePeriod : Nat)) }
      (s.nc.cfg.levelState = 0 ∨ (∃ n ∈ s.na.queue, n.content.isState = true) →
        exec .stateTimer s = .next { s with na := na }) ∧
      (s.nc.cfg.levelState ≠ 0 → (∀ n ∈ s.na.queue, n.content.isState = false) →
        exec .stateTimer s = .next (offer .state s.nc.cfg.levelState none { s with na := na }) ∧
        (s.nc.node = .running → s.na.queue.length < 16 → exec .stateTimer s = .next (serve { s with
          na := { na with
            queue := s.na.queue ++ [⟨.state, s.nc.cfg.levelState, s.nc.now, none, none, false⟩] } }))))

/-! ## Commands (chapter 11) -/

/-- R165, R166: a QUERY of a table while no dump runs starts one: its first page, of the entries from index 0 on, joins the
queue; while one runs, or with LEVEL_REPLY 0, it is refused and counted. -/
def Obligations.TableQueryStartsDump : Prop :=
  ∀ (s : State) (ch : ChanId) (bytes : Bytes) (f : Frame) (p : CommandPayload) (i : Instr) (sect : Section),
    CommandAccepted s ch bytes f p → p.code = 1 → s.nc.node = .running →
    (i, p.argument, sect) ∈ [(.queryFixes ch bytes, 1, Section.fixes), (.queryFindings ch bytes, 2, Section.findings),
      (.queryNeighbours ch bytes, 3, Section.neighbours)] →
    let l := { s.lc.setChannel ch { s.lc.channel ch with receiver := none } with listenerSeq := some f.seq }
    (s.nc.cfg.levelReply ≠ 0 → s.na.dump = none → s.na.queue.length < 16 →
      ∃ page next, exec i s = .next (serve { s with
          lc := l
          na := { s.na with
            dump := some ⟨sect, next⟩
            queue := s.na.queue ++ [⟨.reply page, s.nc.cfg.levelReply, s.nc.now, none, none, false⟩] } }) ∧
        (page, next) = buildPage s ⟨sect, 0⟩ ∧
        ((sectionEntries s sect).length ≤ perPage sect →
          page.last = true ∧ page.payload.drop 4 = (sectionEntries s sect).flatMap (·.2))) ∧
    (s.nc.cfg.levelReply = 0 ∨ s.na.dump ≠ none → exec i s = .next { s with
      lc := l
      na := { s.na with refused := min (s.na.refused + 1) 65535 } })

/-- R163, R165, R169: the STATE layout: node state 2, the status bits, the partner, eight occupancies, the baseline marks
dropped and the 16 counters; a STATE NOTE carries it as the node stands at its sending. A QUERY of STATE offers one STATE
REPLY, the layout behind the 4 bytes of a page, unless one stands in the queue; that the reply counts itself in the queue's
occupancy, and no note it replaces itself, is entry 15 (DEDUCED, DESIGN CHOICE). -/
def Obligations.StateQueryOffersStateReply : Prop :=
  (∀ s : State, StateLayout s s.na.queue.length (payloadOf s .state)) ∧
  (∀ (s : State) (ch : ChanId) (bytes : Bytes) (f : Frame) (p : CommandPayload),
    CommandAccepted s ch bytes f p → p.code = 1 → p.argument = 4 → s.nc.node = .running →
    let l := { s.lc.setChannel ch { s.lc.channel ch with receiver := none } with listenerSeq := some f.seq }
    (s.nc.cfg.levelReply ≠ 0 → (∀ n ∈ s.na.queue, n.content.isStateReply = false) → s.na.queue.length < 16 →
      ∃ page body, exec (.queryState ch bytes) s = .next (serve { s with
          lc := l
          na := { s.na with
            queue := s.na.queue ++ [⟨.reply page, s.nc.cfg.levelReply, s.nc.now, none, none, false⟩] } }) ∧
        page = ⟨.state, true, [132, 0, 1, 1] ++ body⟩ ∧ StateLayout s (s.na.queue.length + 1) body) ∧
    (s.nc.cfg.levelReply ≠ 0 → (∃ n ∈ s.na.queue, n.content.isStateReply = true) →
      exec (.queryState ch bytes) s = .next (s.withLc l)) ∧
    (s.nc.cfg.levelReply = 0 → exec (.queryState ch bytes) s = .next { s with
      lc := l
      na := { s.na with refused := min (s.na.refused + 1) 65535 } }))

/-- R140, R126, R73: a REBASE with no ECHO job waiting or running empties the comparator's stores and takes every
corroboration off; with one, it is marked pending. R127: CLEAR FIXES empties every place and keeps the number counter and the
count of fixes discarded; notes already queued stay and stand for no record. Neither changes anything else but the reception. -/
def Obligations.RebaseAndClearFixesEmptyTheStores : Prop :=
  ∀ (s : State) (ch : ChanId) (bytes : Bytes) (f : Frame) (p : CommandPayload),
    CommandAccepted s ch bytes f p → s.nc.node = .running →
    let l := { s.lc.setChannel ch { s.lc.channel ch with receiver := none } with listenerSeq := some f.seq }
    (p.code = 2 → ∃ t, exec (.rebase ch bytes) s = .next t ∧ t.lc = l ∧
      ((∀ j ∈ s.ce.jobs, j.isEcho = false) →
        t.ec = { s.ec with
          baseline := [], candidates := [], findings := [], learned := 0, watching := false, rebase := false } ∧
        t.ft = { s.ft with places := s.ft.places.map (Option.map fun x => { x with corroboration := none }) } ∧
        t.na = { s.na with queue := s.na.queue.map fun n => if n.inFlight = true ∧ s.lc.mac = .sending then n
          else { n with content := refreshed t.ft.places n.content } } ∧ UnchangedBut [.ft, .ec, .lc, .na] s t) ∧
      ((∃ j ∈ s.ce.jobs, j.isEcho = true) → t.ec = { s.ec with rebase := true } ∧ UnchangedBut [.ec, .lc] s t)) ∧
    (p.code = 3 → ∃ t, exec (.clearFixes ch bytes) s = .next t ∧ t.lc = l ∧
      t.ft = { s.ft with places := List.replicate 16 none } ∧ t.na = { s.na with queue := t.na.queue } ∧
      t.na.queue.length = s.na.queue.length ∧
      (∀ (i : Nat) (n : Note), s.na.queue[i]? = some n → ∃ m, t.na.queue[i]? = some m ∧
        m = { n with content := m.content } ∧ payloadOf t m.content = payloadOf t n.content ∧
        ∀ q, m.content.standsFor q = false) ∧ UnchangedBut [.ft, .lc, .na] s t)

/-- R166: a page takes the entries from the next index on, in index order, up to 3, 5 or 6, behind its section with the
last-page flag, the index of its first entry or the next index, their number and the table's; the next index follows the last
entry taken, and the page is the last if no entry stands at or beyond it. When a page is sent, the next is built and offered
at once, before the MAC chooses (entry 32, DESIGN CHOICE), or the dump ends after the last. -/
def Obligations.DumpPagesFollowOneAnother : Prop :=
  (∀ (s : State) (d : Dump),
    let all := sectionEntries s d.sect
    let taken := (all.filter fun p => decide (d.next ≤ p.1)).take (perPage d.sect)
    let page := (buildPage s d).1
    let next := (buildPage s d).2
    page.sect = d.sect ∧ page.payload = [oneByte (d.sect.code + if page.last = true then 128 else 0),
      oneByte ((taken.head?.map (·.1)).getD d.next), oneByte taken.length, oneByte all.length] ++
        taken.flatMap (·.2) ∧
    next = (taken.getLast?.map fun p => p.1 + 1).getD d.next ∧ (page.last = true ↔ ∀ p ∈ all, p.1 < next) ∧
    all.Pairwise (fun p q => p.1 < q.1)) ∧
  (∀ (s : State) (i : Nat) (x : Bytes),
    ((i, x) ∈ sectionEntries s .fixes ↔ ∃ f, s.ft.places[i]? = some (some f) ∧ x = fixEntry f) ∧
    ((i, x) ∈ sectionEntries s .neighbours ↔ ∃ n, s.ptu.table[i]? = some (some n) ∧ x = neighbourEntry n) ∧
    ((i, x) ∈ sectionEntries s .findings ↔ ∃ f, s.ec.findings[i]? = some f ∧ x = findingEntry f) ∧
    perPage .fixes = 3 ∧ perPage .neighbours = 5 ∧ perPage .findings = 6) ∧
  (∀ (s : State) (n : Note) (x : Transmission) (page : Page) (d : Dump), s.nc.node ≠ .held → s.lc.mac = .sending →
    s.na.flight = some n → s.lc.tx = some x → x.heard = x.bytes.map some → n.content = .reply page →
    page.sect ≠ .state → s.na.dump = some d →
    let lc := { s.lc with mac := .idle, tx := none, ownEnd := some s.nc.now }
    let rest := s.na.queue.filter fun m => !m.inFlight
    (page.last = true → exec .frameSent s = .next (serve { s with
      lc := lc
      na := { s.na with queue := rest, dump := none } })) ∧
    (page.last = false → rest.length < 16 → exec .frameSent s = .next (serve { s with
      lc := lc
      na := { s.na with
        dump := some { d with next := (buildPage s d).2 }
        queue := rest ++ [⟨.reply (buildPage s d).1, s.nc.cfg.levelReply, s.nc.now, none, none, false⟩] } })))

/-- R162, R154: HUSH n puts the node in hush for n seconds, 600 at most, and holds a note in DEFER or BACKOFF, its remaining
backoff cleared; HUSH 0 ends a hush, the schedule and the MAC going on (`unblock`, `chooseChannel`, `serve`), and does nothing
to a node not hushed. Nothing else changes but the reception. -/
def Obligations.HushHoldsTheTransmitter : Prop :=
  ∀ (s : State) (ch : ChanId) (bytes : Bytes) (f : Frame) (p : CommandPayload),
    CommandAccepted s ch bytes f p → p.code = 4 → s.nc.node = .running →
    let l := { s.lc.setChannel ch { s.lc.channel ch with receiver := none } with listenerSeq := some f.seq }
    let hush := some (plus s.nc.now (800000000 * min p.argument 600 : Nat))
    (1 ≤ p.argument → s.lc.mac = .defer ∨ s.lc.mac = .backoff → exec (.hush ch bytes) s = .next { s with
      lc := { l with mac := .held }
      na := { s.na with
        hush := hush
        queue := s.na.queue.map fun n => if n.inFlight = true
          then { n with link := n.link.map fun k => { k with remaining := none } } else n } }) ∧
    (1 ≤ p.argument → s.lc.mac ≠ .defer → s.lc.mac ≠ .backoff → exec (.hush ch bytes) s = .next { s with
      lc := l
      na := { s.na with hush := hush } }) ∧
    (p.argument = 0 → s.na.hush ≠ none →
      let u := unblock { s with
        lc := l
        na := { s.na with hush := none } }
      exec (.hush ch bytes) s = .next (if s.lc.mac = .held then serve (chooseChannel u) else serve u)) ∧
    (p.argument = 0 → s.na.hush = none → exec (.hush ch bytes) s = .next (s.withLc l))

/-- R9, R10, R12: RESTART leads to CALIBRATING with every block at its RESTART values: its power-on values but for the
configuration, the line time and the five running numbers, the random source seeded again. That the calibration, IDLE by R31,
then waits as WAITING is entry 28 (DESIGN CHOICE). -/
def Obligations.RestartKeepsOnlyTheNumbers : Prop :=
  ∀ (s : State) (ch : ChanId) (bytes : Bytes) (f : Frame) (p : CommandPayload),
    CommandAccepted s ch bytes f p → p.code = 5 →
    ∃ t, exec (.restart ch bytes) s = .next t ∧
      t.nc = { s.nc with node := .calibrating, rng := seed s.nc.cfg.nodeId, reading := false } ∧
      t.cfe = { Cfe.reset with cal := .waiting } ∧ t.iw = { Iw.reset with nextBurst := s.iw.nextBurst } ∧
      t.ce = Ce.reset ∧ t.ptu = { Ptu.reset with nextProbe := s.ptu.nextProbe } ∧ t.pu = Pu.reset ∧
      t.ft = { Ft.reset with nextFix := s.ft.nextFix } ∧ t.ec = { Ec.reset with nextFinding := s.ec.nextFinding } ∧
      t.na = Na.reset ∧ t.counters = List.replicate 16 0 ∧ t.lc.nextSeq = s.lc.nextSeq ∧ t.lc.mac = .idle ∧
      t.lc.tx = none ∧ t.lc.ownEnd = none ∧ t.lc.listenerSeq = none ∧
      (∀ c, t.lc.channel c = { s.lc.channel c with
        jammed := false, jamClear := none, receiver := none
        jamTime := if followed s c = true ∧ (s.lc.channel c).carrier = true
          then some (plus s.nc.now 40000000) else none }) ∧
      t.runLine = false ∧ t.pending = s.pending

/-- R164: a code outside 1 … 5, and a QUERY of a section outside 1 … 4, count one unknown command and change nothing else but
the reception, with the listener's last sequence number. R164, R8, R148: an accepted COMMAND of any row whose target is
another node, and one other than RESTART in CLASHED, change the reception and that number alone. -/
def Obligations.UnknownCommandIsCounted : Prop :=
  (∀ (s : State) (ch : ChanId) (bytes : Bytes) (f : Frame) (p : CommandPayload),
    CommandAccepted s ch bytes f p → s.nc.node = .running →
    (p.code = 0 ∨ 6 ≤ p.code ∨ (p.code = 1 ∧ (p.argument = 0 ∨ 5 ≤ p.argument))) →
    exec (.unknownCommand ch bytes) s = .next { s with
      lc := { s.lc.setChannel ch { s.lc.channel ch with receiver := none } with listenerSeq := some f.seq }
      na := { s.na with unknown := min (s.na.unknown + 1) 65535 } }) ∧
  (∀ (s : State) (ch : ChanId) (bytes bs : Bytes) (f : Frame) (i : Instr),
    completed s ch bytes = some bs → judge s bs = .command f →
    let p := commandPayload f.payload
    (i = .queryFixes ch bytes ∧ p.code = 1 ∧ p.argument = 1) ∨ (i = .queryFindings ch bytes ∧ p.code = 1 ∧ p.argument = 2) ∨
      (i = .queryNeighbours ch bytes ∧ p.code = 1 ∧ p.argument = 3) ∨
      (i = .queryState ch bytes ∧ p.code = 1 ∧ p.argument = 4) ∨ (i = .rebase ch bytes ∧ p.code = 2) ∨
      (i = .clearFixes ch bytes ∧ p.code = 3) ∨ (i = .hush ch bytes ∧ p.code = 4) ∨ (i = .restart ch bytes ∧ p.code = 5) ∨
      (i = .unknownCommand ch bytes ∧
        (p.code = 0 ∨ 6 ≤ p.code ∨ (p.code = 1 ∧ (p.argument = 0 ∨ 5 ≤ p.argument)))) →
    (p.target ≠ s.nc.cfg.nodeId ∧ p.target ≠ 0) ∨ (s.nc.node = .clashed ∧ p.code ≠ 5) →
    exec i s = .next { s with
      lc := { s.lc.setChannel ch { s.lc.channel ch with receiver := none } with listenerSeq := some f.seq } })

/-! ## Layouts (chapter 12) -/

/-- R168, R170, R171: the bytes a node sends, from the header on, are a whole frame whose CRC agrees, and a receiver reads
from them the run, kind, level, sender, sequence number, position and payload they were built from. -/
def Obligations.SentFrameIsReadBack : Prop :=
  ∀ (cfg : Cfg) (seq : Byte) (kind level : Nat) (payload : Bytes), cfg.runNo ≤ 255 → cfg.nodeId ≤ 255 →
    cfg.position ≤ 65535 → kind ≤ 15 → level ≤ 7 → payload.length ≤ 96 →
    let bs := withCrc (headerAndPayload cfg seq kind level payload)
    frameComplete bs = true ∧ crcAgrees bs = true ∧
      parseFrame bs = ⟨cfg.runNo, kind, level, cfg.nodeId, seq, cfg.position, payload⟩

/-! ## Invariants of every step -/

/-- The MAC has exactly one note in flight unless it is IDLE, and then none; a note it waits for, counts for or sends has
its channel; a frame is on air exactly in SENDING (R149, R151): every step keeps it. -/
def Obligations.EveryStepKeepsTheLink : Prop :=
  ∀ s t : State, LinkOk s → step s = .next t → LinkOk t

/-- Every job running or waiting has its own buffer held for it, at most 4 wait, none while the engine is IDLE (R47, R58):
every step keeps it. -/
def Obligations.EveryStepKeepsTheEngine : Prop :=
  ∀ s t : State, EngineOk s → step s = .next t → EngineOk t

/-- The stores keep their sizes, the burst list its records and slots (R42, R47, R51), the offsets and the floor their
ranges, the counters their 16 bits: every step keeps it. -/
def Obligations.EveryStepKeepsTheBounds : Prop :=
  ∀ s t : State, BurstsOk s → FrontBounded s → TablesBounded s → QueueBounded s → CountersBounded s → step s = .next t →
    BurstsOk t ∧ FrontBounded t ∧ TablesBounded t ∧ QueueBounded t ∧ CountersBounded t
end

