-- ==== Sys2Proof/Laws/Lists.lean ====
section
/-! SUPPORT. What the list operations of Machine/Ops.lean answer. -/

namespace Sys2Proof.Machine

open Sys2Proof

/-- Whatever the fold of `bestIdx` starts from, its answer is the start or an acceptable member with its place. -/
theorem bestFold_sound {α : Type} (better : α → α → Bool) (ok : α → Bool) (ps : List (α × Nat))
    (init r : Option (α × Nat))
    (h : ps.foldl (fun best p => if ok p.1 then
        match best with
        | none => some p
        | some b => if better p.1 b.1 then some p else some b
      else best) init = r) :
    r = init ∨ ∃ p ∈ ps, r = some p ∧ ok p.1 = true := by
  induction ps generalizing init with
  | nil => exact Or.inl h.symm
  | cons p ps ih =>
    rw [List.foldl_cons] at h
    rcases ih _ h with h1 | ⟨q, hq, h2⟩
    · by_cases hp : ok p.1 = true
      · rw [if_pos hp] at h1
        cases init with
        | none => exact Or.inr ⟨p, List.mem_cons_self .., h1, hp⟩
        | some b =>
          dsimp only at h1
          split at h1
          · exact Or.inr ⟨p, List.mem_cons_self .., h1, hp⟩
          · exact Or.inl h1
      · rw [if_neg hp] at h1
        exact Or.inl h1
    · exact Or.inr ⟨q, List.mem_cons_of_mem _ hq, h2⟩

/-- The place `bestIdx` answers holds an acceptable member. -/
theorem bestIdx_sound {α : Type} {better : α → α → Bool} {ok : α → Bool} {xs : List α} {i : Nat}
    (h : bestIdx better ok xs = some i) : ∃ x, xs[i]? = some x ∧ ok x = true := by
  unfold bestIdx at h
  obtain ⟨p, hp, hi⟩ := Option.map_eq_some_iff.mp h
  rcases bestFold_sound better ok xs.zipIdx none _ hp with h1 | ⟨q, hq, h2, h3⟩
  · exact absurd h1 (by simp)
  · obtain rfl : p = q := Option.some.inj h2
    obtain ⟨x, j⟩ := p
    have := List.mk_mem_zipIdx_iff_getElem?.mp hq
    exact ⟨x, hi ▸ this, h3⟩

/-- `bestIdx` answers a place inside the list. -/
theorem bestIdx_lt {α : Type} {better : α → α → Bool} {ok : α → Bool} {xs : List α} {i : Nat}
    (h : bestIdx better ok xs = some i) : i < xs.length := by
  obtain ⟨x, hx, _⟩ := bestIdx_sound h
  exact (List.getElem?_eq_some_iff.mp hx).1

/-- The fold of `bestIdx` that starts from a member answers a member. -/
theorem bestFold_isSome {α : Type} (better : α → α → Bool) (ok : α → Bool) (ps : List (α × Nat))
    (b : α × Nat) :
    (ps.foldl (fun best p => if ok p.1 then
        match best with
        | none => some p
        | some b => if better p.1 b.1 then some p else some b
      else best) (some b)).isSome = true := by
  induction ps generalizing b with
  | nil => rfl
  | cons p ps ih =>
    rw [List.foldl_cons]
    by_cases hp : ok p.1 = true
    · rw [if_pos hp]
      dsimp only
      split
      · exact ih p
      · exact ih b
    · rw [if_neg hp]
      exact ih b

/-- A list all of whose members are acceptable, and which has one, has a best member. -/
theorem bestIdx_isSome_of_all {α : Type} {better : α → α → Bool} {xs : List α} (h : 0 < xs.length) :
    (bestIdx better (fun _ => true) xs).isSome = true := by
  cases xs with
  | nil => simp at h
  | cons x xs =>
    unfold bestIdx
    rw [Option.isSome_map, List.zipIdx_cons, List.foldl_cons]
    exact bestFold_isSome better (fun _ => true) (xs.zipIdx (0 + 1)) (x, 0)

/-! ## The best member -/

/-- One step of the fold of `bestIdx`. -/
def bestStep {α : Type} (better : α → α → Bool) (ok : α → Bool) (best : Option (α × Nat)) (p : α × Nat) :
    Option (α × Nat) :=
  if ok p.1 then
    match best with
    | none => some p
    | some b => if better p.1 b.1 then some p else some b
  else best

theorem bestIdx_eq {α : Type} (better : α → α → Bool) (ok : α → Bool) (xs : List α) :
    bestIdx better ok xs = (xs.zipIdx.foldl (bestStep better ok) none).map (·.2) := rfl

/-- With an irreflexive and transitive order, no acceptable member goes before the one the fold answers, and none is
answered only when none is acceptable. -/
theorem bestFold_best {α : Type} {better : α → α → Bool} {ok : α → Bool} (hi : ∀ x, better x x = false)
    (ht : ∀ x y z, better x y = true → better y z = true → better x z = true) (ps : List (α × Nat))
    (seen : List α) (init : Option (α × Nat))
    (h0 : init = none → ∀ y ∈ seen, ok y = false)
    (h1 : ∀ b, init = some b → ∀ y ∈ seen, ok y = true → better y b.1 = false) :
    (ps.foldl (bestStep better ok) init = none → ∀ y ∈ seen ++ ps.map (·.1), ok y = false) ∧
    (∀ b, ps.foldl (bestStep better ok) init = some b →
      ∀ y ∈ seen ++ ps.map (·.1), ok y = true → better y b.1 = false) := by
  induction ps generalizing seen init with
  | nil => rw [List.map_nil, List.append_nil]; exact ⟨h0, h1⟩
  | cons p ps ih =>
    have h2 : bestStep better ok init p = none → ∀ y ∈ seen ++ [p.1], ok y = false := by
      intro h y hy
      unfold bestStep at h
      split at h
      · split at h
        · exact absurd h (by simp)
        · split at h <;> exact absurd h (by simp)
      · rename_i hp
        rcases List.mem_append.mp hy with hy | hy
        · exact h0 h y hy
        · rw [List.mem_singleton.mp hy]; simpa using hp
    have h3 : ∀ b, bestStep better ok init p = some b → ∀ y ∈ seen ++ [p.1], ok y = true → better y b.1 = false := by
      intro b h y hy ho
      unfold bestStep at h
      split at h
      · split at h
        · obtain rfl := Option.some.inj h
          rcases List.mem_append.mp hy with hy | hy
          · exact absurd (h0 rfl y hy) (by simp [ho])
          · rw [List.mem_singleton.mp hy]; exact hi _
        · rename_i c
          split at h
          · rename_i hb
            obtain rfl := Option.some.inj h
            rcases List.mem_append.mp hy with hy | hy
            · by_contra hc
              have := ht _ _ _ (by simpa using hc) hb
              rw [h1 c rfl y hy ho] at this
              exact absurd this (by simp)
            · rw [List.mem_singleton.mp hy]; exact hi _
          · rename_i hb
            obtain rfl := Option.some.inj h
            rcases List.mem_append.mp hy with hy | hy
            · exact h1 c rfl y hy ho
            · rw [List.mem_singleton.mp hy]; simpa using hb
      · rename_i hp
        rcases List.mem_append.mp hy with hy | hy
        · exact h1 b h y hy ho
        · rw [List.mem_singleton.mp hy] at ho; exact absurd ho (by simpa using hp)
    have h4 := ih (seen ++ [p.1]) (bestStep better ok init p) h2 h3
    simpa using h4

/-- No acceptable member goes before the one `bestIdx` answers. -/
theorem bestIdx_best {α : Type} {better : α → α → Bool} {ok : α → Bool} (hi : ∀ x, better x x = false)
    (ht : ∀ x y z, better x y = true → better y z = true → better x z = true) {xs : List α} {i : Nat}
    (h : bestIdx better ok xs = some i) :
    ∃ x, xs[i]? = some x ∧ ok x = true ∧ ∀ y ∈ xs, ok y = true → better y x = false := by
  obtain ⟨x, hx, ho⟩ := bestIdx_sound h
  rw [bestIdx_eq] at h
  obtain ⟨p, hp, rfl⟩ := Option.map_eq_some_iff.mp h
  have h1 := (bestFold_best hi ht xs.zipIdx [] none (by simp) (by simp)).2 p hp
  have h2 : p.1 = x := by
    rcases bestFold_sound better ok xs.zipIdx none _ hp with h3 | ⟨q, hq, h3, _⟩
    · exact absurd h3 (by simp)
    · obtain rfl : p = q := Option.some.inj h3
      have := List.mk_mem_zipIdx_iff_getElem?.mp hq
      rw [hx] at this
      exact (Option.some.inj this).symm
  refine ⟨x, hx, ho, fun y hy hy' => h2 ▸ h1 y ?_ hy'⟩
  simpa using hy

/-- `bestIdx` answers none exactly when no member is acceptable. -/
theorem bestIdx_none {α : Type} {better : α → α → Bool} {ok : α → Bool} {xs : List α} :
    bestIdx better ok xs = none ↔ ∀ y ∈ xs, ok y = false := by
  constructor
  · intro h
    have h0 : ∀ (ps : List (α × Nat)) (init : Option (α × Nat)), ps.foldl (bestStep better ok) init = none →
        init = none ∧ ∀ p ∈ ps, ok p.1 = false := by
      intro ps
      induction ps with
      | nil => exact fun _ h => ⟨h, by simp⟩
      | cons p ps ih =>
        intro init h
        obtain ⟨h1, h2⟩ := ih _ h
        unfold bestStep at h1
        split at h1
        · split at h1
          · exact absurd h1 (by simp)
          · split at h1 <;> exact absurd h1 (by simp)
        · rename_i hp
          refine ⟨h1, fun q hq => ?_⟩
          rcases List.mem_cons.mp hq with rfl | hq
          · simpa using hp
          · exact h2 q hq
    rw [bestIdx_eq, Option.map_eq_none_iff] at h
    intro y hy
    obtain ⟨i, hi⟩ := List.mem_iff_getElem?.mp hy
    exact (h0 _ _ h).2 (y, i) (List.mk_mem_zipIdx_iff_getElem?.mpr hi)
  · intro h
    rw [bestIdx_eq, Option.map_eq_none_iff]
    have h0 : ∀ ps : List (α × Nat), (∀ p ∈ ps, ok p.1 = false) → ps.foldl (bestStep better ok) none = none := by
      intro ps
      induction ps with
      | nil => exact fun _ => rfl
      | cons p ps ih =>
        intro hp
        rw [List.foldl_cons, bestStep, if_neg (by simp [hp p (List.mem_cons_self ..)])]
        exact ih fun q hq => hp q (List.mem_cons_of_mem _ hq)
    refine h0 _ fun p hp => h _ ?_
    exact (List.mem_iff_getElem?.mpr ⟨p.2, List.mk_mem_zipIdx_iff_getElem?.mp hp⟩)

/-- The member that goes before every acceptable member ahead of it in the list, and that none goes before, is the one
`bestIdx` answers, whatever the order. -/
theorem bestIdx_dominant {α : Type} {better : α → α → Bool} {ok : α → Bool} {xs : List α} {i : Nat} {x : α}
    (hx : xs[i]? = some x) (ho : ok x = true)
    (h : ∀ j y, xs[j]? = some y → ok y = true → j ≠ i → better y x = false ∧ (j < i → better x y = true)) :
    bestIdx better ok xs = some i := by
  have hlt := (List.getElem?_eq_some_iff.mp hx).1
  have hsplit : xs.zipIdx = xs.zipIdx.take i ++ (x, i) :: xs.zipIdx.drop (i + 1) := by
    have h1 : xs.zipIdx[i]? = some (x, i) := by simp [hx]
    obtain ⟨h2, h3⟩ := List.getElem?_eq_some_iff.mp h1
    rw [← h3, ← List.drop_eq_getElem_cons h2, List.take_append_drop]
  have hmem : ∀ q ∈ xs.zipIdx, xs[q.2]? = some q.1 := fun q hq => List.mk_mem_zipIdx_iff_getElem?.mp hq
  have htake : ∀ q ∈ xs.zipIdx.take i, q.2 < i := by
    intro q hq
    obtain ⟨k, hk⟩ := List.mem_iff_getElem?.mp hq
    rw [List.getElem?_take] at hk
    split at hk
    · rename_i hki
      rw [List.getElem?_zipIdx] at hk
      cases hxk : xs[k]? with
      | none => rw [hxk] at hk; exact absurd hk (by simp)
      | some y => rw [hxk] at hk; have := Option.some.inj hk; rw [← this]; simpa using hki
    · exact absurd hk (by simp)
  have hdrop : ∀ q ∈ xs.zipIdx.drop (i + 1), i < q.2 := by
    intro q hq
    obtain ⟨k, hk⟩ := List.mem_iff_getElem?.mp hq
    rw [List.getElem?_drop, List.getElem?_zipIdx] at hk
    cases hxk : xs[i + 1 + k]? with
    | none => rw [hxk] at hk; exact absurd hk (by simp)
    | some y => rw [hxk] at hk; have := Option.some.inj hk; rw [← this]; simp; omega
  have hpre : bestStep better ok ((xs.zipIdx.take i).foldl (bestStep better ok) none) (x, i) = some (x, i) := by
    cases hf : (xs.zipIdx.take i).foldl (bestStep better ok) none with
    | none => unfold bestStep; rw [if_pos ho]
    | some b =>
      rcases bestFold_sound better ok _ none _ hf with h1 | ⟨q, hq, h1, h2⟩
      · exact absurd h1 (by simp)
      · obtain rfl : b = q := Option.some.inj h1
        have h3 := htake b hq
        unfold bestStep
        rw [if_pos ho]
        dsimp only
        rw [if_pos ((h b.2 b.1 (hmem b (List.mem_of_mem_take hq)) h2 (by omega)).2 h3)]
  have hpost : ∀ ps : List (α × Nat), (∀ q ∈ ps, ok q.1 = true → better q.1 x = false) →
      ps.foldl (bestStep better ok) (some (x, i)) = some (x, i) := by
    intro ps
    induction ps with
    | nil => exact fun _ => rfl
    | cons p ps ih =>
      intro hp
      have h1 : bestStep better ok (some (x, i)) p = some (x, i) := by
        unfold bestStep
        split
        · rename_i ho'
          dsimp only
          rw [if_neg (by simp [hp p (List.mem_cons_self ..) ho'])]
        · rfl
      rw [List.foldl_cons, h1]
      exact ih fun q hq => hp q (List.mem_cons_of_mem _ hq)
  rw [bestIdx_eq, hsplit, List.foldl_append, List.foldl_cons, hpre, hpost]
  · rfl
  · intro q hq ho'
    have h1 := hdrop q hq
    exact (h q.2 q.1 (hmem q (List.mem_of_mem_drop hq)) ho' (by omega)).1

/-- `keepNewest` keeps at most its number. -/
theorem keepNewest_length {α : Type} (n : Nat) (xs : List α) : (keepNewest n xs).length ≤ n := by
  unfold keepNewest; rw [List.length_drop]; omega

/-- A saturating counter stays within 16 bits. -/
theorem bump_le (n : Nat) : bump n ≤ 65535 := by unfold bump; omega

/-- A clamped value lies in its range. -/
theorem clampInt_range (x lo hi : Int) (h : lo ≤ hi) : lo ≤ clampInt x lo hi ∧ clampInt x lo hi ≤ hi := by
  unfold clampInt; split <;> [skip; split] <;> constructor <;> omega

/-- A list with one member changed in its place. -/
theorem modify_eq_set {α : Type} (xs : List α) (j : Nat) (b : α) (f : α → α) (h : xs[j]? = some b) :
    xs.modify j f = xs.set j (f b) := by
  obtain ⟨h1, h2⟩ := List.getElem?_eq_some_iff.mp h
  apply List.ext_getElem?
  intro k
  rw [List.getElem?_modify, List.getElem?_set]
  by_cases hk : j = k
  · subst hk; simp [h1, h2]
  · simp [hk]

end Sys2Proof.Machine
end

