-- ==== Sys2Proof/Laws/State.lean ====
section
/-! SUPPORT. One lemma per field per update of a block, each by unfolding, so that no later proof unfolds a record update;
and the last of two updates of one block stands. -/

namespace Sys2Proof.Machine

open Sys2Proof

/-! ## withNc -/

@[simp] theorem State.withNc_nc (s : State) (x : Nc) : (s.withNc x).nc = x := rfl
@[simp] theorem State.withNc_cfe (s : State) (x : Nc) : (s.withNc x).cfe = s.cfe := rfl
@[simp] theorem State.withNc_iw (s : State) (x : Nc) : (s.withNc x).iw = s.iw := rfl
@[simp] theorem State.withNc_ce (s : State) (x : Nc) : (s.withNc x).ce = s.ce := rfl
@[simp] theorem State.withNc_ptu (s : State) (x : Nc) : (s.withNc x).ptu = s.ptu := rfl
@[simp] theorem State.withNc_pu (s : State) (x : Nc) : (s.withNc x).pu = s.pu := rfl
@[simp] theorem State.withNc_ft (s : State) (x : Nc) : (s.withNc x).ft = s.ft := rfl
@[simp] theorem State.withNc_ec (s : State) (x : Nc) : (s.withNc x).ec = s.ec := rfl
@[simp] theorem State.withNc_lc (s : State) (x : Nc) : (s.withNc x).lc = s.lc := rfl
@[simp] theorem State.withNc_na (s : State) (x : Nc) : (s.withNc x).na = s.na := rfl
@[simp] theorem State.withNc_pending (s : State) (x : Nc) : (s.withNc x).pending = s.pending := rfl
@[simp] theorem State.withNc_twice (s : State) (x y : Nc) : (s.withNc x).withNc y = s.withNc y := rfl
@[simp] theorem State.withNc_same (s : State) : s.withNc s.nc = s := rfl

/-! ## withCfe -/

@[simp] theorem State.withCfe_nc (s : State) (x : Cfe) : (s.withCfe x).nc = s.nc := rfl
@[simp] theorem State.withCfe_cfe (s : State) (x : Cfe) : (s.withCfe x).cfe = x := rfl
@[simp] theorem State.withCfe_iw (s : State) (x : Cfe) : (s.withCfe x).iw = s.iw := rfl
@[simp] theorem State.withCfe_ce (s : State) (x : Cfe) : (s.withCfe x).ce = s.ce := rfl
@[simp] theorem State.withCfe_ptu (s : State) (x : Cfe) : (s.withCfe x).ptu = s.ptu := rfl
@[simp] theorem State.withCfe_pu (s : State) (x : Cfe) : (s.withCfe x).pu = s.pu := rfl
@[simp] theorem State.withCfe_ft (s : State) (x : Cfe) : (s.withCfe x).ft = s.ft := rfl
@[simp] theorem State.withCfe_ec (s : State) (x : Cfe) : (s.withCfe x).ec = s.ec := rfl
@[simp] theorem State.withCfe_lc (s : State) (x : Cfe) : (s.withCfe x).lc = s.lc := rfl
@[simp] theorem State.withCfe_na (s : State) (x : Cfe) : (s.withCfe x).na = s.na := rfl
@[simp] theorem State.withCfe_pending (s : State) (x : Cfe) : (s.withCfe x).pending = s.pending := rfl
@[simp] theorem State.withCfe_twice (s : State) (x y : Cfe) : (s.withCfe x).withCfe y = s.withCfe y := rfl
@[simp] theorem State.withCfe_same (s : State) : s.withCfe s.cfe = s := rfl

/-! ## withIw -/

@[simp] theorem State.withIw_nc (s : State) (x : Iw) : (s.withIw x).nc = s.nc := rfl
@[simp] theorem State.withIw_cfe (s : State) (x : Iw) : (s.withIw x).cfe = s.cfe := rfl
@[simp] theorem State.withIw_iw (s : State) (x : Iw) : (s.withIw x).iw = x := rfl
@[simp] theorem State.withIw_ce (s : State) (x : Iw) : (s.withIw x).ce = s.ce := rfl
@[simp] theorem State.withIw_ptu (s : State) (x : Iw) : (s.withIw x).ptu = s.ptu := rfl
@[simp] theorem State.withIw_pu (s : State) (x : Iw) : (s.withIw x).pu = s.pu := rfl
@[simp] theorem State.withIw_ft (s : State) (x : Iw) : (s.withIw x).ft = s.ft := rfl
@[simp] theorem State.withIw_ec (s : State) (x : Iw) : (s.withIw x).ec = s.ec := rfl
@[simp] theorem State.withIw_lc (s : State) (x : Iw) : (s.withIw x).lc = s.lc := rfl
@[simp] theorem State.withIw_na (s : State) (x : Iw) : (s.withIw x).na = s.na := rfl
@[simp] theorem State.withIw_pending (s : State) (x : Iw) : (s.withIw x).pending = s.pending := rfl
@[simp] theorem State.withIw_twice (s : State) (x y : Iw) : (s.withIw x).withIw y = s.withIw y := rfl
@[simp] theorem State.withIw_same (s : State) : s.withIw s.iw = s := rfl

/-! ## withCe -/

@[simp] theorem State.withCe_nc (s : State) (x : Ce) : (s.withCe x).nc = s.nc := rfl
@[simp] theorem State.withCe_cfe (s : State) (x : Ce) : (s.withCe x).cfe = s.cfe := rfl
@[simp] theorem State.withCe_iw (s : State) (x : Ce) : (s.withCe x).iw = s.iw := rfl
@[simp] theorem State.withCe_ce (s : State) (x : Ce) : (s.withCe x).ce = x := rfl
@[simp] theorem State.withCe_ptu (s : State) (x : Ce) : (s.withCe x).ptu = s.ptu := rfl
@[simp] theorem State.withCe_pu (s : State) (x : Ce) : (s.withCe x).pu = s.pu := rfl
@[simp] theorem State.withCe_ft (s : State) (x : Ce) : (s.withCe x).ft = s.ft := rfl
@[simp] theorem State.withCe_ec (s : State) (x : Ce) : (s.withCe x).ec = s.ec := rfl
@[simp] theorem State.withCe_lc (s : State) (x : Ce) : (s.withCe x).lc = s.lc := rfl
@[simp] theorem State.withCe_na (s : State) (x : Ce) : (s.withCe x).na = s.na := rfl
@[simp] theorem State.withCe_pending (s : State) (x : Ce) : (s.withCe x).pending = s.pending := rfl
@[simp] theorem State.withCe_twice (s : State) (x y : Ce) : (s.withCe x).withCe y = s.withCe y := rfl
@[simp] theorem State.withCe_same (s : State) : s.withCe s.ce = s := rfl

/-! ## withPtu -/

@[simp] theorem State.withPtu_nc (s : State) (x : Ptu) : (s.withPtu x).nc = s.nc := rfl
@[simp] theorem State.withPtu_cfe (s : State) (x : Ptu) : (s.withPtu x).cfe = s.cfe := rfl
@[simp] theorem State.withPtu_iw (s : State) (x : Ptu) : (s.withPtu x).iw = s.iw := rfl
@[simp] theorem State.withPtu_ce (s : State) (x : Ptu) : (s.withPtu x).ce = s.ce := rfl
@[simp] theorem State.withPtu_ptu (s : State) (x : Ptu) : (s.withPtu x).ptu = x := rfl
@[simp] theorem State.withPtu_pu (s : State) (x : Ptu) : (s.withPtu x).pu = s.pu := rfl
@[simp] theorem State.withPtu_ft (s : State) (x : Ptu) : (s.withPtu x).ft = s.ft := rfl
@[simp] theorem State.withPtu_ec (s : State) (x : Ptu) : (s.withPtu x).ec = s.ec := rfl
@[simp] theorem State.withPtu_lc (s : State) (x : Ptu) : (s.withPtu x).lc = s.lc := rfl
@[simp] theorem State.withPtu_na (s : State) (x : Ptu) : (s.withPtu x).na = s.na := rfl
@[simp] theorem State.withPtu_pending (s : State) (x : Ptu) : (s.withPtu x).pending = s.pending := rfl
@[simp] theorem State.withPtu_twice (s : State) (x y : Ptu) : (s.withPtu x).withPtu y = s.withPtu y := rfl
@[simp] theorem State.withPtu_same (s : State) : s.withPtu s.ptu = s := rfl

/-! ## withPu -/

@[simp] theorem State.withPu_nc (s : State) (x : Pu) : (s.withPu x).nc = s.nc := rfl
@[simp] theorem State.withPu_cfe (s : State) (x : Pu) : (s.withPu x).cfe = s.cfe := rfl
@[simp] theorem State.withPu_iw (s : State) (x : Pu) : (s.withPu x).iw = s.iw := rfl
@[simp] theorem State.withPu_ce (s : State) (x : Pu) : (s.withPu x).ce = s.ce := rfl
@[simp] theorem State.withPu_ptu (s : State) (x : Pu) : (s.withPu x).ptu = s.ptu := rfl
@[simp] theorem State.withPu_pu (s : State) (x : Pu) : (s.withPu x).pu = x := rfl
@[simp] theorem State.withPu_ft (s : State) (x : Pu) : (s.withPu x).ft = s.ft := rfl
@[simp] theorem State.withPu_ec (s : State) (x : Pu) : (s.withPu x).ec = s.ec := rfl
@[simp] theorem State.withPu_lc (s : State) (x : Pu) : (s.withPu x).lc = s.lc := rfl
@[simp] theorem State.withPu_na (s : State) (x : Pu) : (s.withPu x).na = s.na := rfl
@[simp] theorem State.withPu_pending (s : State) (x : Pu) : (s.withPu x).pending = s.pending := rfl
@[simp] theorem State.withPu_twice (s : State) (x y : Pu) : (s.withPu x).withPu y = s.withPu y := rfl
@[simp] theorem State.withPu_same (s : State) : s.withPu s.pu = s := rfl

/-! ## withFt -/

@[simp] theorem State.withFt_nc (s : State) (x : Ft) : (s.withFt x).nc = s.nc := rfl
@[simp] theorem State.withFt_cfe (s : State) (x : Ft) : (s.withFt x).cfe = s.cfe := rfl
@[simp] theorem State.withFt_iw (s : State) (x : Ft) : (s.withFt x).iw = s.iw := rfl
@[simp] theorem State.withFt_ce (s : State) (x : Ft) : (s.withFt x).ce = s.ce := rfl
@[simp] theorem State.withFt_ptu (s : State) (x : Ft) : (s.withFt x).ptu = s.ptu := rfl
@[simp] theorem State.withFt_pu (s : State) (x : Ft) : (s.withFt x).pu = s.pu := rfl
@[simp] theorem State.withFt_ft (s : State) (x : Ft) : (s.withFt x).ft = x := rfl
@[simp] theorem State.withFt_ec (s : State) (x : Ft) : (s.withFt x).ec = s.ec := rfl
@[simp] theorem State.withFt_lc (s : State) (x : Ft) : (s.withFt x).lc = s.lc := rfl
@[simp] theorem State.withFt_na (s : State) (x : Ft) : (s.withFt x).na = s.na := rfl
@[simp] theorem State.withFt_pending (s : State) (x : Ft) : (s.withFt x).pending = s.pending := rfl
@[simp] theorem State.withFt_twice (s : State) (x y : Ft) : (s.withFt x).withFt y = s.withFt y := rfl
@[simp] theorem State.withFt_same (s : State) : s.withFt s.ft = s := rfl

/-! ## withEc -/

@[simp] theorem State.withEc_nc (s : State) (x : Ec) : (s.withEc x).nc = s.nc := rfl
@[simp] theorem State.withEc_cfe (s : State) (x : Ec) : (s.withEc x).cfe = s.cfe := rfl
@[simp] theorem State.withEc_iw (s : State) (x : Ec) : (s.withEc x).iw = s.iw := rfl
@[simp] theorem State.withEc_ce (s : State) (x : Ec) : (s.withEc x).ce = s.ce := rfl
@[simp] theorem State.withEc_ptu (s : State) (x : Ec) : (s.withEc x).ptu = s.ptu := rfl
@[simp] theorem State.withEc_pu (s : State) (x : Ec) : (s.withEc x).pu = s.pu := rfl
@[simp] theorem State.withEc_ft (s : State) (x : Ec) : (s.withEc x).ft = s.ft := rfl
@[simp] theorem State.withEc_ec (s : State) (x : Ec) : (s.withEc x).ec = x := rfl
@[simp] theorem State.withEc_lc (s : State) (x : Ec) : (s.withEc x).lc = s.lc := rfl
@[simp] theorem State.withEc_na (s : State) (x : Ec) : (s.withEc x).na = s.na := rfl
@[simp] theorem State.withEc_pending (s : State) (x : Ec) : (s.withEc x).pending = s.pending := rfl
@[simp] theorem State.withEc_twice (s : State) (x y : Ec) : (s.withEc x).withEc y = s.withEc y := rfl
@[simp] theorem State.withEc_same (s : State) : s.withEc s.ec = s := rfl

/-! ## withLc -/

@[simp] theorem State.withLc_nc (s : State) (x : Lc) : (s.withLc x).nc = s.nc := rfl
@[simp] theorem State.withLc_cfe (s : State) (x : Lc) : (s.withLc x).cfe = s.cfe := rfl
@[simp] theorem State.withLc_iw (s : State) (x : Lc) : (s.withLc x).iw = s.iw := rfl
@[simp] theorem State.withLc_ce (s : State) (x : Lc) : (s.withLc x).ce = s.ce := rfl
@[simp] theorem State.withLc_ptu (s : State) (x : Lc) : (s.withLc x).ptu = s.ptu := rfl
@[simp] theorem State.withLc_pu (s : State) (x : Lc) : (s.withLc x).pu = s.pu := rfl
@[simp] theorem State.withLc_ft (s : State) (x : Lc) : (s.withLc x).ft = s.ft := rfl
@[simp] theorem State.withLc_ec (s : State) (x : Lc) : (s.withLc x).ec = s.ec := rfl
@[simp] theorem State.withLc_lc (s : State) (x : Lc) : (s.withLc x).lc = x := rfl
@[simp] theorem State.withLc_na (s : State) (x : Lc) : (s.withLc x).na = s.na := rfl
@[simp] theorem State.withLc_pending (s : State) (x : Lc) : (s.withLc x).pending = s.pending := rfl
@[simp] theorem State.withLc_twice (s : State) (x y : Lc) : (s.withLc x).withLc y = s.withLc y := rfl
@[simp] theorem State.withLc_same (s : State) : s.withLc s.lc = s := rfl

/-! ## withNa -/

@[simp] theorem State.withNa_nc (s : State) (x : Na) : (s.withNa x).nc = s.nc := rfl
@[simp] theorem State.withNa_cfe (s : State) (x : Na) : (s.withNa x).cfe = s.cfe := rfl
@[simp] theorem State.withNa_iw (s : State) (x : Na) : (s.withNa x).iw = s.iw := rfl
@[simp] theorem State.withNa_ce (s : State) (x : Na) : (s.withNa x).ce = s.ce := rfl
@[simp] theorem State.withNa_ptu (s : State) (x : Na) : (s.withNa x).ptu = s.ptu := rfl
@[simp] theorem State.withNa_pu (s : State) (x : Na) : (s.withNa x).pu = s.pu := rfl
@[simp] theorem State.withNa_ft (s : State) (x : Na) : (s.withNa x).ft = s.ft := rfl
@[simp] theorem State.withNa_ec (s : State) (x : Na) : (s.withNa x).ec = s.ec := rfl
@[simp] theorem State.withNa_lc (s : State) (x : Na) : (s.withNa x).lc = s.lc := rfl
@[simp] theorem State.withNa_na (s : State) (x : Na) : (s.withNa x).na = x := rfl
@[simp] theorem State.withNa_pending (s : State) (x : Na) : (s.withNa x).pending = s.pending := rfl
@[simp] theorem State.withNa_twice (s : State) (x y : Na) : (s.withNa x).withNa y = s.withNa y := rfl
@[simp] theorem State.withNa_same (s : State) : s.withNa s.na = s := rfl

/-! ## withPending -/

@[simp] theorem State.withPending_nc (s : State) (x : List Instr) : (s.withPending x).nc = s.nc := rfl
@[simp] theorem State.withPending_cfe (s : State) (x : List Instr) : (s.withPending x).cfe = s.cfe := rfl
@[simp] theorem State.withPending_iw (s : State) (x : List Instr) : (s.withPending x).iw = s.iw := rfl
@[simp] theorem State.withPending_ce (s : State) (x : List Instr) : (s.withPending x).ce = s.ce := rfl
@[simp] theorem State.withPending_ptu (s : State) (x : List Instr) : (s.withPending x).ptu = s.ptu := rfl
@[simp] theorem State.withPending_pu (s : State) (x : List Instr) : (s.withPending x).pu = s.pu := rfl
@[simp] theorem State.withPending_ft (s : State) (x : List Instr) : (s.withPending x).ft = s.ft := rfl
@[simp] theorem State.withPending_ec (s : State) (x : List Instr) : (s.withPending x).ec = s.ec := rfl
@[simp] theorem State.withPending_lc (s : State) (x : List Instr) : (s.withPending x).lc = s.lc := rfl
@[simp] theorem State.withPending_na (s : State) (x : List Instr) : (s.withPending x).na = s.na := rfl
@[simp] theorem State.withPending_pending (s : State) (x : List Instr) : (s.withPending x).pending = x := rfl
@[simp] theorem State.withPending_twice (s : State) (x y : List Instr) : (s.withPending x).withPending y = s.withPending y := rfl
@[simp] theorem State.withPending_same (s : State) : s.withPending s.pending = s := rfl

end Sys2Proof.Machine
end

