-- ==== Sys2Proof/Laws/Sending.lean ====
section
/-! SUPPORT. What the sending side can do: one frame lemma per operation of Machine/Sending.lean. -/

namespace Sys2Proof.Machine

open Sys2Proof

/-- What the taking, choosing, holding and dropping of notes never touches. -/
structure SendFrame (s t : State) : Prop where
  node : t.nc.node = s.nc.node
  cfg : t.nc.cfg = s.nc.cfg
  now : t.nc.now = s.nc.now
  reading : t.nc.reading = s.nc.reading
  sampled : t.nc.sampled = s.nc.sampled
  fresh : t.nc.fresh = s.nc.fresh
  cfe : t.cfe = s.cfe
  iw : t.iw = s.iw
  ce : t.ce = s.ce
  pu : t.pu = s.pu
  ft : t.ft = s.ft
  ec : t.ec = s.ec
  pending : t.pending = s.pending
  lastTrigger : t.ptu.lastTrigger = s.ptu.lastTrigger
  guard : t.ptu.guard = s.ptu.guard
  nextProbe : t.ptu.nextProbe = s.ptu.nextProbe
  history : t.ptu.history = s.ptu.history
  heard : t.ptu.heard = s.ptu.heard
  arrivals : t.ptu.arrivals = s.ptu.arrivals
  table : t.ptu.table = s.ptu.table
  partner : t.ptu.partner = s.ptu.partner
  wasted : t.ptu.wasted = s.ptu.wasted
  discarded : t.ptu.discarded = s.ptu.discarded
  chA : t.lc.chA = s.lc.chA
  chB : t.lc.chB = s.lc.chB
  ownEnd : t.lc.ownEnd = s.lc.ownEnd
  nextSeq : t.lc.nextSeq = s.lc.nextSeq
  listenerSeq : t.lc.listenerSeq = s.lc.listenerSeq
  bad : t.lc.bad = s.lc.bad
  otherRun : t.lc.otherRun = s.lc.otherRun
  tx : t.lc.tx = s.lc.tx
  floor : t.na.floor = s.na.floor
  floorHold : t.na.floorHold = s.na.floorHold
  hush : t.na.hush = s.na.hush
  stateTimer : t.na.stateTimer = s.na.stateTimer
  refused : t.na.refused = s.na.refused
  unknown : t.na.unknown = s.na.unknown
  notesDropped : s.na.dropped ≤ 65535 → t.na.dropped ≤ 65535
  linkDropped : s.lc.dropped ≤ 65535 → t.lc.dropped ≤ 65535

/-- The 16 counters of R167, one by one. -/
theorem countersBounded_iff (s : State) : CountersBounded s ↔
    s.iw.seen ≤ 65535 ∧ s.iw.untimed ≤ 65535 ∧ s.iw.evicted ≤ 65535 ∧ s.pu.pairs ≤ 65535 ∧ s.pu.handedOn ≤ 65535 ∧
    s.ft.discarded ≤ 65535 ∧ s.ptu.wasted ≤ 65535 ∧ s.ptu.discarded ≤ 65535 ∧ s.ec.invalid ≤ 65535 ∧
    s.ec.collided ≤ 65535 ∧ s.na.dropped ≤ 65535 ∧ s.lc.dropped ≤ 65535 ∧ s.lc.bad ≤ 65535 ∧ s.lc.otherRun ≤ 65535 ∧
    s.na.refused ≤ 65535 ∧ s.na.unknown ≤ 65535 := by
  unfold CountersBounded State.counters
  simp only [List.forall_mem_cons, List.not_mem_nil, false_imp_iff, implies_true, and_true]

theorem SendFrame.refl (s : State) : SendFrame s s := by constructor <;> first | rfl | exact id

theorem SendFrame.trans {s t u : State} (h : SendFrame s t) (k : SendFrame t u) : SendFrame s u := by
  constructor
  all_goals first
    | exact k.node.trans h.node | exact k.cfg.trans h.cfg | exact k.now.trans h.now
    | exact k.reading.trans h.reading | exact k.sampled.trans h.sampled | exact k.fresh.trans h.fresh
    | exact k.cfe.trans h.cfe | exact k.iw.trans h.iw | exact k.ce.trans h.ce | exact k.pu.trans h.pu
    | exact k.ft.trans h.ft | exact k.ec.trans h.ec | exact k.pending.trans h.pending
    | exact k.lastTrigger.trans h.lastTrigger | exact k.guard.trans h.guard | exact k.nextProbe.trans h.nextProbe
    | exact k.history.trans h.history | exact k.heard.trans h.heard | exact k.arrivals.trans h.arrivals
    | exact k.table.trans h.table | exact k.partner.trans h.partner | exact k.wasted.trans h.wasted
    | exact k.discarded.trans h.discarded | exact k.chA.trans h.chA | exact k.chB.trans h.chB
    | exact k.ownEnd.trans h.ownEnd | exact k.nextSeq.trans h.nextSeq | exact k.listenerSeq.trans h.listenerSeq
    | exact k.bad.trans h.bad | exact k.otherRun.trans h.otherRun | exact k.tx.trans h.tx
    | exact k.floor.trans h.floor | exact k.floorHold.trans h.floorHold | exact k.hush.trans h.hush
    | exact k.stateTimer.trans h.stateTimer | exact k.refused.trans h.refused | exact k.unknown.trans h.unknown
    | exact k.notesDropped ∘ h.notesDropped | exact k.linkDropped ∘ h.linkDropped

theorem SendFrame.counters {s t : State} (h : SendFrame s t) (b : CountersBounded s) : CountersBounded t := by
  rw [countersBounded_iff] at b ⊢
  rw [h.iw, h.pu, h.ft, h.ec, h.wasted, h.discarded, h.bad, h.otherRun, h.refused, h.unknown]
  obtain ⟨b1, b2, b3, b4, b5, b6, b7, b8, b9, b10, b11, b12, b13, b14, b15, b16⟩ := b
  exact ⟨b1, b2, b3, b4, b5, b6, b7, b8, b9, b10, h.notesDropped b11, h.linkDropped b12, b13, b14, b15, b16⟩

/-! ## The queue -/

/-- `enqueue` changes the queue and the count of notes dropped only. -/
theorem enqueue_floor (n : Note) (a : Na) : (enqueue n a).2.floor = a.floor := by
  unfold enqueue; (repeat' split) <;> rfl
theorem enqueue_floorHold (n : Note) (a : Na) : (enqueue n a).2.floorHold = a.floorHold := by
  unfold enqueue; (repeat' split) <;> rfl
theorem enqueue_hush (n : Note) (a : Na) : (enqueue n a).2.hush = a.hush := by
  unfold enqueue; (repeat' split) <;> rfl
theorem enqueue_stateTimer (n : Note) (a : Na) : (enqueue n a).2.stateTimer = a.stateTimer := by
  unfold enqueue; (repeat' split) <;> rfl
theorem enqueue_refused (n : Note) (a : Na) : (enqueue n a).2.refused = a.refused := by
  unfold enqueue; (repeat' split) <;> rfl
theorem enqueue_unknown (n : Note) (a : Na) : (enqueue n a).2.unknown = a.unknown := by
  unfold enqueue; (repeat' split) <;> rfl
theorem enqueue_dump (n : Note) (a : Na) : (enqueue n a).2.dump = a.dump := by
  unfold enqueue; (repeat' split) <;> rfl

theorem enqueue_dropped (n : Note) (a : Na) (h : a.dropped ≤ 65535) : (enqueue n a).2.dropped ≤ 65535 := by
  unfold enqueue; (repeat' split) <;> first | exact h | exact Nat.min_le_right _ _

/-- On a queue with room the note is taken and appended (R156). -/
theorem enqueue_room (n : Note) (a : Na) (h : a.queue.length < 16) :
    enqueue n a = (.taken, { a with queue := a.queue ++ [n] }) := by
  unfold enqueue; rw [if_pos h]

/-! ## Frames -/

theorem settle_frame (s : State) : SendFrame s (settle s) := by
  unfold settle drawMicros; constructor <;> first | rfl | exact id

theorem unblock_frame (s : State) : SendFrame s (unblock s) := by
  unfold unblock
  split
  · split
    · exact SendFrame.refl s
    · exact settle_frame s
  · exact SendFrame.refl s

/-- The queue changed by `enqueue`, with the dump as it may be. -/
theorem enqueued_frame (n : Note) (s : State) (d : Option Dump) :
    SendFrame s (s.withNa { (enqueue n s.na).2 with dump := d }) := by
  constructor <;> first
    | rfl
    | exact enqueue_floor n s.na | exact enqueue_floorHold n s.na | exact enqueue_hush n s.na
    | exact enqueue_stateTimer n s.na | exact enqueue_refused n s.na | exact enqueue_unknown n s.na
    | exact enqueue_dropped n s.na | exact id

theorem startPage_frame (d : Dump) (s : State) : SendFrame s (startPage d s) := by
  unfold startPage
  dsimp only
  split <;> exact enqueued_frame _ s _

theorem pageGone_frame (p : Page) (s : State) : SendFrame s (pageGone p s) := by
  unfold pageGone
  split
  · exact SendFrame.refl s
  · split
    · constructor <;> first | rfl | exact id
    · exact startPage_frame _ s

theorem noteGone_frame (c : Content) (s : State) : SendFrame s (noteGone c s) := by
  unfold noteGone
  split
  · exact unblock_frame s
  · split
    · exact SendFrame.refl s
    · exact pageGone_frame _ s
  · exact SendFrame.refl s

theorem hold_frame (s : State) : SendFrame s (hold s) := by
  unfold hold Na.setFlight State.setMac; constructor <;> first | rfl | exact id

theorem dropNote_frame (n : Note) (s : State) : SendFrame s (dropNote n s) := by
  unfold dropNote
  refine SendFrame.trans ?_ (noteGone_frame _ _)
  unfold Na.dropFlight; constructor <;> first | rfl | exact id | exact fun _ => Nat.min_le_right _ _

theorem chooseChannel_frame (s : State) : SendFrame s (chooseChannel s) := by
  unfold chooseChannel
  split
  · exact SendFrame.refl s
  · dsimp only
    split
    · split
      · exact hold_frame s
      · unfold Na.setFlight State.setMac; constructor <;> first | rfl | exact id
    · split
      · exact dropNote_frame _ s
      · exact hold_frame s

theorem takeNote_frame (i : Nat) (s : State) : SendFrame s (takeNote i s) := by
  unfold takeNote
  refine SendFrame.trans ?_ (chooseChannel_frame _)
  constructor <;> first | rfl | exact id

theorem preempt_frame (s : State) : SendFrame s (preempt s) := by
  unfold preempt Na.setFlight State.setMac; constructor <;> first | rfl | exact id

theorem serveLoop_frame (k : Nat) (s : State) : SendFrame s (serveLoop k s) := by
  induction k generalizing s with
  | zero => exact SendFrame.refl s
  | succ k ih =>
    unfold serveLoop
    split
    · split
      · split
        · exact (takeNote_frame _ s).trans (ih _)
        · exact SendFrame.refl s
      · exact SendFrame.refl s
    · split
      · exact (preempt_frame s).trans (ih _)
      · exact SendFrame.refl s
    · split
      · exact (preempt_frame s).trans (ih _)
      · exact SendFrame.refl s
    · exact SendFrame.refl s
    · exact SendFrame.refl s

theorem serve_frame (s : State) : SendFrame s (serve s) := serveLoop_frame 40 s

theorem offer_frame (c : Content) (level : Nat) (deadline : Option Time) (s : State) :
    SendFrame s (offer c level deadline s) := by
  unfold offer
  split
  · dsimp only
    have h := enqueued_frame (newNote s.nc.now c level deadline) s
      (enqueue (newNote s.nc.now c level deadline) s.na).2.dump
    split
    · exact SendFrame.trans h (serve_frame _)
    · exact h
    · exact SendFrame.trans h ((noteGone_frame _ _).trans (serve_frame _))
  · exact SendFrame.refl s

end Sys2Proof.Machine
end

