-- ==== Sys2Proof/Laws/Link.lean ====
section
/-! SUPPORT. The sending side keeps the MAC, the note in flight and the transmitter together (`LinkOk`): one lemma per
operation of Machine/Sending.lean. -/

namespace Sys2Proof.Machine

open Sys2Proof

/-! ## Queues -/

/-- Notes changed without their in-flight mark count the same. -/
theorem countP_map_inFlight (q : List Note) (f : Note → Note) (h : ∀ n, (f n).inFlight = n.inFlight) :
    (q.map f).countP (·.inFlight) = q.countP (·.inFlight) := by
  rw [List.countP_map]; congr 1; funext n; exact h n

/-- The queue with the note in flight changed but left in flight counts the same. -/
theorem countP_setFlight (a : Na) (f : Note → Note) (h : ∀ n, n.inFlight = true → (f n).inFlight = true) :
    (a.setFlight f).queue.countP (·.inFlight) = a.queue.countP (·.inFlight) := by
  unfold Na.setFlight
  apply countP_map_inFlight
  intro n
  by_cases hn : n.inFlight = true
  · simp [hn, h n hn]
  · simp [hn]

/-- A note in flight after `setFlight` comes from one in flight before. -/
theorem mem_setFlight {a : Na} {f : Note → Note} {m : Note} (hm : m ∈ (a.setFlight f).queue) (hf : m.inFlight = true) :
    ∃ n ∈ a.queue, n.inFlight = true ∧ m = f n := by
  unfold Na.setFlight at hm
  obtain ⟨n, hn, rfl⟩ := List.mem_map.mp hm
  by_cases h : n.inFlight = true
  · exact ⟨n, hn, h, by simp [h]⟩
  · simp [h] at hf

/-- `dropFlight` leaves no note in flight. -/
theorem countP_dropFlight (a : Na) : a.dropFlight.queue.countP (·.inFlight) = 0 := by
  unfold Na.dropFlight
  rw [List.countP_eq_zero]
  intro n hn
  have := (List.mem_filter.mp hn).2
  simpa using this

/-- Removing a place of a list counts one less if its member counted. -/
theorem countP_eraseIdx {α : Type} (p : α → Bool) (xs : List α) (i : Nat) (x : α) (h : xs[i]? = some x) :
    (xs.eraseIdx i).countP p + (if p x then 1 else 0) = xs.countP p := by
  induction xs generalizing i with
  | nil => simp at h
  | cons y ys ih =>
    cases i with
    | zero =>
      obtain rfl : y = x := by simpa using h
      rw [List.eraseIdx_cons_zero, List.countP_cons]
    | succ i =>
      have := ih i (by simpa using h)
      rw [List.eraseIdx_cons_succ, List.countP_cons, List.countP_cons]
      omega

/-- A note in flight exists when the count is not 0. -/
theorem flight_isSome {a : Na} (h : a.queue.countP (·.inFlight) = 1) : ∃ n, a.flight = some n := by
  unfold Na.flight
  have : 0 < a.queue.countP (·.inFlight) := by omega
  obtain ⟨n, hn, hp⟩ := List.countP_pos_iff.mp this
  have : (a.queue.find? (·.inFlight)).isSome = true := List.find?_isSome.mpr ⟨n, hn, hp⟩
  exact Option.isSome_iff_exists.mp this

/-- The note in flight stands in the queue and is in flight. -/
theorem flight_mem {a : Na} {n : Note} (h : a.flight = some n) : n ∈ a.queue ∧ n.inFlight = true :=
  ⟨List.mem_of_find?_eq_some h, by simpa using List.find?_some h⟩

/-- `enqueue` leaves the notes in flight as they are (R156, R157). -/
theorem enqueue_flights (n : Note) (a : Na) (hn : n.inFlight = false) :
    (enqueue n a).2.queue.countP (·.inFlight) = a.queue.countP (·.inFlight) ∧
      ∀ m ∈ (enqueue n a).2.queue, m.inFlight = true → m ∈ a.queue := by
  unfold enqueue
  split
  · constructor
    · simp [List.countP_append, hn]
    · intro m hm hf
      rcases List.mem_append.mp hm with h | h
      · exact h
      · rw [List.mem_singleton.mp h, hn] at hf; cases hf
  · split
    · exact ⟨rfl, fun m hm _ => hm⟩
    · rename_i i hv
      obtain ⟨x, hx, hok⟩ := bestIdx_sound hv
      rw [hx]
      dsimp only
      have hxf : x.inFlight = false := by
        rw [Bool.and_eq_true] at hok; simpa using hok.1
      constructor
      · have := countP_eraseIdx (·.inFlight) a.queue i x hx
        simp only [hxf] at this
        simp [List.countP_append, hn]
        simpa using this
      · intro m hm hf
        rcases List.mem_append.mp hm with h | h
        · exact List.mem_of_mem_eraseIdx h
        · rw [List.mem_singleton.mp h, hn] at hf; cases hf

/-! ## LinkOk from state to state -/

/-- `LinkOk` reads the queue, the MAC state and the frame on air only. -/
theorem LinkOk.congr {s t : State} (h : LinkOk s) (hq : t.na.queue = s.na.queue) (hm : t.lc.mac = s.lc.mac)
    (hx : t.lc.tx = s.lc.tx) : LinkOk t := by
  constructor
  · rw [hq, hm]; exact h.oneFlight
  · rw [hq, hm]; exact h.routed
  · rw [hm, hx]; exact h.onAir

/-- A queue with the same notes in flight, under the same MAC. -/
theorem LinkOk.requeue {s t : State} (h : LinkOk s)
    (hc : t.na.queue.countP (·.inFlight) = s.na.queue.countP (·.inFlight))
    (hr : ∀ m ∈ t.na.queue, m.inFlight = true → m ∈ s.na.queue) (hm : t.lc.mac = s.lc.mac)
    (hx : t.lc.tx = s.lc.tx) : LinkOk t := by
  constructor
  · rw [hc, hm]; exact h.oneFlight
  · rw [hm]; intro h1 h2 n hn hf; exact h.routed h1 h2 n (hr n hn hf) hf
  · rw [hm, hx]; exact h.onAir

/-- Notes changed without their in-flight mark and link record. -/
theorem LinkOk.mapQueue {s t : State} (h : LinkOk s) (f : Note → Note) (hq : t.na.queue = s.na.queue.map f)
    (hi : ∀ n, (f n).inFlight = n.inFlight) (hl : ∀ n, (f n).link = n.link) (hm : t.lc.mac = s.lc.mac)
    (hx : t.lc.tx = s.lc.tx) : LinkOk t := by
  constructor
  · rw [hq, hm, countP_map_inFlight _ _ hi]; exact h.oneFlight
  · rw [hm, hq]
    intro h1 h2 n hn hf
    obtain ⟨m, hm', rfl⟩ := List.mem_map.mp hn
    rw [hl]
    exact h.routed h1 h2 m hm' (by rw [← hi]; exact hf)
  · rw [hm, hx]; exact h.onAir

/-- With the MAC not SENDING no frame is on air. -/
theorem LinkOk.tx_none {s : State} (h : LinkOk s) (hm : s.lc.mac ≠ .sending) : s.lc.tx = none := by
  cases htx : s.lc.tx with
  | none => rfl
  | some t => exact absurd (h.onAir.mp (by rw [htx]; rfl)) hm

/-- With the MAC not IDLE one note is in flight. -/
theorem LinkOk.one {s : State} (h : LinkOk s) (hm : s.lc.mac ≠ .idle) : s.na.queue.countP (·.inFlight) = 1 := by
  have := h.oneFlight; rwa [if_neg hm] at this

/-- With the MAC IDLE no note is in flight. -/
theorem LinkOk.zero {s : State} (h : LinkOk s) (hm : s.lc.mac = .idle) : s.na.queue.countP (·.inFlight) = 0 := by
  have := h.oneFlight; rwa [if_pos hm] at this

/-- The MAC IDLE, no note in flight and no frame on air. -/
theorem LinkOk.ofIdle {s : State} (hc : s.na.queue.countP (·.inFlight) = 0) (hm : s.lc.mac = .idle)
    (hx : s.lc.tx = none) : LinkOk s := by
  constructor
  · rw [hc, if_pos hm]
  · intro h; exact absurd hm h
  · rw [hx, hm]; simp

/-- The MAC HELD, one note in flight and no frame on air. -/
theorem LinkOk.ofHeld {s : State} (hc : s.na.queue.countP (·.inFlight) = 1) (hm : s.lc.mac = .held)
    (hx : s.lc.tx = none) : LinkOk s := by
  constructor
  · rw [hc, hm]; simp
  · intro _ h; exact absurd hm h
  · rw [hx, hm]; simp

/-! ## The operations -/

theorem settle_linkOk {s : State} (h : LinkOk s) : LinkOk (settle s) := by
  unfold settle drawMicros; exact h.congr rfl rfl rfl

theorem unblock_linkOk {s : State} (h : LinkOk s) : LinkOk (unblock s) := by
  unfold unblock
  split
  · split
    · exact h
    · exact settle_linkOk h
  · exact h

/-- A note offered, with the dump as it may be. -/
theorem enqueued_linkOk {s : State} (h : LinkOk s) (n : Note) (hn : n.inFlight = false) (d : Option Dump) :
    LinkOk (s.withNa { (enqueue n s.na).2 with dump := d }) :=
  h.requeue (enqueue_flights n s.na hn).1 (enqueue_flights n s.na hn).2 rfl rfl

theorem startPage_linkOk {s : State} (h : LinkOk s) (d : Dump) : LinkOk (startPage d s) := by
  unfold startPage
  dsimp only
  split <;> exact enqueued_linkOk h _ rfl _

theorem pageGone_linkOk {s : State} (h : LinkOk s) (p : Page) : LinkOk (pageGone p s) := by
  unfold pageGone
  split
  · exact h
  · split
    · exact h.congr rfl rfl rfl
    · exact startPage_linkOk h _

theorem noteGone_linkOk {s : State} (h : LinkOk s) (c : Content) : LinkOk (noteGone c s) := by
  unfold noteGone
  split
  · exact unblock_linkOk h
  · split
    · exact h
    · exact pageGone_linkOk h _
  · exact h

/-- Holding the one note in flight. -/
theorem hold_linkOk {s : State} (hc : s.na.queue.countP (·.inFlight) = 1) (hx : s.lc.tx = none) :
    LinkOk (hold s) := by
  unfold hold
  refine LinkOk.ofHeld ?_ rfl hx
  exact Eq.trans (countP_setFlight s.na _ (by intro _ hn; exact hn)) hc

/-- Dropping the note in flight leaves the MAC IDLE with none. -/
theorem dropNote_linkOk {s : State} (hx : s.lc.tx = none) (n : Note) : LinkOk (dropNote n s) := by
  unfold dropNote
  apply noteGone_linkOk
  exact LinkOk.ofIdle (countP_dropFlight s.na) rfl hx

/-- The channel choice for the one note in flight, with no frame on air. -/
theorem chooseChannel_linkOk {s : State} (hc : s.na.queue.countP (·.inFlight) = 1) (hx : s.lc.tx = none) :
    LinkOk (chooseChannel s) := by
  unfold chooseChannel
  obtain ⟨n, hn⟩ := flight_isSome hc
  rw [hn]
  dsimp only
  split
  · rename_i c _
    split
    · exact hold_linkOk hc hx
    · constructor
      · rw [if_neg (by simp [State.setMac])]
        exact Eq.trans (countP_setFlight s.na _ (by intro _ hn; exact hn)) hc
      · intro _ _ m hm hf
        obtain ⟨k, _, _, rfl⟩ := mem_setFlight hm hf
        refine ⟨_, c, rfl, ?_⟩
        unfold Link.on
        split <;> [assumption; rfl]
      · simp [State.setMac, hx]
  · split
    · exact dropNote_linkOk hx _
    · exact hold_linkOk hc hx

/-- Marking one queued note in flight when none is. -/
theorem countP_modify_flight (q : List Note) (i : Nat) (f : Note → Note) (hi : i < q.length)
    (h0 : q.countP (·.inFlight) = 0) (hf : ∀ n, (f n).inFlight = true) :
    (q.modify i f).countP (·.inFlight) = 1 := by
  induction q generalizing i with
  | nil => simp at hi
  | cons n q ih =>
    rw [List.countP_cons] at h0
    cases i with
    | zero =>
      have h1 : q.countP (·.inFlight) = 0 := by omega
      rw [List.modify_zero_cons, List.countP_cons, if_pos (hf n), h1]
    | succ i =>
      rw [List.modify_succ_cons, List.countP_cons]
      have h1 : ¬ n.inFlight = true := by intro h; simp [h] at h0
      have := ih i (by simpa using hi) (by omega)
      simp [h1, this]

theorem takeNote_linkOk {s : State} (h : LinkOk s) (hm : s.lc.mac = .idle) {i : Nat} (hi : i < s.na.queue.length) :
    LinkOk (takeNote i s) := by
  unfold takeNote
  apply chooseChannel_linkOk
  · exact countP_modify_flight _ _ _ hi (h.zero hm) (fun _ => rfl)
  · exact h.tx_none (by rw [hm]; simp)

theorem preempt_linkOk {s : State} (h : LinkOk s) (hm : s.lc.mac ≠ .sending) : LinkOk (preempt s) := by
  unfold preempt
  refine LinkOk.ofIdle ?_ rfl (h.tx_none hm)
  rw [List.countP_eq_zero]
  intro m hm' hf
  obtain ⟨n, _, _, rfl⟩ := mem_setFlight hm' hf
  simp at hf

theorem serveLoop_linkOk (k : Nat) {s : State} (h : LinkOk s) : LinkOk (serveLoop k s) := by
  induction k generalizing s with
  | zero => exact h
  | succ k ih =>
    unfold serveLoop
    split
    · rename_i hm
      split
      · split
        · rename_i i hi
          exact ih (takeNote_linkOk h hm (bestIdx_lt hi))
        · exact h
      · exact h
    · rename_i hm
      split
      · exact ih (preempt_linkOk h (by rw [hm]; simp))
      · exact h
    · rename_i hm
      split
      · exact ih (preempt_linkOk h (by rw [hm]; simp))
      · exact h
    · exact h
    · exact h

theorem serve_linkOk {s : State} (h : LinkOk s) : LinkOk (serve s) := serveLoop_linkOk 40 h

theorem offer_linkOk {s : State} (h : LinkOk s) (c : Content) (level : Nat) (deadline : Option Time) :
    LinkOk (offer c level deadline s) := by
  unfold offer
  split
  · have h1 : LinkOk (s.withNa (enqueue (newNote s.nc.now c level deadline) s.na).2) :=
      enqueued_linkOk h (newNote s.nc.now c level deadline) rfl
        (enqueue (newNote s.nc.now c level deadline) s.na).2.dump
    dsimp only
    split
    · exact serve_linkOk h1
    · exact h1
    · exact serve_linkOk (noteGone_linkOk h1 _)
  · exact h

/-- A frame that begins from BACKOFF. -/
theorem startFrame_linkOk {s : State} (h : LinkOk s) (hm : s.lc.mac = .backoff) : LinkOk (startFrame s) := by
  unfold startFrame
  split
  · exact h
  · split
    · exact h
    · constructor
      · rw [if_neg (by simp)]
        exact Eq.trans (countP_setFlight s.na _ (by intro _ hn; exact hn)) (h.one (by rw [hm]; simp))
      · intro _ _ m hm' hf
        obtain ⟨k, hk, hkf, rfl⟩ := mem_setFlight hm' hf
        obtain ⟨l, c, hl, hc⟩ := h.routed (by rw [hm]; simp) (by rw [hm]; simp) k hk hkf
        exact ⟨{ l with remaining := none }, c, by simp [hl], hc⟩
      · simp

/-- The MAC moved between DEFER and BACKOFF, the note in flight keeping a channel. -/
theorem LinkOk.moveMac {s t : State} (h : LinkOk s) (hs : s.lc.mac = .defer ∨ s.lc.mac = .backoff)
    (ht : t.lc.mac = .defer ∨ t.lc.mac = .backoff) (f : Note → Note) (hq : t.na.queue = (s.na.setFlight f).queue)
    (hi : ∀ n, n.inFlight = true → (f n).inFlight = true)
    (hl : ∀ n ∈ s.na.queue, n.inFlight = true → ∃ l c, (f n).link = some l ∧ l.channel = some c)
    (hx : t.lc.tx = s.lc.tx) : LinkOk t := by
  have hs1 : s.lc.mac ≠ .idle := by rcases hs with h | h <;> rw [h] <;> simp
  have hs2 : s.lc.mac ≠ .sending := by rcases hs with h | h <;> rw [h] <;> simp
  constructor
  · rw [if_neg (by rcases ht with h | h <;> rw [h] <;> simp), hq, countP_setFlight _ _ hi]
    exact h.one hs1
  · intro _ _ m hm hf
    rw [hq] at hm
    obtain ⟨k, hk, hkf, rfl⟩ := mem_setFlight hm hf
    exact hl k hk hkf
  · rw [hx, h.tx_none hs2]
    rcases ht with h | h <;> rw [h] <;> simp

theorem interframeGap_linkOk {s : State} (h : LinkOk s) : LinkOk (interframeGap s) := by
  unfold interframeGap
  split
  · exact h
  · rename_i l hg
    have hd : s.lc.mac = .defer := by
      unfold gapMet at hg; split at hg <;> [assumption; cases hg]
    have hlc : ∃ c, l.channel = some c := by
      unfold gapMet at hg
      split at hg
      · split at hg
        · rename_i l' _ hf _ c hc
          split at hg
          · obtain rfl := Option.some.inj hg
            exact ⟨c, hc⟩
          · cases hg
        · cases hg
      · cases hg
    have hr := h.routed (by rw [hd]; simp) (by rw [hd]; simp)
    split
    · have h1 : LinkOk (s.setMac .backoff) :=
        h.moveMac (t := s.setMac .backoff) (Or.inl hd) (Or.inr rfl) id
          (by unfold Na.setFlight; simp [State.setMac]) (fun _ hn => hn) hr rfl
      split
      · exact startFrame_linkOk h1 rfl
      · exact h1
    · dsimp only
      have h1 : ∀ (r : Seed) (k : Nat), LinkOk (((s.withNc { s.nc with rng := r }).withNa
          (s.na.setFlight fun n => { n with link := some { l with remaining := some k } })).setMac .backoff) := by
        intro r k
        refine h.moveMac (Or.inl hd) (Or.inr rfl) (fun n => { n with link := some { l with remaining := some k } })
          rfl (fun _ hn => hn) ?_ rfl
        intro n _ _
        obtain ⟨c, hc⟩ := hlc
        exact ⟨_, c, rfl, hc⟩
      split
      · exact startFrame_linkOk (h1 _ _) rfl
      · exact h1 _ _

theorem backoffEnd_linkOk {s : State} (h : LinkOk s) : LinkOk (backoffEnd s) := by
  unfold backoffEnd
  split
  · rename_i hb
    unfold backoffOver at hb
    rw [Bool.and_eq_true] at hb
    exact startFrame_linkOk h (by simpa using hb.1)
  · exact h

theorem countWithdrawn_linkOk {s : State} (h : LinkOk s) (c : Content) : LinkOk (countWithdrawn c s) := by
  unfold countWithdrawn
  split
  · exact h.congr rfl rfl rfl
  · exact h

theorem frameSent_linkOk {s : State} (h : LinkOk s) : LinkOk (frameSent s) := by
  unfold frameSent
  split
  · exact h
  · split
    · apply serve_linkOk
      apply noteGone_linkOk
      exact LinkOk.ofIdle (countP_dropFlight s.na) rfl rfl
    · exact h

theorem collision_linkOk {s : State} (h : LinkOk s) : LinkOk (collision s) := by
  unfold collision
  split
  · rename_i n t hf htx
    split
    · have hm : s.lc.mac = .sending := h.onAir.mp (by rw [htx]; rfl)
      dsimp only
      split
      · apply serve_linkOk
        apply noteGone_linkOk
        apply countWithdrawn_linkOk
        exact LinkOk.ofIdle (countP_dropFlight s.na) rfl rfl
      · apply serve_linkOk
        apply chooseChannel_linkOk
        · exact Eq.trans (countP_setFlight s.na _ (by intro _ hn; exact hn)) (h.one (by rw [hm]; simp))
        · rfl
    · exact h
  · exact h

theorem noteDeadline_linkOk {s : State} (h : LinkOk s) (i : Nat) : LinkOk (noteDeadline i s) := by
  unfold noteDeadline
  split
  · exact h
  · rename_i n hd
    unfold deadlineOver at hd
    split at hd
    · cases hd
    · rename_i m hq
      split at hd
      · rename_i hexp
        obtain rfl := Option.some.inj hd
        have hc := countP_eraseIdx (·.inFlight) s.na.queue i m hq
        dsimp only
        apply serve_linkOk
        apply noteGone_linkOk
        by_cases hm : m.inFlight = true
        · rw [if_pos hm]
          have hsend : s.lc.mac ≠ .sending := by
            intro he; rw [hm, he] at hexp; simp at hexp
          have hidle : s.lc.mac ≠ .idle := by
            intro he
            have := h.zero he
            rw [hm, if_pos rfl] at hc
            omega
          refine LinkOk.ofIdle ?_ rfl ?_
          · have h1 := h.one hidle
            rw [hm, if_pos rfl, h1] at hc
            have hc' : (s.na.queue.eraseIdx i).countP (·.inFlight) = 0 := by omega
            unfold countWithdrawn
            split <;> exact hc'
          · have := h.tx_none hsend
            unfold countWithdrawn
            split <;> exact this
        · rw [if_neg hm]
          apply countWithdrawn_linkOk
          have hmf : m.inFlight = false := by simpa using hm
          refine h.requeue ?_ (fun k hk _ => List.mem_of_mem_eraseIdx hk) rfl rfl
          simpa [hmf] using hc
      · cases hd

theorem floorHoldExpiry_linkOk {s : State} (h : LinkOk s) : LinkOk (floorHoldExpiry s) := by
  unfold floorHoldExpiry
  split
  · exact serve_linkOk (h.congr rfl rfl rfl)
  · exact h

theorem endHush_linkOk {s : State} (h : LinkOk s) : LinkOk (endHush s) := by
  unfold endHush
  have h1 : LinkOk (unblock (s.withNa { s.na with hush := none })) := unblock_linkOk (h.congr rfl rfl rfl)
  dsimp only
  split
  · rename_i hm
    exact serve_linkOk (chooseChannel_linkOk (h1.one (by rw [hm]; simp)) (h1.tx_none (by rw [hm]; simp)))
  · exact serve_linkOk h1

theorem hushExpiry_linkOk {s : State} (h : LinkOk s) : LinkOk (hushExpiry s) := by
  unfold hushExpiry
  split
  · exact endHush_linkOk h
  · exact h

theorem beginHush_linkOk {s : State} (h : LinkOk s) (n : Nat) : LinkOk (beginHush n s) := by
  unfold beginHush
  have h1 : LinkOk (s.withNa { s.na with hush := some (plus s.nc.now (perSecond * min n 600 : Nat)) }) :=
    h.congr rfl rfl rfl
  dsimp only
  split
  · rename_i hm
    exact hold_linkOk (h1.one (by rw [hm]; simp)) (h1.tx_none (by rw [hm]; simp))
  · rename_i hm
    exact hold_linkOk (h1.one (by rw [hm]; simp)) (h1.tx_none (by rw [hm]; simp))
  · exact h1

theorem stateTimer_linkOk {s : State} (h : LinkOk s) : LinkOk (stateTimer s) := by
  unfold stateTimer
  split
  · exact h
  · split
    · dsimp only
      split
      · exact h.congr rfl rfl rfl
      · apply offer_linkOk
        exact h.congr rfl rfl rfl
    · exact h

end Sys2Proof.Machine
end

