-- ==== Sys2Proof/Laws/Queue.lean ====
section
/-! SUPPORT. The outbound queue never holds more than 16 notes (R156): one lemma per operation that can lengthen it, and
what a whole offer can do, said once (`NoteStep`). -/

namespace Sys2Proof.Machine

open Sys2Proof

/-- The queue of 16 stays one of 16. -/
theorem enqueue_length (n : Note) (a : Na) (h : a.queue.length ≤ 16) : (enqueue n a).2.queue.length ≤ 16 := by
  unfold enqueue
  split
  · simp only [List.length_append, List.length_singleton]; omega
  · split
    · exact h
    · rename_i i hv
      obtain ⟨x, hx, _⟩ := bestIdx_sound hv
      have hi := bestIdx_lt hv
      rw [hx]
      simp only [List.length_append, List.length_singleton, List.length_eraseIdx]
      split <;> omega

theorem unblock_queue (s : State) : (unblock s).na = s.na := by
  unfold unblock settle drawMicros
  split
  · split <;> rfl
  · rfl

theorem startPage_length (d : Dump) (s : State) (h : s.na.queue.length ≤ 16) :
    (startPage d s).na.queue.length ≤ 16 := by
  unfold startPage
  dsimp only
  split <;> exact enqueue_length _ _ h

theorem noteGone_length (c : Content) (s : State) (h : s.na.queue.length ≤ 16) :
    (noteGone c s).na.queue.length ≤ 16 := by
  unfold noteGone
  split
  · rw [unblock_queue]; exact h
  · split
    · exact h
    · unfold pageGone
      split
      · exact h
      · split
        · exact h
        · exact startPage_length _ _ h
  · exact h

theorem setFlight_length (a : Na) (f : Note → Note) : (a.setFlight f).queue.length = a.queue.length := by
  unfold Na.setFlight; simp

theorem chooseChannel_length (s : State) (h : s.na.queue.length ≤ 16) :
    (chooseChannel s).na.queue.length ≤ 16 := by
  unfold chooseChannel hold dropNote
  split
  · exact h
  · dsimp only
    split
    · split
      · exact (setFlight_length _ _).trans_le h
      · exact (setFlight_length _ _).trans_le h
    · split
      · apply noteGone_length
        unfold Na.dropFlight
        exact (List.length_filter_le _ _).trans h
      · exact (setFlight_length _ _).trans_le h

theorem serveLoop_length (k : Nat) (s : State) (h : s.na.queue.length ≤ 16) :
    (serveLoop k s).na.queue.length ≤ 16 := by
  induction k generalizing s with
  | zero => exact h
  | succ k ih =>
    unfold serveLoop
    split
    · split
      · split
        · apply ih
          unfold takeNote
          apply chooseChannel_length
          exact (List.length_modify _ _ _).trans_le h
        · exact h
      · exact h
    · split
      · exact ih _ ((setFlight_length s.na _).trans_le h)
      · exact h
    · split
      · exact ih _ ((setFlight_length s.na _).trans_le h)
      · exact h
    · exact h
    · exact h

/-! ## What the offering of notes can do -/

/-- The sending frame, with the two invariants of the queue kept. -/
structure NoteStep (s t : State) : Prop where
  frame : SendFrame s t
  link : LinkOk s → LinkOk t
  queue : QueueBounded s → QueueBounded t

theorem NoteStep.refl (s : State) : NoteStep s s := ⟨SendFrame.refl s, id, id⟩

theorem NoteStep.trans {s t u : State} (h : NoteStep s t) (k : NoteStep t u) : NoteStep s u :=
  ⟨h.frame.trans k.frame, k.link ∘ h.link, k.queue ∘ h.queue⟩

theorem unblock_step (s : State) : NoteStep s (unblock s) :=
  ⟨unblock_frame s, unblock_linkOk, fun h => by
    constructor <;> rw [unblock_queue] <;> [exact h.queue; exact h.floor]⟩

theorem noteGone_step (c : Content) (s : State) : NoteStep s (noteGone c s) :=
  ⟨noteGone_frame c s, fun h => noteGone_linkOk h c, fun h =>
    ⟨noteGone_length c s h.queue, (noteGone_frame c s).floor ▸ h.floor⟩⟩

theorem serve_step (s : State) : NoteStep s (serve s) :=
  ⟨serve_frame s, serve_linkOk, fun h => ⟨serveLoop_length 40 s h.queue, (serve_frame s).floor ▸ h.floor⟩⟩

theorem startPage_step (d : Dump) (s : State) : NoteStep s (startPage d s) :=
  ⟨startPage_frame d s, fun h => startPage_linkOk h d, fun h =>
    ⟨startPage_length d s h.queue, (startPage_frame d s).floor ▸ h.floor⟩⟩

theorem offer_length (c : Content) (level : Nat) (deadline : Option Time) (s : State) (h : s.na.queue.length ≤ 16) :
    (offer c level deadline s).na.queue.length ≤ 16 := by
  unfold offer
  split
  · have h1 := enqueue_length (newNote s.nc.now c level deadline) s.na h
    dsimp only
    split
    · exact serveLoop_length 40 _ h1
    · exact h1
    · exact serveLoop_length 40 _ (noteGone_length _ _ h1)
  · exact h

theorem offer_step (c : Content) (level : Nat) (deadline : Option Time) (s : State) :
    NoteStep s (offer c level deadline s) :=
  ⟨offer_frame c level deadline s, fun h => offer_linkOk h c level deadline, fun h =>
    ⟨offer_length c level deadline s h.queue, (offer_frame c level deadline s).floor ▸ h.floor⟩⟩

end Sys2Proof.Machine
end

