-- ==== Sys2Proof/Laws/Tables.lean ====
section
/-! SUPPORT. What the operations on the tables of PTU, PU, FT and EC can do (`TableStep`): what they never touch, and
the invariants they keep. -/

namespace Sys2Proof.Machine

open Sys2Proof

/-- What the operations on the tables never touch, and what they keep. -/
structure TableStep (s t : State) : Prop where
  node : t.nc.node = s.nc.node
  cfg : t.nc.cfg = s.nc.cfg
  now : t.nc.now = s.nc.now
  reading : t.nc.reading = s.nc.reading
  sampled : t.nc.sampled = s.nc.sampled
  fresh : t.nc.fresh = s.nc.fresh
  cfe : t.cfe = s.cfe
  ce : t.ce = s.ce
  pending : t.pending = s.pending
  slots : t.iw.slots = s.iw.slots
  bursts : t.iw.bursts.Sublist s.iw.bursts
  detector : t.iw.detector = s.iw.detector
  nextBurst : t.iw.nextBurst = s.iw.nextBurst
  seen : t.iw.seen = s.iw.seen
  untimed : t.iw.untimed = s.iw.untimed
  evicted : t.iw.evicted = s.iw.evicted
  lastTrigger : t.ptu.lastTrigger = s.ptu.lastTrigger
  guard : t.ptu.guard = s.ptu.guard
  nextProbe : t.ptu.nextProbe = s.ptu.nextProbe
  history : t.ptu.history = s.ptu.history
  chA : t.lc.chA = s.lc.chA
  chB : t.lc.chB = s.lc.chB
  ownEnd : t.lc.ownEnd = s.lc.ownEnd
  nextSeq : t.lc.nextSeq = s.lc.nextSeq
  listenerSeq : t.lc.listenerSeq = s.lc.listenerSeq
  bad : t.lc.bad = s.lc.bad
  otherRun : t.lc.otherRun = s.lc.otherRun
  tx : t.lc.tx = s.lc.tx
  floor : t.na.floor = s.na.floor
  floorHold : t.na.floorHold = s.na.floorHold
  hush : t.na.hush = s.na.hush
  stateTimer : t.na.stateTimer = s.na.stateTimer
  refused : t.na.refused = s.na.refused
  unknown : t.na.unknown = s.na.unknown
  link : LinkOk s → LinkOk t
  queue : QueueBounded s → QueueBounded t
  tables : TablesBounded s → TablesBounded t
  counters : CountersBounded s → CountersBounded t

theorem TableStep.refl (s : State) : TableStep s s := by
  constructor <;> first | rfl | exact id

theorem TableStep.trans {s t u : State} (h : TableStep s t) (k : TableStep t u) : TableStep s u where
  node := k.node.trans h.node
  cfg := k.cfg.trans h.cfg
  now := k.now.trans h.now
  reading := k.reading.trans h.reading
  sampled := k.sampled.trans h.sampled
  fresh := k.fresh.trans h.fresh
  cfe := k.cfe.trans h.cfe
  ce := k.ce.trans h.ce
  pending := k.pending.trans h.pending
  slots := k.slots.trans h.slots
  bursts := k.bursts.trans h.bursts
  detector := k.detector.trans h.detector
  nextBurst := k.nextBurst.trans h.nextBurst
  seen := k.seen.trans h.seen
  untimed := k.untimed.trans h.untimed
  evicted := k.evicted.trans h.evicted
  lastTrigger := k.lastTrigger.trans h.lastTrigger
  guard := k.guard.trans h.guard
  nextProbe := k.nextProbe.trans h.nextProbe
  history := k.history.trans h.history
  chA := k.chA.trans h.chA
  chB := k.chB.trans h.chB
  ownEnd := k.ownEnd.trans h.ownEnd
  nextSeq := k.nextSeq.trans h.nextSeq
  listenerSeq := k.listenerSeq.trans h.listenerSeq
  bad := k.bad.trans h.bad
  otherRun := k.otherRun.trans h.otherRun
  tx := k.tx.trans h.tx
  floor := k.floor.trans h.floor
  floorHold := k.floorHold.trans h.floorHold
  hush := k.hush.trans h.hush
  stateTimer := k.stateTimer.trans h.stateTimer
  refused := k.refused.trans h.refused
  unknown := k.unknown.trans h.unknown
  link := k.link ∘ h.link
  queue := k.queue ∘ h.queue
  tables := k.tables ∘ h.tables
  counters := k.counters ∘ h.counters

/-- `TablesBounded` from state to state. -/
theorem TablesBounded.congr {s t : State} (h : TablesBounded s) (h1 : t.ptu.history = s.ptu.history)
    (h2 : t.ptu.heard = s.ptu.heard) (h3 : t.ptu.arrivals = s.ptu.arrivals) (h4 : t.ptu.table = s.ptu.table)
    (h5 : t.pu = s.pu) (h6 : t.ft = s.ft) (h7 : t.ec = s.ec) : TablesBounded t where
  history := h1 ▸ h.history
  heard := h2 ▸ h.heard
  arrivals := h3 ▸ h.arrivals
  neighbours := h4 ▸ h.neighbours
  notices := h5 ▸ h.notices
  fixes := h6 ▸ h.fixes
  baseline := h7 ▸ h.baseline
  candidates := h7 ▸ h.candidates
  findings := h7 ▸ h.findings
  invalidStreak := h7 ▸ h.invalidStreak

/-- The offering of notes, as a step of the tables. -/
theorem NoteStep.table {s t : State} (h : NoteStep s t) : TableStep s t where
  node := h.frame.node
  cfg := h.frame.cfg
  now := h.frame.now
  reading := h.frame.reading
  sampled := h.frame.sampled
  fresh := h.frame.fresh
  cfe := h.frame.cfe
  ce := h.frame.ce
  pending := h.frame.pending
  slots := congrArg Iw.slots h.frame.iw
  bursts := h.frame.iw ▸ List.Sublist.refl _
  detector := congrArg Iw.detector h.frame.iw
  nextBurst := congrArg Iw.nextBurst h.frame.iw
  seen := congrArg Iw.seen h.frame.iw
  untimed := congrArg Iw.untimed h.frame.iw
  evicted := congrArg Iw.evicted h.frame.iw
  lastTrigger := h.frame.lastTrigger
  guard := h.frame.guard
  nextProbe := h.frame.nextProbe
  history := h.frame.history
  chA := h.frame.chA
  chB := h.frame.chB
  ownEnd := h.frame.ownEnd
  nextSeq := h.frame.nextSeq
  listenerSeq := h.frame.listenerSeq
  bad := h.frame.bad
  otherRun := h.frame.otherRun
  tx := h.frame.tx
  floor := h.frame.floor
  floorHold := h.frame.floorHold
  hush := h.frame.hush
  stateTimer := h.frame.stateTimer
  refused := h.frame.refused
  unknown := h.frame.unknown
  link := h.link
  queue := h.queue
  tables := fun b => b.congr h.frame.history h.frame.heard h.frame.arrivals h.frame.table h.frame.pu h.frame.ft
    h.frame.ec
  counters := h.frame.counters

/-- The counters of PU, FT, PTU and EC changed within 16 bits, all others as they were. -/
theorem CountersBounded.tables {s t : State} (h : CountersBounded s) (hi : t.iw.seen = s.iw.seen)
    (hu : t.iw.untimed = s.iw.untimed) (hv : t.iw.evicted = s.iw.evicted) (hl : t.lc = s.lc)
    (hn : t.na.dropped = s.na.dropped ∧ t.na.refused = s.na.refused ∧ t.na.unknown = s.na.unknown)
    (h1 : s.pu.pairs ≤ 65535 → t.pu.pairs ≤ 65535) (h2 : s.pu.handedOn ≤ 65535 → t.pu.handedOn ≤ 65535)
    (h3 : s.ft.discarded ≤ 65535 → t.ft.discarded ≤ 65535) (h4 : s.ptu.wasted ≤ 65535 → t.ptu.wasted ≤ 65535)
    (h5 : s.ptu.discarded ≤ 65535 → t.ptu.discarded ≤ 65535) (h6 : s.ec.invalid ≤ 65535 → t.ec.invalid ≤ 65535)
    (h7 : s.ec.collided ≤ 65535 → t.ec.collided ≤ 65535) : CountersBounded t := by
  rw [countersBounded_iff] at h ⊢
  obtain ⟨b1, b2, b3, b4, b5, b6, b7, b8, b9, b10, b11, b12, b13, b14, b15, b16⟩ := h
  rw [hi, hu, hv, hl, hn.1, hn.2.1, hn.2.2]
  exact ⟨b1, b2, b3, h1 b4, h2 b5, h3 b6, h4 b7, h5 b8, h6 b9, h7 b10, b11, b12, b13, b14, b15, b16⟩

/-- The Fix Table changed, the queued notes changed without their in-flight mark and link record. -/
theorem fixStep (s : State) (x : Ft) (f : Note → Note) (hx : x.places.length = s.ft.places.length)
    (hd : x.discarded = s.ft.discarded)
    (hi : ∀ n, (f n).inFlight = n.inFlight) (hl : ∀ n, (f n).link = n.link) :
    TableStep s ((s.withFt x).withNa { s.na with queue := s.na.queue.map f }) := by
  constructor
  all_goals first
    | rfl
    | exact List.Sublist.refl _
    | exact fun h => h.tables rfl rfl rfl rfl ⟨rfl, rfl, rfl⟩ id id hd.trans_le id id id id
    | exact fun h => h.mapQueue f rfl hi hl rfl rfl
    | exact fun h => ⟨(List.length_map f).trans_le h.queue, h.floor⟩
    | exact fun h => ⟨h.history, h.heard, h.arrivals, h.neighbours, h.notices, hx.trans h.fixes, h.baseline,
        h.candidates, h.findings, h.invalidStreak⟩

/-- The Fix Table's number or counter changed. -/
theorem ftStep (s : State) (x : Ft) (hx : x.places = s.ft.places)
    (hd : s.ft.discarded ≤ 65535 → x.discarded ≤ 65535) : TableStep s (s.withFt x) := by
  constructor
  all_goals first
    | rfl
    | exact List.Sublist.refl _
    | exact fun h => h.tables rfl rfl rfl rfl ⟨rfl, rfl, rfl⟩ id id hd id id id id
    | exact fun h => h.congr rfl rfl rfl
    | exact fun h => ⟨h.queue, h.floor⟩
    | exact fun h => ⟨h.history, h.heard, h.arrivals, h.neighbours, h.notices, (congrArg List.length hx).trans h.fixes,
        h.baseline, h.candidates, h.findings, h.invalidStreak⟩

/-- The Pairing Unit changed, its list within 16. -/
theorem puStep (s : State) (x : Pu) (hx : s.pu.notices.length ≤ 16 → x.notices.length ≤ 16)
    (h1 : s.pu.pairs ≤ 65535 → x.pairs ≤ 65535) (h2 : s.pu.handedOn ≤ 65535 → x.handedOn ≤ 65535) :
    TableStep s (s.withPu x) := by
  constructor
  all_goals first
    | rfl
    | exact List.Sublist.refl _
    | exact fun h => h.tables rfl rfl rfl rfl ⟨rfl, rfl, rfl⟩ h1 h2 id id id id id
    | exact fun h => h.congr rfl rfl rfl
    | exact fun h => ⟨h.queue, h.floor⟩
    | exact fun h => ⟨h.history, h.heard, h.arrivals, h.neighbours, hx h.notices, h.fixes,
        h.baseline, h.candidates, h.findings, h.invalidStreak⟩

/-- Records have left the burst list. -/
theorem burstsStep (s : State) (bs : List Burst) (hb : bs.Sublist s.iw.bursts) :
    TableStep s (s.withIw { s.iw with bursts := bs }) := by
  constructor
  all_goals first
    | rfl
    | exact hb
    | exact fun h => h.tables rfl rfl rfl rfl ⟨rfl, rfl, rfl⟩ id id id id id id id
    | exact fun h => h.congr rfl rfl rfl
    | exact fun h => ⟨h.queue, h.floor⟩
    | exact fun h => ⟨h.history, h.heard, h.arrivals, h.neighbours, h.notices, h.fixes,
        h.baseline, h.candidates, h.findings, h.invalidStreak⟩

/-- The bounds of the Echo Comparator's stores. -/
structure EcBounded (e : Ec) : Prop where
  baseline : e.baseline.length ≤ 24
  candidates : e.candidates.length ≤ 8
  findings : e.findings.length ≤ 8
  invalidStreak : e.invalidStreak ≤ 3

theorem TablesBounded.ofEc {s : State} (h : TablesBounded s) : EcBounded s.ec :=
  ⟨h.baseline, h.candidates, h.findings, h.invalidStreak⟩

/-- The Echo Comparator changed within its bounds. -/
theorem ecStep (s : State) (x : Ec) (hx : EcBounded s.ec → EcBounded x)
    (h1 : s.ec.invalid ≤ 65535 → x.invalid ≤ 65535) (h2 : s.ec.collided ≤ 65535 → x.collided ≤ 65535) : TableStep s (s.withEc x) := by
  constructor
  all_goals first
    | rfl
    | exact List.Sublist.refl _
    | exact fun h => h.tables rfl rfl rfl rfl ⟨rfl, rfl, rfl⟩ id id id id id h1 h2
    | exact fun h => h.congr rfl rfl rfl
    | exact fun h => ⟨h.queue, h.floor⟩
    | exact fun h => ⟨h.history, h.heard, h.arrivals, h.neighbours, h.notices, h.fixes,
        (hx h.ofEc).baseline, (hx h.ofEc).candidates, (hx h.ofEc).findings, (hx h.ofEc).invalidStreak⟩

/-- The lists of PTU changed within their bounds, with partner, counters and schedule as they may be. -/
theorem ptuStep (s : State) (x : Ptu) (h0 : x.lastTrigger = s.ptu.lastTrigger) (h1 : x.guard = s.ptu.guard)
    (h2 : x.nextProbe = s.ptu.nextProbe) (h3 : x.history = s.ptu.history)
    (h4 : s.ptu.heard.length ≤ 11 → x.heard.length ≤ 11) (h5 : s.ptu.arrivals.length ≤ 4 → x.arrivals.length ≤ 4)
    (h6 : x.table.length = s.ptu.table.length) (h7 : s.ptu.wasted ≤ 65535 → x.wasted ≤ 65535)
    (h8 : s.ptu.discarded ≤ 65535 → x.discarded ≤ 65535) : TableStep s (s.withPtu x) := by
  constructor
  all_goals first
    | rfl | exact List.Sublist.refl _ | exact h0 | exact h1 | exact h2 | exact h3
    | exact fun h => h.tables rfl rfl rfl rfl ⟨rfl, rfl, rfl⟩ id id id h7 h8 id id
    | exact fun h => h.congr rfl rfl rfl
    | exact fun h => ⟨h.queue, h.floor⟩
    | exact fun h => ⟨(congrArg List.length h3).trans_le h.history, h4 h.heard, h5 h.arrivals, h6.trans h.neighbours, h.notices, h.fixes,
        h.baseline, h.candidates, h.findings, h.invalidStreak⟩

end Sys2Proof.Machine
end

