-- ==== Sys2Proof/Laws/TableOps.lean ====
section
/-! SUPPORT. One lemma per operation of the Fix Table, the Pairing Unit, the Echo Comparator and the neighbour table:
each is a step of the tables (`TableStep`). -/

namespace Sys2Proof.Machine

open Sys2Proof

/-! ## The Fix Table -/

theorem followFix_inFlight (m : Mac) (p : Nat) (f : Fix) (n : Note) : (followFix m p f n).inFlight = n.inFlight := by
  unfold followFix; split <;> rfl
theorem followFix_link (m : Mac) (p : Nat) (f : Fix) (n : Note) : (followFix m p f n).link = n.link := by
  unfold followFix; split <;> rfl
theorem unlinkFix_inFlight (p : Nat) (n : Note) : (unlinkFix p n).inFlight = n.inFlight := by
  unfold unlinkFix; repeat' (first | rfl | split)
theorem unlinkFix_link (p : Nat) (n : Note) : (unlinkFix p n).link = n.link := by
  unfold unlinkFix; repeat' (first | rfl | split)
theorem unlinkAny_inFlight (n : Note) : (unlinkAny n).inFlight = n.inFlight := by
  unfold unlinkAny; split <;> rfl
theorem unlinkAny_link (n : Note) : (unlinkAny n).link = n.link := by
  unfold unlinkAny; split <;> rfl
theorem followTable_inFlight (m : Mac) (ps : List (Option Fix)) (n : Note) :
    (followTable m ps n).inFlight = n.inFlight := by
  unfold followTable; split <;> rfl
theorem followTable_link (m : Mac) (ps : List (Option Fix)) (n : Note) : (followTable m ps n).link = n.link := by
  unfold followTable; split <;> rfl

theorem putFix_step (p : Nat) (f : Fix) (s : State) : TableStep s (putFix p f s) :=
  fixStep s _ _ (by simp) rfl (followFix_inFlight _ _ _) (followFix_link _ _ _)

theorem removeFix_step (p : Nat) (s : State) : TableStep s (removeFix p s) :=
  fixStep s _ _ (by simp) rfl (unlinkFix_inFlight _) (unlinkFix_link _)

theorem announce_step (p : Nat) (f : Fix) (s : State) : TableStep s (announce p f s) := by
  unfold announce
  dsimp only
  split
  · exact putFix_step _ _ _
  · split
    · exact putFix_step _ _ _
    · exact (putFix_step _ _ _).trans (offer_step _ _ _ _).table

theorem announceTest_step (p : Nat) (s : State) : TableStep s (announceTest p s) := by
  unfold announceTest
  split
  · split
    · exact announce_step _ _ _
    · exact TableStep.refl s
  · exact TableStep.refl s

theorem corroborate_step (p : Nat) (s : State) : TableStep s (corroborate p s) := by
  unfold corroborate
  split
  · exact TableStep.refl s
  · split
    · split
      · exact TableStep.refl s
      · dsimp only
        split
        · exact (putFix_step _ _ _).trans (announce_step _ _ _)
        · exact putFix_step _ _ _
    · exact TableStep.refl s

/-- A fold of steps is a step. -/
theorem TableStep.foldl {α : Type} (f : State → α → State) (h : ∀ s a, TableStep s (f s a)) (xs : List α) (s : State) :
    TableStep s (xs.foldl f s) := by
  induction xs generalizing s with
  | nil => exact TableStep.refl s
  | cons a xs ih => exact (h s a).trans (ih _)

theorem corroborateAll_step (s : State) : TableStep s (corroborateAll s) :=
  TableStep.foldl _ (fun s p => corroborate_step p s) _ _

theorem uncorroborateAll_step (s : State) : TableStep s (uncorroborateAll s) :=
  fixStep s _ _ (by simp) rfl (followTable_inFlight _ _) (followTable_link _ _)

theorem fixTests_step (p : Nat) (s : State) : TableStep s (fixTests p s) :=
  (announceTest_step p s).trans (corroborate_step p _)

theorem makeFix_step (p : Nat) (r : Result) (s : State) : TableStep s (makeFix p r s) := by
  unfold makeFix
  dsimp only
  exact ((ftStep s { s.ft with nextFix := s.ft.nextFix + 1 } rfl id).trans (putFix_step _ _ _)).trans
    (fixTests_step _ _)

theorem takeResult_step (r : Result) (s : State) : TableStep s (takeResult r s) := by
  unfold takeResult
  split
  · split
    · exact (putFix_step _ _ _).trans (fixTests_step _ _)
    · exact TableStep.refl s
  · split
    · exact makeFix_step _ _ _
    · split
      · exact (removeFix_step _ _).trans (makeFix_step _ _ _)
      · exact ftStep s _ rfl fun _ => bump_le _

theorem fixAgeExpiry_step (p : Nat) (s : State) : TableStep s (fixAgeExpiry p s) := by
  unfold fixAgeExpiry
  split
  · split
    · exact removeFix_step _ _
    · exact TableStep.refl s
  · exact TableStep.refl s

/-- The table emptied holds 16 places. -/
theorem clearTable_step (s : State) (h : s.ft.places.length = 16) : TableStep s (clearTable s) :=
  fixStep s _ _ (by simp [h]) rfl unlinkAny_inFlight unlinkAny_link

/-! ## The Pairing Unit -/

theorem completePair_step (u : Neighbour) (t : Timing) (n : Notice) (s : State) :
    TableStep s (completePair u t n s) := by
  unfold completePair
  dsimp only
  have h1 := puStep s { s.pu with lastPair := some ⟨n.number, n.peerOnset⟩, pairs := bump s.pu.pairs } id
    (fun _ => bump_le _) id
  split
  · exact h1.trans (takeResult_step _ _)
  · exact h1.trans (puStep _ _ id id fun _ => bump_le _)

theorem joinNotices_step (n : Notice) (s : State) : TableStep s (s.withPu (joinNotices n s.pu)) :=
  puStep s _ (fun _ => keepNewest_length _ _) id id

theorem placeNotice_step (u : Neighbour) (n : Notice) (s : State) : TableStep s (placeNotice u n s) := by
  unfold placeNotice
  split
  · exact joinNotices_step _ _
  · split
    · exact joinNotices_step _ _
    · exact (burstsStep s _ (List.eraseIdx_sublist ..)).trans (completePair_step _ _ _ _)

theorem judgeBurstNote_step (p : Nat) (b : BurstPayload) (s : State) : TableStep s (judgeBurstNote p b s) := by
  unfold judgeBurstNote
  repeat' split
  all_goals first
    | exact TableStep.refl s
    | exact placeNotice_step _ _ _

theorem offerRecord_step (i : Nat) (s : State) : TableStep s (offerRecord i s) := by
  unfold offerRecord
  split
  · split
    · exact TableStep.refl s
    · split
      · exact TableStep.refl s
      · refine ((burstsStep s _ (List.eraseIdx_sublist ..)).trans (puStep _ _ ?_ (by exact id) (by exact id))).trans (completePair_step _ _ _ _)
        intro h
        exact (List.length_eraseIdx_le _ _).trans h
  · exact TableStep.refl s

theorem noticeExpiry_step (i : Nat) (s : State) : TableStep s (noticeExpiry i s) := by
  unfold noticeExpiry
  split
  · split
    · exact puStep s _ (fun h => (List.length_eraseIdx_le _ _).trans h) id id
    · exact TableStep.refl s
  · exact TableStep.refl s

/-! ## The Echo Comparator -/

theorem insertMark_length (m : Mark) (b : List Mark) : (insertMark m b).length = b.length + 1 := by
  induction b with
  | nil => rfl
  | cons x xs ih =>
    unfold insertMark
    split
    · simp [ih]
    · simp

theorem learnMark_bounded (reach : Nat) (e : Ec) (m : Mark) (h : EcBounded e) : EcBounded (learnMark reach e m) := by
  unfold learnMark
  split
  · exact ⟨(List.length_modify _ _ _).trans_le h.baseline, h.candidates, h.findings, h.invalidStreak⟩
  · split
    · rename_i hl
      refine ⟨?_, h.candidates, h.findings, h.invalidStreak⟩
      show (insertMark m e.baseline).length ≤ 24
      rw [insertMark_length]; omega
    · exact ⟨h.baseline, h.candidates, h.findings, h.invalidStreak⟩

theorem learnProfile_bounded (cfg : Cfg) (ms : List Mark) (e : Ec) (h : EcBounded e) :
    EcBounded (learnProfile cfg ms e) := by
  have h1 : ∀ (ms : List Mark) (e : Ec), EcBounded e → EcBounded (ms.foldl (learnMark cfg.markMatch) e) := by
    intro ms
    induction ms with
    | nil => exact fun e h => h
    | cons m ms ih => exact fun e h => ih _ (learnMark_bounded _ _ _ h)
  unfold learnProfile
  have h2 := h1 ms e h
  exact ⟨h2.baseline, h2.candidates, h2.findings, h2.invalidStreak⟩

theorem learnProfile_counters (cfg : Cfg) (ms : List Mark) (e : Ec) :
    (learnProfile cfg ms e).invalid = e.invalid ∧ (learnProfile cfg ms e).collided = e.collided := by
  have h1 : ∀ (ms : List Mark) (e : Ec), (ms.foldl (learnMark cfg.markMatch) e).invalid = e.invalid ∧
      (ms.foldl (learnMark cfg.markMatch) e).collided = e.collided := by
    intro ms
    induction ms with
    | nil => exact fun e => ⟨rfl, rfl⟩
    | cons m ms ih =>
      intro e
      have h2 : (learnMark cfg.markMatch e m).invalid = e.invalid ∧
          (learnMark cfg.markMatch e m).collided = e.collided := by
        unfold learnMark
        (repeat' split) <;> exact ⟨rfl, rfl⟩
      exact ⟨(ih _).1.trans h2.1, (ih _).2.trans h2.2⟩
  exact h1 ms e

theorem confirmBaseline_bounded (reach : Nat) (c : Candidate) (e : Ec) (h : EcBounded e) :
    EcBounded (confirmBaseline reach c e).1 := by
  unfold confirmBaseline
  dsimp only
  split
  · exact ⟨(List.length_eraseIdx_le _ _).trans h.baseline, h.candidates, h.findings, h.invalidStreak⟩
  · exact h
  · exact ⟨(List.length_modify _ _ _).trans_le h.baseline, h.candidates, h.findings, h.invalidStreak⟩
  · exact h
  · exact ⟨(List.length_modify _ _ _).trans_le h.baseline, h.candidates, h.findings, h.invalidStreak⟩
  · split
    · refine ⟨?_, h.candidates, h.findings, h.invalidStreak⟩
      show (insertMark _ e.baseline).length ≤ 24
      rw [insertMark_length]; omega
    · exact ⟨h.baseline, h.candidates, h.findings, h.invalidStreak⟩

theorem confirmBaseline_counters (reach : Nat) (c : Candidate) (e : Ec) :
    (confirmBaseline reach c e).1.invalid = e.invalid ∧ (confirmBaseline reach c e).1.collided = e.collided := by
  unfold confirmBaseline
  dsimp only
  (repeat' split) <;> exact ⟨rfl, rfl⟩

theorem handFinding_step (f : Finding) (s : State) : TableStep s (handFinding f s) := by
  unfold handFinding
  have h1 : TableStep s (if s.nc.cfg.levelEcho = 0 then s else offer (.echo f) s.nc.cfg.levelEcho none s) := by
    split
    · exact TableStep.refl s
    · exact (offer_step _ _ _ _).table
  dsimp only
  split
  · exact h1
  · exact h1.trans (corroborateAll_step _)

theorem confirm_step (s : State) (c : Candidate) : TableStep s (confirm s c) := by
  unfold confirm
  dsimp only
  have hc := confirmBaseline_counters s.nc.cfg.markMatch c s.ec
  refine TableStep.trans (ecStep s _ ?_ (by exact hc.1.trans_le) (by exact hc.2.trans_le)) (handFinding_step _ _)
  intro h
  have h1 := confirmBaseline_bounded s.nc.cfg.markMatch c s.ec h
  exact ⟨h1.baseline, (List.erase_sublist.length_le).trans h1.candidates, keepNewest_length _ _, h1.invalidStreak⟩

/-- Continuing candidates keeps their number. -/
theorem continueOne_length (reach : Nat) (acc : List Continued × List Candidate) (c : Candidate) :
    (continueOne reach acc c).1.length = acc.1.length := by
  unfold continueOne
  split
  · simp
  · split <;> rfl

/-- Creating candidates stops at 8 in all. -/
theorem createOne_length (reach : Nat) (acc : List Candidate × List Candidate) (c : Candidate)
    (h : acc.1.length + acc.2.length ≤ 8) :
    (createOne reach acc c).1.length + (createOne reach acc c).2.length ≤ 8 := by
  unfold createOne
  split
  · exact h
  · split
    · simp only [List.length_append, List.length_singleton]; omega
    · exact h

/-- The candidates after a profile number at most 8 if they did before (R135). -/
theorem nextCandidates_length (reach : Nat) (conds cands : List Candidate) (h : cands.length ≤ 8) :
    (nextCandidates reach conds cands).length ≤ 8 := by
  have h1 : ∀ (conds : List Candidate) (acc : List Continued × List Candidate),
      (conds.foldl (continueOne reach) acc).1.length = acc.1.length := by
    intro conds
    induction conds with
    | nil => exact fun _ => rfl
    | cons c cs ih => exact fun acc => (ih _).trans (continueOne_length _ _ _)
  have h2 : ∀ (cs : List Candidate) (acc : List Candidate × List Candidate), acc.1.length + acc.2.length ≤ 8 →
      (cs.foldl (createOne reach) acc).1.length + (cs.foldl (createOne reach) acc).2.length ≤ 8 := by
    intro cs
    induction cs with
    | nil => exact fun _ h => h
    | cons c cs ih => exact fun acc h => ih _ (createOne_length _ _ _ h)
  unfold nextCandidates
  dsimp only
  rw [List.length_append]
  apply h2
  have h3 := h1 conds (cands.map fun c => (c, false), [])
  rw [List.length_map] at h3
  simp only [List.length_map, List.length_nil, Nat.add_zero]
  exact (List.length_filter_le _ _).trans (h3.trans_le h)

theorem compareProfile_step (marks : List Mark) (s : State) : TableStep s (compareProfile marks s) := by
  unfold compareProfile
  dsimp only
  refine TableStep.trans (ecStep s _ ?_ (by exact id) (by exact id)) (TableStep.foldl _ confirm_step _ _)
  intro h
  exact ⟨h.baseline, nextCandidates_length _ _ _ h.candidates, h.findings, h.invalidStreak⟩

theorem takeRebase_step (s : State) : TableStep s (takeRebase s) := by
  unfold takeRebase
  refine TableStep.trans (ecStep s { s.ec with
    baseline := [], candidates := [], findings := [], learned := 0, watching := false, rebase := false } ?_ id id)
    (uncorroborateAll_step _)
  intro h
  exact ⟨Nat.zero_le _, Nat.zero_le _, Nat.zero_le _, h.invalidStreak⟩

theorem classifyProfile_step (p : Profile) (s : State) : TableStep s (classifyProfile p s) := by
  unfold classifyProfile
  split
  · refine ecStep s _ (fun h => ⟨h.baseline, h.candidates, h.findings, ?_⟩) (fun _ => bump_le _) id
    exact Nat.min_le_right _ _
  · split
    · exact ecStep s _ (fun h => ⟨h.baseline, h.candidates, h.findings, h.invalidStreak⟩) id fun _ => bump_le _
    · dsimp only
      split
      · exact (ecStep s { s.ec with invalidStreak := 0, weak := false }
          (fun h => ⟨h.baseline, h.candidates, h.findings, Nat.zero_le _⟩) id id).trans (compareProfile_step _ _)
      · have hc := learnProfile_counters s.nc.cfg p.marks { s.ec with invalidStreak := 0, weak := false }
        refine ecStep s _ (fun h => learnProfile_bounded _ _ _ ?_) hc.1.trans_le hc.2.trans_le
        exact ⟨h.baseline, h.candidates, h.findings, Nat.zero_le _⟩

theorem handleProfile_step (p : Profile) (s : State) : TableStep s (handleProfile p s) := by
  unfold handleProfile
  dsimp only
  split
  · exact (classifyProfile_step p s).trans (takeRebase_step _)
  · exact classifyProfile_step p s

theorem rebaseCommand_step (s : State) : TableStep s (rebaseCommand s) := by
  unfold rebaseCommand
  have h1 := ecStep s { s.ec with rebase := true } (fun h => ⟨h.baseline, h.candidates, h.findings, h.invalidStreak⟩) id id
  dsimp only
  split
  · exact h1
  · exact h1.trans (takeRebase_step _)

/-! ## The neighbour table -/

/-- A change of partner alone. -/
theorem partnerStep (s : State) (p : Option Nat) : TableStep s (s.withPtu { s.ptu with partner := p }) :=
  ptuStep s _ rfl rfl rfl rfl id id rfl id id

/-- A change of the neighbour table alone. -/
theorem neighboursStep (s : State) (table : List (Option Neighbour)) (h : table.length = s.ptu.table.length) :
    TableStep s (s.withPtu { s.ptu with table := table }) :=
  ptuStep s _ rfl rfl rfl rfl id id h id id

/-- An arrival record removed. -/
theorem dropArrivalStep (s : State) (i : Nat) : TableStep s (s.withPtu (s.ptu.dropArrival i)) :=
  ptuStep s _ rfl rfl rfl rfl id (fun h => (List.length_eraseIdx_le _ _).trans h) rfl id id

theorem reviewPartner_step (s : State) : TableStep s (reviewPartner s) := by
  unfold reviewPartner
  dsimp only
  split
  · exact TableStep.refl s
  · refine TableStep.trans (TableStep.trans (partnerStep s _) (puStep _ { s.pu with notices := [], lastPair := none } ?_ (by exact id) (by exact id)))
      (ecStep _ _ ?_ (by exact id) (by exact id))
    · intro _; simp
    · exact fun h => ⟨h.baseline, (List.length_filter_le _ _).trans h.candidates, h.findings, h.invalidStreak⟩

theorem setTable_step (table : List (Option Neighbour)) (s : State) (h : table.length = s.ptu.table.length) :
    TableStep s (setTable table s) := by
  unfold setTable
  exact (neighboursStep s table h).trans (reviewPartner_step _)

theorem updateEntry_length (id : Nat) (f : Neighbour → Neighbour) (table : List (Option Neighbour)) :
    (updateEntry id f table).length = table.length := by
  unfold updateEntry; simp

theorem refreshTable_length (cfg : Cfg) (now : Time) (id pos : Nat) (seq : Byte) (table : List (Option Neighbour)) :
    (refreshTable cfg now id pos seq table).length = table.length := by
  unfold refreshTable
  split
  · exact updateEntry_length _ _ _
  · split
    · simp
    · rfl

theorem refreshSender_step (f : Frame) (s : State) : TableStep s (refreshSender f s) :=
  setTable_step _ _ (refreshTable_length _ _ _ _ _ _)

theorem silenceExpiry_step (place : Nat) (s : State) : TableStep s (silenceExpiry place s) := by
  unfold silenceExpiry
  split
  · split
    · exact setTable_step _ _ (by simp)
    · exact TableStep.refl s
  · exact TableStep.refl s

theorem stalenessExpiry_step (place : Nat) (s : State) : TableStep s (stalenessExpiry place s) := by
  unfold stalenessExpiry
  split
  · split
    · exact setTable_step _ _ (by simp)
    · exact TableStep.refl s
  · exact TableStep.refl s

theorem makeReverseLeg_step (l : Label) (hA : Time) (s : State) : TableStep s (makeReverseLeg l hA s) := by
  unfold makeReverseLeg
  dsimp only
  refine (setTable_step _ s (updateEntry_length _ _ _)).trans (ptuStep _ _ rfl rfl rfl rfl ?_ id rfl id id)
  intro _
  exact keepNewest_length _ _

/-- A change of the arrival list and the counters of PTU alone. -/
theorem arrivalsStep (s : State) (xs : List Arrival) (d : Nat) (h : s.ptu.arrivals.length ≤ 4 → xs.length ≤ 4)
    (hd : s.ptu.discarded ≤ 65535 → d ≤ 65535) :
    TableStep s (s.withPtu { s.ptu with arrivals := xs, discarded := d }) :=
  ptuStep s _ rfl rfl rfl rfl id h rfl id hd

theorem arrivalResult_step (r : ArrivalResult) (s : State) : TableStep s (arrivalResult r s) := by
  unfold arrivalResult
  split
  · exact TableStep.refl s
  · split
    · exact arrivalsStep s _ _ (fun h => (List.length_eraseIdx_le _ _).trans h) fun _ => Nat.min_le_right _ _
    · exact ptuStep s _ rfl rfl rfl rfl id (fun h => (List.length_modify _ _ _).trans_le h) rfl id id
    · exact (dropArrivalStep s _).trans (makeReverseLeg_step _ _ _)

theorem arrivalRefused_step (t : Time) (s : State) : TableStep s (arrivalRefused t s) := by
  unfold arrivalRefused
  split
  · exact TableStep.refl s
  · exact arrivalsStep s _ _ (fun h => (List.length_eraseIdx_le _ _).trans h) fun _ => Nat.min_le_right _ _

theorem arrivalTiming_step (t : Time) (s : State) : TableStep s (arrivalTiming t s) := by
  unfold arrivalTiming
  split
  · exact TableStep.refl s
  · exact ptuStep s _ rfl rfl rfl rfl id (fun h => (List.length_modify _ _ _).trans_le h) rfl id id

theorem arrivalExpiry_step (i : Nat) (s : State) : TableStep s (arrivalExpiry i s) := by
  unfold arrivalExpiry
  split
  · split
    · exact ptuStep s _ rfl rfl rfl rfl id (fun h => (List.length_eraseIdx_le _ _).trans h) rfl id id
    · exact TableStep.refl s
  · exact TableStep.refl s

theorem labelArrival_step (i : Nat) (l : Label) (s : State) : TableStep s (labelArrival i l s) := by
  unfold labelArrival
  split
  · exact TableStep.refl s
  · split
    · exact (dropArrivalStep s _).trans (makeReverseLeg_step _ _ _)
    · exact ptuStep s _ rfl rfl rfl rfl id (fun h => (List.length_modify _ _ _).trans_le h) rfl id id

theorem labelStep_step (peer : Nat) (p : ProbePayload) (s : State) : TableStep s (labelStep peer p s) := by
  unfold labelStep
  dsimp only
  split
  · split
    · exact labelArrival_step _ _ _
    · exact TableStep.refl s
  · split
    · exact TableStep.refl s
    · exact arrivalsStep s _ _ (fun h => (List.length_filter_le _ _).trans h) fun _ => Nat.min_le_right _ _

theorem forwardLeg_step (peer : Nat) (s : State) (h : Heard) : TableStep s (forwardLeg peer s h) := by
  unfold forwardLeg
  split
  · split
    · exact setTable_step _ _ (updateEntry_length _ _ _)
    · exact TableStep.refl s
  · exact TableStep.refl s

theorem handleProbeNote_step (f : Frame) (s : State) : TableStep s (handleProbeNote f s) :=
  ((refreshSender_step f s).trans (labelStep_step _ _ _)).trans
    (TableStep.foldl _ (forwardLeg_step f.sender) _ _)

theorem handleBurstNote_step (f : Frame) (s : State) : TableStep s (handleBurstNote f s) :=
  (refreshSender_step f s).trans (judgeBurstNote_step _ _ _)

end Sys2Proof.Machine
end

