-- ==== Sys2Proof/Laws/Bursts.lean ====
section
/-! SUPPORT. The burst list (`BurstsOk`): how it is kept when records leave it, change or join it, and why a full list
always holds a record to evict (R53). -/

namespace Sys2Proof.Machine

open Sys2Proof

/-- Records have left the list, and nothing else has changed that the list's invariant speaks of. -/
theorem BurstsOk.leave {s t : State} (h : BurstsOk s) (hn : t.nc.node = s.nc.node) (hs : t.iw.slots = s.iw.slots)
    (hd : t.iw.detector = s.iw.detector) (hb : t.iw.bursts.Sublist s.iw.bursts) : BurstsOk t where
  slots := (congrArg List.length hs).trans h.slots
  room := hb.length_le.trans h.room
  apart := (hb.filterMap _).nodup h.apart
  slotted := fun b hm => h.slotted b (hb.subset hm)
  taken := fun k b hm => by rw [hs]; exact h.taken (hn ▸ k) b (hb.subset hm)
  shut := fun c f p hw b hm => h.shut c f p (hd ▸ hw) b (hb.subset hm)
  long := fun o hw b hm => h.long o (hd ▸ hw) b (hb.subset hm)
  before := fun k => List.sublist_nil.mp (h.before (hn ▸ k) ▸ hb)

/-- The invariant of the list speaks of IW and the node's state alone. -/
theorem BurstsOk.congr {s t : State} (h : BurstsOk s) (hn : t.nc.node = s.nc.node) (hi : t.iw = s.iw) : BurstsOk t :=
  h.leave hn (congrArg _ hi) (congrArg _ hi) (hi ▸ List.Sublist.refl _)

theorem TableStep.burstsOk {s t : State} (h : TableStep s t) (k : BurstsOk s) : BurstsOk t :=
  k.leave h.node h.slots h.detector h.bursts

/-- An empty list meets the invariant. -/
theorem BurstsOk.empty {t : State} (hs : t.iw.slots.length = 8) (hb : t.iw.bursts = []) : BurstsOk t := by
  constructor <;> simp [hs, hb]

/-! ## Records changed in their places -/

/-- A record is CAPTURING or QUEUED. -/
def Burst.Waits (b : Burst) : Prop := b.state = .capturing ∨ b.state = .queued

/-- What a change of a record may do: the slot stays or goes, and a record CAPTURING or QUEUED after it was so before, or
had a slot, and has the same slot. -/
structure Burst.Follows (b c : Burst) : Prop where
  slot : c.slot = b.slot ∨ c.slot = none
  slotted : c.Waits → (b.Waits ∨ ∃ i, i < 8 ∧ b.slot = some i) ∧ c.slot = b.slot

theorem Burst.Follows.refl (b : Burst) : Burst.Follows b b := ⟨Or.inl rfl, fun h => ⟨Or.inl h, rfl⟩⟩

theorem follows_map {f : Burst → Burst} {xs : List Burst} (h : ∀ b ∈ xs, Burst.Follows b (f b)) :
    List.Forall₂ Burst.Follows xs (xs.map f) := by
  induction xs with
  | nil => exact List.Forall₂.nil
  | cons b bs ih =>
    exact List.Forall₂.cons (h b (List.mem_cons_self ..)) (ih fun c hc => h c (List.mem_cons_of_mem _ hc))

theorem follows_refl (xs : List Burst) : List.Forall₂ Burst.Follows xs xs := by
  have := follows_map (f := id) (xs := xs) fun b _ => Burst.Follows.refl b
  rwa [List.map_id] at this

theorem follows_modify {f : Burst → Burst} {xs : List Burst} {j : Nat}
    (h : ∀ b, xs[j]? = some b → Burst.Follows b (f b)) : List.Forall₂ Burst.Follows xs (xs.modify j f) := by
  induction xs generalizing j with
  | nil => simp
  | cons b bs ih =>
    cases j with
    | zero => exact List.Forall₂.cons (h b rfl) (follows_refl bs)
    | succ j => exact List.Forall₂.cons (Burst.Follows.refl b) (ih fun c hc => h c hc)

theorem follows_slots {xs ys : List Burst} (h : List.Forall₂ Burst.Follows xs ys) :
    (ys.filterMap (·.slot)).Sublist (xs.filterMap (·.slot)) := by
  induction h with
  | nil => exact List.Sublist.refl _
  | @cons b c bs cs hbc _ ih =>
    rw [List.filterMap_cons, List.filterMap_cons]
    rcases hbc.slot with e | e
    · rw [e]
      cases b.slot with
      | none => exact ih
      | some i => exact ih.cons_cons i
    · rw [e]
      cases b.slot with
      | none => exact ih
      | some i => exact ih.cons i

theorem follows_mem {xs ys : List Burst} (h : List.Forall₂ Burst.Follows xs ys) {c : Burst} (hc : c ∈ ys) :
    ∃ b ∈ xs, Burst.Follows b c := by
  induction h with
  | nil => exact absurd hc List.not_mem_nil
  | @cons b d bs ds hbd _ ih =>
    rcases List.mem_cons.mp hc with rfl | hc
    · exact ⟨b, List.mem_cons_self .., hbd⟩
    · obtain ⟨a, ha, hac⟩ := ih hc
      exact ⟨a, List.mem_cons_of_mem _ ha, hac⟩

/-- The records changed in their places, some of them gone, the slots as they may be. -/
theorem BurstsOk.follow {s t : State} (h : BurstsOk s) (hn : t.nc.node = s.nc.node)
    (hs : t.iw.slots.length = s.iw.slots.length) {ys : List Burst} (hf : List.Forall₂ Burst.Follows s.iw.bursts ys)
    (hb : t.iw.bursts.Sublist ys)
    (ht : s.nc.node ≠ .held → ∀ b ∈ t.iw.bursts, ∀ i, b.slot = some i → t.iw.slots[i]? ≠ some .free)
    (hw : ∀ c f p, t.iw.detector = .watch c f p → ∀ b ∈ t.iw.bursts, b.opened = false ∧ b.state ≠ .long)
    (ho : ∀ o, t.iw.detector = .opened o → ∀ b ∈ t.iw.bursts, b.state = .long → b.opened = true) : BurstsOk t where
  slots := hs.trans h.slots
  room := hb.length_le.trans (hf.length_eq ▸ h.room)
  apart := ((hb.filterMap _).trans (follows_slots hf)).nodup h.apart
  slotted := fun c hc k => by
    obtain ⟨b, hm, hbc⟩ := follows_mem hf (hb.subset hc)
    obtain ⟨k1, k2⟩ := hbc.slotted k
    rw [k2]
    rcases k1 with k1 | k1
    · exact h.slotted b hm k1
    · exact k1
  taken := fun k => ht (hn ▸ k)
  shut := hw
  long := ho
  before := fun k => by
    have h1 : s.iw.bursts = [] := h.before (hn ▸ k)
    have h2 := hf.length_eq
    rw [h1] at h2
    exact List.eq_nil_of_length_eq_zero (Nat.le_zero.mp (hb.length_le.trans (h2 ▸ Nat.le_refl _)))

/-- A changed record's slot is held if the record's was. -/
theorem BurstsOk.stillTaken {s : State} (h : BurstsOk s) (hn : s.nc.node ≠ .held) {ys : List Burst}
    (hf : List.Forall₂ Burst.Follows s.iw.bursts ys) {c : Burst} (hc : c ∈ ys) {i : Nat} (hi : c.slot = some i) :
    s.iw.slots[i]? ≠ some .free := by
  obtain ⟨b, hm, hbc⟩ := follows_mem hf hc
  rcases hbc.slot with e | e
  · exact h.taken hn b hm i (e ▸ hi)
  · rw [e] at hi; exact absurd hi (by simp)

/-! ## The record that holds a slot -/

/-- With the slots of the records apart, no record but the holder names its slot. -/
theorem slot_apart {xs : List Burst} (h : (xs.filterMap (·.slot)).Nodup) {i j k : Nat} {b c : Burst}
    (hj : xs[j]? = some b) (hk : xs[k]? = some c) (hb : b.slot = some i) (hc : c.slot = some i) : j = k := by
  induction xs generalizing j k with
  | nil => simp at hj
  | cons a as ih =>
    have hm : ∀ (n : Nat) (x : Burst), as[n]? = some x → x.slot = some i → i ∈ as.filterMap (·.slot) :=
      fun n x hx hxi => List.mem_filterMap.mpr ⟨x, List.mem_of_getElem? hx, hxi⟩
    rw [List.filterMap_cons] at h
    cases j with
    | zero =>
      cases k with
      | zero => rfl
      | succ k =>
        obtain rfl := Option.some.inj hj
        rw [hb] at h
        exact absurd (hm k c hk hc) (List.nodup_cons.mp h).1
    | succ j =>
      cases k with
      | zero =>
        obtain rfl := Option.some.inj hk
        rw [hc] at h
        exact absurd (hm j b hj hb) (List.nodup_cons.mp h).1
      | succ k =>
        refine congrArg _ (ih ?_ hj hk)
        cases ha : a.slot with
        | none => rw [ha] at h; exact h
        | some x => rw [ha] at h; exact (List.nodup_cons.mp h).2

theorem holder_sound {w : Iw} {i j : Nat} (h : w.holder i = some j) : ∃ b, w.bursts[j]? = some b ∧ b.slot = some i := by
  unfold Iw.holder at h
  obtain ⟨hj, hp, _⟩ := List.findIdx?_eq_some_iff_getElem.mp h
  exact ⟨_, List.getElem?_eq_getElem hj, by simpa using hp⟩

theorem holder_none {w : Iw} {i : Nat} (h : w.holder i = none) : ∀ b ∈ w.bursts, b.slot ≠ some i := by
  unfold Iw.holder at h
  intro b hb hs
  have := List.findIdx?_eq_none_iff.mp h b hb
  rw [hs] at this
  simp at this

/-- With the holder gone no record names the slot. -/
theorem slot_erased {w : Iw} (h : (w.bursts.filterMap (·.slot)).Nodup) {i j : Nat} (hj : w.holder i = some j) :
    ∀ c ∈ w.bursts.eraseIdx j, c.slot ≠ some i := by
  intro c hc hs
  obtain ⟨b, hb, hbi⟩ := holder_sound hj
  obtain ⟨k, hk, hkc⟩ := List.mem_eraseIdx_iff_getElem?.mp hc
  exact hk (slot_apart h hkc hb hs hbi)

/-- With the holder's slot given up no record names the slot. -/
theorem slot_given_up {w : Iw} (h : (w.bursts.filterMap (·.slot)).Nodup) {i j : Nat} (hj : w.holder i = some j)
    {f : Burst → Burst} (hf : ∀ b, (f b).slot = none) : ∀ c ∈ w.bursts.modify j f, c.slot ≠ some i := by
  intro c hc hs
  obtain ⟨b, hb, hbi⟩ := holder_sound hj
  obtain ⟨k, hk⟩ := List.getElem?_of_mem hc
  rw [List.getElem?_modify] at hk
  by_cases e : j = k
  · subst e
    rw [hb] at hk
    simp only [if_true, Option.map_eq_map, Option.map_some] at hk
    obtain rfl := Option.some.inj hk
    rw [hf] at hs
    exact absurd hs (by simp)
  · simp only [if_neg e, Option.map_eq_map, Option.map_id'] at hk
    exact e (slot_apart h hb hk hbi hs)

/-! ## A slot set, with its record -/

/-- A change of a record that leaves its mark and makes no record LONG. -/
structure Burst.Settles (b c : Burst) : Prop where
  follows : Burst.Follows b c
  opened : c.opened = b.opened
  long : c.state = .long → b.state = .long

theorem Burst.Settles.refl (b : Burst) : Burst.Settles b b := ⟨Burst.Follows.refl b, rfl, id⟩

/-- A record that gives up its slot and is neither CAPTURING, QUEUED nor LONG. -/
theorem Burst.Settles.ofDone {b c : Burst} (hs : c.slot = none) (ho : c.opened = b.opened)
    (hc : c.state = .timed ∨ c.state = .untimed) : Burst.Settles b c := by
  refine ⟨⟨Or.inr hs, fun h => ?_⟩, ho, fun h => ?_⟩
  · rcases hc with e | e <;> rcases h with k | k <;> rw [e] at k <;> exact absurd k (by simp)
  · rcases hc with e | e <;> rw [e] at h <;> exact absurd h (by simp)

theorem toUntimed_settles (b : Burst) : Burst.Settles b b.toUntimed :=
  Burst.Settles.ofDone rfl rfl (Or.inr rfl)

theorem settles_refl (xs : List Burst) : List.Forall₂ Burst.Settles xs xs := by
  induction xs with
  | nil => exact List.Forall₂.nil
  | cons b bs ih => exact List.Forall₂.cons (Burst.Settles.refl b) ih

theorem settles_modify {f : Burst → Burst} {xs : List Burst} {j : Nat}
    (h : ∀ b, xs[j]? = some b → Burst.Settles b (f b)) : List.Forall₂ Burst.Settles xs (xs.modify j f) := by
  induction xs generalizing j with
  | nil => simp
  | cons b bs ih =>
    cases j with
    | zero => exact List.Forall₂.cons (h b rfl) (settles_refl bs)
    | succ j => exact List.Forall₂.cons (Burst.Settles.refl b) (ih fun c hc => h c hc)

theorem settles_mem {xs ys : List Burst} (h : List.Forall₂ Burst.Settles xs ys) {c : Burst} (hc : c ∈ ys) :
    ∃ b ∈ xs, Burst.Settles b c := by
  induction h with
  | nil => exact absurd hc List.not_mem_nil
  | @cons b d bs ds hbd _ ih =>
    rcases List.mem_cons.mp hc with rfl | hc
    · exact ⟨b, List.mem_cons_self .., hbd⟩
    · obtain ⟨a, ha, hac⟩ := ih hc
      exact ⟨a, List.mem_cons_of_mem _ ha, hac⟩

/-- A slot set to anything, unless it is freed while a record names it, with the records settling. -/
theorem BurstsOk.setSlot {s t : State} (h : BurstsOk s) (hn : t.nc.node = s.nc.node) {i : Nat} {x : Slot}
    (hs : t.iw.slots = s.iw.slots.set i x) (hd : t.iw.detector = s.iw.detector) {ys : List Burst}
    (hf : List.Forall₂ Burst.Settles s.iw.bursts ys) (hb : t.iw.bursts.Sublist ys)
    (hx : x ≠ .free ∨ ∀ b ∈ t.iw.bursts, b.slot ≠ some i) : BurstsOk t := by
  have hf' := hf.imp fun _ _ k => k.follows
  refine h.follow hn (by rw [hs, List.length_set]) hf' hb (fun hk b hm k hbk => ?_) (fun c f p hw b hm => ?_)
    fun o hw b hm hl => ?_
  · have h1 := h.stillTaken hk hf' (hb.subset hm) hbk
    rw [hs]
    by_cases e : i = k
    · subst e
      rcases hx with hx | hx
      · rw [List.getElem?_set]
        split
        · split
          · exact fun q => hx (Option.some.inj q)
          · simp
        · exact h1
      · exact absurd hbk (hx b hm)
    · rw [List.getElem?_set_ne e]; exact h1
  · obtain ⟨a, ha, hab⟩ := settles_mem hf (hb.subset hm)
    obtain ⟨k1, k2⟩ := h.shut c f p (hd ▸ hw) a ha
    exact ⟨hab.opened.trans k1, fun e => k2 (hab.long e)⟩
  · obtain ⟨a, ha, hab⟩ := settles_mem hf (hb.subset hm)
    exact hab.opened.trans (h.long o (hd ▸ hw) a ha (hab.long hl))

/-- A slot freed, its record made UNTIMED, gone with an ended burst, or no record naming it (R49, R50). -/
theorem BurstsOk.untime {s t : State} (h : BurstsOk s) (hn : t.nc.node = s.nc.node) {i : Nat}
    (hi : t.iw = match (s.iw.setSlot i .free).holder i with
      | some j => (s.iw.setSlot i .free).untime j
      | none => s.iw.setSlot i .free) : BurstsOk t := by
  split at hi
  · rename_i j hj
    have hj' : s.iw.holder i = some j := hj
    obtain ⟨b, hb, hbi⟩ := holder_sound hj'
    unfold Iw.untime at hi
    have e : (s.iw.setSlot i .free).bursts[j]? = some b := hb
    rw [e] at hi
    dsimp only at hi
    split at hi
    · refine h.setSlot hn (i := i) (x := .free) (by rw [hi]; rfl) (by rw [hi]; rfl)
        (settles_modify (j := j) fun b _ => toUntimed_settles b) (by rw [hi]; exact List.Sublist.refl _) (Or.inr ?_)
      rw [hi]
      exact slot_given_up h.apart hj' fun _ => rfl
    · refine h.setSlot hn (i := i) (x := .free) (by rw [hi]; rfl) (by rw [hi]; rfl) (settles_refl _)
        (by rw [hi]; exact List.eraseIdx_sublist ..) (Or.inr ?_)
      rw [hi]
      exact slot_erased h.apart hj'
  · rename_i hj
    refine h.setSlot hn (i := i) (x := .free) (by rw [hi]; rfl) (by rw [hi]; rfl) (settles_refl _)
      (by rw [hi]; exact List.Sublist.refl _) (Or.inr ?_)
    rw [hi]
    exact holder_none (w := s.iw) hj

/-- A slot freed in CLASHED, its record made UNTIMED (R56). -/
theorem BurstsOk.untimeClashed {s t : State} (h : BurstsOk s) (hn : t.nc.node = s.nc.node) {i : Nat}
    (hi : t.iw = (s.iw.setSlot i .free).untimeClashed i) : BurstsOk t := by
  unfold Iw.untimeClashed at hi
  split at hi
  · rename_i j hj
    refine h.setSlot hn (i := i) (x := .free) (by rw [hi]; rfl) (by rw [hi]; rfl)
      (settles_modify (j := j) fun b _ => toUntimed_settles b) (by rw [hi]; exact List.Sublist.refl _) (Or.inr ?_)
    rw [hi]
    exact slot_given_up (w := s.iw) h.apart hj fun _ => rfl
  · rename_i hj
    refine h.setSlot hn (i := i) (x := .free) (by rw [hi]; rfl) (by rw [hi]; rfl) (settles_refl _)
      (by rw [hi]; exact List.Sublist.refl _) (Or.inr ?_)
    rw [hi]
    exact holder_none (w := s.iw) hj

/-! ## A full list has a record to evict (R53) -/

/-- In WATCH a full list holds a TIMED or UNTIMED record. -/
theorem evict_found {s : State} (h : BurstsOk s) {c : Nat} {f : Time} {p : Nat} (hw : s.iw.detector = .watch c f p)
    (hl : 16 ≤ s.iw.bursts.length) : evictIdx s.iw.bursts ≠ none := by
  intro hn
  unfold evictIdx at hn
  have h1 := bestIdx_none.mp hn
  have h2 : ∀ b ∈ s.iw.bursts, ∃ i, i < 8 ∧ b.slot = some i := by
    intro b hb
    have h3 := h1 b hb
    have h4 := (h.shut c f p hw b hb).2
    apply h.slotted b hb
    cases hs : b.state <;> simp_all
  have h5 : (s.iw.bursts.filterMap (·.slot)).length = s.iw.bursts.length := by
    rw [List.length_filterMap_eq_countP, List.countP_eq_length]
    intro b hb
    obtain ⟨i, _, hi⟩ := h2 b hb
    rw [hi]; rfl
  have h6 : (s.iw.bursts.filterMap (·.slot)) ⊆ List.range 8 := by
    intro i hi
    obtain ⟨b, hb, hbi⟩ := List.mem_filterMap.mp hi
    obtain ⟨k, hk, hbk⟩ := h2 b hb
    rw [hbk] at hbi
    exact List.mem_range.mpr (Option.some.inj hbi ▸ hk)
  have h7 := (List.Nodup.subperm h.apart h6).length_le
  rw [h5, List.length_range] at h7
  omega

/-- Room made in WATCH leaves 15 records at most, all of them members of the list before. -/
theorem makeRoom_room {s : State} (h : BurstsOk s) {c : Nat} {f : Time} {p : Nat} (hw : s.iw.detector = .watch c f p) :
    s.iw.makeRoom.bursts.Sublist s.iw.bursts ∧ s.iw.makeRoom.bursts.length ≤ 15 := by
  unfold Iw.makeRoom
  split
  · rename_i hl
    exact ⟨List.Sublist.refl _, by omega⟩
  · rename_i hl
    split
    · rename_i hn
      exact absurd hn (evict_found h hw (by omega))
    · rename_i i hi
      have h1 := bestIdx_lt hi
      have h2 := h.room
      refine ⟨List.eraseIdx_sublist .., ?_⟩
      dsimp only
      rw [List.length_eraseIdx]
      split <;> omega

end Sys2Proof.Machine
end

