-- ==== Sys2Proof/Laws/Keeps.lean ====
section
/-! SUPPORT. What every command keeps (`Keeps`): the queue of waiting commands and the invariants of Safety.lean. One
lemma per operation of Machine/Coupler.lean, IngressWatch.lean, Passes.lean, NodeControl.lean, Receiving.lean and
Tick.lean. -/

namespace Sys2Proof.Machine

open Sys2Proof

/-- The queue of waiting commands stands, and every invariant of Safety.lean is kept. -/
structure Keeps (s t : State) : Prop where
  pending : t.pending = s.pending
  link : LinkOk s → LinkOk t
  engine : EngineOk s → EngineOk t
  bursts : BurstsOk s → BurstsOk t
  front : FrontBounded s → FrontBounded t
  tables : TablesBounded s → TablesBounded t
  queue : QueueBounded s → QueueBounded t
  counters : CountersBounded s → CountersBounded t

theorem Keeps.refl (s : State) : Keeps s s := ⟨rfl, id, id, id, id, id, id, id⟩

theorem Keeps.trans {s t u : State} (h : Keeps s t) (k : Keeps t u) : Keeps s u :=
  ⟨k.pending.trans h.pending, k.link ∘ h.link, k.engine ∘ h.engine, k.bursts ∘ h.bursts, k.front ∘ h.front, k.tables ∘ h.tables,
    k.queue ∘ h.queue, k.counters ∘ h.counters⟩

/-! ## The engine and the buffers -/

/-- Everything held stays held and the engine stands. -/
theorem EngineOk.mono {s t : State} (h : EngineOk s) (hc : t.ce = s.ce) (hl : t.iw.slots.length = s.iw.slots.length)
    (hh : ∀ j, s.holds j → t.holds j) : EngineOk t where
  slots := hl.trans h.slots
  idle := hc ▸ h.idle
  room := hc ▸ h.room
  held := fun j hj => hh j (h.held j (hc ▸ hj))
  apart := hc ▸ h.apart

/-- The engine and the buffers stand. -/
theorem EngineOk.congr {s t : State} (h : EngineOk s) (hc : t.ce = s.ce) (hs : t.iw.slots = s.iw.slots)
    (ha : t.cfe.arrival = s.cfe.arrival) (hw : t.cfe.window = s.cfe.window) : EngineOk t := by
  refine h.mono hc (congrArg List.length hs) fun j hj => ?_
  cases j with
  | burst i start o => obtain ⟨xs, hx⟩ := hj; exact ⟨xs, hs ▸ hx⟩
  | arrival c u => obtain ⟨xs, hx⟩ := hj; exact ⟨xs, ha ▸ hx⟩
  | echo e => obtain ⟨xs, hx⟩ := hj; exact ⟨xs, hw ▸ hx⟩

/-- An engine with no job needs its 8 slots only. -/
theorem EngineOk.empty {t : State} (hc : t.ce = ⟨none, []⟩) (hs : t.iw.slots.length = 8) : EngineOk t where
  slots := hs
  idle := fun _ => by rw [hc]
  room := by rw [hc]; exact Nat.zero_le _
  held := fun j hj => by rw [hc] at hj; simp [Ce.jobs] at hj
  apart := by rw [hc]; exact List.nodup_nil

/-- The jobs after a submission taken. -/
theorem submit_jobs {c d : Ce} {now : Time} {j : Job} (h : c.submit now j = some d) (hi : c.running = none → c.waiting = []) :
    d.jobs = c.jobs ++ [j] ∧ d.running.isSome = true ∧ d.waiting.length ≤ max c.waiting.length 4 := by
  unfold Ce.submit at h
  split at h
  · rename_i hr
    obtain rfl := Option.some.inj h
    simp [Ce.jobs, hr, hi hr, Job.start]
  · rename_i r hr
    split at h
    · obtain rfl := Option.some.inj h
      refine ⟨?_, ?_, ?_⟩
      · simp [Ce.jobs, hr]
      · simp [hr]
      · simp only [List.length_append, List.length_singleton]; omega
    · exact absurd h (by simp)

/-- A job taken whose buffer no job held before and which is held now (R59). -/
theorem EngineOk.submit {s t : State} (h : EngineOk s) {now : Time} {j : Job} {c : Ce}
    (hc : s.ce.submit now j = some c) (ht : t.ce = c) (hl : t.iw.slots.length = s.iw.slots.length)
    (hn : ∀ k, s.holds k → k.buffer ≠ j.buffer) (hh : ∀ k, s.holds k → t.holds k) (hj : t.holds j) : EngineOk t := by
  obtain ⟨h1, h2, h3⟩ := submit_jobs hc h.idle
  subst ht
  refine ⟨hl.trans h.slots, fun hr => ?_, ?_, ?_, ?_⟩
  · rw [hr] at h2; exact absurd h2 (by simp)
  · have := h.room; omega
  · intro k hk
    rw [h1] at hk
    rcases List.mem_append.mp hk with hk | hk
    · exact hh k (h.held k hk)
    · obtain rfl := List.mem_singleton.mp hk; exact hj
  · rw [h1, List.map_append, List.nodup_append]
    refine ⟨h.apart, List.nodup_singleton _, ?_⟩
    intro a ha b hb
    obtain ⟨k, hk, rfl⟩ := List.mem_map.mp ha
    rw [List.map_singleton, List.mem_singleton] at hb
    subst hb
    exact hn k (h.held k hk)

/-- The jobs after a DONE (R60). -/
theorem advance_jobs (c : Ce) (now : Time) : (c.advance now).jobs = c.waiting := by
  unfold Ce.advance
  split
  · rename_i h; rw [h]; rfl
  · rename_i h; rw [h]; rfl

/-- The running job gone with its buffer (R60). -/
theorem EngineOk.advance {s t : State} (h : EngineOk s) {now : Time} {r : Running} (hr : s.ce.running = some r)
    (ht : t.ce = s.ce.advance now) (hl : t.iw.slots.length = s.iw.slots.length)
    (hh : ∀ k, s.holds k → k.buffer ≠ r.job.buffer → t.holds k) : EngineOk t := by
  have h0 : s.ce.jobs = r.job :: s.ce.waiting := by simp [Ce.jobs, hr]
  have h1 : t.ce.jobs = s.ce.waiting := ht ▸ advance_jobs s.ce now
  have h2 := h.apart
  rw [h0, List.map_cons, List.nodup_cons] at h2
  refine ⟨hl.trans h.slots, ?_, ?_, ?_, ?_⟩
  · rw [ht]; unfold Ce.advance; split
    · exact fun _ => rfl
    · intro hx; exact absurd hx (by simp)
  · have := h.room
    rw [ht]; unfold Ce.advance; split
    · exact Nat.zero_le _
    · rename_i j js hw; rw [hw, List.length_cons] at this; show js.length ≤ 4; omega
  · intro k hk
    rw [h1] at hk
    refine hh k (h.held k (h0 ▸ List.mem_cons_of_mem _ hk)) fun he => h2.1 ?_
    rw [← he]; exact List.mem_map_of_mem hk
  · rw [h1]; exact h2.2

/-- A slot that is not in a job's hands set to anything keeps every job's buffer. -/
theorem holds_setSlot {s t : State} {i : Nat} {x : Slot} (hs : t.iw.slots = s.iw.slots.set i x)
    (ha : t.cfe.arrival = s.cfe.arrival) (hw : t.cfe.window = s.cfe.window)
    (hx : ∀ start o xs, s.iw.slots[i]? ≠ some (.job start o xs)) (j : Job) (hj : s.holds j) : t.holds j := by
  cases j with
  | burst k start o =>
    obtain ⟨xs, h⟩ := hj
    refine ⟨xs, ?_⟩
    have hk : i ≠ k := fun e => hx start o xs (e ▸ h)
    rw [hs, List.getElem?_set_ne hk]; exact h
  | arrival c u => obtain ⟨xs, h⟩ := hj; exact ⟨xs, ha ▸ h⟩
  | echo e => obtain ⟨xs, h⟩ := hj; exact ⟨xs, hw ▸ h⟩

/-! ## Steps of one kind -/

theorem TableStep.keeps {s t : State} (h : TableStep s t) : Keeps s t where
  pending := h.pending
  link := h.link
  engine := fun e => e.congr h.ce h.slots (congrArg Cfe.arrival h.cfe) (congrArg Cfe.window h.cfe)
  bursts := h.burstsOk
  front := fun f => ⟨h.cfe ▸ f.ring, h.cfe ▸ f.history, h.cfe ▸ f.offR, h.cfe ▸ f.offP⟩
  tables := h.tables
  queue := h.queue
  counters := h.counters

theorem NoteStep.keeps {s t : State} (h : NoteStep s t) : Keeps s t := h.table.keeps

/-- `TablesBounded` where the tables stand. -/
theorem TablesBounded.same {s t : State} (h : TablesBounded s) (h1 : t.ptu = s.ptu) (h2 : t.pu = s.pu)
    (h3 : t.ft = s.ft) (h4 : t.ec = s.ec) : TablesBounded t :=
  h.congr (congrArg _ h1) (congrArg _ h1) (congrArg _ h1) (congrArg _ h1) h2 h3 h4

/-- NC changed: of the invariants only the burst list's speaks of it. -/
theorem nodeKeeps (s : State) (x : Nc) (hb : BurstsOk s → BurstsOk (s.withNc x)) : Keeps s (s.withNc x) :=
  ⟨rfl, fun h => h.congr rfl rfl rfl, fun h => h.congr rfl rfl rfl rfl, hb,
    fun h => ⟨h.ring, h.history, h.offR, h.offP⟩,
    fun h => h.same rfl rfl rfl rfl, fun h => ⟨h.queue, h.floor⟩, fun h => h⟩

/-- NC changed but for the node's state. -/
theorem ncKeeps (s : State) (x : Nc) (hn : x.node = s.nc.node) : Keeps s (s.withNc x) :=
  nodeKeeps s x fun h => h.congr hn rfl

/-- A node with an empty burst list may pass to any state. -/
theorem BurstsOk.move {s : State} (h : BurstsOk s) (x : Nc) (hb : s.iw.bursts = []) : BurstsOk (s.withNc x) :=
  BurstsOk.empty h.slots hb

/-- CFE changed, its buffers in no job's hands lost. -/
theorem cfeKeeps (s : State) (x : Cfe) (hr : s.cfe.ring.length = 512 → x.ring.length = 512)
    (hh : s.cfe.history.length = 128 → x.history.length = 128) (h1 : s.cfe.offR.natAbs ≤ 255 → x.offR.natAbs ≤ 255)
    (h2 : s.cfe.offP.natAbs ≤ 255 → x.offP.natAbs ≤ 255)
    (ha : ∀ c u xs, s.cfe.arrival = .held c u xs → x.arrival = .held c u xs)
    (hw : ∀ e xs, s.cfe.window = .held e xs → x.window = .held e xs) : Keeps s (s.withCfe x) where
  pending := rfl
  link := fun h => h.congr rfl rfl rfl
  engine := fun h => h.mono rfl rfl fun j hj => by
    cases j with
    | burst i start o => exact hj
    | arrival c u => obtain ⟨xs, hx⟩ := hj; exact ⟨xs, ha _ _ _ hx⟩
    | echo e => obtain ⟨xs, hx⟩ := hj; exact ⟨xs, hw _ _ hx⟩
  bursts := fun h => h.congr rfl rfl
  front := fun h => ⟨hr h.ring, hh h.history, h1 h.offR, h2 h.offP⟩
  tables := fun h => h.same rfl rfl rfl rfl
  queue := fun h => ⟨h.queue, h.floor⟩
  counters := fun h => h

/-- IW changed, its counters within 16 bits and no slot in a job's hands lost. -/
theorem iwKeeps (s : State) (x : Iw) (h1 : s.iw.seen ≤ 65535 → x.seen ≤ 65535)
    (h2 : s.iw.untimed ≤ 65535 → x.untimed ≤ 65535) (h3 : s.iw.evicted ≤ 65535 → x.evicted ≤ 65535)
    (hl : x.slots.length = s.iw.slots.length)
    (hj : ∀ (i : Nat) start o xs, s.iw.slots[i]? = some (Slot.job start o xs) →
      ∃ ys, x.slots[i]? = some (Slot.job start o ys))
    (hb : BurstsOk s → BurstsOk (s.withIw x)) :
    Keeps s (s.withIw x) where
  pending := rfl
  link := fun h => h.congr rfl rfl rfl
  engine := fun h => h.mono rfl hl fun j k => by
    cases j with
    | burst i start o => obtain ⟨xs, hx⟩ := k; exact hj _ _ _ _ hx
    | arrival c u => exact k
    | echo e => exact k
  bursts := hb
  front := fun h => ⟨h.ring, h.history, h.offR, h.offP⟩
  tables := fun h => h.same rfl rfl rfl rfl
  queue := fun h => ⟨h.queue, h.floor⟩
  counters := fun h => by
    rw [countersBounded_iff] at h ⊢
    exact ⟨h1 h.1, h2 h.2.1, h3 h.2.2.1, h.2.2.2⟩

/-- PTU changed within its bounds. -/
theorem ptuKeeps (s : State) (x : Ptu) (h0 : s.ptu.history.length ≤ 4 → x.history.length ≤ 4)
    (h1 : s.ptu.heard.length ≤ 11 → x.heard.length ≤ 11) (h2 : s.ptu.arrivals.length ≤ 4 → x.arrivals.length ≤ 4)
    (h3 : x.table.length = s.ptu.table.length) (h4 : s.ptu.wasted ≤ 65535 → x.wasted ≤ 65535)
    (h5 : s.ptu.discarded ≤ 65535 → x.discarded ≤ 65535) : Keeps s (s.withPtu x) where
  pending := rfl
  link := fun h => h.congr rfl rfl rfl
  engine := fun h => h.congr rfl rfl rfl rfl
  bursts := fun h => h.congr rfl rfl
  front := fun h => ⟨h.ring, h.history, h.offR, h.offP⟩
  tables := fun h => ⟨h0 h.history, h1 h.heard, h2 h.arrivals, h3.trans h.neighbours, h.notices, h.fixes, h.baseline,
    h.candidates, h.findings, h.invalidStreak⟩
  queue := fun h => ⟨h.queue, h.floor⟩
  counters := fun h => h.tables rfl rfl rfl rfl ⟨rfl, rfl, rfl⟩ id id id h4 h5 id id

/-- LC changed but for the MAC and the transmitter. -/
theorem lcKeeps (s : State) (x : Lc) (hm : x.mac = s.lc.mac) (ht : x.tx = s.lc.tx)
    (h1 : s.lc.dropped ≤ 65535 → x.dropped ≤ 65535) (h2 : s.lc.bad ≤ 65535 → x.bad ≤ 65535)
    (h3 : s.lc.otherRun ≤ 65535 → x.otherRun ≤ 65535) : Keeps s (s.withLc x) where
  pending := rfl
  link := fun h => h.congr rfl hm ht
  engine := fun h => h.congr rfl rfl rfl rfl
  bursts := fun h => h.congr rfl rfl
  front := fun h => ⟨h.ring, h.history, h.offR, h.offP⟩
  tables := fun h => h.same rfl rfl rfl rfl
  queue := fun h => ⟨h.queue, h.floor⟩
  counters := fun h => by
    rw [countersBounded_iff] at h ⊢
    obtain ⟨b1, b2, b3, b4, b5, b6, b7, b8, b9, b10, b11, b12, b13, b14, b15, b16⟩ := h
    exact ⟨b1, b2, b3, b4, b5, b6, b7, b8, b9, b10, b11, h1 b12, h2 b13, h3 b14, b15, b16⟩

/-- NA changed but for the notes' marks and link records. -/
theorem naKeeps (s : State) (x : Na) (hq : x.queue = s.na.queue) (hf : s.na.floor ≤ 6 → x.floor ≤ 6)
    (h1 : s.na.dropped ≤ 65535 → x.dropped ≤ 65535) (h2 : s.na.refused ≤ 65535 → x.refused ≤ 65535)
    (h3 : s.na.unknown ≤ 65535 → x.unknown ≤ 65535) : Keeps s (s.withNa x) where
  pending := rfl
  link := fun h => h.congr hq rfl rfl
  engine := fun h => h.congr rfl rfl rfl rfl
  bursts := fun h => h.congr rfl rfl
  front := fun h => ⟨h.ring, h.history, h.offR, h.offP⟩
  tables := fun h => h.same rfl rfl rfl rfl
  queue := fun h => ⟨(congrArg List.length hq).trans_le h.queue, hf h.floor⟩
  counters := fun h => by
    rw [countersBounded_iff] at h ⊢
    obtain ⟨b1, b2, b3, b4, b5, b6, b7, b8, b9, b10, b11, b12, b13, b14, b15, b16⟩ := h
    exact ⟨b1, b2, b3, b4, b5, b6, b7, b8, b9, b10, h1 b11, b12, b13, b14, h2 b15, h3 b16⟩

end Sys2Proof.Machine
end

