-- ==== Sys2Proof/Laws/FrontOps.lean ====
section
/-! SUPPORT. The operations of Machine/Coupler.lean, IngressWatch.lean and Passes.lean keep the invariants (`Keeps`). -/

namespace Sys2Proof.Machine

open Sys2Proof

/-! ## Coupler Front End and probe schedule -/

theorem calibrationStart_keeps (s : State) : Keeps s (calibrationStart s) := by
  unfold calibrationStart
  split
  · exact cfeKeeps s _ id id id id (fun _ _ _ h => h) (fun _ _ h => h)
  · exact Keeps.refl s

theorem offsetOf_range (p n : Int) : (offsetOf p n).natAbs ≤ 255 := by
  have := clampInt_range (roundHalfAway (p + n) 512) (-255) 255 (by decide)
  unfold offsetOf; omega

/-- RUNNING is entered from CALIBRATING, where the burst list is empty. -/
theorem enterRunning_keeps (s : State) (hc : s.nc.node = .calibrating) : Keeps s (enterRunning s) := by
  let w : Iw := { s.iw with detector := if s.nc.cfg.confirmN = 0 then .off else .watch 0 0 0 }
  have hw : Keeps s (s.withIw w) := iwKeeps s w id id id rfl (fun _ _ _ xs h => ⟨xs, h⟩)
    fun h => BurstsOk.empty h.slots (h.before (Or.inr hc))
  have hr : Keeps (s.withIw w) ((s.withIw w).withNc { s.nc with node := .running }) :=
    nodeKeeps _ _ fun h => h.move _ (h.before (Or.inr hc))
  have hd : ∀ (x : Seed) (p : Schedule) (o : Option Time) (t : State),
      Keeps t (((t.withNc { t.nc with rng := x }).withPtu { t.ptu with schedule := p }).withNa
        { t.na with stateTimer := o }) := fun x p o t =>
    ((ncKeeps t { t.nc with rng := x } rfl).trans (ptuKeeps _ { t.ptu with schedule := p } id id id rfl id id)).trans
      (naKeeps _ { t.na with stateTimer := o } rfl id id id id)
  unfold enterRunning drawMicros
  exact (hw.trans hr).trans (hd _ _ _ _)

theorem calibrationEnd_keeps (s : State) : Keeps s (calibrationEnd s) := by
  unfold calibrationEnd
  split
  · split
    · dsimp only
      have h1 := fun (a b : Int × Int) (x : Time) => cfeKeeps s { s.cfe with
        offR := offsetOf a.1 a.2, offP := offsetOf b.1 b.2, cal := .idle, calDue := some x } id id
        (fun _ => offsetOf_range _ _) (fun _ => offsetOf_range _ _) (fun _ _ _ h => h) (fun _ _ h => h)
      split
      · rename_i hc
        exact (h1 (_, _) (_, _) _).trans (enterRunning_keeps _ hc)
      · exact (h1 (_, _) (_, _) _).trans (unblock_step _).keeps
    · exact Keeps.refl s
  · exact Keeps.refl s

theorem calibrationDue_keeps (s : State) : Keeps s (calibrationDue s) := by
  unfold calibrationDue
  split
  · exact cfeKeeps s _ id id id id (fun _ _ _ h => h) (fun _ _ h => h)
  · exact Keeps.refl s

theorem settle_keeps (s : State) : Keeps s (settle s) := by
  unfold settle drawMicros
  dsimp only
  exact (ncKeeps s _ (by exact rfl)).trans (ptuKeeps _ _ id id id rfl id id)

/-- An emission begins only from a FREE window. -/
theorem beginEmission_keeps (s : State) (h : s.cfe.window.isFree = true) : Keeps s (beginEmission s) := by
  unfold beginEmission
  dsimp only
  refine cfeKeeps s _ id id id id (fun _ _ _ h => h) ?_
  intro e xs hw
  rw [hw] at h
  exact absurd h (by simp [Window.isFree])

theorem recordEmission_keeps (s : State) : Keeps s (recordEmission s) := by
  unfold recordEmission drawMicros
  dsimp only
  refine Keeps.trans (Keeps.trans (Keeps.trans (ptuKeeps s _ ?_ ?_ ?_ ?_ ?_ ?_) (ncKeeps _ _ (by exact rfl)))
    (ptuKeeps _ _ ?_ ?_ ?_ ?_ ?_ ?_)) (offer_step _ _ _ _).keeps
  all_goals first | exact fun _ => keepNewest_length _ _ | exact fun _ => Nat.zero_le _ | exact id | rfl

theorem emissionTest_keeps (s : State) : Keeps s (emissionTest s) := by
  unfold emissionTest
  dsimp only
  split
  · exact ptuKeeps s _ id id id rfl id id
  · split
    · rename_i h
      unfold acceptsEmission at h
      simp only [Bool.and_eq_true] at h
      exact (beginEmission_keeps s h.1.2).trans (recordEmission_keeps _)
    · exact settle_keeps s

theorem probeDue_keeps (s : State) : Keeps s (probeDue s) := by
  unfold probeDue
  split
  · split
    · exact emissionTest_keeps s
    · exact Keeps.refl s
  · exact Keeps.refl s

theorem settleExpiry_keeps (s : State) : Keeps s (settleExpiry s) := by
  unfold settleExpiry
  split
  · split
    · exact emissionTest_keeps s
    · exact Keeps.refl s
  · exact Keeps.refl s

theorem probeGuardExpiry_keeps (s : State) : Keeps s (probeGuardExpiry s) := by
  unfold probeGuardExpiry
  split
  · exact (ptuKeeps s { s.ptu with guard := none } id id id rfl id id).trans (unblock_step _).keeps
  · exact Keeps.refl s

theorem addArrival_length (t : Time) (p : Ptu) (h : p.arrivals.length ≤ 4) : (addArrival t p).arrivals.length ≤ 4 := by
  unfold addArrival
  dsimp only
  split
  · simp only [List.length_append, List.length_singleton]; omega
  · split
    · rename_i i hb
      have := bestIdx_lt hb
      simp only [List.length_append, List.length_singleton, List.length_eraseIdx]
      split <;> omega
    · rename_i hn hb
      have hs := bestIdx_isSome_of_all (better := fun x y : Arrival => earlier x.trigger y.trigger) (xs := p.arrivals)
        (by omega)
      rw [hb] at hs
      exact absurd hs (by decide)

theorem addArrival_others (t : Time) (p : Ptu) : (addArrival t p).history = p.history ∧
    (addArrival t p).heard = p.heard ∧ (addArrival t p).table = p.table ∧ (addArrival t p).wasted = p.wasted ∧
    (p.discarded ≤ 65535 → (addArrival t p).discarded ≤ 65535) := by
  unfold addArrival countDiscarded
  dsimp only
  split
  · exact ⟨rfl, rfl, rfl, rfl, id⟩
  · split
    · exact ⟨rfl, rfl, rfl, rfl, fun _ => Nat.min_le_right _ _⟩
    · exact ⟨rfl, rfl, rfl, rfl, id⟩

/-- A trigger is taken only with a FREE arrival buffer. -/
theorem trigger_keeps (t : Time) (s : State) (h : s.cfe.arrival.isFree = true) : Keeps s (trigger t s) := by
  unfold trigger
  dsimp only
  have h2 := addArrival_others t { s.ptu with lastTrigger := some t, guard := some (plus t (probeGuard + 1 : Nat)) }
  refine Keeps.trans (cfeKeeps s { s.cfe with
    arrival := .capturing (plus t (-256)) t (samplesFrom s s.cfe.history (plus t (-256))) } id id id id ?_
    (fun _ _ h => h)) (ptuKeeps _ _ ?_ ?_ ?_ ?_ ?_ ?_)
  · intro c u xs hw
    rw [hw] at h
    exact absurd h (by simp [ArrivalBuffer.isFree])
  · exact (congrArg List.length h2.1).trans_le
  · exact (congrArg List.length h2.2.1).trans_le
  · exact fun h => addArrival_length t _ h
  · exact congrArg List.length h2.2.2.1
  · exact h2.2.2.2.1.trans_le
  · exact h2.2.2.2.2

theorem probeBandValue_keeps (s : State) : Keeps s (probeBandValue s) := by
  unfold probeBandValue
  split
  · exact Keeps.refl s
  · dsimp only
    have h1 := cfeKeeps s { s.cfe with probeValue := none } id id id id (fun _ _ _ h => h) (fun _ _ h => h)
    split
    · rename_i h
      refine h1.trans (trigger_keeps _ _ ?_)
      unfold canTrigger at h
      simp only [Bool.and_eq_true] at h
      exact h.2.1.1.2
    · exact h1

/-- The window is freed only from CAPTURING or FREE, or by its own job's DONE. -/
theorem freeWindow_keeps (s : State) (h : ∀ e xs, s.cfe.window ≠ .held e xs) : Keeps s (freeWindow s) := by
  unfold freeWindow
  exact (cfeKeeps s { s.cfe with window := .free } id id id id (fun _ _ _ h => h)
    (fun e xs hw => absurd hw (h e xs))).trans (unblock_step _).keeps

/-- The engine changed alone: only its own invariant speaks of it. -/
theorem Keeps.ofCe {s t : State} (h : Keeps s t) (c : Ce) (he : EngineOk s → EngineOk (t.withCe c)) :
    Keeps s (t.withCe c) where
  pending := h.pending
  link := fun k => (h.link k).congr rfl rfl rfl
  engine := he
  bursts := fun k => (h.bursts k).congr rfl rfl
  front := fun k => ⟨(h.front k).ring, (h.front k).history, (h.front k).offR, (h.front k).offP⟩
  tables := fun k => (h.tables k).same rfl rfl rfl rfl
  queue := fun k => ⟨(h.queue k).queue, (h.queue k).floor⟩
  counters := h.counters

/-- CFE changed, its buffers as they may be: the engine's invariant is shown apart. -/
theorem cfeKeepsBut (s : State) (x : Cfe) (hr : x.ring = s.cfe.ring) (hh : x.history = s.cfe.history)
    (h1 : x.offR = s.cfe.offR) (h2 : x.offP = s.cfe.offP) (he : EngineOk s → EngineOk (s.withCfe x)) :
    Keeps s (s.withCfe x) where
  pending := rfl
  link := fun h => h.congr rfl rfl rfl
  engine := he
  bursts := fun h => h.congr rfl rfl
  front := fun h => ⟨hr ▸ h.ring, hh ▸ h.history, h1 ▸ h.offR, h2 ▸ h.offP⟩
  tables := fun h => h.same rfl rfl rfl rfl
  queue := fun h => ⟨h.queue, h.floor⟩
  counters := fun h => h

theorem probeWindowFull_keeps (s : State) : Keeps s (probeWindowFull s) := by
  unfold probeWindowFull
  split
  · rename_i e xs hw
    have hf : Keeps s (freeWindow s) := freeWindow_keeps s fun e' ys h => by rw [hw] at h; exact absurd h (by simp)
    split
    · split
      · exact hf
      · split
        · rename_i c hc
          refine Keeps.ofCe (cfeKeeps s { s.cfe with window := .held e xs } id id id id (fun _ _ _ h => h) fun e' ys h => ?_) c fun k => ?_
          · rw [hw] at h; exact absurd h (by simp)
          · refine k.submit hc rfl rfl ?_ ?_ ⟨xs, rfl⟩
            · intro j hj hb
              cases j with
              | burst i start o =>
                obtain ⟨ys, hx⟩ := hj
                have := (List.getElem?_eq_some_iff.mp hx).1
                have h8 := k.slots
                simp only [Job.buffer] at hb
                omega
              | arrival c u => simp [Job.buffer] at hb
              | echo e' => obtain ⟨ys, hx⟩ := hj; rw [hw] at hx; exact absurd hx (by simp)
            · intro j hj
              cases j with
              | burst i start o => exact hj
              | arrival c u => exact hj
              | echo e' => obtain ⟨ys, hx⟩ := hj; rw [hw] at hx; exact absurd hx (by simp)
        · exact hf
    · exact Keeps.refl s
  · exact Keeps.refl s

theorem arrivalCaptureFull_keeps (s : State) : Keeps s (arrivalCaptureFull s) := by
  unfold arrivalCaptureFull
  split
  · rename_i c u xs hw
    have hf : Keeps s (s.withCfe { s.cfe with arrival := .free }) :=
      cfeKeeps s _ id id id id (fun c' u' ys h => by rw [hw] at h; exact absurd h (by simp)) (fun _ _ h => h)
    split
    · split
      · exact hf
      · split
        · rename_i d hc
          refine Keeps.trans (Keeps.ofCe (cfeKeeps s { s.cfe with arrival := .held c u xs } id id id id (fun c' u' ys h => ?_)
            fun _ _ h => h) d fun k => ?_)
            (arrivalTiming_step _ _).keeps
          · rw [hw] at h; exact absurd h (by simp)
          · refine k.submit hc rfl rfl ?_ ?_ ⟨xs, rfl⟩
            · intro j hj hb
              cases j with
              | burst i start o =>
                obtain ⟨ys, hx⟩ := hj
                have := (List.getElem?_eq_some_iff.mp hx).1
                have h8 := k.slots
                simp only [Job.buffer] at hb
                omega
              | arrival c u => obtain ⟨ys, hx⟩ := hj; rw [hw] at hx; exact absurd hx (by simp)
              | echo e' => simp [Job.buffer] at hb
            · intro j hj
              cases j with
              | burst i start o => exact hj
              | arrival c u => obtain ⟨ys, hx⟩ := hj; rw [hw] at hx; exact absurd hx (by simp)
              | echo e' => exact hj
        · exact hf.trans (arrivalRefused_step _ _).keeps
    · exact Keeps.refl s
  · exact Keeps.refl s

/-! ## Ingress Watch -/

/-- The detector and the records changed. -/
theorem recordsKeep (s : State) (w : Iw) (hs : w.slots = s.iw.slots) (h1 : w.seen = s.iw.seen)
    (h2 : w.untimed = s.iw.untimed) (h3 : w.evicted = s.iw.evicted) (hb : BurstsOk s → BurstsOk (s.withIw w)) :
    Keeps s (s.withIw w) :=
  iwKeeps s w h1.trans_le h2.trans_le h3.trans_le (congrArg _ hs) (fun _ _ _ xs h => ⟨xs, hs ▸ h⟩) hb

theorem offerBurst_keeps (b : BurstNote) (s : State) : Keeps s (offerBurst b s) := by
  unfold offerBurst
  split
  · exact Keeps.refl s
  · exact (offer_step _ _ _ _).keeps

theorem makeRoom_others (w : Iw) : w.makeRoom.slots = w.slots ∧ w.makeRoom.seen = w.seen ∧
    w.makeRoom.untimed = w.untimed ∧ (w.evicted ≤ 65535 → w.makeRoom.evicted ≤ 65535) := by
  unfold Iw.makeRoom
  split
  · exact ⟨rfl, rfl, rfl, id⟩
  · split
    · exact ⟨rfl, rfl, rfl, id⟩
    · refine ⟨rfl, rfl, rfl, fun h => ?_⟩
      dsimp only
      split
      · exact bump_le _
      · exact h

theorem freeSlot_sound {w : Iw} {i : Nat} (h : w.freeSlot = some i) : w.slots[i]? = some .free := by
  unfold Iw.freeSlot at h
  obtain ⟨hi, hp, _⟩ := List.findIdx?_eq_some_iff_getElem.mp h
  rw [List.getElem?_eq_getElem hi]
  cases hx : w.slots[i] with
  | free => rfl
  | filling a b c => rw [hx] at hp; exact absurd hp (by simp [Slot.isFree])
  | job a b c => rw [hx] at hp; exact absurd hp (by simp [Slot.isFree])

/-- The declaration of an onset keeps the burst list: room was made, and the new record's slot was FREE. -/
theorem onset_burstsOk {s : State} (h : BurstsOk s) (hn : s.nc.node = .running) {k : Nat} {f : Time} {q : Nat}
    (hw : s.iw.detector = .watch k f q) (c : Time) (peak : Nat) : BurstsOk (onset c peak s) := by
  obtain ⟨hsub, h15⟩ := makeRoom_room h hw
  have hslots : s.iw.makeRoom.slots = s.iw.slots := (makeRoom_others s.iw).1
  have hfree : ∀ i, s.iw.makeRoom.freeSlot = some i → s.iw.slots[i]? = some .free := fun i hi =>
    hslots ▸ freeSlot_sound hi
  have hheld : s.nc.node ≠ .held := by rw [hn]; simp
  have hnew : ∀ i, s.iw.makeRoom.freeSlot = some i → ∀ b ∈ s.iw.makeRoom.bursts, b.slot ≠ some i :=
    fun i hi b hb hbi => h.taken hheld b (hsub.subset hb) i hbi (hfree i hi)
  unfold onset
  refine ⟨?_, ?_, ?_, ?_, ?_, ?_, ?_, ?_⟩ <;> dsimp only [State.withIw]
  · split
    · rw [List.length_set, hslots]; exact h.slots
    · rw [hslots]; exact h.slots
  · rw [List.length_append, List.length_singleton]; omega
  · rw [List.filterMap_append]
    have h1 := (hsub.filterMap (·.slot)).nodup h.apart
    cases hf : s.iw.makeRoom.freeSlot with
    | none => simpa using h1
    | some i =>
      rw [List.nodup_append]
      refine ⟨h1, by simp, ?_⟩
      intro a ha b hb
      obtain ⟨x, hx, hxa⟩ := List.mem_filterMap.mp ha
      simp only [List.filterMap_cons, List.filterMap_nil, List.mem_singleton] at hb
      intro e
      exact hnew i hf x hx (hxa.trans (congrArg some (e.trans hb)))
  · intro b hb hst
    rcases List.mem_append.mp hb with hb | hb
    · exact h.slotted b (hsub.subset hb) hst
    · obtain rfl := List.mem_singleton.mp hb
      dsimp only at hst ⊢
      cases hf : s.iw.makeRoom.freeSlot with
      | none => rw [hf] at hst; simp at hst
      | some i => exact ⟨i, h.slots ▸ (List.getElem?_eq_some_iff.mp (hfree i hf)).1, rfl⟩
  · intro _ b hb i hbi
    rcases List.mem_append.mp hb with hb | hb
    · have h1 := h.taken hheld b (hsub.subset hb) i hbi
      split
      · rename_i x hx
        have hne : x ≠ i := fun e => h1 (e ▸ hfree x hx)
        rw [List.getElem?_set_ne hne, hslots]; exact h1
      · rw [hslots]; exact h1
    · obtain rfl := List.mem_singleton.mp hb
      dsimp only at hbi
      rw [hbi, hslots]
      dsimp only
      rw [List.getElem?_set_self (List.getElem?_eq_some_iff.mp (hfree i hbi)).1]
      simp [newSnapshot]
  · intro a b d e; exact absurd e (by simp)
  · intro o _ b hb hl
    rcases List.mem_append.mp hb with hb | hb
    · exact absurd hl (h.shut k f q hw b (hsub.subset hb)).2
    · obtain rfl := List.mem_singleton.mp hb
      rfl
  · intro e; rw [hn] at e; simp at e

theorem onset_keeps (c : Time) (peak : Nat) (s : State) (hn : s.nc.node = .running) {m : Nat} {f : Time} {q : Nat}
    (hw : s.iw.detector = .watch m f q) : Keeps s (onset c peak s) := by
  have hb := fun h : BurstsOk s => onset_burstsOk h hn hw c peak
  revert hb
  unfold onset
  dsimp only
  intro hb
  obtain ⟨h1, h2, h3, h4⟩ := makeRoom_others s.iw
  refine iwKeeps s _ (fun _ => bump_le _) ?_ h4 ?_ ?_ hb
  · intro h
    dsimp only
    split
    · rw [h3]; exact h
    · exact bump_le _
  · dsimp only
    split
    · rw [List.length_set, h1]
    · rw [h1]
  · intro i start o xs hx
    dsimp only
    split
    · rename_i k hk
      have hf := freeSlot_sound hk
      rw [h1] at hf
      have hne : k ≠ i := fun e => by rw [e, hx] at hf; exact absurd hf (by simp)
      rw [List.getElem?_set_ne hne, h1]
      exact ⟨xs, hx⟩
    · rw [h1]; exact ⟨xs, hx⟩

/-- A record that follows the detector keeps its state, its mark and its slot. -/
theorem follow_same (o : OpenBurst) (b : Burst) :
    (b.follow o).state = b.state ∧ (b.follow o).opened = b.opened ∧ (b.follow o).slot = b.slot := by
  unfold Burst.follow; split <;> exact ⟨rfl, rfl, rfl⟩

theorem follow_follows (o : OpenBurst) (b : Burst) : Burst.Follows b (b.follow o) := by
  obtain ⟨h1, _, h3⟩ := follow_same o b
  exact ⟨Or.inl h3, fun h => ⟨Or.inl (by unfold Burst.Waits at h ⊢; rwa [h1] at h), h3⟩⟩

/-- What turning LONG does to a record. -/
theorem toLong_spec (b : Burst) : Burst.Follows b b.toLong ∧ b.toLong.opened = b.opened ∧
    (b.toLong.state = .long → b.opened = true ∨ b.state = .long) := by
  unfold Burst.toLong
  cases ho : b.opened <;> simp only [Bool.false_eq_true, if_false, if_true]
  · exact ⟨Burst.Follows.refl b, ho, Or.inr⟩
  · cases hs : b.state <;>
      (refine ⟨⟨?_, ?_⟩, ?_, fun _ => Or.inl trivial⟩ <;> simp_all [Burst.Waits])

/-- Values taken in OPEN keep the burst list: what was open is closed or gone at the end, and only the open record turns
LONG. -/
theorem openRecords_burstsOk {s : State} (h : BurstsOk s) {o : OpenBurst} (hd : s.iw.detector = .opened o)
    (o1 : OpenBurst) :
    BurstsOk (s.withIw { s.iw with
      detector := .fresh, bursts := endRecords (s.iw.mapBursts (Burst.follow o1)).bursts }) ∧
    (∀ o2, BurstsOk (s.withIw { (s.iw.mapBursts (Burst.follow o1)).mapBursts Burst.toLong with
      detector := .opened o2 })) ∧
    ∀ o2, BurstsOk (s.withIw { s.iw.mapBursts (Burst.follow o1) with detector := .opened o2 }) := by
  have hlong : ∀ b ∈ s.iw.bursts.map (Burst.follow o1), b.state = .long → b.opened = true := by
    intro b hb hl
    obtain ⟨a, ha, rfl⟩ := List.mem_map.mp hb
    obtain ⟨h1, h2, _⟩ := follow_same o1 a
    rw [h2]; exact h.long o hd a ha (h1 ▸ hl)
  refine ⟨?_, fun o2 => ?_, fun o2 => ?_⟩
  · have hf : List.Forall₂ Burst.Follows s.iw.bursts
        (s.iw.bursts.map fun b => { b.follow o1 with opened := false }) := by
      refine follows_map fun b _ => ?_
      obtain ⟨k1, k2⟩ := follow_follows o1 b
      exact ⟨k1, k2⟩
    have hsub : (endRecords (s.iw.mapBursts (Burst.follow o1)).bursts).Sublist
        (s.iw.bursts.map fun b => { b.follow o1 with opened := false }) := by
      have : (s.iw.bursts.map fun b => { b.follow o1 with opened := false }) =
          (s.iw.bursts.map (Burst.follow o1)).map fun b => { b with opened := false } := by
        rw [List.map_map]; rfl
      rw [this]
      exact List.filter_sublist.map _
    refine h.follow rfl rfl hf hsub (fun hn b hb i hi => h.stillTaken hn hf (hsub.subset hb) hi) ?_ ?_
    · intro c f p _ b hb
      obtain ⟨a, ha, rfl⟩ := List.mem_map.mp hb
      obtain ⟨ha1, ha2⟩ := List.mem_filter.mp ha
      refine ⟨rfl, fun hl => ?_⟩
      dsimp only at hl
      have := hlong a ha1 hl
      rw [hl, this] at ha2
      exact absurd ha2 (by decide)
    · intro x hx; exact absurd hx (by simp [Detector.fresh])
  · have hf : List.Forall₂ Burst.Follows s.iw.bursts
        ((s.iw.bursts.map (Burst.follow o1)).map Burst.toLong) := by
      rw [List.map_map]
      refine follows_map fun b _ => ?_
      obtain ⟨k1, k2⟩ := follow_follows o1 b
      obtain ⟨l1, l2⟩ := (toLong_spec (b.follow o1)).1
      refine ⟨?_, fun hs => ?_⟩
      · rcases l1 with e | e
        · rcases k1 with d | d
          · exact Or.inl (e.trans d)
          · exact Or.inr (e.trans d)
        · exact Or.inr e
      · obtain ⟨m1, m2⟩ := l2 hs
        have h3 := (follow_same o1 b).2.2
        refine ⟨?_, m2.trans h3⟩
        rcases m1 with m1 | m1
        · exact (k2 m1).1
        · exact Or.inr (h3 ▸ m1)
    refine h.follow rfl rfl hf (List.Sublist.refl _) (fun hn b hb i hi => h.stillTaken hn hf hb hi) ?_ ?_
    · intro c f p hx; exact absurd hx (by simp [Iw.mapBursts])
    · intro x _ b hb hl
      obtain ⟨a, ha, rfl⟩ := List.mem_map.mp hb
      obtain ⟨_, h2, h3⟩ := toLong_spec a
      rw [h2]
      rcases h3 hl with e | e
      · exact e
      · exact hlong a ha e
  · have hf : List.Forall₂ Burst.Follows s.iw.bursts (s.iw.bursts.map (Burst.follow o1)) :=
      follows_map fun b _ => follow_follows o1 b
    refine h.follow rfl rfl hf (List.Sublist.refl _) (fun hn b hb i hi => h.stillTaken hn hf hb hi) ?_ ?_
    · intro c f p hx; exact absurd hx (by simp [Iw.mapBursts])
    · exact fun x _ b hb hl => hlong b hb hl

theorem openValue_keeps (o : OpenBurst) (v : BlockValue) (s : State) (hd : s.iw.detector = .opened o) :
    Keeps s (openValue o v s) := by
  have hb := fun h : BurstsOk s => openRecords_burstsOk h hd (o.take s.nc.cfg.lowerTh v)
  unfold openValue
  dsimp only
  split
  · exact iwKeeps s _ id id id rfl (fun _ _ _ xs h => ⟨xs, h⟩) fun h => (hb h).1
  · split
    · exact Keeps.trans (recordsKeep s _ (by exact rfl) (by exact rfl) (by exact rfl) (by exact rfl)
        fun h => (hb h).2.1 _) (offerBurst_keeps _ _)
    · exact iwKeeps s _ id id id rfl (fun _ _ _ xs h => ⟨xs, h⟩) fun h => (hb h).2.2 _

theorem watchValue_keeps (count : Nat) (first : Time) (peak : Nat) (v : BlockValue) (s : State)
    (hn : s.nc.node = .running) (hd : s.iw.detector = .watch count first peak) :
    Keeps s (watchValue count first peak v s) := by
  have hw : ∀ c f p, Keeps s (s.withIw { s.iw with detector := .watch c f p }) := fun c f p =>
    recordsKeep s _ rfl rfl rfl rfl fun h =>
      h.follow rfl rfl (follows_refl _) (List.Sublist.refl _) (fun k b hb i hi => h.taken k b hb i hi)
        (fun _ _ _ _ b hb => h.shut _ _ _ hd b hb) fun x hx => absurd hx (by simp)
  unfold watchValue
  dsimp only
  (repeat' split) <;> first | exact onset_keeps _ _ _ hn hd | exact hw _ _ _

theorem envelopeValue_keeps (s : State) : Keeps s (envelopeValue s) := by
  unfold envelopeValue
  split
  · exact Keeps.refl s
  · dsimp only
    have h1 := cfeKeeps s { s.cfe with envelope := none } id id id id (fun _ _ _ h => h) (fun _ _ h => h)
    split
    · rename_i hr
      have hn : s.nc.node = .running := by
        unfold State.isRunning at hr
        simp only [Bool.and_eq_true, beq_iff_eq] at hr
        exact hr.1
      split
      · exact h1
      · rename_i hd; exact h1.trans (watchValue_keeps _ _ _ _ _ hn hd)
      · rename_i hd; exact h1.trans (openValue_keeps _ _ _ hd)
    · exact h1

theorem untime_others (i : Nat) (w : Iw) : (w.untime i).slots = w.slots ∧ (w.untime i).seen = w.seen ∧
    (w.untime i).untimed ≤ 65535 ∧ (w.untime i).evicted = w.evicted := by
  unfold Iw.untime
  dsimp only
  (repeat' split) <;> exact ⟨rfl, rfl, bump_le _, rfl⟩

theorem untimeClashed_others (i : Nat) (w : Iw) : (w.untimeClashed i).slots = w.slots ∧
    (w.untimeClashed i).seen = w.seen ∧ (w.untimeClashed i).untimed = w.untimed ∧
    (w.untimeClashed i).evicted = w.evicted := by
  unfold Iw.untimeClashed
  split <;> exact ⟨rfl, rfl, rfl, rfl⟩

/-- A slot that is FILLING set to anything else, with the records as they may be. -/
theorem fillingKeeps {s : State} {i : Nat} {start : Time} {o : Int} {xs : List Int} {x : Slot}
    (hi : s.iw.slots[i]? = some (.filling start o xs)) (w : Iw) (hs : w.slots = s.iw.slots.set i x)
    (h1 : w.seen = s.iw.seen) (h2 : s.iw.untimed ≤ 65535 → w.untimed ≤ 65535) (h3 : w.evicted = s.iw.evicted)
    (hb : BurstsOk s → BurstsOk (s.withIw w)) : Keeps s (s.withIw w) := by
  refine iwKeeps s w h1.trans_le h2 h3.trans_le (by rw [hs, List.length_set]) ?_ hb
  intro k start' o' ys hk
  have hne : i ≠ k := fun e => by rw [e, hk] at hi; exact absurd hi (by simp)
  rw [hs, List.getElem?_set_ne hne]
  exact ⟨ys, hk⟩

theorem getD_filling {slots : List Slot} {i : Nat} {start : Time} {o : Int} {xs : List Int}
    (h : slots.getD i .free = .filling start o xs) : slots[i]? = some (.filling start o xs) := by
  rw [List.getD_eq_getElem?_getD] at h
  cases hx : slots[i]? with
  | none => rw [hx] at h; exact absurd h (by simp)
  | some y => rw [hx] at h; exact congrArg some h

theorem submitSnapshot_keeps (i : Nat) (start : Time) (o : Int) (xs : List Int) (s : State)
    (hi : s.iw.slots[i]? = some (.filling start o xs)) : Keeps s (submitSnapshot i start o xs s) := by
  unfold submitSnapshot
  split
  · rename_i c hc
    dsimp only
    have hw : ∀ w : Iw, w.slots = s.iw.slots.set i (.job start o xs) → w.seen = s.iw.seen →
        w.untimed = s.iw.untimed → w.evicted = s.iw.evicted → (BurstsOk s → BurstsOk (s.withIw w)) →
        Keeps s ((s.withCe c).withIw w) := by
      intro w h1 h2 h3 h4 hb
      refine Keeps.ofCe (fillingKeeps hi w h1 h2 h3.trans_le h4 hb) c fun k => ?_
      refine k.submit hc rfl (by show w.slots.length = _; rw [h1, List.length_set]) ?_ ?_ ?_
      · intro j hj hb
        cases j with
        | burst i' start' o' =>
          obtain ⟨ys, hx⟩ := hj
          simp only [Job.buffer] at hb
          rw [hb, hi] at hx
          exact absurd hx (by simp)
        | arrival c u =>
          have := (List.getElem?_eq_some_iff.mp hi).1
          have h8 := k.slots
          simp only [Job.buffer] at hb
          omega
        | echo e =>
          have := (List.getElem?_eq_some_iff.mp hi).1
          have h8 := k.slots
          simp only [Job.buffer] at hb
          omega
      · exact fun j hj => holds_setSlot (s := s) (t := (s.withCe c).withIw w) h1 rfl rfl
          (fun _ _ _ h => by rw [hi] at h; exact absurd h (by simp)) j hj
      · refine ⟨xs, ?_⟩
        show w.slots[i]? = _
        rw [h1, List.getElem?_set_self (List.getElem?_eq_some_iff.mp hi).1]
    split
    · rename_i j hj
      refine hw _ rfl rfl rfl rfl fun h => h.setSlot rfl rfl rfl (settles_modify (j := j) fun b hb => ?_)
        (List.Sublist.refl _) (Or.inl (by simp))
      obtain ⟨b', hb', hbi⟩ := holder_sound (w := s.iw) hj
      obtain rfl := Option.some.inj (hb.symm.trans hb')
      have h8 : i < 8 := h.slots ▸ (List.getElem?_eq_some_iff.mp hi).1
      exact ⟨⟨Or.inl rfl, fun _ => ⟨Or.inr ⟨i, h8, hbi⟩, rfl⟩⟩, rfl, fun e => absurd e (by simp)⟩
    · exact hw _ rfl rfl rfl rfl fun h => h.setSlot rfl rfl rfl (settles_refl _) (List.Sublist.refl _)
        (Or.inl (by simp))
  · have hb : BurstsOk s → BurstsOk (s.withIw (match (s.iw.setSlot i .free).holder i with
        | some j => (s.iw.setSlot i .free).untime j
        | none => s.iw.setSlot i .free)) := fun h => h.untime rfl rfl
    dsimp only
    cases hk : (s.iw.setSlot i .free).holder i with
    | some j =>
      rw [hk] at hb
      obtain ⟨h1, h2, h3, h4⟩ := untime_others j (s.iw.setSlot i .free)
      exact fillingKeeps hi _ h1 h2 (fun _ => h3) h4 hb
    | none =>
      rw [hk] at hb
      exact fillingKeeps hi _ rfl rfl id rfl hb

theorem snapshotFull_keeps (i : Nat) (s : State) : Keeps s (snapshotFull i s) := by
  unfold snapshotFull
  split
  · rename_i start o xs hi
    have hf := getD_filling hi
    split
    · split
      · obtain ⟨h1, h2, h3, h4⟩ := untimeClashed_others i (s.iw.setSlot i .free)
        exact fillingKeeps hf _ h1 h2 (h3.trans_le) h4 fun h => h.untimeClashed rfl rfl
      · exact submitSnapshot_keeps _ _ _ _ _ hf
    · exact Keeps.refl s
  · exact Keeps.refl s

theorem pairHoldExpiry_keeps (i : Nat) (s : State) : Keeps s (pairHoldExpiry i s) := by
  unfold pairHoldExpiry
  split
  · split
    · exact (burstsStep s _ (List.eraseIdx_sublist ..)).keeps
    · exact Keeps.refl s
  · exact Keeps.refl s

/-! ## The end of a pass -/

/-- Everything but the engine kept: the engine's invariant is shown apart. -/
structure KeepsBut (s t : State) : Prop where
  pending : t.pending = s.pending
  link : LinkOk s → LinkOk t
  bursts : BurstsOk s → BurstsOk t
  front : FrontBounded s → FrontBounded t
  tables : TablesBounded s → TablesBounded t
  queue : QueueBounded s → QueueBounded t
  counters : CountersBounded s → CountersBounded t

theorem KeepsBut.thenKeeps {s t u : State} (h : KeepsBut s t) (ht : EngineOk s → EngineOk t) (k : Keeps t u) :
    Keeps s u where
  pending := k.pending.trans h.pending
  link := k.link ∘ h.link
  engine := k.engine ∘ ht
  bursts := k.bursts ∘ h.bursts
  front := k.front ∘ h.front
  tables := k.tables ∘ h.tables
  queue := k.queue ∘ h.queue
  counters := k.counters ∘ h.counters

/-- The engine, the slots' contents and the buffers' states changed, and no more. -/
theorem buffersKeepBut (s : State) (c : Ce) (x : Cfe) (w : Iw) (hr : x.ring = s.cfe.ring)
    (hh : x.history = s.cfe.history) (h1 : x.offR = s.cfe.offR) (h2 : x.offP = s.cfe.offP)
    (h3 : w.seen = s.iw.seen) (h4 : s.iw.untimed ≤ 65535 → w.untimed ≤ 65535) (h5 : w.evicted = s.iw.evicted)
    (hb : BurstsOk s → BurstsOk (s.withIw w)) : KeepsBut s (((s.withCe c).withCfe x).withIw w) where
  pending := rfl
  link := fun h => h.congr rfl rfl rfl
  bursts := fun h => (hb h).congr rfl rfl
  front := fun h => ⟨hr ▸ h.ring, hh ▸ h.history, h1 ▸ h.offR, h2 ▸ h.offP⟩
  tables := fun h => h.same rfl rfl rfl rfl
  queue := fun h => ⟨h.queue, h.floor⟩
  counters := fun h => by
    rw [countersBounded_iff] at h ⊢
    exact ⟨h3.trans_le h.1, h4 h.2.1, h5.trans_le h.2.2.1, h.2.2.2⟩

/-- The DONE of a BURST TIMING job frees its slot and hands the result on (R50, R60). -/
theorem burstDone_keeps (s : State) (r : Running) (hr : s.ce.running = some r) {start : Time} {o : Int}
    (x : TimingResult) (hj : r.job = .burst x.slot start o) :
    Keeps s (burstResult x (s.withCe (s.ce.advance s.nc.now))) := by
  have hb : BurstsOk s → BurstsOk (s.withIw (match (s.iw.setSlot x.slot .free).holder x.slot with
      | some j => (s.iw.setSlot x.slot .free).untime j
      | none => s.iw.setSlot x.slot .free)) := fun h => h.untime rfl rfl
  revert hb
  unfold burstResult
  dsimp only
  have hw : ∀ w : Iw, w.slots = s.iw.slots.set x.slot .free → w.seen = s.iw.seen →
      (s.iw.untimed ≤ 65535 → w.untimed ≤ 65535) → w.evicted = s.iw.evicted → (BurstsOk s → BurstsOk (s.withIw w)) →
      Keeps s ((s.withCe (s.ce.advance s.nc.now)).withIw w) := by
    intro w h1 h2 h3 h4 hb
    refine (buffersKeepBut s (s.ce.advance s.nc.now) s.cfe w rfl rfl rfl rfl h2 h3 h4 hb).thenKeeps (fun k => ?_)
      (Keeps.refl _)
    refine k.advance hr rfl (by show w.slots.length = _; rw [h1, List.length_set]) ?_
    intro j hk hb
    rw [hj] at hb
    cases j with
    | burst i start' o' =>
      obtain ⟨ys, hx⟩ := hk
      refine ⟨ys, ?_⟩
      show w.slots[i]? = _
      have hne : x.slot ≠ i := fun e => hb e.symm
      rw [h1, List.getElem?_set_ne hne]
      exact hx
    | arrival c u => exact hk
    | echo e => exact hk
  have hh : ((s.withCe (s.ce.advance s.nc.now)).iw.setSlot x.slot .free).holder x.slot = s.iw.holder x.slot := rfl
  have hh' : (s.iw.setSlot x.slot .free).holder x.slot = s.iw.holder x.slot := rfl
  rw [hh, hh']
  cases hk : s.iw.holder x.slot with
  | none => exact fun hb => hw _ rfl rfl id rfl hb
  | some j =>
    intro hb
    dsimp only
    split
    · obtain ⟨h1, h2, h3, h4⟩ := untimeClashed_others x.slot (s.iw.setSlot x.slot .free)
      exact hw _ h1 h2 h3.trans_le h4 fun h => h.untimeClashed rfl rfl
    · split
      · obtain ⟨h1, h2, h3, h4⟩ := untime_others j (s.iw.setSlot x.slot .free)
        exact hw _ h1 h2 (fun _ => h3) h4 hb
      · rename_i y _
        obtain ⟨b, hbj, hbi⟩ := holder_sound hk
        unfold becomeTimed
        have e : ((s.withCe (s.ce.advance s.nc.now)).withIw (s.iw.setSlot x.slot .free)).iw.bursts[j]? = some b := hbj
        rw [show ((s.withCe (s.ce.advance s.nc.now)).iw.setSlot x.slot .free) = s.iw.setSlot x.slot .free from rfl, e]
        dsimp only
        refine Keeps.trans (Keeps.trans (hw { s.iw.setSlot x.slot .free with bursts := s.iw.bursts.set j _ } rfl rfl id rfl
          fun h => ?_) (offerBurst_keeps _ _)) (offerRecord_step _ _).keeps
        let f : Burst → Burst := fun b => { b with
          state := .timed, slot := none, timing := some ⟨y.1, y.2, s.nc.now⟩
          hold := some (plus s.nc.now (pairHold : Nat)) }
        have h2 := modify_eq_set s.iw.bursts j b f hbj
        show BurstsOk (s.withIw { s.iw.setSlot x.slot .free with bursts := s.iw.bursts.set j (f b) })
        rw [← h2]
        exact h.setSlot rfl rfl rfl (settles_modify (f := f) (j := j) fun b _ => Burst.Settles.ofDone rfl rfl (Or.inl rfl))
          (List.Sublist.refl _) (Or.inr (slot_given_up (w := s.iw) h.apart hk fun _ => rfl))

/-- The DONE of an ARRIVAL job frees its buffer. -/
theorem arrivalDone_keeps (s : State) (r : Running) (hr : s.ce.running = some r) {c u : Time}
    (hj : r.job = .arrival c u) :
    Keeps s ((s.withCe (s.ce.advance s.nc.now)).withCfe { s.cfe with arrival := .free }) := by
  refine (buffersKeepBut s (s.ce.advance s.nc.now) { s.cfe with arrival := .free } s.iw rfl rfl rfl rfl rfl id
    rfl id).thenKeeps (fun k => ?_) (Keeps.refl _)
  refine k.advance hr rfl rfl ?_
  intro j hk hb
  rw [hj] at hb
  cases j with
  | burst i start' o' => exact hk
  | arrival c u => exact absurd rfl hb
  | echo e => exact hk

/-- The DONE of an ECHO job frees its buffer. -/
theorem echoDone_keeps (s : State) (r : Running) (hr : s.ce.running = some r) {e : Time} (hj : r.job = .echo e) :
    Keeps s ((s.withCe (s.ce.advance s.nc.now)).withCfe { s.cfe with window := .free }) := by
  refine (buffersKeepBut s (s.ce.advance s.nc.now) { s.cfe with window := .free } s.iw rfl rfl rfl rfl rfl id
    rfl id).thenKeeps (fun k => ?_) (Keeps.refl _)
  refine k.advance hr rfl rfl ?_
  intro j hk hb
  rw [hj] at hb
  cases j with
  | burst i start' o' => exact hk
  | arrival c u => exact hk
  | echo e => exact absurd rfl hb

theorem deliver_keeps (s : State) (r : Running) (hr : s.ce.running = some r) (saturated : Bool) :
    Keeps s (deliver s r saturated (s.withCe (s.ce.advance s.nc.now))) := by
  unfold deliver
  split
  · rename_i slot start o hj
    exact burstDone_keeps s r hr (timingResult s r saturated slot start o) hj
  · rename_i c u hj
    dsimp only
    split
    · exact arrivalDone_keeps s r hr hj
    · exact (arrivalDone_keeps s r hr hj).trans (arrivalResult_step _ _).keeps
  · rename_i e hj
    dsimp only
    have h1 : Keeps s (freeWindow (s.withCe (s.ce.advance s.nc.now))) := by
      unfold freeWindow
      exact (echoDone_keeps s r hr hj).trans (unblock_step _).keeps
    split
    · exact h1.trans (handleProfile_step _ _).keeps
    · exact h1

theorem passEnd_keeps (s : State) : Keeps s (passEnd s) := by
  unfold passEnd
  split
  · exact Keeps.refl s
  · rename_i r hr
    split
    · dsimp only
      split
      · refine Keeps.ofCe (Keeps.refl s) _ fun k => ?_
        have hj : ({ s.ce with running := some (r.again s.nc.now) } : Ce).jobs = s.ce.jobs := by
          simp [Ce.jobs, hr, Running.again]
        refine ⟨k.slots, fun h => absurd h (by simp), k.room, fun j h => k.held j (hj ▸ h), ?_⟩
        show (List.map Job.buffer (Ce.jobs _)).Nodup
        rw [State.withCe, hj]
        exact k.apart
      · exact deliver_keeps s r hr _
    · exact Keeps.refl s

end Sys2Proof.Machine
end

