-- ==== Sys2Proof/Laws/LinkOps.lean ====
section
/-! SUPPORT. The operations of Machine/NodeControl.lean, Sending.lean, Receiving.lean and Tick.lean keep the invariants
(`Keeps`). -/

namespace Sys2Proof.Machine

open Sys2Proof

/-! ## Sending -/

/-- The sending side changed: what it never touches, and what is shown apart. -/
theorem sendKeeps {s t : State} (hp : t.pending = s.pending) (hc : t.cfe = s.cfe) (hi : t.iw = s.iw) (he : t.ce = s.ce)
    (hu : t.pu = s.pu) (hf : t.ft = s.ft) (hx : t.ec = s.ec)
    (h1 : t.ptu.history = s.ptu.history) (h2 : t.ptu.heard = s.ptu.heard) (h3 : t.ptu.arrivals = s.ptu.arrivals)
    (h4 : t.ptu.table = s.ptu.table) (hl : LinkOk s → LinkOk t) (hq : QueueBounded s → QueueBounded t)
    (hn : CountersBounded s → CountersBounded t) (hd : t.nc.node = s.nc.node) : Keeps s t where
  pending := hp
  link := hl
  bursts := fun h => h.congr hd hi
  engine := fun h => h.congr he (congrArg _ hi) (congrArg _ hc) (congrArg _ hc)
  front := fun h => ⟨hc ▸ h.ring, hc ▸ h.history, hc ▸ h.offR, hc ▸ h.offP⟩
  tables := fun h => h.congr h1 h2 h3 h4 hu hf hx
  queue := hq
  counters := hn

/-- The sending frame with the queue's length and floor, for an operation that keeps the link. -/
theorem sendOnlyKeeps {s t : State} (hp : t.pending = s.pending) (hc : t.cfe = s.cfe) (hi : t.iw = s.iw)
    (he : t.ce = s.ce) (ht : t.ptu = s.ptu) (hu : t.pu = s.pu) (hf : t.ft = s.ft) (hx : t.ec = s.ec)
    (hl : LinkOk s → LinkOk t) (hq : t.na.queue.length ≤ s.na.queue.length) (hfl : t.na.floor = s.na.floor)
    (hn : t.na.dropped = s.na.dropped ∧ t.na.refused = s.na.refused ∧ t.na.unknown = s.na.unknown)
    (hd : t.lc.dropped = s.lc.dropped ∧ t.lc.bad = s.lc.bad ∧ t.lc.otherRun = s.lc.otherRun)
    (hs : t.nc.node = s.nc.node) : Keeps s t := by
  refine sendKeeps hp hc hi he hu hf hx (congrArg _ ht) (congrArg _ ht) (congrArg _ ht) (congrArg _ ht) hl
    (fun h => ⟨hq.trans h.queue, hfl ▸ h.floor⟩) (fun h => ?_) hs
  rw [countersBounded_iff] at h ⊢
  rw [hi, hu, hf, ht, hx, hn.1, hn.2.1, hn.2.2, hd.1, hd.2.1, hd.2.2]
  exact h

theorem interframeGap_keeps (s : State) : Keeps s (interframeGap s) := by
  have hs := fun h : LinkOk s => interframeGap_linkOk h
  revert hs
  unfold interframeGap startFrame State.setMac Na.setFlight
  intro hs
  refine sendOnlyKeeps ?_ ?_ ?_ ?_ ?_ ?_ ?_ ?_ hs ?_ ?_ ?_ ?_ ?_
  all_goals
    dsimp only
    repeat' split
  all_goals first
    | rfl
    | exact ⟨rfl, rfl, rfl⟩
    | exact le_rfl
    | exact (List.length_map _).le
    | (simp only [State.withNa_na, State.withLc_na, List.length_map]; exact le_rfl)

theorem backoffEnd_keeps (s : State) : Keeps s (backoffEnd s) := by
  have hs := fun h : LinkOk s => backoffEnd_linkOk h
  revert hs
  unfold backoffEnd startFrame Na.setFlight
  intro hs
  refine sendOnlyKeeps ?_ ?_ ?_ ?_ ?_ ?_ ?_ ?_ hs ?_ ?_ ?_ ?_ ?_
  all_goals repeat' split
  all_goals first
    | rfl
    | exact ⟨rfl, rfl, rfl⟩
    | exact le_rfl
    | exact (List.length_map _).le

/-- All that `Keeps` says but for the link, whose invariant an operation may break and restore. -/
structure KeepsRest (s t : State) : Prop where
  pending : t.pending = s.pending
  engine : EngineOk s → EngineOk t
  bursts : BurstsOk s → BurstsOk t
  front : FrontBounded s → FrontBounded t
  tables : TablesBounded s → TablesBounded t
  queue : QueueBounded s → QueueBounded t
  counters : CountersBounded s → CountersBounded t

theorem KeepsRest.trans {s t u : State} (h : KeepsRest s t) (k : KeepsRest t u) : KeepsRest s u :=
  ⟨k.pending.trans h.pending, k.engine ∘ h.engine, k.bursts ∘ h.bursts, k.front ∘ h.front, k.tables ∘ h.tables, k.queue ∘ h.queue,
    k.counters ∘ h.counters⟩

theorem Keeps.rest {s t : State} (h : Keeps s t) : KeepsRest s t :=
  ⟨h.pending, h.engine, h.bursts, h.front, h.tables, h.queue, h.counters⟩

theorem KeepsRest.keeps {s t : State} (h : KeepsRest s t) (hl : LinkOk s → LinkOk t) : Keeps s t :=
  ⟨h.pending, hl, h.engine, h.bursts, h.front, h.tables, h.queue, h.counters⟩

/-- NA changed but for its counters, its queue no longer. -/
theorem naRest (s : State) (x : Na) (hq : x.queue.length ≤ s.na.queue.length) (hf : x.floor = s.na.floor)
    (h1 : x.dropped = s.na.dropped) (h2 : x.refused = s.na.refused) (h3 : x.unknown = s.na.unknown) :
    KeepsRest s (s.withNa x) where
  pending := rfl
  engine := fun h => h.congr rfl rfl rfl rfl
  bursts := fun h => h.congr rfl rfl
  front := fun h => ⟨h.ring, h.history, h.offR, h.offP⟩
  tables := fun h => h.same rfl rfl rfl rfl
  queue := fun h => ⟨hq.trans h.queue, hf ▸ h.floor⟩
  counters := fun h => by
    rw [countersBounded_iff] at h ⊢
    show _ ∧ _ ∧ _ ∧ _ ∧ _ ∧ _ ∧ _ ∧ _ ∧ _ ∧ _ ∧ x.dropped ≤ 65535 ∧ _ ∧ _ ∧ _ ∧ x.refused ≤ 65535 ∧ x.unknown ≤ 65535
    rw [h1, h2, h3]; exact h

/-- LC changed but for its counters. -/
theorem lcRest (s : State) (x : Lc) (h1 : x.dropped = s.lc.dropped) (h2 : x.bad = s.lc.bad)
    (h3 : x.otherRun = s.lc.otherRun) : KeepsRest s (s.withLc x) where
  pending := rfl
  engine := fun h => h.congr rfl rfl rfl rfl
  bursts := fun h => h.congr rfl rfl
  front := fun h => ⟨h.ring, h.history, h.offR, h.offP⟩
  tables := fun h => h.same rfl rfl rfl rfl
  queue := fun h => ⟨h.queue, h.floor⟩
  counters := fun h => by
    rw [countersBounded_iff] at h ⊢
    show _ ∧ _ ∧ _ ∧ _ ∧ _ ∧ _ ∧ _ ∧ _ ∧ _ ∧ _ ∧ _ ∧ x.dropped ≤ 65535 ∧ x.bad ≤ 65535 ∧ x.otherRun ≤ 65535 ∧ _
    rw [h1, h2, h3]; exact h

theorem countWithdrawn_keeps (c : Content) (s : State) : Keeps s (countWithdrawn c s) := by
  unfold countWithdrawn
  split
  · exact ptuKeeps s _ id id id rfl (fun _ => bump_le _) id
  · exact Keeps.refl s

theorem SendFrame.rest {s t : State} (h : SendFrame s t) (hq : s.na.queue.length ≤ 16 → t.na.queue.length ≤ 16) :
    KeepsRest s t where
  pending := h.pending
  engine := fun e => e.congr h.ce (congrArg _ h.iw) (congrArg _ h.cfe) (congrArg _ h.cfe)
  bursts := fun b => b.congr h.node h.iw
  front := fun f => ⟨h.cfe ▸ f.ring, h.cfe ▸ f.history, h.cfe ▸ f.offR, h.cfe ▸ f.offP⟩
  tables := fun b => b.congr h.history h.heard h.arrivals h.table h.pu h.ft h.ec
  queue := fun b => ⟨hq b.queue, h.floor ▸ b.floor⟩
  counters := h.counters

theorem chooseChannel_rest (s : State) : KeepsRest s (chooseChannel s) :=
  (chooseChannel_frame s).rest (chooseChannel_length s)

theorem dropFlight_length (a : Na) : a.dropFlight.queue.length ≤ a.queue.length := List.length_filter_le _ _

/-- The transmitter off. -/
theorem transmitterOff_rest (s : State) (m : Mac) : KeepsRest s (transmitterOff s m) := lcRest s _ rfl rfl rfl

theorem frameSent_keeps (s : State) : Keeps s (frameSent s) := by
  refine KeepsRest.keeps ?_ frameSent_linkOk
  unfold frameSent
  split
  · exact (Keeps.refl s).rest
  · split
    · exact (((transmitterOff_rest s .idle).trans (naRest _ s.na.dropFlight (dropFlight_length _) rfl rfl rfl rfl)).trans
        (noteGone_step _ _).keeps.rest).trans (serve_step _).keeps.rest
    · exact (Keeps.refl s).rest

theorem collision_keeps (s : State) : Keeps s (collision s) := by
  refine KeepsRest.keeps ?_ collision_linkOk
  unfold collision
  split
  · dsimp only
    split
    · split
      · exact ((((transmitterOff_rest s .idle).trans (naRest _ s.na.dropFlight (dropFlight_length _) rfl rfl rfl rfl)).trans
          (countWithdrawn_keeps _ _).rest).trans (noteGone_step _ _).keeps.rest).trans (serve_step _).keeps.rest
      · exact (((transmitterOff_rest s .idle).trans (naRest _ (s.na.setFlight _) (setFlight_length _ _).le rfl rfl rfl rfl)).trans
          (chooseChannel_rest _)).trans (serve_step _).keeps.rest
    · exact (Keeps.refl s).rest
  · exact (Keeps.refl s).rest

theorem noteDeadline_keeps (i : Nat) (s : State) : Keeps s (noteDeadline i s) := by
  refine KeepsRest.keeps ?_ fun h => noteDeadline_linkOk h i
  unfold noteDeadline
  split
  · exact (Keeps.refl s).rest
  · dsimp only
    refine KeepsRest.trans (KeepsRest.trans (t := _) ?_ (noteGone_step _ _).keeps.rest) (serve_step _).keeps.rest
    have h1 := fun c => (naRest s { s.na with queue := s.na.queue.eraseIdx i } (List.length_eraseIdx_le _ _) rfl rfl
      rfl rfl).trans (countWithdrawn_keeps c _).rest
    split
    · exact (h1 _).trans (lcRest _ _ rfl rfl rfl)
    · exact h1 _

theorem floorHoldExpiry_keeps (s : State) : Keeps s (floorHoldExpiry s) := by
  unfold floorHoldExpiry
  split
  · exact Keeps.trans (naKeeps s _ (by exact rfl) (fun _ => Nat.zero_le _) (by exact id) (by exact id) (by exact id))
      (serve_step _).keeps
  · exact Keeps.refl s

theorem endHush_keeps (s : State) : Keeps s (endHush s) := by
  refine KeepsRest.keeps ?_ endHush_linkOk
  unfold endHush
  dsimp only
  have h1 := (naRest s { s.na with hush := none } le_rfl rfl rfl rfl rfl).trans (unblock_step _).keeps.rest
  split
  · exact (h1.trans (chooseChannel_rest _)).trans (serve_step _).keeps.rest
  · exact h1.trans (serve_step _).keeps.rest

theorem hushExpiry_keeps (s : State) : Keeps s (hushExpiry s) := by
  unfold hushExpiry
  split
  · exact endHush_keeps s
  · exact Keeps.refl s

theorem hold_rest (s : State) : KeepsRest s (hold s) :=
  (hold_frame s).rest fun h => (setFlight_length s.na _).trans_le h

theorem beginHush_keeps (n : Nat) (s : State) : Keeps s (beginHush n s) := by
  refine KeepsRest.keeps ?_ fun h => beginHush_linkOk h n
  unfold beginHush
  dsimp only
  have h1 := fun x => naRest s { s.na with hush := some x } le_rfl rfl rfl rfl rfl
  split
  · exact (h1 _).trans (hold_rest _)
  · exact (h1 _).trans (hold_rest _)
  · exact h1 _

theorem stateTimer_keeps (s : State) : Keeps s (stateTimer s) := by
  refine KeepsRest.keeps ?_ stateTimer_linkOk
  unfold stateTimer
  split
  · exact (Keeps.refl s).rest
  · split
    · dsimp only
      have h1 := fun x => naRest s { s.na with stateTimer := x } le_rfl rfl rfl rfl rfl
      split
      · exact h1 _
      · exact (h1 _).trans (offer_step _ _ _ _).keeps.rest
    · exact (Keeps.refl s).rest

/-! ## Channels and reception -/

theorem setChannel_others (l : Lc) (c : ChanId) (x : Channel) : (l.setChannel c x).mac = l.mac ∧
    (l.setChannel c x).tx = l.tx ∧ (l.setChannel c x).dropped = l.dropped ∧ (l.setChannel c x).bad = l.bad ∧
    (l.setChannel c x).otherRun = l.otherRun := by
  cases c <;> exact ⟨rfl, rfl, rfl, rfl, rfl⟩

/-- One channel changed. -/
theorem channelKeeps (s : State) (c : ChanId) (x : Channel) : Keeps s (s.withLc (s.lc.setChannel c x)) := by
  obtain ⟨h1, h2, h3, h4, h5⟩ := setChannel_others s.lc c x
  exact lcKeeps s _ h1 h2 h3.trans_le h4.trans_le h5.trans_le

theorem backoffRise_keeps (c : ChanId) (s : State) : Keeps s (backoffRise c s) := by
  unfold backoffRise
  split
  · rename_i hb
    refine sendOnlyKeeps rfl rfl rfl rfl rfl rfl rfl rfl (fun h => ?_) (setFlight_length s.na _).le rfl
      ⟨rfl, rfl, rfl⟩ ⟨rfl, rfl, rfl⟩ rfl
    refine h.moveMac (Or.inr hb.1) (Or.inl rfl) _ rfl (fun _ hn => hn) ?_ rfl
    intro n hn hf
    obtain ⟨l, k, hl, hk⟩ := h.routed (by rw [hb.1]; simp) (by rw [hb.1]; simp) n hn hf
    exact ⟨{ l with remaining := l.remaining.map (max 1) }, k, by rw [hl]; rfl, hk⟩
  · exact Keeps.refl s

theorem carrierRise_keeps (ch : ChanId) (s : State) : Keeps s (carrierRise ch s) := by
  unfold carrierRise
  dsimp only
  split
  · exact Keeps.refl s
  · exact (channelKeeps s ch _).trans (backoffRise_keeps _ _)

theorem carrierFall_keeps (ch : ChanId) (s : State) : Keeps s (carrierFall ch s) := by
  unfold carrierFall
  dsimp only
  split
  · obtain ⟨h1, h2, h3, h4, h5⟩ := setChannel_others s.lc ch
      ((s.lc.channel ch).fall (followed s ch) s.nc.now)
    refine lcKeeps s _ h1 h2 h3.trans_le (fun h => ?_) h5.trans_le
    dsimp only
    split
    · exact bump_le _
    · exact h4.trans_le h
  · exact Keeps.refl s

theorem channelChanged_keeps (ch : ChanId) (s : State) : Keeps s (channelChanged ch s) := by
  have h1 : KeepsRest s (serve (chooseChannel s)) := (chooseChannel_rest s).trans (serve_step _).keeps.rest
  have h2 : s.lc.mac ≠ .idle → s.lc.mac ≠ .sending → Keeps s (serve (chooseChannel s)) := fun hi hs =>
    h1.keeps fun h => serve_linkOk (chooseChannel_linkOk (h.one hi) (h.tx_none hs))
  unfold channelChanged
  split
  · rename_i hm; exact h2 (by rw [hm]; simp) (by rw [hm]; simp)
  · rename_i hm
    split
    · exact h2 (by rw [hm]; simp) (by rw [hm]; simp)
    · exact Keeps.refl s
  · rename_i hm
    split
    · exact h2 (by rw [hm]; simp) (by rw [hm]; simp)
    · exact Keeps.refl s
  · exact Keeps.refl s
  · exact Keeps.refl s

theorem jamTimeExpiry_keeps (ch : ChanId) (s : State) : Keeps s (jamTimeExpiry ch s) := by
  unfold jamTimeExpiry
  dsimp only
  split
  · exact (channelKeeps s ch _).trans (channelChanged_keeps _ _)
  · exact Keeps.refl s

theorem jamClearExpiry_keeps (ch : ChanId) (s : State) : Keeps s (jamClearExpiry ch s) := by
  unfold jamClearExpiry
  dsimp only
  split
  · exact (channelKeeps s ch _).trans (channelChanged_keeps _ _)
  · exact Keeps.refl s

theorem setReceiver_keeps (ch : ChanId) (r : Option Bytes) (s : State) : Keeps s (setReceiver ch r s) :=
  channelKeeps s ch _

theorem preambleAndSync_keeps (ch : ChanId) (s : State) : Keeps s (preambleAndSync ch s) := by
  unfold preambleAndSync
  split
  · exact setReceiver_keeps _ _ _
  · exact Keeps.refl s

theorem countBad_keeps (s : State) : Keeps s (countBad s) :=
  lcKeeps s _ rfl rfl id (fun _ => bump_le _) id

theorem lenAbove96_keeps (ch : ChanId) (bytes : Bytes) (s : State) : Keeps s (lenAbove96 ch bytes s) := by
  unfold lenAbove96
  split
  · split
    · exact (setReceiver_keeps _ _ _).trans (countBad_keeps _)
    · exact Keeps.refl s
  · exact Keeps.refl s

/-! ## Node Control -/

/-- Several blocks set at once to values within every bound, the engine with no job, the MAC IDLE with no note in
flight and no frame on air. -/
theorem quietKeeps {s t : State} (hp : t.pending = s.pending) (hc : t.ce = ⟨none, []⟩) (hs : t.iw.slots.length = 8)
    (hf : FrontBounded s → FrontBounded t) (ht : TablesBounded s → TablesBounded t)
    (hq : QueueBounded s → QueueBounded t) (hn : CountersBounded s → CountersBounded t)
    (hm : t.lc.mac = .idle) (hx : t.lc.tx = none) (hz : t.na.queue.countP (·.inFlight) = 0)
    (hb : BurstsOk s → BurstsOk t) : Keeps s t where
  pending := hp
  link := fun _ => LinkOk.ofIdle hz hm hx
  engine := fun _ => EngineOk.empty hc hs
  bursts := hb
  front := hf
  tables := ht
  queue := hq
  counters := hn

/-- While the reset line is asserted the burst list stands and the detector is OFF. -/
theorem assertReset_burstsOk {s : State} (h : BurstsOk s) : BurstsOk (assertReset s) where
  slots := by simp [assertReset]
  room := h.room
  apart := h.apart
  slotted := h.slotted
  taken := fun k => absurd rfl k
  shut := fun _ _ _ k => absurd k (by simp [assertReset])
  long := fun _ k => absurd k (by simp [assertReset])
  before := fun k => absurd k (by simp [assertReset])

theorem assertReset_keeps (s : State) : Keeps s (assertReset s) := by
  refine quietKeeps rfl rfl (by simp [assertReset]) (fun h => ⟨h.ring, h.history, h.offR, h.offP⟩)
    (fun h => ⟨h.history, h.heard, h.arrivals, h.neighbours, h.notices, h.fixes, h.baseline, h.candidates, h.findings,
      h.invalidStreak⟩) (fun h => ⟨(setFlight_length s.na _).trans_le h.queue, h.floor⟩)
    (fun h => h) rfl rfl ?_ assertReset_burstsOk
  unfold assertReset Na.setFlight
  simp only [List.countP_eq_zero, List.mem_map]
  rintro n ⟨m, _, rfl⟩
  split
  · simp
  · assumption

theorem reset_front : FrontBounded State.reset := ⟨List.length_replicate, List.length_replicate, by decide, by decide⟩

theorem reset_tables : TablesBounded State.reset := by constructor <;> decide

theorem reset_counters : CountersBounded State.reset := by unfold CountersBounded; decide

theorem releaseReset_keeps (s : State) : Keeps s (releaseReset s) := by
  unfold releaseReset
  split
  · exact quietKeeps rfl rfl (by simp [State.reset, Iw.reset])
      (fun _ => ⟨reset_front.ring, reset_front.history, reset_front.offR, reset_front.offP⟩)
      (fun _ => reset_tables.same rfl rfl rfl rfl) (fun _ => ⟨Nat.zero_le _, Nat.zero_le _⟩)
      (fun _ => reset_counters) rfl rfl rfl fun _ => BurstsOk.empty (by simp [State.reset, Iw.reset]) rfl
  · exact Keeps.refl s

/-- LOADING is left with an empty burst list. -/
theorem leaveLoading_keeps (node : NodeState) (cfg : Cfg) (s : State) (h : s.nc.node = .loading) :
    Keeps s (leaveLoading node cfg s) :=
  ((nodeKeeps s { s.nc with node := node, cfg := cfg, rng := seed cfg.nodeId, reading := false }
      fun k => k.move _ (k.before (Or.inl h))).trans
    (cfeKeeps _ { s.cfe with cal := if node = .calibrating then .waiting else .idle } id id id id
      (fun _ _ _ h => h) (fun _ _ h => h))).trans
    (lcKeeps _ { s.lc with
      chA := { s.lc.chA.begin true s.nc.now with idle := 0 }
      chB := { s.lc.chB.begin cfg.dual s.nc.now with idle := 0 } } rfl rfl id id id)

theorem configReadEnd_keeps (o : ReadOutcome) (s : State) : Keeps s (configReadEnd o s) := by
  unfold configReadEnd
  split
  · rename_i h
    unfold readCanEnd at h
    simp only [Bool.and_eq_true, beq_iff_eq] at h
    exact leaveLoading_keeps _ _ _ h.1.1
  · exact Keeps.refl s

theorem configReadTimeout_keeps (s : State) : Keeps s (configReadTimeout s) := by
  unfold configReadTimeout
  split
  · rename_i h
    unfold readTimedOut at h
    simp only [Bool.and_eq_true, beq_iff_eq] at h
    exact leaveLoading_keeps _ _ _ h.1
  · exact Keeps.refl s

/-- At a clash every record stands, its mark cleared. -/
theorem enterClashed_burstsOk {s : State} (h : BurstsOk s) (hn : s.nc.node ≠ .held) : BurstsOk (enterClashed s) where
  slots := h.slots
  room := (List.length_map _).trans_le h.room
  apart := by
    have : (s.iw.bursts.map fun b => { b with opened := false, hold := none }).filterMap (·.slot) =
        s.iw.bursts.filterMap (·.slot) := by rw [List.filterMap_map]; rfl
    show ((s.iw.bursts.map _).filterMap _).Nodup
    rw [this]; exact h.apart
  slotted := by
    intro b hb hw
    obtain ⟨a, ha, rfl⟩ := List.mem_map.mp hb
    exact h.slotted a ha hw
  taken := by
    intro _ b hb i hi
    obtain ⟨a, ha, rfl⟩ := List.mem_map.mp hb
    exact h.taken hn a ha i hi
  shut := fun _ _ _ k => absurd k (by simp [enterClashed, Iw.clash])
  long := fun _ k => absurd k (by simp [enterClashed, Iw.clash])
  before := fun k => absurd k (by simp [enterClashed])

theorem enterClashed_keeps (s : State) (hn : s.nc.node ≠ .held) : Keeps s (enterClashed s) where
  bursts := fun h => enterClashed_burstsOk h hn
  pending := rfl
  link := fun _ => LinkOk.ofIdle rfl rfl rfl
  engine := fun h => h.congr rfl rfl rfl rfl
  front := fun h => ⟨h.ring, h.history, h.offR, h.offP⟩
  tables := fun h => ⟨h.history, h.heard, (List.length_map _).trans_le h.arrivals, (List.length_map _).trans h.neighbours,
    (List.length_map _).trans_le h.notices, (List.length_map _).trans h.fixes, h.baseline, h.candidates, h.findings,
    h.invalidStreak⟩
  queue := fun _ => ⟨Nat.zero_le _, Nat.zero_le _⟩
  counters := fun h => h

theorem reportClash_keeps (s : State) : Keeps s (reportClash s) := by
  unfold reportClash
  split
  · rename_i h
    refine enterClashed_keeps s fun e => ?_
    rw [e] at h
    simp at h
  · exact Keeps.refl s

theorem restartNode_keeps (s : State) : Keeps s (restartNode s) :=
  quietKeeps rfl rfl (by simp [restartNode, Iw.reset])
    (fun _ => ⟨reset_front.ring, reset_front.history, reset_front.offR, reset_front.offP⟩)
    (fun _ => reset_tables.congr rfl rfl rfl rfl rfl rfl rfl |> fun h =>
      ⟨h.history, h.heard, h.arrivals, h.neighbours, h.notices, h.fixes, h.baseline, h.candidates, h.findings,
        h.invalidStreak⟩)
    (fun _ => ⟨Nat.zero_le _, Nat.zero_le _⟩) (fun _ => reset_counters) rfl rfl rfl
    fun _ => BurstsOk.empty (by simp [restartNode, Iw.reset]) rfl

/-! ## Frames -/

theorem dropFrame_keeps (v : Verdict) (s : State) : Keeps s (dropFrame v s) := by
  unfold dropFrame
  split
  · exact countBad_keeps s
  · exact lcKeeps s _ rfl rfl id id fun _ => bump_le _
  · exact reportClash_keeps s
  · exact Keeps.refl s

theorem raiseFloor_keeps (lv : Nat) (s : State) : Keeps s (raiseFloor lv s) := by
  unfold raiseFloor
  refine Keeps.trans (naKeeps s _ (by exact rfl) ?_ (by exact id) (by exact id) (by exact id)) (serve_step _).keeps
  intro h
  dsimp only
  omega

theorem handleReport_keeps (f : Frame) (s : State) : Keeps s (handleReport f s) :=
  (refreshSender_step f s).keeps.trans (raiseFloor_keeps _ _)

theorem refuseQuery_keeps (s : State) : Keeps s (refuseQuery s) :=
  naKeeps s _ rfl id id (fun _ => bump_le _) id

theorem queryTable_keeps (sect : Section) (s : State) : Keeps s (queryTable sect s) := by
  unfold queryTable startDump
  split
  · exact refuseQuery_keeps s
  · split
    · exact (startPage_step _ _).keeps.trans (serve_step _).keeps
    · exact refuseQuery_keeps s

theorem queryOfState_keeps (s : State) : Keeps s (queryOfState s) := by
  unfold queryOfState
  split
  · exact refuseQuery_keeps s
  · split
    · exact Keeps.refl s
    · exact (offer_step _ _ _ _).keeps

theorem hushCommand_keeps (n : Nat) (s : State) : Keeps s (hushCommand n s) := by
  unfold hushCommand
  split
  · split
    · exact endHush_keeps s
    · exact Keeps.refl s
  · exact beginHush_keeps n s

theorem countUnknown_keeps (s : State) : Keeps s (countUnknown s) :=
  naKeeps s _ rfl id id id fun _ => bump_le _

/-- CLEAR FIXES keeps the 16 places it found. -/
theorem clearTable_keeps (s : State) : Keeps s (clearTable s) where
  pending := rfl
  link := fun h => h.mapQueue unlinkAny rfl unlinkAny_inFlight unlinkAny_link rfl rfl
  engine := fun h => h.congr rfl rfl rfl rfl
  bursts := fun h => h.congr rfl rfl
  front := fun h => ⟨h.ring, h.history, h.offR, h.offP⟩
  tables := fun h => ⟨h.history, h.heard, h.arrivals, h.neighbours, h.notices, by simp [clearTable], h.baseline,
    h.candidates, h.findings, h.invalidStreak⟩
  queue := fun h => ⟨(List.length_map _).trans_le h.queue, h.floor⟩
  counters := fun h => h

/-- A row of notes keeps what its handling keeps. -/
theorem noteRow_keeps (kind : Nat) (act : Frame → State → State) (ha : ∀ f s, Keeps s (act f s)) (ch : ChanId)
    (bytes : Bytes) (s : State) : Keeps s (noteRow kind act ch bytes s) := by
  unfold noteRow
  repeat' split
  all_goals first
    | exact Keeps.refl s
    | exact (setReceiver_keeps _ _ _).trans (ha _ _)
    | exact (setReceiver_keeps _ _ _).trans (dropFrame_keeps _ _)

/-- A row of commands keeps what its handling keeps. -/
theorem commandRow_keeps (mine : CommandPayload → Bool) (act : CommandPayload → State → State)
    (ha : ∀ p s, Keeps s (act p s)) (ch : ChanId) (bytes : Bytes) (s : State) :
    Keeps s (commandRow mine act ch bytes s) := by
  unfold commandRow
  have h1 : ∀ f : Frame, Keeps s ((setReceiver ch none s).withLc
      { (setReceiver ch none s).lc with listenerSeq := some f.seq }) := fun f =>
    (setReceiver_keeps ch none s).trans (lcKeeps _ { (setReceiver ch none s).lc with listenerSeq := some f.seq } rfl rfl
      id id id)
  split
  · exact Keeps.refl s
  · split
    · exact Keeps.refl s
    · dsimp only
      split
      · split
        · exact h1 _
        · split
          · exact (h1 _).trans (ha _ _)
          · exact h1 _
      · exact Keeps.refl s
    · exact (setReceiver_keeps _ _ _).trans (dropFrame_keeps _ _)

theorem otherRow_keeps (ch : ChanId) (bytes : Bytes) (s : State) : Keeps s (otherRow ch bytes s) := by
  unfold otherRow
  repeat' split
  all_goals first
    | exact Keeps.refl s
    | exact (setReceiver_keeps _ _ _).trans (dropFrame_keeps _ _)

/-! ## The clock -/

/-- A slot takes a sample without leaving its state. -/
theorem take_free (x : Int) (w : Slot) : w.take x = .free ↔ w = .free := by
  cases w with
  | free => exact Iff.rfl
  | filling a b xs => simp only [Slot.take]; split <;> simp
  | job a b xs => simp [Slot.take]

theorem takeSample_keeps (s : State) : Keeps s (takeSample s) := by
  unfold takeSample
  dsimp only
  refine Keeps.trans (Keeps.trans (cfeKeeps s (sampledCfe s _ _) ?_ ?_ (by exact id) (by exact id) ?_ ?_)
    (iwKeeps _ _ (by exact id) (by exact id) (by exact id) ?_ ?_ ?_)) (ncKeeps _ _ (by exact rfl))
  · intro h; simp [sampledCfe, h]
  · intro h; simp [sampledCfe, h]
  · intro c u xs h; simp [sampledCfe, h, ArrivalBuffer.take]
  · intro e xs h; simp [sampledCfe, h, Window.take]
  · simp
  · intro i start o xs h
    refine ⟨xs, ?_⟩
    show (List.map _ s.iw.slots)[i]? = _
    rw [List.getElem?_map]
    have h' : s.iw.slots[i]? = some (.job start o xs) := h
    rw [h']; rfl
  · intro h
    refine h.follow rfl (List.length_map _) (follows_refl _) (List.Sublist.refl _) (fun hn b hb i hi => ?_) h.shut h.long
    have h1 := h.taken hn b hb i hi
    show (List.map _ s.iw.slots)[i]? ≠ _
    rw [List.getElem?_map]
    cases hx : s.iw.slots[i]? with
    | none => simp
    | some w =>
      intro e
      exact h1 (hx.trans (congrArg some ((take_free _ w).mp (Option.some.inj e))))

/-- A byte of the own frame taken changes the keyed channel's receiver and what the frame on air has heard. -/
theorem takeByte_keeps (s : State) : Keeps s (takeByte s) := by
  unfold takeByte
  split
  · exact Keeps.refl s
  · rename_i t ht
    dsimp only
    refine Keeps.trans ?_ (ncKeeps _ _ (by exact rfl))
    obtain ⟨h1, h2, h3, h4, h5⟩ := setChannel_others s.lc t.channel
      ((s.lc.channel t.channel).hear (Config.loopbackByte s.nc.fresh))
    refine (lcRest s _ (by exact h3) (by exact h4) (by exact h5)).keeps fun h => ⟨?_, ?_, ?_⟩
    · have := h.oneFlight
      show _ = if (s.lc.setChannel t.channel _).mac = .idle then 0 else 1
      rw [h1]; exact this
    · intro k1 k2
      refine h.routed ?_ ?_
      · exact fun e => k1 (h1.trans e)
      · exact fun e => k2 (h1.trans e)
    · have := h.onAir
      rw [ht] at this
      show _ ↔ (s.lc.setChannel t.channel _).mac = .sending
      rw [h1]
      exact ⟨fun _ => this.mp rfl, fun _ => rfl⟩

theorem countTick_inFlight (l : Lc) (n : Note) : (n.countTick l).inFlight = n.inFlight := rfl

/-- Counting keeps the channel of a note's link record. -/
theorem countTick_link (l : Lc) (n : Note) (k : Link) (c : ChanId) (h : n.link = some k) (hc : k.channel = some c) :
    ∃ k', (n.countTick l).link = some k' ∧ k'.channel = some c := by
  refine ⟨_, by rw [Note.countTick, h]; rfl, ?_⟩
  dsimp only
  rw [hc]
  dsimp only
  split
  · exact hc
  · rfl

theorem advance_keeps (s : State) : Keeps s (advance s) where
  pending := rfl
  link := fun h => by
    by_cases hm : s.lc.mac = .backoff
    · refine h.moveMac (t := advance s) (Or.inr hm) (Or.inr hm) (Note.countTick s.lc) ?_ (fun _ hn => hn) ?_ rfl
      · simp [advance, hm]
      · intro n hn hf
        obtain ⟨l, c, hl, hc⟩ := h.routed (by rw [hm]; simp) (by rw [hm]; simp) n hn hf
        obtain ⟨k, hk, hkc⟩ := countTick_link s.lc n l c hl hc
        exact ⟨k, c, hk, hkc⟩
    · exact h.congr (by simp [advance, hm]) rfl rfl
  engine := fun h => h.congr rfl rfl rfl rfl
  bursts := fun h => h.congr rfl rfl
  front := fun h => ⟨h.ring, h.history, h.offR, h.offP⟩
  tables := fun h => h.same rfl rfl rfl rfl
  queue := fun h => by
    constructor
    · unfold advance; dsimp only
      split
      · exact (setFlight_length s.na _).trans_le h.queue
      · exact h.queue
    · unfold advance Na.setFlight; dsimp only
      split <;> exact h.floor
  counters := fun h => by
    rw [countersBounded_iff] at h ⊢
    unfold advance Na.setFlight
    dsimp only
    split <;> exact h

/-- While the reset line is asserted an operation does nothing. -/
theorem live_held (f : State → State) {s : State} (h : s.nc.node = .held) : live f s = s := by
  unfold live; rw [if_pos h]

/-- While the reset line is not asserted an operation has its effect. -/
theorem live_eq (f : State → State) {s : State} (h : s.nc.node ≠ .held) : live f s = f s := by
  unfold live; rw [if_neg h]

/-- An operation of a node whose reset line is not asserted keeps what it keeps. -/
theorem live_keeps {f : State → State} (h : ∀ s, Keeps s (f s)) (s : State) : Keeps s (live f s) := by
  unfold live
  split
  · exact Keeps.refl s
  · exact h s

end Sys2Proof.Machine
end

