-- ==== Sys2Proof/Laws/Clock.lean ====
section
/-! SUPPORT. The step of the machine case by case, and what the clock does on an empty queue. -/

namespace Sys2Proof.Machine

open Sys2Proof

theorem step_cons {s : State} {c : Instr} {rest : List Instr} (h : s.pending = c :: rest) :
    step s = exec c (s.withPending rest) := by
  unfold step; rw [h]

theorem step_nil {s : State} (h : s.pending = []) : step s = .next (idle s) := by
  unfold step; rw [h]

theorem idle_held {s : State} (h : s.nc.node = .held) : idle s = s := by
  unfold idle; rw [if_pos h]

theorem idle_raise {s : State} (h : s.nc.node ≠ .held) (hd : dueEvents s ≠ []) : idle s = raise s := by
  unfold idle; rw [if_neg h, if_pos (by simp [hd])]

theorem idle_sample {s : State} (h : s.nc.node ≠ .held) (hd : dueEvents s = []) (hs : sampleDue s = true) :
    idle s = takeSample s := by
  unfold idle; rw [if_neg h, hd]; simp [hs]

theorem idle_byte {s : State} (h : s.nc.node ≠ .held) (hd : dueEvents s = []) (hs : sampleDue s = false)
    (hb : byteDue s = true) : idle s = takeByte s := by
  unfold idle; rw [if_neg h, hd]; simp [hs, hb]

theorem idle_tick {s : State} (h : s.nc.node ≠ .held) (hd : dueEvents s = []) (hs : sampleDue s = false)
    (hb : byteDue s = false) : idle s = advance s := by
  unfold idle; rw [if_neg h, hd]; simp [hs, hb]

/-! ## The tick -/

/-- A tick changes the idle time of a channel alone. -/
theorem tick_eq (follow : Bool) (c : Channel) : c.tick follow = { c with
    idle := if follow = true ∧ c.carrier = false then min (c.idle + 1) 160000 else c.idle } := by
  unfold Channel.tick gapTicks
  cases follow <;> cases h : c.carrier <;> simp
  · exact h ▸ rfl
  · exact h ▸ rfl
  · exact h ▸ rfl

/-! ## Events raised -/

theorem insertByKey_perm (x : Nat × Instr) (ys : List (Nat × Instr)) : (insertByKey x ys).Perm (x :: ys) := by
  induction ys with
  | nil => exact List.Perm.refl _
  | cons y ys ih =>
    unfold insertByKey
    split
    · exact List.Perm.refl _
    · exact (List.Perm.cons y ih).trans (List.Perm.swap x y ys)

/-- The order of the keys keeps every event, each once. -/
theorem inKeyOrder_perm (n : Nat) (xs : List Instr) : (inKeyOrder n xs).Perm xs := by
  have h : ∀ ys : List (Nat × Instr), (ys.foldr insertByKey []).Perm ys := by
    intro ys
    induction ys with
    | nil => exact List.Perm.refl _
    | cons y ys ih => exact (insertByKey_perm _ _).trans (List.Perm.cons y ih)
  unfold inKeyOrder
  refine ((h _).map _).trans ?_
  rw [List.map_map]
  have h2 : ((fun x : Nat × Instr => x.2) ∘ fun x : Instr × Nat => (Config.eventKey n x.2, x.1)) = Prod.fst := rfl
  rw [h2, List.zipIdx_map_fst]

/-- All that raising events changes. -/
theorem raise_eq (s : State) : raise s = { s with
    pending := inKeyOrder s.nc.fresh (dueEvents s), nc := { s.nc with fresh := s.nc.fresh + 1 } } := by
  unfold raise State.withPending State.withNc; rfl

theorem raise_pending (s : State) : (raise s).pending = inKeyOrder s.nc.fresh (dueEvents s) := by rw [raise_eq]

/-! ## Invariants that do not speak of the queue of waiting commands -/

/-- The invariants of Safety.lean in a state that differs in the queue of waiting commands and in NC, but not in the node's
state, only. -/
theorem invariants_congr {s t : State} (h0 : t.nc.node = s.nc.node) (h1 : t.cfe = s.cfe) (h2 : t.iw = s.iw) (h3 : t.ce = s.ce) (h4 : t.ptu = s.ptu)
    (h5 : t.pu = s.pu) (h6 : t.ft = s.ft) (h7 : t.ec = s.ec) (h8 : t.lc = s.lc) (h9 : t.na = s.na) :
    (LinkOk s → LinkOk t) ∧ (EngineOk s → EngineOk t) ∧ (BurstsOk s → BurstsOk t) ∧ (FrontBounded s → FrontBounded t) ∧
      (TablesBounded s → TablesBounded t) ∧ (QueueBounded s → QueueBounded t) ∧
      (CountersBounded s → CountersBounded t) := by
  refine ⟨fun h => h.congr (congrArg _ h9) (congrArg _ h8) (congrArg _ h8),
    fun h => h.congr h3 (congrArg _ h2) (congrArg _ h1) (congrArg _ h1),
    fun h => h.congr h0 h2,
    fun h => ⟨h1 ▸ h.ring, h1 ▸ h.history, h1 ▸ h.offR, h1 ▸ h.offP⟩, fun h => h.same h4 h5 h6 h7,
    fun h => ⟨h9 ▸ h.queue, h9 ▸ h.floor⟩, fun h => ?_⟩
  rw [countersBounded_iff] at h ⊢
  rw [h2, h4, h5, h6, h7, h8, h9]
  exact h

end Sys2Proof.Machine
end

