-- ==== Sys2Proof/Laws/Frames.lean ====
section
/-! SUPPORT. Which blocks an operation leaves unchanged (`UnchangedBut`), and what draws and submissions answer. -/

namespace Sys2Proof.Machine

open Sys2Proof

theorem UnchangedBut.refl (bs : List Block) (s : State) : UnchangedBut bs s s :=
  ⟨fun b _ => by cases b <;> rfl, rfl⟩

/-- Two steps one after the other leave unchanged what both leave unchanged. -/
theorem UnchangedBut.trans {as bs cs : List Block} {s t u : State} (h : UnchangedBut as s t) (k : UnchangedBut bs t u)
    (ha : as ⊆ cs) (hb : bs ⊆ cs) : UnchangedBut cs s u := by
  refine ⟨fun x hx => ?_, k.2.trans h.2⟩
  have h1 := h.1 x fun m => hx (ha m)
  have h2 := k.1 x fun m => hx (hb m)
  cases x <;> exact h2.trans h1

theorem UnchangedBut.weaken {as bs : List Block} {s t : State} (h : UnchangedBut as s t) (ha : as ⊆ bs) :
    UnchangedBut bs s t := ⟨fun x hx => h.1 x fun m => hx (ha m), h.2⟩

theorem ncSame (s : State) (x : Nc) : UnchangedBut [.nc] s (s.withNc x) :=
  ⟨fun b hb => by cases b <;> simp at hb <;> rfl, rfl⟩
theorem cfeSame (s : State) (x : Cfe) : UnchangedBut [.cfe] s (s.withCfe x) :=
  ⟨fun b hb => by cases b <;> simp at hb <;> rfl, rfl⟩
theorem iwSame (s : State) (x : Iw) : UnchangedBut [.iw] s (s.withIw x) :=
  ⟨fun b hb => by cases b <;> simp at hb <;> rfl, rfl⟩
theorem ceSame (s : State) (x : Ce) : UnchangedBut [.ce] s (s.withCe x) :=
  ⟨fun b hb => by cases b <;> simp at hb <;> rfl, rfl⟩
theorem ptuSame (s : State) (x : Ptu) : UnchangedBut [.ptu] s (s.withPtu x) :=
  ⟨fun b hb => by cases b <;> simp at hb <;> rfl, rfl⟩
theorem puSame (s : State) (x : Pu) : UnchangedBut [.pu] s (s.withPu x) :=
  ⟨fun b hb => by cases b <;> simp at hb <;> rfl, rfl⟩
theorem ftSame (s : State) (x : Ft) : UnchangedBut [.ft] s (s.withFt x) :=
  ⟨fun b hb => by cases b <;> simp at hb <;> rfl, rfl⟩
theorem ecSame (s : State) (x : Ec) : UnchangedBut [.ec] s (s.withEc x) :=
  ⟨fun b hb => by cases b <;> simp at hb <;> rfl, rfl⟩
theorem lcSame (s : State) (x : Lc) : UnchangedBut [.lc] s (s.withLc x) :=
  ⟨fun b hb => by cases b <;> simp at hb <;> rfl, rfl⟩
theorem naSame (s : State) (x : Na) : UnchangedBut [.na] s (s.withNa x) :=
  ⟨fun b hb => by cases b <;> simp at hb <;> rfl, rfl⟩

/-- The sending side's operations change NC (the random source), PTU (the schedule), LC and NA only. -/
theorem SendFrame.same {s t : State} (h : SendFrame s t) : UnchangedBut [.nc, .ptu, .lc, .na] s t :=
  ⟨fun b hb => by
    cases b <;> simp at hb
    · exact h.cfe
    · exact h.iw
    · exact h.ce
    · exact h.pu
    · exact h.ft
    · exact h.ec, h.pending⟩

/-- Of NC the sending side changes the random source alone. -/
theorem SendFrame.nc {s t : State} (h : SendFrame s t) : t.nc = { s.nc with rng := t.nc.rng } := by
  obtain ⟨⟨a, b, c, d, e, f, g⟩⟩ := s
  obtain ⟨⟨a', b', c', d', e', f', g'⟩⟩ := t
  have h1 := h.node
  have h2 := h.cfg
  have h3 := h.now
  have h4 := h.reading
  have h5 := h.sampled
  have h6 := h.fresh
  dsimp only at h1 h2 h3 h4 h5 h6 ⊢
  subst h1 h2 h3 h4 h5 h6
  rfl

/-! ## Draws (R24) -/

theorem drawLoop_le (n k : Nat) (x : Seed) : (drawLoop n k x).1 ≤ n := by
  induction k generalizing x with
  | zero => exact Nat.zero_le _
  | succ k ih =>
    unfold drawLoop
    dsimp only
    split
    · assumption
    · exact ih _

/-- A draw in 0 … n lies in 0 … n. -/
theorem draw_le (n : Nat) (x : Seed) : (draw n x).1 ≤ n := by
  unfold draw
  split
  · exact Nat.zero_le _
  · exact drawLoop_le _ _ _

/-! ## The probe schedule -/

theorem unblock_same (s : State) : UnchangedBut [.nc, .ptu] s (unblock s) := by
  unfold unblock settle drawMicros
  split <;> [split; skip] <;> exact ⟨fun b hb => by cases b <;> simp at hb <;> rfl, rfl⟩

/-- Of PTU the clearing of a condition changes the schedule alone. -/
theorem unblock_ptu (s : State) : (unblock s).ptu = { s.ptu with schedule := (unblock s).ptu.schedule } := by
  unfold unblock settle drawMicros
  split <;> [split; skip] <;> rfl

/-- A schedule that is not BLOCKED stays as it is. -/
theorem unblock_eq {s : State} (h : ∀ w, s.ptu.schedule ≠ .blocked w) : unblock s = s := by
  unfold unblock
  split
  · rename_i w hw; exact absurd hw (h w)
  · rfl

/-- A BLOCKED schedule one of whose failed conditions still fails stays BLOCKED. -/
theorem unblock_stays {s : State} {w : Failing} (h : s.ptu.schedule = .blocked w)
    (hf : (w.and (failing s)).any = true) : unblock s = s := by
  unfold unblock; rw [h]; dsimp only; rw [if_pos hf]

/-- A BLOCKED schedule none of whose failed conditions still fails passes to SETTLING. -/
theorem unblock_settles {s : State} {w : Failing} (h : s.ptu.schedule = .blocked w)
    (hf : (w.and (failing s)).any = false) : unblock s = settle s := by
  unfold unblock; rw [h]; dsimp only; rw [if_neg (by simp [hf])]

/-- A note offered to a RUNNING node whose queue has room joins it, and the MAC's choice follows (R156, R158). -/
theorem offer_room {s : State} (c : Content) (level : Nat) (deadline : Option Time) (h : s.isRunning = true)
    (hl : s.na.queue.length < 16) : offer c level deadline s = serve (s.withNa { s.na with
      queue := s.na.queue ++ [newNote s.nc.now c level deadline] }) := by
  unfold offer; rw [if_pos h, enqueue_room _ _ hl]

/-! ## Which blocks the Fix Table's operations touch -/

theorem offer_same (c : Content) (level : Nat) (deadline : Option Time) (s : State) :
    UnchangedBut [.nc, .ptu, .lc, .na] s (offer c level deadline s) := (offer_frame c level deadline s).same

theorem putFix_same (p : Nat) (f : Fix) (s : State) : UnchangedBut [.ft, .na] s (putFix p f s) :=
  ⟨fun b hb => by cases b <;> simp at hb <;> rfl, rfl⟩

theorem announce_same (p : Nat) (f : Fix) (s : State) : UnchangedBut [.nc, .ptu, .ft, .lc, .na] s (announce p f s) := by
  unfold announce
  dsimp only
  have h := (putFix_same p { f with announced := some f.count } s).weaken (bs := [.nc, .ptu, .ft, .lc, .na]) (by simp)
  split
  · exact h
  · split
    · exact h
    · exact h.trans (offer_same _ _ _ _) (by simp) (by simp)

theorem announceTest_same (p : Nat) (s : State) : UnchangedBut [.nc, .ptu, .ft, .lc, .na] s (announceTest p s) := by
  unfold announceTest
  split <;> [split; skip] <;> first | exact announce_same _ _ _ | exact UnchangedBut.refl _ _

theorem corroborate_same (p : Nat) (s : State) : UnchangedBut [.nc, .ptu, .ft, .lc, .na] s (corroborate p s) := by
  unfold corroborate
  split
  · exact UnchangedBut.refl _ _
  · split
    · split
      · exact UnchangedBut.refl _ _
      · dsimp only
        split
        · exact (putFix_same _ _ _).trans (announce_same _ _ _) (by simp) (by simp)
        · exact (putFix_same _ _ _).weaken (by simp)
    · exact UnchangedBut.refl _ _

/-- The corroboration test of every fix and the notes it offers (R125). -/
theorem corroborateAll_same (s : State) : UnchangedBut [.nc, .ptu, .ft, .lc, .na] s (corroborateAll s) := by
  have h : ∀ (ps : List Nat) (s : State),
      UnchangedBut [.nc, .ptu, .ft, .lc, .na] s (ps.foldl (fun s p => corroborate p s) s) := by
    intro ps
    induction ps with
    | nil => exact fun s => UnchangedBut.refl _ s
    | cons p ps ih => exact fun s => (corroborate_same p s).trans (ih _) (by simp) (by simp)
  exact h _ s

/-- The handing on of a finding leaves the comparator as it is (R138). -/
theorem handFinding_same (f : Finding) (s : State) : UnchangedBut [.nc, .ptu, .ft, .lc, .na] s (handFinding f s) := by
  unfold handFinding
  dsimp only
  have h : UnchangedBut [.nc, .ptu, .ft, .lc, .na] s
      (if s.nc.cfg.levelEcho = 0 then s else offer (.echo f) s.nc.cfg.levelEcho none s) := by
    split
    · exact UnchangedBut.refl _ _
    · exact (offer_same _ _ _ _).weaken (by simp)
  split
  · exact h
  · exact h.trans (corroborateAll_same _) (by simp) (by simp)

/-! ## Submissions (R59) -/

theorem submit_idle (c : Ce) (now : Time) (j : Job) (h : c.running = none) :
    c.submit now j = some { c with running := some ⟨j, 1, 8, plus now j.passTicks⟩ } := by
  unfold Ce.submit; rw [h]; rfl

theorem submit_wait (c : Ce) (now : Time) (j : Job) (h : c.running ≠ none) (h4 : c.waiting.length < 4) :
    c.submit now j = some { c with waiting := c.waiting ++ [j] } := by
  unfold Ce.submit
  split
  · contradiction
  · rw [if_pos h4]

theorem submit_refused (c : Ce) (now : Time) (j : Job) (h : c.running ≠ none) (h4 : 4 ≤ c.waiting.length) :
    c.submit now j = none := by
  unfold Ce.submit
  split
  · contradiction
  · rw [if_neg (by omega)]

/-! ## The note in flight -/

/-- The note in flight after a change of it that keeps its mark. -/
theorem flight_setFlight {a : Na} {n : Note} (f : Note → Note) (h : ∀ n, n.inFlight = true → (f n).inFlight = true)
    (hn : a.flight = some n) : (a.setFlight f).flight = some (f n) := by
  unfold Na.flight Na.setFlight at *
  dsimp only
  rw [List.find?_map]
  have h2 : ((fun x : Note => x.inFlight) ∘ fun n => if n.inFlight = true then f n else n) =
      (fun x : Note => x.inFlight) := by
    funext x
    simp only [Function.comp]
    split
    · rename_i hx; rw [h x hx, hx]
    · rfl
  rw [h2, hn, Option.map_some, if_pos]
  simpa using List.find?_some hn

/-- Of two times at most one is earlier (R16). -/
theorem earlier_asymm (a b : Time) (h : earlier a b = true) : earlier b a = false := by
  unfold earlier diff at *
  simp only [decide_eq_true_eq, decide_eq_false_iff_not] at *
  have e : a - b = -(b - a) := by ring
  rw [e, BitVec.toInt_neg]
  have := BitVec.toInt_lt (x := b - a)
  rw [Int.bmod_eq_of_le] <;> omega

/-- Of NC the operations on the tables change the random source alone. -/
theorem TableStep.nc {s t : State} (h : TableStep s t) : t.nc = { s.nc with rng := t.nc.rng } := by
  obtain ⟨⟨a, b, c, d, e, f, g⟩⟩ := s
  obtain ⟨⟨a', b', c', d', e', f', g'⟩⟩ := t
  have h1 := h.node
  have h2 := h.cfg
  have h3 := h.now
  have h4 := h.reading
  have h5 := h.sampled
  have h6 := h.fresh
  dsimp only at h1 h2 h3 h4 h5 h6 ⊢
  subst h1 h2 h3 h4 h5 h6
  rfl

/-! ## Values -/

/-- Two bytes spell the number they were made of (R170). -/
theorem beNat_beBytes2 (n : Nat) (h : n < 65536) : beNat (beBytes 2 n) = n := by
  unfold beNat beBytes
  have : min n (256 ^ 2 - 1) = n := by omega
  rw [this]
  simp [List.range_succ]
  omega

/-- The sum of products of members within B and T is within the number of products times B T. -/
theorem dot_bound (B T : Nat) (xs ts : List Int) (hx : ∀ x ∈ xs, x.natAbs ≤ B) (ht : ∀ t ∈ ts, t.natAbs ≤ T) :
    (dot xs ts).natAbs ≤ ts.length * (B * T) := by
  induction xs generalizing ts with
  | nil => cases ts <;> simp [dot]
  | cons x xs ih =>
    cases ts with
    | nil => simp [dot]
    | cons t ts =>
      simp only [dot, List.length_cons]
      have h1 := ih ts (fun y hy => hx y (List.mem_cons_of_mem _ hy)) (fun y hy => ht y (List.mem_cons_of_mem _ hy))
      have h2 : (x * t).natAbs ≤ B * T := by
        rw [Int.natAbs_mul]
        exact Nat.mul_le_mul (hx x (List.mem_cons_self ..)) (ht t (List.mem_cons_self ..))
      have h3 := Int.natAbs_add_le (x * t) (dot xs ts)
      have h4 : (ts.length + 1) * (B * T) = ts.length * (B * T) + B * T := by ring
      omega

/-- Every chirp sample lies within −2047 … 2047 (R33). -/
theorem chirp_bound : ∀ t ∈ chirpTemplate, t.natAbs ≤ 2047 := by decide +kernel

end Sys2Proof.Machine
end

