-- ==== Sys2Proof/WellFormed.lean ====
section
/-! DEFINITION. The commands the outside can give: each operand within the bounds the rules give it. -/

namespace Sys2Proof

/-- At most the bytes of the longest frame less its preamble and sync: 7 header bytes, 96 payload bytes and 2 CRC
bytes (R144, R168). -/
def frameBytesOk (bytes : Bytes) : Bool := decide (bytes.length ≤ 105)

/-- The operand checks of one command: 64 bytes of a completed configuration read (R2), slot numbers 0 … 7 (R47),
places 0 … 11 and 0 … 15 of the two tables (R166, R116), list places of the arrival list, burst list, notice list and
outbound queue (R82, R51, R107, R156), and frame lengths (R144, R168). -/
def Instr.wf : Instr → Bool
  | .configReadEnd o => match o with
    | .complete block => decide (block.length = 64)
    | .notAcknowledged _ => true
  | .snapshotFull slot => decide (slot < 8)
  | .arrivalExpiry i => decide (i < 4)
  | .silenceExpiry p | .stalenessExpiry p => decide (p < 12)
  | .pairHoldExpiry i | .noticeExpiry i | .fixAgeExpiry i | .noteDeadline i => decide (i < 16)
  | .lenAbove96 _ bytes => decide (bytes.length ≤ 7)
  | .probeFrame _ bytes | .burstFrame _ bytes | .fixFrame _ bytes | .echoFrame _ bytes | .stateFrame _ bytes
  | .replyFrame _ bytes | .otherFrame _ bytes | .queryFixes _ bytes | .queryFindings _ bytes
  | .queryNeighbours _ bytes | .queryState _ bytes | .rebase _ bytes | .clearFixes _ bytes | .hush _ bytes
  | .restart _ bytes | .unknownCommand _ bytes => frameBytesOk bytes
  | .resetAssert | .resetRelease | .configReadTimeout | .carrierRise _ | .carrierFall _ | .jamTimeExpiry _
  | .jamClearExpiry _ | .calibrationStart | .calibrationEnd | .calibrationDue | .envelopeValue | .probeBandValue
  | .probeWindowFull | .arrivalCaptureFull | .passEnd | .probeDue | .settleExpiry | .probeGuardExpiry
  | .interframeGap | .backoffEnd | .frameSent | .collision | .floorHoldExpiry | .hushExpiry | .stateTimer
  | .preambleAndSync _ => true

end Sys2Proof
end

