-- ==== Sys2Proof/Tests/Slice0.lean ====
section
/-! SUPPORT. The model's own tests: the operand checks, the figures the spec works out, one or two steps of every
command on a small state, and for every obligation with hypotheses a state that meets them. -/

namespace Sys2Proof.Tests

set_option Elab.async false

open Sys2Proof Sys2Proof.Machine

/-! ## Helpers -/

/-- The state of an answer. -/
def stateOf : Answer → Option State
  | .next t => some t
  | _ => none

/-- A view of the state after a command. -/
def after {α : Type} (i : Instr) (s : State) (f : State → α) : Option α := (stateOf (exec i s)).map f

/-- The node 17 of the spec's traces: run 4, position 12000, VF 870. -/
def cfgT : Cfg := { Cfg.default with nodeId := 17, runNo := 4, position := 12000 }

/-- That node RUNNING at a line time. -/
def runAt (t : Time) : State :=
  { State.reset with
    nc := { Nc.reset with node := .running, cfg := cfgT, now := t, rng := seed 17, reading := false }
    iw := { Iw.reset with detector := .watch 0 0 0 } }

/-- RUNNING at a line time that is no sample instant. -/
def run : State := runAt 1000001

/-- The bytes of a frame of run 4, from the header on. -/
def frame (sender kind level : Nat) (seq : Byte) (pos : Nat) (p : Bytes) : Bytes :=
  withCrc (headerAndPayload { cfgT with nodeId := sender, position := pos } seq kind level p)

/-- The state with the receiver of channel A receiving, no byte so far. -/
def hearing (s : State) : State := setReceiver .a (some []) s

/-- A COMMAND frame of the listening station to all nodes. -/
def commandFrame (code argument : Byte) : Bytes := frame 255 8 0 1 0 [0, code, 0, argument]

/-- A queued note of a level. -/
def noteAt (c : Content) (level : Nat) : Note := ⟨c, level, 900000, none, none, false⟩

/-- A note in flight on channel A with a remaining backoff. -/
def flying (c : Content) (deadline : Option Time) (r : Option Nat) : Note :=
  ⟨c, 5, 900000, deadline, some ⟨some .a, 0, 0, 2, r⟩, true⟩

/-- The node with a MAC state, one note in flight and channel A idle for the gap. -/
def mac (m : Mac) (n : Note) : State :=
  { run with
    lc := { Lc.reset with mac := m, chA := { Channel.reset with idle := 160000 } }
    na := { Na.reset with queue := [n] } }

/-- The node SENDING a frame of three bytes on channel A of which it has heard some. -/
def sendingHeard (heard : List (Option Byte)) (n : Note) : State :=
  { mac .sending n with
    lc := { Lc.reset with mac := .sending, tx := some ⟨.a, [1, 2, 3], 923201, heard⟩ } }

/-- That frame heard whole. -/
def sending (n : Note) : State := sendingHeard [some 1, some 2, some 3] n

/-- That frame with its second byte not taken. -/
def cut (n : Note) : State := sendingHeard [some 1, none] n

/-- A SYNCED neighbour with the clock relation of the worked exchange. -/
def peer (id pos : Nat) : Neighbour where
  id := id
  position := pos
  state := .synced
  lastHeard := 0
  lastSeq := some 7
  forward := none
  reverse := none
  sync := some ⟨1003000, 1899500460⟩
  rate := some 12884
  jumps := 0
  distance := some 2999
  streak := 0
  exchanges := 2
  silence := some 900000
  stale := some 900000

/-- A fix that has been announced. -/
def fixT : Fix := ⟨52, .inside, 23, 15000, 13117, 13085, 13160, 6, 100, 200, some 6, some ⟨3, .new, 13150⟩, some 900000⟩

/-- A finding. -/
def findT : Finding := ⟨3, .new, 1150, 13150, none, some 40, 500⟩

/-- A burst record that holds a slot. -/
def burstT (st : BurstState) (opened : Bool) (slot : Option Nat) : Burst := ⟨41, st, opened, 960000, 400, 5, slot, none, none⟩

/-! ## The operand checks refuse ill-formed commands -/

theorem test_wf_block : (Instr.configReadEnd (.complete [198, 41])).wf = false := by decide
theorem test_wf_slot : (Instr.snapshotFull 8).wf = false := by decide
theorem test_wf_arrival : (Instr.arrivalExpiry 4).wf = false := by decide
theorem test_wf_neighbour : (Instr.silenceExpiry 12).wf = false ∧ (Instr.stalenessExpiry 12).wf = false := by decide
theorem test_wf_sixteen : (Instr.pairHoldExpiry 16).wf = false ∧ (Instr.noticeExpiry 16).wf = false ∧
    (Instr.fixAgeExpiry 16).wf = false ∧ (Instr.noteDeadline 16).wf = false := by decide
theorem test_wf_len : (Instr.lenAbove96 .a (List.replicate 8 0)).wf = false := by decide
theorem test_wf_frame : (Instr.otherFrame .a (List.replicate 106 0)).wf = false ∧
    (Instr.hush .b (List.replicate 106 0)).wf = false := by decide
theorem test_wf_good : (Instr.snapshotFull 7).wf = true ∧ (Instr.otherFrame .a (List.replicate 105 0)).wf = true ∧
    (Instr.configReadEnd (.complete (List.replicate 64 0))).wf = true ∧
    (Instr.configReadEnd (.notAcknowledged .byteAddress)).wf = true := by decide

/-! ## The spec's worked figures -/

theorem test_ticks : ticks 870 3000 = 920 ∧ ticks 870 1100 = 337 ∧ ticks 870 1900 = 583 ∧ ticks 870 3040 = 932 := by decide
theorem test_conv : conv 870 920 = 2999 ∧ conv 870 (-245) = -799 ∧ conv 870 (2 ^ 40) = 7001307790 ∧ conv 600 1 = 2 ∧
    conv 950 (-1) = -4 ∧ conv 870 440 = 1435 := by decide
theorem test_wrap : diff 500 281474976709656 = 1500 ∧ plus 281474976709656 750 = 281474976710406 ∧
    earlier 281474976710556 60 = true := by decide
theorem test_shift : (-1 : Int) / 2 = -1 ∧ (1 : Int) / 2 = 0 := by decide
theorem test_sine : sine 0 = 0 ∧ sine 77 = 932 ∧ sine 153 = 1652 ∧ sine 229 = 2019 ∧ sine 256 = 2047 := by decide +kernel
theorem test_sine_size : sineTable.length = 257 := by decide +kernel
theorem test_chirp : (List.range 4).map chirpSample = [0, 932, -1652, 2019] := by decide +kernel
theorem test_crc : crc [49, 50, 51, 52, 53, 54, 55, 56, 57] = 10673 := by decide +kernel
theorem test_interpolation : interpolate [9000, 12000, 10500] 1 = 1 ∧ interpolate [-5200, -20100, -19000] 1 = 2 ∧
    interpolate [700, 1000, 700] 1 = 0 ∧ interpolate [8100, 9000, 8700] 1 = 1 ∧ interpolate [-999, 1000, 1000] 1 = 2 := by
  decide
theorem test_narrow : isClamped 8 212000000 = true ∧ isClamped 12 212000000 = true ∧ narrow 16 212000000 = 3234 := by
  decide
theorem test_exchange : exchangeOf 870 ⟨500000000, 501000920⟩ ⟨1300000000, 1299000920, 12⟩ 0 =
    ⟨1000000, 899500460, 2999⟩ := by decide +kernel
theorem test_rate : updateRate 3000 1000000000 none 0 = (some 12884, 0) ∧
    ((12900 - 12884 : Int).tdiv 4, (12871 - 12888 : Int).tdiv 4) = (4, -4) := by decide +kernel
theorem test_own_time : ownTime ⟨1003000, 1899500460⟩ (some 12884) 2300504659 = 2299500460 := by decide +kernel
theorem test_partner : choosePartner 12000 [some (peer 9 10000), none, some (peer 31 16400), some (peer 23 15000),
    some { peer 40 14000 with state := .doubtful }] = some 23 := by decide
theorem test_location : located 12000 15000 (twiceX cfgT 15000 2299500215 2299500460) = (.inside, 13100) := by decide +kernel
theorem test_score : score [60, 140, 255, 230, 190, 150, 120, 95, 80, 70, 60, 50, 40, 30, 25, 20]
    [55, 120, 255, 240, 175, 160, 105, 100, 70, 78, 52, 44, 48, 22, 30, 10] = 143 := by decide +kernel
theorem test_seed : seed 0 = 1 ∧ seed 1 = 16843009 := by decide
theorem test_header : headerAndPayload cfgT 100 3 5 (fixEntry fixT) = [4, 58, 17, 100, 46, 224, 25] ++
    [52, 1, 23, 6, 51, 61, 51, 29, 51, 104] ++ [0, 0, 0, 0, 0, 100, 0, 0, 0, 0, 0, 200] ++ [1, 51, 94] := by decide +kernel
theorem test_announce_points : ((List.range 256).filter (isAnnouncePoint 3)) = [3, 6, 12, 24, 48, 96, 192, 255] := by
  decide +kernel
theorem test_offset : offsetOf 512 256 = 2 ∧ offsetOf (-512) (-256) = -2 ∧ offsetOf 524032 524032 = 255 := by decide

/-! ## One step of every command -/

def held : State := { run with nc := { run.nc with node := .held } }
def loadingAt (t : Time) : State := { State.reset with nc := { Nc.reset with now := t } }
def goodBlock : Bytes := [198, 41, 17, 4, 46, 224] ++ List.replicate 58 255

theorem test_reset_assert : after .resetAssert (sending (noteAt .state 1)) (fun t => (t.nc.node, t.nc.now, t.lc.mac, t.lc.tx)) =
    some (.held, 0, .idle, none) := by decide +kernel
theorem test_reset_release : after .resetRelease held (fun t => (t.nc.node, t.nc.reading, t.nc.rng)) =
    some (.loading, true, 0) := by decide +kernel
theorem test_config_read : after (.configReadEnd (.complete goodBlock)) (loadingAt 5)
    (fun t => (t.nc.node, t.nc.cfg, t.nc.rng)) = some (.calibrating, cfgT, 286331153) := by decide +kernel
theorem test_config_no_ack : after (.configReadEnd (.notAcknowledged .deviceWrite)) (loadingAt 5)
    (fun t => (t.nc.node, t.nc.cfg, t.faultLine)) = some (.unnamed, Cfg.default, true) := by decide +kernel
theorem test_config_timeout : after .configReadTimeout (loadingAt 16000000) (fun t => (t.nc.node, t.nc.rng)) =
    some (.unnamed, 1) := by decide +kernel
theorem test_carrier_rise : after (.carrierRise .a) run (fun t => (t.lc.chA.carrier, t.lc.chA.jamTime)) =
    some (true, some 41000001) := by decide +kernel
theorem test_carrier_rise_backoff : after (.carrierRise .a) (mac .backoff (flying .state none (some 0)))
    (fun t => (t.lc.mac, t.na.queue.map fun n => n.link.bind (·.remaining))) = some (.defer, [some 1]) := by decide +kernel

def jammed : State := { run with lc := { Lc.reset with chA := ⟨true, true, none, none, 0, some [1]⟩ } }

theorem test_carrier_fall : after (.carrierFall .a) jammed (fun t => (t.lc.chA, t.lc.bad)) =
    some (⟨false, true, none, some 801000001, 0, none⟩, 1) := by decide +kernel
theorem test_jam_time : after (.jamTimeExpiry .b)
    { run with lc := { Lc.reset with chB := { Channel.reset with jamTime := some 1000001 } } } (fun t => t.lc.chB.jammed) =
    some true := by decide +kernel
theorem test_jam_clear : after (.jamClearExpiry .a)
    { run with lc := { Lc.reset with chA := { Channel.reset with jammed := true, jamClear := some 1000001 } } }
    (fun t => (t.lc.chA.jammed, t.lc.chA.jamClear)) = some (false, none) := by decide +kernel

def waitingCal : State := { runAt 1000000 with cfe := { Cfe.reset with cal := .waiting } }
def endingCal : State := { runAt 1002048 with cfe := { Cfe.reset with cal := .running 1000000 512 256 (-512) (-256) } }
def firstCal : State := { endingCal with nc := { endingCal.nc with node := .calibrating }, iw := Iw.reset }

theorem test_cal_start : after .calibrationStart waitingCal (fun t => t.cfe.cal) = some (.running 1000000 0 0 0 0) := by
  decide +kernel
theorem test_cal_deferred : after .calibrationStart
    { waitingCal with iw := { Iw.reset with detector := .opened ⟨0, 0, 0, 3, 0, false⟩ } } (fun t => t.cfe.cal) =
    some .waiting := by decide +kernel
theorem test_cal_end : after .calibrationEnd endingCal (fun t => (t.cfe.offR, t.cfe.offP, t.cfe.calDue)) =
    some (2, -2, some 48001002048) := by decide +kernel
theorem test_first_cal_end : after .calibrationEnd firstCal
    (fun t => (t.nc.node, t.iw.detector, t.na.stateTimer, t.runLine)) =
    some (.running, .watch 0 0 0, some 48001002048, true) := by decide +kernel
theorem test_cal_due : after .calibrationDue { run with cfe := { Cfe.reset with calDue := some 1000001 } }
    (fun t => (t.cfe.cal, t.cfe.calDue)) = some (.waiting, none) := by decide +kernel

/-- An envelope value of a block, delivered to a detector. -/
def envelopeAt (d : Detector) (v : Nat) : State :=
  { run with cfe := { Cfe.reset with envelope := some ⟨960128, v⟩ }, iw := { Iw.reset with detector := d } }

theorem test_onset : after .envelopeValue (envelopeAt (.watch 2 960000 350) 400)
    (fun t => (t.iw.detector, t.iw.bursts, t.iw.seen)) =
    some (.opened ⟨0, 960000, 400, 3, 0, false⟩, [⟨0, .capturing, true, 960000, 400, 3, some 0, none, none⟩], 1) := by
  decide +kernel
theorem test_burst_end : after .envelopeValue (envelopeAt (.opened ⟨4, 960000, 400, 3, 7, false⟩) 100)
    (fun t => t.iw.detector) = some (.watch 0 0 0) := by decide +kernel

def probeValueAt (v : Nat) : State := { run with cfe := { Cfe.reset with probeValue := some ⟨999936, v⟩ } }

theorem test_trigger : after .probeBandValue (probeValueAt 256)
    (fun t => (t.cfe.arrival.isCapturing, t.ptu.lastTrigger, t.ptu.guard)) =
    some (true, some 999936, some 120999937) := by decide +kernel
theorem test_no_trigger : after .probeBandValue (probeValueAt 255) (fun t => (t.cfe.arrival, t.cfe.probeValue)) =
    some (.free, none) := by decide +kernel

/-- Slot 3 full, its record first in the list. -/
def fullSlot : State :=
  { run with iw := { Iw.reset with
      slots := (List.replicate 8 Slot.free).set 3 (.filling 959488 2 (List.replicate 512 0))
      bursts := [burstT .capturing true (some 3)] } }

theorem test_snapshot : after (.snapshotFull 3) fullSlot (fun t => (t.iw.bursts.map (·.state), t.ce.running)) =
    some ([.queued], some ⟨.burst 3 959488 2, 1, 8, 1002401⟩) := by decide +kernel

/-- An engine with one job running and four waiting. -/
def fullEngine : Ce := ⟨some ⟨.burst 0 0 0, 1, 8, 2000000⟩, [.burst 1 0 0, .burst 2 0 0, .burst 4 0 0, .burst 5 0 0]⟩

theorem test_snapshot_refused : after (.snapshotFull 3) { fullSlot with ce := fullEngine }
    (fun t => (t.iw.bursts.map (·.state), t.iw.untimed)) = some ([.untimed], 1) := by decide +kernel

def fullWindow : State := { run with cfe := { Cfe.reset with window := .capturing 990000 (List.replicate 2048 1) } }
def fullArrival : State :=
  { run with
    cfe := { Cfe.reset with arrival := .capturing 997952 998208 (List.replicate 512 1) }
    ptu := { Ptu.reset with arrivals := [⟨998208, .capturing, none, some 80998208⟩] } }

theorem test_window_full : after .probeWindowFull fullWindow (fun t => t.ce.running) =
    some (some ⟨.echo 990000, 1, 8, 1057601⟩) := by decide +kernel
theorem test_arrival_full : after .arrivalCaptureFull fullArrival
    (fun t => (t.ce.running, t.ptu.arrivals.map (·.state))) =
    some (some ⟨.arrival 997952 998208, 1, 8, 1008001⟩, [.timing]) := by decide +kernel

/-- An ARRIVAL job whose pass ends now at shift S, its capture the samples given. -/
def arrivalPass (shift : Nat) (xs : List Int) : State :=
  { run with
    cfe := { Cfe.reset with arrival := .held 997952 998208 xs }
    ce := ⟨some ⟨.arrival 997952 998208, 1, shift, 1000001⟩, [.echo 5]⟩
    ptu := { Ptu.reset with arrivals := [⟨998208, .timing, none, some 80998208⟩] } }

theorem test_pass_again : after .passEnd (arrivalPass 8 [0, 2047, -2047, 2047]) (fun t => t.ce.running) =
    some (some ⟨.arrival 997952 998208, 2, 12, 1008001⟩) := by decide +kernel
theorem test_pass_done : after .passEnd (arrivalPass 12 [0, 2047])
    (fun t => (t.ce, t.cfe.arrival, t.ptu.arrivals.map (·.state))) =
    some (⟨some ⟨.echo 5, 1, 8, 1057601⟩, []⟩, .free, [.good 997952]) := by decide +kernel

/-- RUNNING with a probe schedule. -/
def probing (x : Schedule) : State :=
  { run with ptu := { Ptu.reset with schedule := x, nextProbe := 80, heard := [⟨23, 12, 999000⟩] } }

theorem test_probe_due : after .probeDue (probing (.counting 1000001))
    (fun t => (t.ptu.nextProbe, t.ptu.history, t.lc.mac, t.na.queue.map (·.content))) =
    some (81, [⟨80, 1000004⟩], .defer, [.probe 80 1000004 [⟨23, 12, 999000⟩]]) := by decide +kernel
theorem test_probe_blocked : after .probeDue { probing (.counting 1000001) with na := { Na.reset with hush := some 5000000 } }
    (fun t => t.ptu.schedule) = some (.blocked ⟨true, false, false, false, false⟩) := by decide +kernel
theorem test_settle : after .settleExpiry (probing (.settling 1000001)) (fun t => (t.ptu.nextProbe, t.cfe.window.isCapturing)) =
    some (81, true) := by decide +kernel
theorem test_guard : after .probeGuardExpiry { run with ptu := { Ptu.reset with guard := some 1000001 } } (fun t => t.ptu.guard) =
    some none := by decide +kernel

/-- Every list and table with an entry whose timer has run out. -/
def timers : State :=
  { run with
    iw := { Iw.reset with bursts := [{ burstT .timed false none with hold := some 1000001 }] }
    ptu := { Ptu.reset with
      arrivals := [⟨998208, .timing, none, some 1000001⟩]
      table := (List.replicate 12 none).set 11 (some (peer 23 15000)), partner := some 23 }
    pu := { Pu.reset with notices := [⟨214, 5, 6, [], 7, some 1000001⟩], lastPair := some ⟨1, 2⟩ }
    ft := { Ft.reset with places := (List.replicate 16 none).set 15 (some fixT) }
    na := { Na.reset with queue := [noteAt (.fix (some 15) fixT) 5], floor := 6 } }

theorem test_arrival_expiry : after (.arrivalExpiry 0) timers (fun t => (t.ptu.arrivals, t.ptu.discarded)) = some ([], 0) := by
  decide +kernel
theorem test_silence : after (.silenceExpiry 11) timers (fun t => (occupied t.ptu.table, t.ptu.partner, t.pu.notices, t.pu.lastPair)) =
    some ([], none, [], none) := by decide +kernel
theorem test_stale : after (.stalenessExpiry 11) timers (fun t => ((occupied t.ptu.table).map (·.state), t.ptu.partner)) =
    some ([.stale], none) := by decide +kernel
theorem test_pair_hold : after (.pairHoldExpiry 0) timers (fun t => t.iw.bursts) = some [] := by decide +kernel
theorem test_notice : after (.noticeExpiry 0) timers (fun t => t.pu.notices) = some [] := by decide +kernel
theorem test_fix_age : after (.fixAgeExpiry 15) timers (fun t => (occupied t.ft.places, t.na.queue.map (·.content))) =
    some ([], [.fix none fixT]) := by decide +kernel

/-! ### Frames -/

def probeBytes : Bytes := frame 23 1 7 9 15000 ([12] ++ timeBytes 1300000000 ++ [1] ++ [17, 80] ++ timeBytes 501000920)

/-- The worked exchange of chapter 06 as the PROBE NOTE finds it. -/
def exchanging : State :=
  hearing { runAt 1299600000 with ptu := { Ptu.reset with
      history := [⟨80, 500000000⟩]
      arrivals := [⟨1299000896, .good 1299000920, none, some 1379000896⟩] } }

theorem test_probe_frame : after (.probeFrame .a probeBytes) exchanging
    (fun t => ((occupied t.ptu.table).map fun n => (n.state, n.sync, n.distance), t.ptu.partner)) =
    some ([(.synced, some ⟨1000000, 899500460⟩, some 2999)], some 23) := by decide +kernel

def sigT : Bytes := [55, 120, 255, 240, 175, 160, 105, 100, 70, 78, 52, 44, 48, 22, 30, 10]
def burstBytesT : Bytes := frame 23 2 6 9 15000 ([214, 0] ++ timeBytes 2300504659 ++ [1, 144, 0, 5] ++ sigT)

/-- The pair traced in chapter 07 as the BURST NOTE finds it. -/
def pairing (bs : List Burst) : State :=
  hearing { runAt 2301200000 with
    iw := { Iw.reset with bursts := bs }
    ptu := { Ptu.reset with table := (List.replicate 12 none).set 0 (some (peer 23 15000)), partner := some 23 } }
def record88 : Burst := ⟨88, .timed, false, 2299500160, 400, 5, none, some ⟨2299500215, [60, 140, 255, 230, 190, 150, 120, 95,
  80, 70, 60, 50, 40, 30, 25, 20], 2299505000⟩, some 2699505000⟩

theorem test_burst_frame : after (.burstFrame .a burstBytesT) (pairing [record88])
    (fun t => (t.iw.bursts.length, t.pu.pairs, (occupied t.ft.places).map fun f => (f.kind, f.centre))) =
    some (0, 1, [(.inside, 13100)]) := by decide +kernel
theorem test_burst_frame_notice : after (.burstFrame .a burstBytesT) (pairing [])
    (fun t => t.pu.notices.map (·.ownOnset)) = some [2299500460] := by decide +kernel

def fixBytesT : Bytes := frame 23 3 5 9 15000 (fixEntry fixT)
def echoBytesT : Bytes := frame 23 4 7 9 15000 (findingEntry findT)
def stateBytesT : Bytes := frame 23 5 1 9 15000 (List.replicate 45 0)
def replyBytesT : Bytes := frame 23 6 3 9 15000 [3, 0, 0, 0]

theorem test_fix_frame : after (.fixFrame .a fixBytesT) (hearing run) (fun t => (t.na.floor, t.na.floorHold)) =
    some (5, some 161000001) := by decide +kernel
theorem test_echo_frame : after (.echoFrame .a echoBytesT) (hearing run) (fun t => t.na.floor) = some 6 := by decide +kernel
set_option maxRecDepth 100000 in
theorem test_state_frame : after (.stateFrame .a stateBytesT) (hearing run)
    (fun t => (occupied t.ptu.table).map fun n => (n.id, n.position, n.state)) = some [(23, 15000, .heard)] := by decide +kernel
theorem test_reply_frame : after (.replyFrame .a replyBytesT) (hearing run)
    (fun t => ((occupied t.ptu.table).map (·.lastSeq), t.lc.chA.receiver)) = some ([some 9], none) := by decide +kernel
theorem test_other_frame : after (.otherFrame .a (List.replicate 9 0)) (hearing run) (fun t => (t.lc.bad, t.lc.chA.receiver)) =
    some (1, none) := by decide +kernel

def ownBytes : Bytes := frame 17 5 1 9 15000 (List.replicate 45 0)

set_option maxRecDepth 100000 in
theorem test_clash : after (.otherFrame .a ownBytes) (hearing run) (fun t => (t.nc.node, t.faultLine)) =
    some (.clashed, true) := by decide +kernel
theorem test_sync : after (.preambleAndSync .b) run (fun t => t.lc.chB.receiver) = some (some []) := by decide +kernel
theorem test_len : after (.lenAbove96 .a [4, 16, 23, 0, 0, 0, 97]) (hearing run) (fun t => (t.lc.bad, t.lc.chA.receiver)) =
    some (1, none) := by decide +kernel

/-! ### Commands of the listening station -/

/-- A node with a fix, a finding and a neighbour. -/
def stocked : State :=
  hearing { run with
    ptu := timers.ptu
    ft := { Ft.reset with places := (List.replicate 16 none).set 2 (some fixT), nextFix := 53 }
    ec := { Ec.reset with watching := true, findings := [findT], baseline := [⟨5, 6, true⟩], nextFinding := 4 } }

/-- What a QUERY leaves: the notes' first bytes, the dump and the queries refused. -/
def pages (t : State) : List Bytes × Option Dump × Nat :=
  (t.na.queue.map (fun n => match n.content with | .reply p => p.payload.take 5 | _ => []), t.na.dump, t.na.refused)

theorem test_query_fixes : after (.queryFixes .a (commandFrame 1 1)) stocked pages =
    some ([[129, 2, 1, 1, 52]], some ⟨.fixes, 3⟩, 0) := by decide +kernel
theorem test_query_findings : after (.queryFindings .a (commandFrame 1 2)) stocked pages =
    some ([[130, 0, 1, 1, 3]], some ⟨.findings, 1⟩, 0) := by decide +kernel
theorem test_query_neighbours : after (.queryNeighbours .a (commandFrame 1 3)) stocked pages =
    some ([[131, 11, 1, 1, 23]], some ⟨.neighbours, 12⟩, 0) := by decide +kernel
theorem test_query_state : after (.queryState .a (commandFrame 1 4)) stocked pages =
    some ([[132, 0, 1, 1, 2]], none, 0) := by decide +kernel
theorem test_query_refused : after (.queryFixes .a (commandFrame 1 1))
    { stocked with na := { Na.reset with dump := some ⟨.findings, 0⟩ } } pages =
    some ([], some ⟨.findings, 0⟩, 1) := by decide +kernel
theorem test_rebase : after (.rebase .a (commandFrame 2 0)) stocked
    (fun t => (t.ec.watching, t.ec.baseline.length, t.ec.findings.length, (occupied t.ft.places).map (·.corroboration))) =
    some (false, 0, 0, [none]) := by decide +kernel
theorem test_rebase_pending : after (.rebase .a (commandFrame 2 0))
    { stocked with ce := ⟨some ⟨.echo 5, 1, 8, 2000000⟩, []⟩ } (fun t => (t.ec.rebase, t.ec.watching)) =
    some (true, true) := by decide +kernel
theorem test_clear : after (.clearFixes .a (commandFrame 3 0)) stocked (fun t => (occupied t.ft.places, t.ft.nextFix)) =
    some ([], 53) := by decide +kernel
theorem test_hush : after (.hush .a (commandFrame 4 9)) stocked (fun t => t.na.hush) = some (some 7201000001) := by decide +kernel
theorem test_hush_end : after (.hush .a (commandFrame 4 0)) { stocked with na := { Na.reset with hush := some 7201000001 } }
    (fun t => t.na.hush) = some none := by decide +kernel
theorem test_restart : after (.restart .a (commandFrame 5 0)) stocked
    (fun t => (t.nc.node, t.nc.now, t.ft.nextFix, t.cfe.cal)) = some (.calibrating, 1000001, 53, .waiting) := by decide +kernel
theorem test_unknown : after (.unknownCommand .a (commandFrame 6 0)) stocked (fun t => t.na.unknown) = some 1 := by
  decide +kernel

/-! ### Sending and notes -/

theorem test_gap : after .interframeGap (mac .defer (flying .state none (some 5))) (fun t => t.lc.mac) = some .backoff := by
  decide +kernel
theorem test_backoff_end : after .backoffEnd (mac .backoff (flying (.fix none fixT) none (some 0)))
    (fun t => (t.lc.mac, t.lc.tx.map fun x => (x.bytes.length, x.bytes.take 11))) =
    some (.sending, some (38, [170, 170, 147, 11, 4, 58, 17, 0, 46, 224, 25])) := by decide +kernel
theorem test_frame_sent : after .frameSent (sending (flying .state none none))
    (fun t => (t.lc.mac, t.na.queue, t.lc.ownEnd)) = some (.idle, [], some 1000001) := by decide +kernel
theorem test_collision : after .collision (cut (flying .state none none))
    (fun t => (t.lc.mac, t.na.queue.map fun n => n.link)) =
    some (.defer, [some ⟨some .a, 1, 0, 3, none⟩]) := by decide +kernel
theorem test_floor : after .floorHoldExpiry
    { run with na := { Na.reset with floor := 5, floorHold := some 1000001, queue := [noteAt .state 1] } }
    (fun t => (t.na.floor, t.lc.mac)) = some (0, .defer) := by decide +kernel
theorem test_deadline : after (.noteDeadline 0) (mac .defer (flying (.probe 3 990000 []) (some 1000001) none))
    (fun t => (t.na.queue, t.ptu.wasted, t.lc.mac)) = some ([], 1, .idle) := by decide +kernel
theorem test_hush_expiry : after .hushExpiry { run with na := { Na.reset with hush := some 1000001, queue := [noteAt .state 1] } }
    (fun t => (t.na.hush, t.lc.mac)) = some (none, .defer) := by decide +kernel
theorem test_state_timer : after .stateTimer { run with na := { Na.reset with stateTimer := some 1000001 } }
    (fun t => (t.na.stateTimer, t.na.queue.map (·.content))) = some (some 48001000001, [.state]) := by decide +kernel

/-! ## The hypotheses of the statements are met

For each obligation with hypotheses a state and operands that meet them, clause by clause, at boundary values where a
range has them. -/

/-- What holds of every member at its place. -/
theorem forall_places {α : Type} {P : Nat → α → Prop} {xs : List α} (h : ∀ p ∈ xs.zipIdx, P p.2 p.1) :
    ∀ (j : Nat) (y : α), xs[j]? = some y → P j y :=
  fun j y e => h (y, j) (List.mem_zipIdx_iff_getElem?.2 e)

theorem test_hyps_StepRuns : (run.withPending [.frameSent, .passEnd]).pending = .frameSent :: [.passEnd] := rfl

/-- The empty-queue step neither raises events nor samples. -/
def mayTick (s : State) : Bool :=
  s.pending.isEmpty && s.nc.node != .held && (dueEvents s).isEmpty && (s.nc.now.toNat % 4 != 0 || s.nc.sampled)

/-- SENDING with one byte heard, since `d` ticks. -/
def hearingSince (d : Int) : State :=
  { mac .sending (flying .state none none) with
    lc := { Lc.reset with mac := .sending, tx := some ⟨.a, [1, 2, 3], plus 1000001 (-d), [some 1]⟩ } }

theorem test_hyps_AddsOneTick :
    (mayTick (hearingSince 51200) = true ∧ (1 : Nat) < 3 ∧
      ((25600 * (1 + 1) : Nat) : Int) ≤ diff 1000001 (plus 1000001 (-51200))) ∧
    (mayTick (hearingSince 51199) = true ∧ diff 1000001 (plus 1000001 (-51199)) < ((25600 * (1 + 1) : Nat) : Int)) ∧
    (mayTick run = true ∧ run.lc.mac ≠ .backoff ∧ (run.nc.now + 1).toNat % 64 ≠ 0) ∧
    (let s := mac .backoff (flying .state none (some 5))
     mayTick s = true ∧ s.lc.mac = .backoff) ∧
    (let s := runAt 1000063
     mayTick s = true ∧ (s.nc.now + 1).toNat % 64 = 0 ∧ s.nc.node = .running ∧ s.cfe.cal.isRunning = false) ∧
    (let s := { runAt 1000063 with cfe := { Cfe.reset with cal := .running 1000000 0 0 0 0 } }
     mayTick s = true ∧ s.cfe.cal.isRunning = true) := by decide +kernel

theorem test_hyps_RaisesDueEvents : let s := envelopeAt (.watch 0 0 0) 5
    s.pending = [] ∧ s.nc.node ≠ .held ∧ dueEvents s ≠ [] := by decide +kernel

/-- A sample instant: a calibration since `d` ticks, slots, captures and the chirp's next sample. -/
def sampling (now : Time) (cal : CalState) (w : Window) (a : ArrivalBuffer) (n : Option Nat) (x : Slot) : State :=
  { runAt now with
    cfe := { Cfe.reset with cal := cal, window := w, arrival := a, chirp := n }
    iw := { Iw.reset with slots := (List.replicate 8 Slot.free).set 7 x } }

/-- The empty-queue step takes the samples of the line time. -/
def maySample (s : State) : Bool :=
  s.pending.isEmpty && s.nc.node != .held && (dueEvents s).isEmpty && s.nc.now.toNat % 4 == 0 && !s.nc.sampled

def samplingP : State := sampling 1000060 (.running 999037 1 0 2 0) (.capturing 1000060 []) (.capturing 9 9 []) (some 255)
  (.filling 5 0 [1])
def samplingN : State := sampling 1000060 (.running 999036 1 0 2 0) (.capturing 1000064 []) .free (some 256) .free

theorem test_hyps_TakesSamples :
    (maySample samplingP = true ∧ samplingP.cfe.cal = .running 999037 1 0 2 0 ∧ diff samplingP.nc.now 999037 = 1023 ∧
      samplingP.iw.slots[7]? = some (Slot.filling 5 0 [1]) ∧ samplingP.cfe.window = .capturing 1000060 [] ∧
      0 ≤ diff samplingP.nc.now 1000060 ∧ samplingP.cfe.arrival = .capturing 9 9 [] ∧ samplingP.cfe.chirp = some 255) ∧
    (maySample samplingN = true ∧ samplingN.cfe.cal = .running 999036 1 0 2 0 ∧ diff samplingN.nc.now 999036 = 1024 ∧
      (samplingN.iw.slots[7]?).all (fun w : Slot => !w.isFilling) = true ∧ diff samplingN.nc.now 1000064 < 0 ∧
      samplingN.cfe.chirp = some 256) ∧
    (let s := sampling 1000060 .idle .free .free none .free
     maySample s = true ∧ s.nc.now.toNat % 64 = 60 ∧ s.nc.node = .running ∧ s.cfe.cal.isRunning = false) ∧
    (maySample (sampling 1000056 .idle .free .free none .free) = true ∧ (1000056 : Nat) % 64 ≠ 60) := by decide +kernel

theorem test_hyps_HeldNode : held.nc.node = .held ∧ held.lc.mac = .idle ∧ held.pending = [] ∧
    Instr.passEnd ≠ .resetAssert ∧ Instr.passEnd ≠ .resetRelease ∧ (held.lc.channel .a).carrier = false ∧
    (let s := { held with lc := { Lc.reset with chB := { Channel.reset with carrier := true } } }
     s.nc.node = .held ∧ s.lc.mac = .idle ∧ (s.lc.channel .b).carrier = true ∧ (s.lc.channel .b).receiver = none) := by
  decide +kernel

/-- A draw in 0 … 1 without a rejection, and one in 0 … 2 whose first output is rejected. -/
theorem test_hyps_Draw : (0 < 1 ∧ 2 ^ (1 - 1) ≤ 1 ∧ 1 < 2 ^ 1 ∧ (rngStep^[0 + 1] 16843009).toNat % 2 ^ 1 ≤ 1) ∧
    (2 ^ (2 - 1) ≤ 2 ∧ 2 < 2 ^ 2 ∧ (∀ k, k < 1 → 2 < (rngStep^[k + 1] 18).toNat % 2 ^ 2) ∧
      (rngStep^[1 + 1] 18).toNat % 2 ^ 2 ≤ 2) := by decide +kernel

theorem test_hyps_ResetRelease : held.nc.node = .held := by decide

theorem test_hyps_ConfigurationRead : (loadingAt 16000000).nc.node = .loading ∧
    readPossible (.complete goodBlock) = true ∧ readPossible (.notAcknowledged .deviceRead) = true ∧
    (loadingAt 16000000).nc.now.toNat ≤ 16000000 ∧ 16000000 ≤ (loadingAt 16000000).nc.now.toNat := by decide +kernel

/-- The image with VF `hi`, `lo`. -/
def vfBlock (hi lo : Byte) : Bytes := ((List.replicate 64 (0 : Byte)).set 6 hi).set 7 lo

theorem test_hyps_LoadedConfiguration : (∀ b ∈ [vfBlock 2 87, vfBlock 2 88, vfBlock 3 182, vfBlock 3 183, vfBlock 255 255],
      b.length = 64) ∧
    (∀ k, k < 2 → byteAt (vfBlock 255 255) (6 + k) = 255) ∧ (∃ k, k < 2 ∧ byteAt (vfBlock 2 87) (6 + k) ≠ 255) ∧
    field (vfBlock 2 87) 6 2 < 600 ∧ 950 < field (vfBlock 3 183) 6 2 ∧ 600 ≤ field (vfBlock 2 88) 6 2 ∧
    field (vfBlock 3 182) 6 2 ≤ 950 ∧ byteAt (vfBlock 0 0) 33 = 0 ∧ byteAt ((vfBlock 0 0).set 33 1) 33 ≠ 0 ∧
    field (vfBlock 0 0) 34 2 = 0 ∧ field ((vfBlock 0 0).set 35 1) 34 2 ≠ 0 := by decide +kernel

theorem test_hyps_Conversions : (let x : Int := 4000 * 625 * 37474
     2 * (x - 10000000 * conv 625 4000).natAbs = 10000000) ∧
    (let y : Int := 18737 * 10000000
     let d : Int := 640 * 37474
     2 * (y - d * ticks 640 18737).natAbs = d.natAbs) ∧ 0 < 640 := by decide +kernel

/-- A calibration that waits while a slot is FILLING. -/
def deferredCal : State := { waitingCal with iw := { Iw.reset with slots := [.filling 5 0 []] } }

theorem test_hyps_Calibration :
    (∀ s ∈ [waitingCal, { deferredCal with nc := { waitingCal.nc with node := .calibrating } }],
      s.nc.node ≠ .held ∧ s.cfe.cal = .waiting ∧ s.nc.now.toNat % 64 = 0 ∧ s.nc.sampled = false ∧
      ((s.iw.detector.isOpen = false ∧ (∀ w ∈ s.iw.slots, w.isFilling = false) ∧ s.cfe.window.isCapturing = false ∧
        s.cfe.arrival.isCapturing = false) ∨ s.nc.node = .calibrating)) ∧
    (deferredCal.nc.node ≠ .calibrating ∧ ∃ w ∈ deferredCal.iw.slots, w.isFilling = true) ∧
    expired 1000001 (some 1000001) = true ∧
    (endingCal.nc.node ≠ .calibrating ∧ endingCal.cfe.cal = .running 1000000 512 256 (-512) (-256) ∧
      2048 ≤ diff endingCal.nc.now 1000000) ∧
    (firstCal.nc.node = .calibrating ∧ firstCal.cfe.cal = .running 1000000 512 256 (-512) (-256)) := by decide +kernel

/-- A legs' pair of the worked exchange: its distance is 2999, its m 899500460. -/
def fwd : ForwardLeg := ⟨500000000, 501000920⟩
def rev : ReverseLeg := ⟨1300000000, 1299000920, 12⟩

theorem test_hyps_ExchangeVerdict :
    (let n := { peer 23 15000 with reverse := some rev }
     n.reverse = some rev ∧ (diff 500000000 rev.hA).natAbs ≤ 1600000 * cfgT.probePeriod ∧ n.forward = none ∧
      1600000 * cfgT.probePeriod < (diff (plus rev.hA 1600000001) rev.hA).natAbs ∧
      (diff (plus rev.hA 1600000000) rev.hA).natAbs ≤ 1600000 * cfgT.probePeriod) ∧
    (∀ n ∈ [peer 23 15049, { peer 23 15049 with sync := none }, { peer 23 15049 with state := .doubtful, streak := 1 },
        { peer 23 15049 with state := .doubtful, streak := 2 }],
      let x := exchangeOf cfgT.vf fwd rev 0
      0 ≤ x.distance ∧ (x.distance - ((n.position : Int) - cfgT.position).natAbs).natAbs = 50 ∧ cfgT.posTol = 50 ∧
      diff 4099500460 x.mid ≤ (3200000 * cfgT.probePeriod : Nat) ∧
      (3200000 * cfgT.probePeriod : Nat) < diff 4099500461 x.mid) ∧
    (let x := exchangeOf cfgT.vf fwd rev 0
     cfgT.posTol < (x.distance - (((15050 : Nat) : Int) - cfgT.position).natAbs).natAbs ∧
      (exchangeOf cfgT.vf ⟨500000000, 500999080⟩ ⟨1300000000, 1298999080, 12⟩ 0).distance < 0 ∧
      diff 5099500460 (1899500460 : Time) ≤ (3200000 * cfgT.probePeriod : Nat) ∧
      (3200000 * cfgT.probePeriod : Nat) < diff 5099500461 (1899500460 : Time)) := by decide +kernel

/-- Four arrival records: those in places 1 and 2 have the earliest trigger. -/
def fourArrivals : List Arrival := [6, 5, 5, 7].map fun x : Time => ⟨x, .timing, none, none⟩

theorem test_hyps_ProbeBandValue :
    (let s := { probeValueAt 256 with ptu := { Ptu.reset with arrivals := fourArrivals } }
     s.nc.node = .running ∧ s.cfe.probeValue = some ⟨999936, 256⟩ ∧ s.cfe.arrival = .free ∧
      s.cfe.window.isCapturing = false ∧ s.cfe.cal.isRunning = false ∧ s.nc.cfg.probeTh ≤ 256 ∧
      s.ptu.arrivals.length = 4) ∧
    (probeValueAt 256).ptu.arrivals.length < 4 ∧
    ((probeValueAt 255).cfe.probeValue = some ⟨999936, 255⟩ ∧ 255 < (probeValueAt 255).nc.cfg.probeTh) := by
  decide +kernel
theorem test_hyps_ProbeBandValue_earliest : fourArrivals[1]? = some ⟨5, .timing, none, none⟩ ∧
    ∀ (j : Nat) (b : Arrival), fourArrivals[j]? = some b → j ≠ 1 →
      earlier 5 b.trigger = true ∨ (earlier b.trigger 5 = false ∧ 1 < j) := ⟨rfl, forall_places (by decide +kernel)⟩
/-- The samples from an instant on at line time 1000001, when that of 1000000 is taken, and at 1000000, when it is not. -/
theorem test_hyps_samplesFrom : diff 1000000 1000004 < 0 ∧ 0 ≤ diff 1000000 1000000 ∧
    samplesFrom run [3, 2, 1] 1000004 = [] ∧ samplesFrom run [3, 2, 1] 1000000 = [3] ∧
    samplesFrom run [3, 2, 1] 999996 = [2, 3] ∧ samplesFrom (runAt 1000000) [3, 2, 1] 999996 = [3] := by decide +kernel

/-- An engine with one job running and three waiting. -/
def roomyEngine : Ce := { fullEngine with waiting := fullEngine.waiting.take 3 }

theorem test_hyps_Engines : fullEngine.running ≠ none ∧ 4 ≤ fullEngine.waiting.length ∧ roomyEngine.running ≠ none ∧
    roomyEngine.waiting.length < 4 ∧ run.ce.running = none := by decide +kernel

theorem test_hyps_FullCaptures :
    (fullWindow.nc.node ≠ .held ∧ fullWindow.nc.node ≠ .clashed ∧
      fullWindow.cfe.window = .capturing 990000 (List.replicate 2048 1)) ∧
    (fullArrival.nc.node ≠ .held ∧ fullArrival.nc.node ≠ .clashed ∧
      fullArrival.cfe.arrival = .capturing 997952 998208 (List.replicate 512 1) ∧
      fullArrival.ptu.arrivals[0]? = some ⟨998208, .capturing, none, some 80998208⟩ ∧
      (∀ k, k < 0 → ∀ x, fullArrival.ptu.arrivals[k]? = some x → x.trigger ≠ 998208)) ∧
    (∀ a ∈ { fullArrival with ptu := Ptu.reset }.ptu.arrivals, a.trigger ≠ 998208) :=
  ⟨⟨nofun, nofun, rfl⟩, ⟨nofun, nofun, rfl, rfl, fun k h => absurd h (Nat.not_lt_zero k)⟩, nofun⟩
theorem test_hyps_FullCaptures_lengths : 2048 ≤ (List.replicate 2048 (1 : Int)).length ∧
    512 ≤ (List.replicate 512 (1 : Int)).length :=
  ⟨Nat.le_of_eq List.length_replicate.symm, Nat.le_of_eq List.length_replicate.symm⟩

/-- A full window in a CLASHED node, and before a full engine with the schedule BLOCKED by the window alone, which goes on. -/
def freedWindows : List State := [{ fullWindow with nc := { run.nc with node := .clashed } },
  { fullWindow with ce := fullEngine, ptu := { Ptu.reset with schedule := .blocked ⟨false, false, true, false, false⟩ } }]

theorem test_hyps_FullCaptures_freed : ∀ s ∈ freedWindows, s.nc.node ≠ .held ∧
    s.cfe.window = .capturing 990000 (List.replicate 2048 1) ∧
    (s.nc.node = .clashed ∨ (s.ce.running ≠ none ∧ 4 ≤ s.ce.waiting.length)) := by
  intro s h
  simp only [freedWindows, List.mem_cons, List.not_mem_nil, or_false] at h
  rcases h with rfl | rfl
  · exact ⟨nofun, rfl, .inl rfl⟩
  · exact ⟨nofun, rfl, .inr ⟨nofun, by decide⟩⟩
theorem test_window_freed : freedWindows.map (fun s => after .probeWindowFull s fun t =>
      (t.cfe.window, decide (t.ptu.schedule = s.ptu.schedule))) =
    [some (.free, true), some (.free, false)] := by decide +kernel

theorem test_hyps_Emission : let s := probing (.counting 1000001)
    s.nc.node = .running ∧ s.na.hush = none ∧ (∀ n ∈ s.na.queue, n.content.isProbe = false) ∧ s.cfe.window = .free ∧
    s.ptu.guard = none ∧ s.cfe.cal.isRunning = false ∧ s.na.queue.length < 16 ∧ reached s.nc.now 1000001 = true ∧
    (probing (.settling 1000001)).ptu.schedule = .settling 1000001 := by decide +kernel

theorem test_hyps_EmissionHeldBack :
    (let s := { probing (.counting 1000001) with na := { Na.reset with hush := some 5000000 } }
     s.nc.node ≠ .held ∧ s.na.hush ≠ none ∧ s.ptu.schedule = .counting 1000001 ∧ reached s.nc.now 1000001 = true) ∧
    (let s := { probing (.settling 1000001) with na := { Na.reset with queue := [noteAt (.probe 1 2 []) 7] } }
     (∃ n ∈ s.na.queue, n.content.isProbe = true) ∧ s.ptu.schedule = .settling 1000001) := by decide +kernel

theorem test_hyps_ProbeGuard :
    (let s := { run with ptu := { Ptu.reset with
        guard := some 1000001, schedule := .blocked ⟨false, false, false, true, false⟩ } }
     s.nc.node ≠ .held ∧ expired s.nc.now s.ptu.guard = true ∧
      s.ptu.schedule = .blocked ⟨false, false, false, true, false⟩) ∧
    (let s := { run with
        ptu := { Ptu.reset with guard := some 1000001, schedule := .blocked ⟨true, false, true, true, false⟩ }
        na := { Na.reset with hush := some 5 }
        cfe := { Cfe.reset with window := .held 5 [] } }
     expired s.nc.now s.ptu.guard = true ∧ s.na.hush ≠ none ∧ s.cfe.window ≠ .free) := by decide +kernel

/-- A schedule BLOCKED by the hush alone, in a hush that is over and in one that is not; and one not BLOCKED. -/
theorem test_hyps_Unblock : let s (h : Option Time) := { run with
      ptu := { Ptu.reset with schedule := .blocked ⟨true, false, false, false, false⟩ }
      na := { Na.reset with hush := h } }
    (s (some 5)).ptu.schedule = .blocked ⟨true, false, false, false, false⟩ ∧ (s (some 5)).na.hush ≠ none ∧
    (s none).nc.node = .running ∧ (s none).na.hush = none ∧ run.ptu.schedule = .off := by decide +kernel

/-- A node whose ECHO job ends now with two samples of its window apart. -/
def echoing (second : Int) (e : Ec) : State :=
  { run with
    cfe := { Cfe.reset with window := .held 990000 ([0, 2000, 0, 0, 0, 0, 0, 0, 0, 0, 0] ++ [second]) }
    ce := ⟨some ⟨.echo 990000, 1, 8, 1000001⟩, []⟩
    ec := e }

/-- The result of a window with the chirp's trace at lag 0 alone: the main peak and nothing else. -/
def alone : State := { echoing 0 Ec.reset with cfe := { Cfe.reset with window := .held 990000 [0, 2000] } }

theorem test_outputs_alone : passOutputs alone ⟨.echo 990000, 1, 8, 1000001⟩ = 7281 :: List.replicate 1792 0 := by
  decide +kernel
theorem test_marks_alone : allMarks cfgT (passOutputs alone ⟨.echo 990000, 1, 8, 1000001⟩) = [] := by
  have h (k : Nat) : isMark cfgT.echoFloor (7281 :: List.replicate 1792 0) k = false := by
    rcases k with _ | k
    · decide +kernel
    · have e (j : Nat) : ((7281 :: List.replicate 1792 (0 : Int)).getD (j + 1) 0).natAbs = 0 := by
        rw [List.getD_eq_getElem?_getD, List.getElem?_cons_succ, List.getElem?_replicate]
        split <;> rfl
      simp only [isMark, e, Nat.lt_irrefl, decide_false, Bool.and_false, Bool.false_and]
  rw [test_outputs_alone, allMarks, List.filter_eq_nil_iff.2 (fun k _ => by rw [h k]; decide), List.map_nil]

theorem test_hyps_EchoProfile : (∀ s ∈ [alone, echoing 2000 Ec.reset, echoing 2000 { Ec.reset with rebase := true }],
      s.nc.node = .running ∧ s.ce.running = some ⟨.echo 990000, 1, 8, 1000001⟩ ∧ reached s.nc.now 1000001 = true ∧
      (∀ a ∈ jobAccs s (.echo 990000), isClamped 8 a = false) ∧ s.ec.watching = false ∧
      2 ^ 18 ≤ mainPeak (passOutputs s ⟨.echo 990000, 1, 8, 1000001⟩) * 2 ^ 8) := by decide +kernel

/-- The second peak is a mark of q 128 or more. -/
def echoed : List Int := passOutputs (echoing 2000 Ec.reset) ⟨.echo 990000, 1, 8, 1000001⟩
theorem test_outputs_echoed : isMark cfgT.echoFloor echoed 8 = true ∧ 128 ≤ markQ echoed 8 ∧ echoed.length = 1793 := by
  decide +kernel
theorem test_hyps_MainPeak : 4 ≤ echoed.length := by rw [test_outputs_echoed.2.2]; decide
theorem test_hyps_EchoProfile_collided : ∃ m ∈ allMarks cfgT echoed, 128 ≤ m.q :=
  ⟨markAt cfgT.vf echoed 8, List.mem_map_of_mem (List.mem_filter.2
    ⟨List.mem_range.2 (by rw [test_outputs_echoed.2.2]; decide), test_outputs_echoed.1⟩), test_outputs_echoed.2.1⟩

/-- Marks at the ends of MARK_MATCH: the nearer of two, and one past it; the weakest and farthest of three. -/
theorem test_hyps_EchoMarks :
    Nearest (·.distance) 1020 (fun x : Mark => apart x.distance 1020 ≤ 20) [⟨1000, 5, true⟩, ⟨1030, 5, true⟩] 1
      ⟨1030, 5, true⟩ ∧
    Nearest (·.distance) 1020 (fun x : Mark => apart x.distance 1020 ≤ 20) [⟨1000, 5, true⟩, ⟨1040, 5, true⟩] 0
      ⟨1000, 5, true⟩ ∧
    (∀ b ∈ [(⟨1000, 5, true⟩ : Mark)], 20 < apart b.distance 1021) ∧
    (List.replicate 23 (0 : Nat)).length < 24 ∧ 24 ≤ (List.replicate 24 (0 : Nat)).length ∧
    (let ms : List Mark := [⟨1000, 5, true⟩, ⟨1200, 5, false⟩, ⟨1300, 6, true⟩]
     ∀ j x, ms[j]? = some x → j ≠ 1 → 5 < x.q ∨ (5 = x.q ∧ x.distance < 1200)) := by
  refine ⟨⟨rfl, by decide, forall_places (by decide)⟩, ⟨rfl, by decide, forall_places (by decide)⟩, by decide, by decide,
    by decide, forall_places (by decide)⟩

theorem test_hyps_Exchange : (-(2 ^ 47) ≤ (0 : Int) + -(2 ^ 47) ∧ (0 : Int) + -(2 ^ 47) < 2 ^ 47 ∧
      -(2 ^ 47) ≤ -(2 ^ 47) - (0 : Int) ∧ -(2 ^ 47) - (0 : Int) < 2 ^ 47) ∧
    (-(2 ^ 47) ≤ (1000000 : Int) + 920 ∧ (1000000 : Int) + 920 < 2 ^ 47 ∧ -(2 ^ 47) ≤ (920 : Int) - 1000000) := by decide

/-- The ends of the rate update's ranges: Δm, Δθ, the jump and the streak. -/
theorem test_hyps_Rate : (2 ^ 24 - 1 : Int) < 2 ^ 24 ∧ 2 ^ 31 ≤ ((2 ^ 31 : Int)).natAbs ∧ (2 ^ 31 - 1 : Int).natAbs < 2 ^ 31 ∧
    2 ^ 19 < ((2 ^ 19 + 1 : Int) - 0).natAbs ∧ ((2 ^ 19 : Int) - 0).natAbs ≤ 2 ^ 19 ∧
    updateRate 0 (2 ^ 24 - 1) none 1 = (none, 1) ∧ updateRate (2 ^ 31) (2 ^ 24) (some 5) 2 = (none, 0) ∧
    updateRate (2 ^ 31) (2 ^ 24) (some 5) 1 = (some 5, 2) ∧ updateRate (2 ^ 31 - 1) (2 ^ 24) none 0 = (some 8388607, 0) ∧
    updateRate 2049 (2 ^ 24) (some 0) 2 = (some 524544, 0) ∧ updateRate 2048 (2 ^ 24) (some 0) 2 = (some 131072, 0) := by
  decide +kernel

theorem test_hyps_Partner : choosePartner 12000 [some (peer 23 15000)] = some 23 ∧
    choosePartner 15000 [some (peer 23 15000)] = none := by decide

/-- A full burst list: the UNTIMED record in place 5 has the earliest coarse onset. -/
def fullBursts : List Burst :=
  (List.replicate 16 { burstT .timed false none with onset := 970000 }).set 5 (burstT .untimed false none)

theorem test_hyps_Onset :
    (let s := envelopeAt (.watch 2 960000 350) 400
     s.nc.node = .running ∧ s.cfe.envelope = some ⟨960128, 400⟩ ∧ s.iw.detector = .watch 2 960000 350 ∧
      s.nc.cfg.upperTh ≤ 400 ∧ (960128 : Time) = plus 960000 (64 * 2 : Nat) ∧ s.nc.cfg.confirmN = 2 + 1 ∧
      s.iw.slots[0]? = some .free ∧ (∀ j, j < 0 → s.iw.slots[j]? ≠ some .free) ∧ s.iw.bursts.length < 16) ∧
    (let r := run
     let s := { r with
       nc := { r.nc with cfg := { cfgT with confirmN := 1 } }
       cfe := { Cfe.reset with envelope := some ⟨960128, 300⟩ }
       iw := { Iw.reset with
         detector := .watch 0 0 0, slots := List.replicate 8 (.job 5 0 []), bursts := fullBursts } }
     s.nc.cfg.confirmN = 1 ∧ s.nc.cfg.upperTh ≤ 300 ∧ s.iw.detector = .watch 0 0 0 ∧ (∀ w ∈ s.iw.slots, w ≠ .free) ∧
      16 ≤ s.iw.bursts.length ∧ s.iw.bursts[5]? = some (burstT .untimed false none)) := by
  decide +kernel
theorem test_hyps_Onset_victim : ∀ j y, fullBursts[j]? = some y → j ≠ 5 → y.state = .timed ∨ y.state = .untimed →
    earlier 960000 y.onset = true := forall_places (by decide +kernel)

theorem test_hyps_EnvelopeInWatch :
    (let s := envelopeAt (.watch 1 960064 350) 299
     s.nc.node = .running ∧ s.cfe.envelope = some ⟨960128, 299⟩ ∧ s.iw.detector = .watch 1 960064 350 ∧
      1 ≤ s.nc.cfg.confirmN ∧ 299 < s.nc.cfg.upperTh) ∧
    (let s := envelopeAt (.watch 1 960064 350) 300
     s.nc.cfg.upperTh ≤ 300 ∧ (960128 : Time) = plus 960064 (64 * 1 : Nat) ∧ 1 + 1 < s.nc.cfg.confirmN) ∧
    ((960128 : Time) ≠ plus 960000 (64 * 1 : Nat) ∧ 1 < cfgT.confirmN) ∧
    (let s := { envelopeAt .off 300 with nc := { run.nc with node := .clashed } }
     s.nc.node ≠ .held ∧ s.nc.node ≠ .running ∧ s.cfe.envelope ≠ none) := by decide +kernel

/-- An open burst that began a number of blocks before block 960128. -/
def openT (below duration : Nat) (long : Bool) (blocks : Int) : OpenBurst :=
  ⟨41, plus 960128 (-(64 * blocks)), 400, duration, below, long⟩

theorem test_hyps_OpenBurst :
    (∀ o ∈ [openT 6 12499 false 7, openT 6 12500 true 7],
      let s := envelopeAt (.opened o) 199
      s.nc.node = .running ∧ 1 ≤ s.nc.cfg.confirmN ∧ s.cfe.envelope = some ⟨960128, 199⟩ ∧ s.iw.detector = .opened o ∧
        199 < s.nc.cfg.lowerTh ∧ o.below < 7 ∧ (o.long = true ∨ o.duration < 12500)) ∧
    (let o := openT 7 3 false 7
     let s := { envelopeAt (.opened o) 199 with iw := { Iw.reset with
        detector := .opened o, bursts := [burstT .timed false none, burstT .long true none] } }
     s.iw.detector = .opened o ∧ 7 ≤ o.below ∧ (∃ b ∈ s.iw.bursts, b.opened = true ∧ b.state = .long)) ∧
    (∀ o ∈ [openT 0 12000 false 12498, openT 0 65535 true 65535],
      let s := envelopeAt (.opened o) 200
      s.nc.cfg.lowerTh ≤ 200 ∧ (o.long = true ∨ (o.duration < 12500 ∧ diff 960128 o.onset / 64 < 12499))) ∧
    (let o := openT 0 12000 false 12499
     let s := envelopeAt (.opened o) 200
     s.nc.cfg.lowerTh ≤ 200 ∧ o.long = false ∧ 12499 ≤ diff 960128 o.onset / 64 ∧ s.nc.cfg.levelBurst ≠ 0 ∧
      s.na.queue.length < 16 ∧ { cfgT with levelBurst := 0 }.levelBurst = 0) ∧
    ([{ burstT .timed true none with timing := some ⟨5, [], 6⟩ }].find? (·.opened)).bind (·.timing) = some ⟨5, [], 6⟩ := by
  decide +kernel

theorem test_hyps_FullSnapshot : fullSlot.nc.node ≠ .held ∧ fullSlot.nc.node ≠ .clashed ∧
    fullSlot.iw.slots[3]? = some (.filling 959488 2 (List.replicate 512 0)) ∧
    fullSlot.iw.bursts[0]? = some (burstT .capturing true (some 3)) ∧ (burstT .capturing true (some 3)).slot = some 3 ∧
    (∀ k, k < 0 → ∀ a, fullSlot.iw.bursts[k]? = some a → a.slot ≠ some 3) ∧ fullSlot.ce.running = none :=
  ⟨nofun, nofun, rfl, rfl, rfl, fun k h => absurd h (Nat.not_lt_zero k), rfl⟩

theorem test_hyps_PassEnd_rerun : let s := arrivalPass 8 [0, 2047, -2047, 2047]
    s.nc.node ≠ .held ∧ s.ce.running = some ⟨.arrival 997952 998208, 1, 8, 1000001⟩ ∧
    reached s.nc.now 1000001 = true ∧ ∃ a ∈ jobAccs s (.arrival 997952 998208), isClamped 8 a = true := by decide +kernel

theorem test_hyps_PassEnd_done : let s := arrivalPass 12 [0, 2047]
    s.ce.running = some ⟨.arrival 997952 998208, 1, 12, 1000001⟩ ∧ reached s.nc.now 1000001 = true ∧
    (∀ a ∈ jobAccs s (.arrival 997952 998208), isClamped 12 a = false) ∧ s.ce.waiting = [.echo 5] ∧
    alone.ce.waiting = [] := by decide +kernel

/-- A BURST TIMING job whose pass ends now. -/
def burstPass : State :=
  { run with
    nc := { run.nc with cfg := { cfgT with levelBurst := 0 } }
    iw := { Iw.reset with
      slots := (List.replicate 8 Slot.free).set 3 (.job 959488 0 [5, 5]), bursts := [burstT .queued false (some 3)] }
    ce := ⟨some ⟨.burst 3 959488 0, 1, 8, 1000001⟩, []⟩ }

theorem test_hyps_DoneResult_burst : let s := burstPass
    s.nc.node = .running ∧ s.ce.running = some ⟨.burst 3 959488 0, 1, 8, 1000001⟩ ∧ reached s.nc.now 1000001 = true ∧
    (∀ a ∈ jobAccs s (.burst 3 959488 0), isClamped 8 a = false) ∧ s.iw.slots[3]? = some (.job 959488 0 [5, 5]) ∧
    s.iw.bursts[0]? = some (burstT .queued false (some 3)) ∧ s.nc.cfg.levelBurst = 0 ∧ s.ptu.partner = none ∧
    run.nc.cfg.levelBurst ≠ 0 ∧ run.nc.node = .running ∧ run.na.queue.length < 16 := by
  decide +kernel

theorem test_hyps_DoneResult_arrival : let s := arrivalPass 12 [0, 2047]
    s.ptu.arrivals[0]? = some ⟨998208, .timing, none, some 80998208⟩ ∧
    arrivalTime false 997952 (passOutputs s ⟨.arrival 997952 998208, 1, 12, 1000001⟩) = some 997952 := by decide +kernel

/-- That ARRIVAL job with its record labelled; without its record; its capture of no chirp; in CLASHED; SATURATED. -/
theorem test_hyps_DoneResult_arrivals :
    (let s := { arrivalPass 12 [0, 2047] with
       ptu := { Ptu.reset with arrivals := [⟨998208, .timing, some ⟨23, 12, 999000⟩, none⟩] } }
     s.ptu.arrivals[0]? = some ⟨998208, .timing, some ⟨23, 12, 999000⟩, none⟩) ∧
    (∀ a ∈ { arrivalPass 12 [0, 2047] with ptu := Ptu.reset }.ptu.arrivals, a.trigger ≠ 998208) ∧
    (let s := arrivalPass 12 []
     (∀ a ∈ jobAccs s (.arrival 997952 998208), isClamped 12 a = false) ∧
      arrivalTime false 997952 (passOutputs s ⟨.arrival 997952 998208, 1, 12, 1000001⟩) = none) ∧
    (let s := arrivalPass 20 [0, 1000000000000]
     s.ptu.arrivals[0]? = some ⟨998208, .timing, none, some 80998208⟩ ∧ reached s.nc.now 1000001 = true ∧
      ∃ a ∈ jobAccs s (.arrival 997952 998208), isClamped 20 a = true) := by decide +kernel

/-- An ECHO job whose window gives outputs of 0. -/
def echoPass : State := { alone with cfe := { Cfe.reset with window := .held 990000 [] } }

theorem test_hyps_DoneResult_echo : ∀ rebase ∈ [false, true], let s := { echoPass with ec := { Ec.reset with rebase := rebase } }
    s.nc.node = .running ∧ reached s.nc.now 1000001 = true ∧
    (∀ a ∈ jobAccs s (.echo 990000), isClamped 8 a = false) ∧
    mainPeak (passOutputs s ⟨.echo 990000, 1, 8, 1000001⟩) * 2 ^ 8 < 2 ^ 18 := by decide +kernel
/-- An ECHO job with a clamped output at S 20; jobs that end in CLASHED; a burst's job without its record. -/
theorem test_hyps_DoneResult_others :
    (let s := { echoPass with
       cfe := { Cfe.reset with window := .held 990000 [0, 1000000000000] }
       ce := ⟨some ⟨.echo 990000, 4, 20, 1000001⟩, []⟩ }
     ∃ a ∈ jobAccs s (.echo 990000), isClamped 20 a = true) ∧
    (∀ s ∈ [burstPass, arrivalPass 12 [0, 2047], echoPass],
      { s with nc := { s.nc with node := .clashed } }.nc.node = .clashed ∧ s.ce.running.isSome = true ∧
        ∀ r ∈ s.ce.running, reached s.nc.now r.endsAt = true ∧ ∀ a ∈ jobAccs s r.job, isClamped r.shift a = false) ∧
    (∀ b ∈ [burstT .queued false (some 2)], b.slot ≠ some 3) := by decide +kernel
/-- Outputs with a peak, a step in the middle, at both ends and for a divisor of 0, one GOOD and one not, and a snapshot. -/
theorem test_hyps_Results : let ys : List Int := [9000, 12000, 10500]
    ys ≠ [] ∧ (1 + 1 < ys.length ∧ 9000 - 2 * 12000 + 10500 ≠ (0 : Int)) ∧ ys.length ≤ 2 + 1 ∧
    5 - 2 * 6 + 7 = (0 : Int) ∧
    arrivalTime false 1000 ys = some 1005 ∧ arrivalTime false 1000 [0, 0] = none ∧
    (List.replicate 512 (5 : Nat)).length = 512 ∧ fineOnset 1000 ys = 1069 := by decide +kernel

theorem test_hyps_Results_good : GoodArrival [9000, 12000, 10500] 1 ∧ ¬GoodArrival [0, 0] 0 :=
  ⟨⟨by decide, fun j (h : j < 3) _ _ k => absurd k (by omega)⟩, fun h => absurd h.1 (by decide)⟩

theorem test_hyps_Accumulators : (∀ w ∈ samplingP.iw.slots, ∀ x ∈ w.samples, -2048 ≤ x ∧ x ≤ 2047) ∧
    (∀ x ∈ (arrivalPass 8 [0, 2047, -2048, 2047]).cfe.arrival.samples, -2048 ≤ x ∧ x ≤ 2047) ∧
    (∀ x ∈ alone.cfe.window.samples, -2048 ≤ x ∧ x ≤ 2047) := by decide +kernel

theorem test_hyps_WatchedProfile : ∀ rebase ∈ [false, true],
    let s := { alone with ec := { Ec.reset with watching := true, rebase := rebase } }
    s.nc.node = .running ∧ s.ce.running = some ⟨.echo 990000, 1, 8, 1000001⟩ ∧ reached s.nc.now 1000001 = true ∧
    (∀ a ∈ jobAccs s (.echo 990000), isClamped 8 a = false) ∧ s.ec.watching = true ∧
    2 ^ 18 ≤ mainPeak (passOutputs s ⟨.echo 990000, 1, 8, 1000001⟩) * 2 ^ 8 := by decide +kernel
theorem test_hyps_WatchedProfile_clean :
    ∀ m ∈ allMarks cfgT (passOutputs alone ⟨.echo 990000, 1, 8, 1000001⟩), m.q < 128 := by
  rw [test_marks_alone]; nofun

/-- A NEW condition or candidate at a distance. -/
def condT (d : Nat) : Candidate := ⟨.new, d, 1, 40, true, 0⟩

/-- A baseline mark that is taken, a candidate that is continued, and the next in reach. -/
theorem test_hyps_Candidates :
    Nearest (·.1.distance) 1020 (fun y : Taken => apart y.1.distance 1020 ≤ 20 ∧ y.2 = none)
      [(⟨1010, 5, true⟩, some ⟨1011, 6, true⟩), (⟨1000, 5, true⟩, none)] 1 (⟨1000, 5, true⟩, none) ∧
    (∀ y ∈ [((⟨1000, 5, true⟩, some ⟨1001, 5, true⟩) : Taken), (⟨999, 5, true⟩, none)], apart y.1.distance 1020 ≤ 20 → y.2 ≠ none) ∧
    Nearest (·.1.distance) 1020
      (fun y : Continued => y.1.kind = (condT 1020).kind ∧ apart y.1.distance 1020 ≤ 20 ∧ y.2 = false)
      [(condT 1020, true), (condT 1000, false)] 1 (condT 1000, false) ∧
    (∀ y ∈ [((condT 1000, true) : Continued)], y.1.kind = (condT 1020).kind → apart y.1.distance 1020 ≤ 20 → y.2 = true) ∧
    (∃ y ∈ [((condT 1000, true) : Continued)], y.1.kind = (condT 1020).kind ∧ apart y.1.distance 1020 ≤ 20) ∧
    (∀ y ∈ [((condT 1000, false) : Continued)], y.1.kind = (condT 1021).kind → 20 < apart y.1.distance 1021) ∧
    (∃ x ∈ [condT 1000], x.kind = (condT 1020).kind ∧ apart x.distance 1020 ≤ 20) ∧
    (∀ x ∈ [condT 1000], x.kind = (condT 1021).kind → 20 < apart x.distance 1021) := by
  refine ⟨⟨rfl, by decide, forall_places (by decide)⟩, by decide, ⟨rfl, by decide, forall_places (by decide)⟩, by decide,
    by decide, by decide, by decide, by decide⟩

theorem test_hyps_Confirmation :
    Nearest (·.distance) 1020 (fun x : Mark => apart x.distance 1020 ≤ cfgT.markMatch) [⟨1000, 5, true⟩] 0 ⟨1000, 5, true⟩ ∧
    (∀ m ∈ [(⟨1000, 5, true⟩ : Mark)], cfgT.markMatch < apart m.distance 1021) ∧
    (List.replicate 23 (⟨1000, 5, true⟩ : Mark)).length < 24 ∧ 24 ≤ (List.replicate 24 (⟨1000, 5, true⟩ : Mark)).length ∧
    run.nc.cfg.levelEcho ≠ 0 ∧ run.nc.node = .running ∧ run.na.queue.length < 16 :=
  ⟨⟨rfl, by decide, forall_places (by decide)⟩, by decide, by decide, by decide, by decide, rfl, by decide⟩

theorem test_hyps_ExpiredEntries : timers.nc.node ≠ .held ∧
    (timers.iw.bursts[0]?).any (fun b => expired timers.nc.now b.hold) = true ∧
    (timers.ptu.arrivals[0]?).any (fun a => expired timers.nc.now a.expiry) = true ∧
    (timers.pu.notices[0]?).any (fun n => expired timers.nc.now n.expiry) = true ∧
    timers.ft.places[15]? = some (some fixT) ∧ expired timers.nc.now fixT.age = true := by decide +kernel

theorem test_hyps_NeighbourTimers : timers.ptu.table[11]? = some (some (peer 23 15000)) ∧
    expired timers.nc.now (peer 23 15000).silence = true ∧ expired timers.nc.now (peer 23 15000).stale = true ∧
    (peer 23 15000).state = .synced ∧ { peer 23 15000 with state := .stale }.state = .stale := by
  decide +kernel
/-- A note of the fix and one of none; a table that keeps the partner and one that does not. -/
theorem test_hyps_Unlink : (noteAt (.fix (some 15) fixT) 5).content = .fix (some 15) fixT ∧
    (noteAt .state 1).content.standsFor 15 = false ∧
    choosePartner timers.nc.cfg.position timers.ptu.table = timers.ptu.partner ∧
    choosePartner timers.nc.cfg.position (timers.ptu.table.set 11 none) ≠ timers.ptu.partner := by decide +kernel

theorem test_hyps_SignatureScore : let xs := List.replicate 16 255
    xs.length = 16 ∧ (∀ x ∈ xs, x ≤ 255) ∧ score xs (List.replicate 16 0) = 4080 := by decide +kernel

theorem test_hyps_Location : (12000 : Int) < 15000 ∧ located 12000 15000 24000 = (.beyondLow, 12000) ∧
    located 12000 15000 24001 = (.inside, 12000) ∧ located 12000 15000 29999 = (.inside, 14999) ∧
    located 12000 15000 30000 = (.beyondHigh, 15000) := by decide

/-- A node with fixes in its first places, findings and notes. -/
def fixes (fs : List Fix) (gs : List Finding) (q : List Note) (level : Nat) : State :=
  { run with
    nc := { run.nc with cfg := { cfgT with levelFix := level } }
    ft := { Ft.reset with places := fs.map some ++ List.replicate (16 - fs.length) none }
    ec := { Ec.reset with findings := gs }
    na := { Na.reset with queue := q } }

theorem test_hyps_Announce : Announces 3 { fixT with count := 6, announced := some 3 } ∧
    Announces 3 { fixT with count := 255, announced := none } ∧ ¬Announces 3 { fixT with count := 6, announced := some 6 } ∧
    ¬Announces 3 { fixT with count := 7, announced := none } ∧
    (let s := fixes [fixT] [] [] 5
     s.ft.places[0]? = some (some fixT) ∧ s.nc.cfg.levelFix ≠ 0 ∧ s.nc.node = .running ∧ s.na.queue.length < 16 ∧
      ∀ n ∈ s.na.queue, n.content.standsFor 0 = true → n.inFlight = true ∧ s.lc.mac = .sending) ∧
    (fixes [fixT] [] [] 0).nc.cfg.levelFix = 0 ∧
    (let s := fixes [fixT] [] [noteAt (.fix (some 0) fixT) 5] 5
     ∃ n ∈ s.na.queue, n.content.standsFor 0 = true ∧ ¬(n.inFlight = true ∧ s.lc.mac = .sending)) := by
  refine ⟨⟨Or.inl ⟨1, rfl, by decide⟩, by decide⟩, ⟨Or.inr rfl, by decide⟩, fun h => absurd (h.2 6 rfl) (by decide), ?_,
    by decide +kernel, rfl, by decide +kernel⟩
  rintro ⟨h | h, _⟩
  · obtain ⟨k, h, _⟩ := h
    rcases k with _ | _ | k
    · exact absurd h (by decide)
    · exact absurd h (by decide)
    · have := Nat.one_le_two_pow (n := k)
      simp only [Nat.pow_succ] at h
      omega
  · exact absurd h (by decide)

/-- Findings at the ends of the reach of a fix of 13085 … 13160 with radius 60, and one past it. -/
theorem test_hyps_Corroborate :
    (∀ g ∈ [{ findT with position := 13025 }, { findT with position := 13220, kind := .grown }],
      Corroborates 60 { fixT with corroboration := none } g) ∧
    ¬Corroborates 60 fixT { findT with position := 13024 } ∧ ¬Corroborates 60 fixT { findT with kind := .gone } ∧
    (let f := fixT
     let gs := [{ findT with position := 13025 }, { findT with position := 13117 }, { findT with position := 13117 }]
     let off := fun g : Finding => ((g.position : Int) - f.centre).natAbs
     ∀ j h, gs[j]? = some h → j ≠ 1 → Corroborates 60 f h →
      off { findT with position := 13117 } < off h ∨ (off { findT with position := 13117 } = off h ∧
        (earlier findT.confirmed h.confirmed = true ∨ (earlier h.confirmed findT.confirmed = false ∧ 1 < j)))) ∧
    fixT.kind = .inside ∧ fixT.corroboration ≠ none ∧ { fixT with kind := .beyondLow }.kind ≠ .inside := by
  refine ⟨?_, ?_, ?_, forall_places ?_, rfl, nofun, nofun⟩ <;> unfold Corroborates <;> decide +kernel

theorem test_hyps_Merge : fixT.low ≤ fixT.centre ∧ fixT.centre ≤ fixT.high ∧ 1 ≤ fixT.count ∧ fixT.count ≤ 255 := by decide

/-- A result of the pair of node 17 and its partner at a position. -/
def resultT (x : Int) : Result := ⟨.inside, 23, 15000, x, 1000001⟩

/-- Two fixes as near the result, the second seen first; a full table whose count-1 fix in place 7 was seen last the
earliest; a full table without one. -/
def twoFixes : List (Option Fix) := [some { fixT with firstSeen := 300, centre := 13177 }, none, some { fixT with centre := 13057 }]
def oneFixes : List (Option Fix) := (List.replicate 16 (some { fixT with count := 1 })).set 7
  (some { fixT with count := 1, lastSeen := 150 })

theorem test_hyps_TakeResult :
    (Fits 60 (resultT 13117) { fixT with centre := 13057 } ∧
      ∀ (q : Nat) (o : Option Fix), twoFixes[q]? = some o → ∀ g, o = some g → q ≠ 2 → Fits 60 (resultT 13117) g →
        60 < ((13117 : Int) - g.centre).natAbs ∨ (60 = ((13117 : Int) - g.centre).natAbs ∧
          (earlier 100 g.firstSeen = true ∨ (earlier g.firstSeen 100 = false ∧ 2 < q)))) ∧
    ((∀ f ∈ occupied twoFixes, ¬Fits 60 (resultT 13238) f) ∧ twoFixes[1]? = some none ∧
      ∀ q, q < 1 → twoFixes[q]? ≠ some none) ∧
    ((∀ f ∈ occupied oneFixes, ¬Fits 60 (resultT 13178) f) ∧ (∀ (p : Nat) (o : Option Fix), oneFixes[p]? = some o → o ≠ none) ∧
      oneFixes[7]? = some (some { fixT with count := 1, lastSeen := 150 }) ∧
      ∀ (q : Nat) (o : Option Fix), oneFixes[q]? = some o → ∀ g, o = some g → q ≠ 7 → g.count = 1 → earlier 150 g.lastSeen = true ∨
        (earlier g.lastSeen 150 = false ∧ 7 < q)) ∧
    (let ps := List.replicate 16 (some { fixT with count := 2 })
     (∀ (p : Nat) (o : Option Fix), ps[p]? = some o → o ≠ none) ∧ ∀ f ∈ occupied ps, f.count ≠ 1) := by
  refine ⟨⟨by unfold Fits; decide +kernel, ?_⟩, ⟨by unfold Fits; decide +kernel, rfl, by decide +kernel⟩,
    ⟨by unfold Fits; decide +kernel, forall_places (by decide +kernel), rfl, ?_⟩,
    forall_places (by decide +kernel), by decide +kernel⟩
  · intro q o h g e
    subst e
    match q with
    | 0 => cases h; unfold Fits; decide +kernel
    | 1 => exact nomatch h
    | 2 => exact fun h => absurd rfl h
    | k + 3 => exact nomatch h
  · intro q o h g e
    subst e
    have : ∀ p ∈ oneFixes.zipIdx, ∀ g ∈ p.1, p.2 ≠ 7 → g.count = 1 → earlier 150 g.lastSeen = true ∨
        (earlier g.lastSeen 150 = false ∧ 7 < p.2) := by decide +kernel
    exact this (some g, q) (List.mem_zipIdx_iff_getElem?.2 h) g rfl
/-- A frame accepted as a note. -/
theorem accepted {s : State} {bs : Bytes} (kind : Nat) (h : completed s .a bs = some bs)
    (j : judge s bs = .note (parseFrame bs)) (k : (parseFrame bs).kind = kind) : NoteAccepted s .a bs kind (parseFrame bs) :=
  ⟨bs, h, j, k⟩

/-- A frame accepted as a command to all nodes. -/
theorem acceptedCommand {s : State} {bs : Bytes} (h : completed s .a bs = some bs)
    (j : judge s bs = .command (parseFrame bs)) (k : (commandPayload (parseFrame bs).payload).target = 0) :
    CommandAccepted s .a bs (parseFrame bs) (commandPayload (parseFrame bs).payload) :=
  ⟨bs, h, j, rfl, Or.inr k⟩

set_option maxRecDepth 100000 in
theorem test_hyps_Acceptance : judge (hearing run) stateBytesT = .note (parseFrame stateBytesT) ∧
    judge (hearing run) ownBytes = .clash ∧ judge (hearing run) (commandFrame 1 1) = .command (parseFrame (commandFrame 1 1)) ∧
    judge (hearing run) (List.replicate 9 0) = .badCrc ∧
    judge { hearing run with nc := { run.nc with cfg := Cfg.default } } fixBytesT = .otherRun ∧
    judge { hearing run with lc := { Lc.reset with ownEnd := some 920001 } } ownBytes = .dropped ∧
    judge { hearing run with lc := { Lc.reset with ownEnd := some 920000 } } ownBytes = .clash := by decide +kernel

/-- A node with a table of neighbours. -/
def tabled (table : List (Option Neighbour)) : State := hearing { run with ptu := { Ptu.reset with table := table } }

/-- A full table of SYNCED entries, and one whose HEARD entry in place 4 was heard least lately of those HEARD or STALE. -/
def syncedTable : List (Option Neighbour) := (List.range 12).map fun i => some (peer (40 + i) 15000)
def heardTable : List (Option Neighbour) := (syncedTable.set 4 (some { peer 44 1 with state := .heard })).set 5
  (some { peer 45 1 with state := .stale })

set_option maxRecDepth 100000 in
theorem test_hyps_AcceptedFrames : (∀ t ∈ [Ptu.reset.table, (List.replicate 12 none).set 0 (some (peer 23 15000)),
      (List.replicate 12 none).set 0 (some (peer 23 9000)), syncedTable, heardTable],
      completed (tabled t) .a stateBytesT = some stateBytesT ∧
        judge (tabled t) stateBytesT = .note (parseFrame stateBytesT)) ∧
    (parseFrame stateBytesT).kind = 5 ∧ (parseFrame stateBytesT).sender = 23 ∧ (parseFrame stateBytesT).pos = 15000 ∧
    newPlace Ptu.reset.table ≠ none ∧ Ptu.reset.table[0]? = some none ∧
    (∀ n ∈ occupied syncedTable, n.state = .synced ∨ n.state = .doubtful) ∧
    heardTable[4]? = some (some { peer 44 1 with state := .heard }) := by decide +kernel
theorem test_hyps_AcceptedFrames_full : (∀ (i : Nat) (o : Option Neighbour), heardTable[i]? = some o → o ≠ none) ∧
    ∀ (j : Nat) (o : Option Neighbour), heardTable[j]? = some o → ∀ m ∈ o, j ≠ 4 → m.state = .heard ∨ m.state = .stale →
      earlier 0 m.lastHeard = true ∨ (0 = m.lastHeard ∧ 44 < m.id) :=
  ⟨forall_places (by decide +kernel), forall_places (by decide +kernel)⟩
theorem test_hyps_AcceptedFrames_reply : NoteAccepted (hearing run) .a replyBytesT 6 (parseFrame replyBytesT) :=
  accepted 6 (by decide +kernel) (by decide +kernel) (by decide +kernel)

theorem test_hyps_ProbeNote : NoteAccepted exchanging .a probeBytes 1 (parseFrame probeBytes) ∧
    exchanging.ptu.arrivals[0]? = some ⟨1299000896, .good 1299000920, none, some 1379000896⟩ ∧
    inNoteWindow exchanging.nc.now ⟨1299000896, .good 1299000920, none, some 1379000896⟩ = true ∧
    (∀ (j : Nat) (b : Arrival), exchanging.ptu.arrivals[j]? = some b → j ≠ 0 → inNoteWindow exchanging.nc.now b = false) :=
  ⟨accepted 1 (by decide +kernel) (by decide +kernel) (by decide +kernel), rfl, by decide +kernel,
    forall_places (by decide +kernel)⟩

/-- Arrivals at the two ends of NOTE_WINDOW and one past it, none of them GOOD. -/
theorem test_hyps_ProbeNote_window :
    let as : List Arrival := [⟨1219600000, .timing, none, none⟩, ⟨1299600000, .capturing, none, none⟩]
    as.countP (inNoteWindow 1299600000) = 2 ∧ inNoteWindow 1299600000 ⟨1219599999, .timing, none, none⟩ = false := by
  decide +kernel

/-- An arrival not GOOD alone in the window, and none in it; the heard entry of the worked note, which is in the history; one
not in it, and one of another node. -/
theorem test_hyps_ProbeNote_legs :
    (let as : List Arrival := [⟨1219600000, .timing, none, none⟩, ⟨1219599999, .capturing, none, none⟩]
     inNoteWindow 1299600000 ⟨1219600000, .timing, none, none⟩ = true ∧
      (∀ a ∈ as.drop 1, inNoteWindow 1299600000 a = false)) ∧
    (probePayload (parseFrame probeBytes).payload).heard = [⟨17, 80, 501000920⟩] ∧
    exchanging.nc.cfg.nodeId = 17 ∧ exchanging.ptu.history[0]? = some ⟨80, 500000000⟩ ∧
    (∀ e ∈ exchanging.ptu.history, e.number ≠ 79) ∧ (23 : Nat) ≠ exchanging.nc.cfg.nodeId := by decide +kernel

theorem test_hyps_ReportFrames : NoteAccepted (hearing run) .a fixBytesT 3 (parseFrame fixBytesT) ∧
    NoteAccepted (hearing run) .a echoBytesT 4 (parseFrame echoBytesT) :=
  ⟨accepted 3 (by decide +kernel) (by decide +kernel) (by decide +kernel),
    accepted 4 (by decide +kernel) (by decide +kernel) (by decide +kernel)⟩

theorem test_hyps_BurstNote : (∀ bs ∈ [[], [record88]], completed (pairing bs) .a burstBytesT = some burstBytesT ∧
      judge (pairing bs) burstBytesT = .note (parseFrame burstBytesT)) ∧ (parseFrame burstBytesT).kind = 2 ∧
    (let s := pairing []
     let f := parseFrame burstBytesT
     s.ptu.partner = some f.sender ∧ choosePartner s.nc.cfg.position s.ptu.table = s.ptu.partner ∧
     (∀ m ∈ occupied s.ptu.table, m.id = f.sender → m.position = f.pos) ∧
     entryOf s.ptu.table f.sender = some (peer 23 15000) ∧ (peer 23 15000).sync = some ⟨1003000, 1899500460⟩ ∧
     (burstPayload f.payload).long = false ∧
     isCopy s.pu (burstPayload f.payload) = false ∧ (∀ b ∈ s.iw.bursts, b.state ≠ .timed)) := by decide +kernel

/-- The worked note against no partner, a partner whose clock is not known, and as a copy of a notice and of the last pair; a
note with the LONG flag set. -/
def ignoring (p : Ptu) (x : Pu) : State := hearing { runAt 2301200000 with ptu := p, pu := x }
def unsynced : Ptu := { (pairing []).ptu with table := [some { peer 23 15000 with sync := none }] }
def longBytesT : Bytes := frame 23 2 6 9 15000 ([214, 1] ++ timeBytes 2300504659 ++ [1, 144, 48, 212] ++ sigT)

theorem test_hyps_BurstNote_ignored :
    (∀ s ∈ [ignoring Ptu.reset Pu.reset, ignoring unsynced Pu.reset,
        ignoring (pairing []).ptu { Pu.reset with notices := [⟨214, 2300504659, 5, [], 6, none⟩] },
        ignoring (pairing []).ptu { Pu.reset with lastPair := some ⟨214, 2300504659⟩ }],
      let f := parseFrame burstBytesT
      let u := refreshSender f (afterReception s .a)
      completed s .a burstBytesT = some burstBytesT ∧ judge s burstBytesT = .note f ∧
        (u.ptu.partner ≠ some f.sender ∨ isCopy u.pu (burstPayload f.payload) = true ∨
          (entryOf u.ptu.table f.sender).all (fun n => n.sync.isNone) = true)) ∧
    judge (pairing []) longBytesT = .note (parseFrame longBytesT) ∧
    (burstPayload (parseFrame longBytesT).payload).long = true := by decide +kernel

/-- The traced record's timing, the notice of the worked note, and that notice with its onset at the end of the window. -/
def timingT : Timing := ⟨2299500215, [60, 140, 255, 230, 190, 150, 120, 95, 80, 70, 60, 50, 40, 30, 25, 20], 2299505000⟩
def noticeT (gap : Int) : Notice := ⟨214, 2300504659, plus 2299500215 gap, sigT.map (·.toNat), 2301200000, none⟩

theorem test_hyps_Pairs : Matches cfgT 15000 timingT (noticeT 932) ∧ ¬Matches cfgT 15000 timingT (noticeT 933) ∧
    BestRecord cfgT 15000 (noticeT 245) [record88] 0 timingT ∧
    BestNotice cfgT 15000 timingT [noticeT 246, noticeT 245, noticeT 245] 1 (noticeT 245) ∧
    (let s := { pairing [record88] with pu := { Pu.reset with notices := [noticeT 245] } }
     entryOf s.ptu.table 23 = some (peer 23 15000) ∧ s.iw.bursts[0]? = some record88 ∧ record88.timing = some timingT) ∧
    (∀ n ∈ [noticeT 933], ¬Matches cfgT 15000 timingT n) := by
  have h : ∀ n : Notice, Matches cfgT 15000 timingT n ↔ onsetsMatch cfgT 15000 timingT n = true := fun n => by
    unfold Matches onsetsMatch pairWindow onsetGap
    rw [Bool.and_eq_true, decide_eq_true_iff, decide_eq_true_iff]
  refine ⟨(h _).2 (by decide +kernel), fun k => absurd ((h _).1 k) (by decide +kernel),
    ⟨record88, rfl, rfl, rfl, (h _).2 (by decide +kernel), ?_⟩, ⟨rfl, (h _).2 (by decide +kernel), ?_⟩,
    by decide +kernel, ?_⟩
  · intro j c u hj hn
    rcases j with _ | j
    · exact absurd rfl hn
    · exact nomatch hj
  · exact forall_places (P := fun k m => k ≠ 1 → Matches cfgT 15000 timingT m → _) (by unfold Matches; decide +kernel)
  · intro n m k
    cases List.mem_singleton.1 m
    exact absurd ((h _).1 k) (by decide +kernel)

theorem test_hyps_Kept : Kept [some (peer 23 15000)] 12000 15000 .beyondHigh ∧
    ¬Kept [some (peer 9 11999)] 12000 15000 .beyondLow ∧ ¬Kept [some (peer 31 15001)] 12000 15000 .beyondHigh ∧
    Kept [some (peer 9 11999)] 12000 15000 .inside := by unfold Kept; decide +kernel

set_option maxRecDepth 100000 in
theorem test_hyps_DroppedFrames : completed (hearing run) .a (List.replicate 9 0) = some (List.replicate 9 0) ∧
    completed (hearing run) .a ownBytes = some ownBytes ∧
    (let s := { hearing run with nc := { run.nc with node := .clashed } }
     completed s .a ownBytes = some ownBytes ∧ judge s ownBytes = .clash) ∧
    (let s := { hearing run with nc := { run.nc with cfg := Cfg.default } }
     completed s .a fixBytesT = some fixBytesT) ∧
    (let s := { hearing run with nc := { run.nc with node := .unnamed } }
     completed s .a fixBytesT = some fixBytesT ∧ judge s fixBytesT = .dropped) := by decide +kernel

theorem test_hyps_Reception : followed run .b = true ∧ (run.lc.channel .b).receiver = none ∧
    followed (hearing run) .a = true ∧ ((hearing run).lc.channel .a).receiver = some [] ∧
    ([] ++ ([4, 16, 23, 0, 0, 0, 97] : Bytes)).length = 7 ∧ 96 < (byteAt [4, 16, 23, 0, 0, 0, 97] 6).toNat := by
  decide +kernel

theorem test_hyps_CarrierEdges : (run.lc.channel .b).carrier = false ∧ run.lc.mac ≠ .backoff ∧
    (jammed.lc.channel .a).carrier = true ∧
    (let s := mac .backoff (flying .state none (some 0))
     (s.lc.channel .a).carrier = false ∧ s.lc.mac = .backoff ∧ flightChannel s = some .a ∧
      flightChannel s ≠ some .b) := by decide +kernel

/-- Both timers of a channel run out now, the MAC in a state with a note for channel A. -/
def jamming (m : Mac) : State :=
  let c := { Channel.reset with jamTime := some 1000001, jamClear := some 1000001 }
  { mac m (flying .state none none) with lc := { Lc.reset with mac := m, chA := c, chB := c } }

theorem test_hyps_JamTimers : ∀ m ∈ [Mac.held, .defer, .backoff, .idle, .sending],
    (jamming m).nc.node ≠ .held ∧ (jamming m).lc.mac = m ∧ flightChannel (jamming m) = some .a ∧
    flightChannel (jamming m) ≠ some .b ∧ ∀ ch ∈ [ChanId.a, .b],
      expired (jamming m).nc.now ((jamming m).lc.channel ch).jamTime = true ∧
      expired (jamming m).nc.now ((jamming m).lc.channel ch).jamClear = true := by decide +kernel

/-- A full queue of notes of level 3 but for two of level 2, the second enqueued first. -/
def fullQueue : List Note :=
  ((List.replicate 16 (noteAt .state 3)).set 4 (noteAt .state 2)).set 9 { noteAt .state 2 with enqueued := 800000 }

theorem test_hyps_FullQueue : 16 ≤ fullQueue.length ∧ (∀ m ∈ fullQueue, m.inFlight = false → 2 ≤ m.level) ∧
    fullQueue[9]? = some { noteAt .state 2 with enqueued := 800000 } ∧
    (∀ j m, fullQueue[j]? = some m → j ≠ 9 → m.inFlight = false → m.level < 3 →
      earlier 800000 m.enqueued = true ∨ (800000 = m.enqueued ∧ (2 < m.level ∨ (2 = m.level ∧ 9 < j)))) ∧
    run.nc.node = .running ∧ run.na.queue.length < 16 ∧ held.nc.node ≠ .running := by
  refine ⟨by decide, by decide +kernel, rfl, forall_places (by decide +kernel), rfl, by decide, nofun⟩

/-- A note of level 5 in DEFER, with another behind it, under a floor. -/
def behind (level floor : Nat) : State :=
  { mac .defer (flying .state none none) with
    na := { Na.reset with queue := [flying .state none none, noteAt .state level], floor := floor } }

/-- A note above, one not above, and the floor at the level in flight; the note taken is the only one eligible. -/
theorem test_hyps_Preempt :
    ((behind 6 0).na.flight = some (flying .state none none) ∧
      ∃ q ∈ (behind 6 0).na.queue, q.inFlight = false ∧ eligible 0 q = true ∧ 5 < q.level) ∧
    (0 < 5 ∧ ∀ q ∈ (behind 5 0).na.queue, ¬(q.inFlight = false ∧ eligible 0 q = true ∧ 5 < q.level)) ∧
    ((flying Content.state none none).content.isProbe = false ∧ ¬((5 : Nat) < 5) ∧
      ∀ q ∈ (behind 5 5).na.queue, q.inFlight = false → eligible 5 q = false) ∧
    ((behind 6 0).nc.node = .running ∧ (behind 6 0).na.hush = none ∧ (behind 6 0).lc.chA.jammed = false ∧
      (behind 6 0).na.queue[1]? = some (noteAt .state 6) ∧ eligible 0 (noteAt .state 6) = true ∧
      (((noteAt .state 6).link.getD ⟨none, 0, 0, 2, none⟩).collA < 6)) ∧
    ∀ j m, (behind 6 0).na.queue[j]? = some m → j ≠ 1 → m.inFlight = false → eligible 0 m = true →
      m.level < 6 ∨ (m.level = 6 ∧ (earlier 900000 m.enqueued = true ∨ (earlier m.enqueued 900000 = false ∧ 1 < j))) := by
  refine ⟨by decide +kernel, by decide +kernel, by decide +kernel, by decide +kernel, forall_places (by decide +kernel)⟩
theorem test_hyps_Preempt_link : LinkOk (behind 6 0) ∧ LinkOk (behind 5 0) ∧ LinkOk (behind 5 5) := by
  have h (l f : Nat) : LinkOk (behind l f) :=
    ⟨by rfl, fun _ _ n hn hf => by
      rcases List.mem_cons.1 hn with e | hn
      · subst e; exact ⟨_, _, rfl, rfl⟩
      · cases List.mem_singleton.1 hn; exact absurd hf Bool.false_ne_true, ⟨nofun, nofun⟩⟩
  exact ⟨h 6 0, h 5 0, h 5 5⟩

theorem test_hyps_InterframeGap : let l (r : Option Nat) : Link := ⟨some .a, 0, 0, 2, r⟩
    let s (r : Option Nat) := mac .defer (flying .state none r)
    (∀ r ∈ [none, some 1], (s r).nc.node ≠ .held ∧ (s r).lc.mac = .defer ∧ (s r).na.flight = some (flying .state none r) ∧
      (flying .state none r).link = some (l r) ∧ (l r).channel = some .a ∧ ((s r).lc.channel .a).carrier = false ∧
      160000 ≤ ((s r).lc.channel .a).idle) := by decide +kernel

theorem test_hyps_BackoffEnd : let n := flying .state none (some 0)
    let s := mac .backoff n
    s.nc.node ≠ .held ∧ s.lc.mac = .backoff ∧ s.na.flight = some n ∧ n.link = some ⟨some .a, 0, 0, 2, some 0⟩ := by
  decide +kernel

/-- A note with collisions on both channels, channel A and B CLEAR or JAMMED. -/
def choosing (collA collB : Nat) (ja jb : Bool) : State :=
  let n : Note := ⟨.state, 5, 900000, none, some ⟨some .a, collA, collB, 2, none⟩, true⟩
  { mac .defer n with
    lc := { Lc.reset with
      mac := .defer, chA := { Channel.reset with jammed := ja }, chB := { Channel.reset with jammed := jb } } }

/-- A at its last collision but one; B alone; neither, none spent; neither, one spent. -/
theorem test_hyps_Choice : let a (s : State) (n : Nat) := s.lc.chA.jammed = false ∧ n < 6
    let b (s : State) (n : Nat) := s.nc.cfg.dual = true ∧ s.lc.chB.jammed = false ∧ n < 6
    a (choosing 5 0 false false) 5 ∧ (choosing 5 0 false false).na.hush = none ∧
    (¬a (choosing 6 5 false false) 6 ∧ b (choosing 6 5 false false) 5) ∧
    (¬a (choosing 5 5 true true) 5 ∧ ¬b (choosing 5 5 true true) 5) ∧
    (¬a (choosing 6 0 false true) 6 ∧ ¬b (choosing 6 0 false true) 0) ∧
    (choosing 6 0 false true).na.flight.isSome = true ∧ { Na.reset with hush := some 5 }.hush ≠ none := by decide +kernel

theorem test_hyps_Sending : let n := flying (.probe 3 5 []) none none
    (∀ s ∈ [sending n, cut n], s.nc.node ≠ .held ∧ s.lc.mac = .sending ∧ s.na.flight = some n) ∧
    (sending n).lc.tx.any (fun x => x.heard == x.bytes.map some) = true ∧
    (cut n).lc.tx.any (fun x => x.heard != (x.bytes.take x.heard.length).map some) = true ∧
    expired 1000001 none = false ∧ expired 1000000 (some 1000001) = false ∧ expired 1000001 (some 1000001) = true := by
  decide +kernel

/-- Two notes of one level and enqueue time: the first goes first. -/
theorem test_hyps_IdleMac : let q := [noteAt .state 2, noteAt .state 2, noteAt .state 1]
    let s := { run with na := { Na.reset with queue := q } }
    s.nc.node = .running ∧ s.na.hush = none ∧ s.lc.mac = .idle ∧ s.lc.chA.jammed = false ∧
    s.na.queue[0]? = some (noteAt .state 2) ∧ (noteAt .state 2).link = none ∧
    eligible s.na.floor (noteAt .state 2) = true := by decide +kernel
theorem test_hyps_IdleMac_link :
    LinkOk { run with na := { Na.reset with queue := [noteAt .state 2, noteAt .state 2, noteAt .state 1] } } :=
  ⟨by decide +kernel, fun h => absurd rfl h, by decide +kernel⟩
theorem test_hyps_IdleMac_best : ∀ (j : Nat) (m : Note), [noteAt .state 2, noteAt .state 2, noteAt .state 1][j]? = some m →
    eligible 0 m = true → j ≠ 0 → m.level < 2 ∨ (m.level = 2 ∧ (earlier 900000 m.enqueued = true ∨
      (earlier m.enqueued 900000 = false ∧ 0 < j))) := forall_places (by decide +kernel)

theorem test_hyps_NoteTimers :
    (let n := flying (.probe 3 990000 []) (some 1000001) none
     let s := mac .defer n
     s.nc.node ≠ .held ∧ s.na.queue[0]? = some n ∧ expired s.nc.now n.deadline = true ∧
      ¬(n.inFlight = true ∧ s.lc.mac = .sending)) ∧
    expired 1000001 (some 1000001) = true ∧
    (let s := { run with na := { Na.reset with stateTimer := some 1000001 } }
     s.na.stateTimer = some 1000001 ∧ reached s.nc.now 1000001 = true ∧ s.nc.cfg.statePeriod ≠ 0 ∧
      s.nc.node = .running ∧ s.nc.cfg.levelState ≠ 0 ∧ s.na.queue.length < 16) ∧
    (∃ n ∈ [noteAt .state 1], n.content.isState = true) := by decide +kernel

/-- Every command frame of the tests is accepted in the stocked node. -/
theorem test_hyps_Commands : ∀ b ∈ [commandFrame 1 1, commandFrame 1 2, commandFrame 1 3, commandFrame 1 4,
      commandFrame 2 0, commandFrame 3 0, commandFrame 4 0, commandFrame 4 1, commandFrame 5 0, commandFrame 0 0,
      commandFrame 6 0, commandFrame 1 0, commandFrame 1 5],
    CommandAccepted stocked .a b (parseFrame b) (commandPayload (parseFrame b).payload) := by
  have h : ∀ b ∈ [commandFrame 1 1, commandFrame 1 2, commandFrame 1 3, commandFrame 1 4,
      commandFrame 2 0, commandFrame 3 0, commandFrame 4 0, commandFrame 4 1, commandFrame 5 0, commandFrame 0 0,
      commandFrame 6 0, commandFrame 1 0, commandFrame 1 5],
      completed stocked .a b = some b ∧ judge stocked b = .command (parseFrame b) ∧
        (commandPayload (parseFrame b).payload).target = 0 := by decide +kernel
  exact fun b m => acceptedCommand (h b m).1 (h b m).2.1 (h b m).2.2
theorem test_hyps_Commands_code : ∀ x ∈ [(commandFrame 1 1, (⟨0, 1, 1⟩ : CommandPayload)), (commandFrame 1 4, ⟨0, 1, 4⟩),
      (commandFrame 1 0, ⟨0, 1, 0⟩), (commandFrame 1 5, ⟨0, 1, 5⟩), (commandFrame 0 0, ⟨0, 0, 0⟩),
      (commandFrame 6 0, ⟨0, 6, 0⟩), (commandFrame 2 0, ⟨0, 2, 0⟩), (commandFrame 3 0, ⟨0, 3, 0⟩),
      (commandFrame 4 0, ⟨0, 4, 0⟩), (commandFrame 4 1, ⟨0, 4, 1⟩), (commandFrame 5 0, ⟨0, 5, 0⟩)],
    commandPayload (parseFrame x.1).payload = x.2 := by decide +kernel
theorem test_hyps_Commands_state : stocked.nc.node = .running ∧
    stocked.nc.cfg.levelReply ≠ 0 ∧ stocked.na.dump = none ∧ stocked.na.queue.length < 16 ∧ stocked.na.hush = none ∧
    (sectionEntries stocked .findings).length ≤ perPage .findings ∧ (∀ j ∈ stocked.ce.jobs, j.isEcho = false) ∧
    (∀ n ∈ stocked.na.queue, n.content.isStateReply = false) ∧ stocked.lc.mac ≠ .defer ∧ stocked.lc.mac ≠ .backoff ∧
    (∃ j ∈ echoPass.ce.jobs, j.isEcho = true) ∧ (noteAt (.reply (stateReply run)) 3).content.isStateReply = true := by
  decide +kernel

/-- A HUSH ends in a node that is hushed, and comes to one whose MAC is in DEFER or BACKOFF. -/
theorem test_hyps_Hush : ∀ s ∈ [{ stocked with na := { Na.reset with hush := some 5 } },
      hearing (mac .defer (flying .state none none)), hearing (mac .backoff (flying .state none none))],
    completed s .a (commandFrame 4 0) = some (commandFrame 4 0) ∧ completed s .a (commandFrame 4 1) = some (commandFrame 4 1) ∧
    (∀ b ∈ [commandFrame 4 0, commandFrame 4 1], judge s b = .command (parseFrame b)) ∧ s.nc.node = .running ∧
    (s.na.hush ≠ none ∨ s.lc.mac = .defer ∨ s.lc.mac = .backoff) := by decide +kernel

/-- A dump page heard whole, the last one or not. -/
def dumping (last : Bool) : State :=
  let s := sending (flying (.reply ⟨.fixes, last, [1, 2]⟩) none none)
  { s with na := { s.na with dump := some ⟨.fixes, 3⟩ } }

theorem test_hyps_DumpPages : ∀ last ∈ [true, false],
    let n := flying (.reply ⟨.fixes, last, [1, 2]⟩) none none
    let s := dumping last
    s.nc.node ≠ .held ∧ s.lc.mac = .sending ∧ s.na.flight = some n ∧
    s.lc.tx.any (fun x => x.heard == x.bytes.map some) = true ∧ s.na.dump = some ⟨.fixes, 3⟩ ∧
    (s.na.queue.filter fun m => !m.inFlight).length < 16 := by decide +kernel

/-- A dump whose page has left a queue, with REPLY notes of a level. -/
def pageLeft (queue : List Note) (level : Nat) : State :=
  { run with
    nc := { run.nc with cfg := { cfgT with levelReply := level } }
    na := { Na.reset with queue := queue, dump := some ⟨.fixes, 3⟩ } }

/-- A queue with room, a full one with no note below the reply's level, and one with two, of which that in place 9 goes; a
PROBE NOTE, a STATE page, a page with no dump. -/
theorem test_hyps_NoteGone : (pageLeft [] 2).na.queue.length < 16 ∧ 16 ≤ (pageLeft fullQueue 2).na.queue.length ∧
    (∀ m ∈ (pageLeft fullQueue 2).na.queue, m.inFlight = false → (pageLeft fullQueue 2).nc.cfg.levelReply ≤ m.level) ∧
    (pageLeft fullQueue 3).na.queue[9]? = some { noteAt .state 2 with enqueued := 800000 } ∧
    2 < (pageLeft fullQueue 3).nc.cfg.levelReply ∧ (pageLeft [] 2).na.dump = some ⟨.fixes, 3⟩ ∧
    Section.fixes ≠ .state ∧ (Content.probe 3 5 []).isProbe = true ∧ Content.state.isProbe = false ∧
    (stateReply run).sect = .state ∧ run.na.dump = none := by decide +kernel
theorem test_hyps_NoteGone_oldest : ∀ (j : Nat) (m : Note), (pageLeft fullQueue 3).na.queue[j]? = some m → j ≠ 9 →
    m.inFlight = false → m.level < 3 → earlier 800000 m.enqueued = true ∨
      (800000 = m.enqueued ∧ (2 < m.level ∨ (2 = m.level ∧ 9 < j))) := forall_places (by decide +kernel)
/-- What the leaving of a page brings: the length of the queue, the dump and the notes dropped. -/
theorem test_note_gone : [([], 2, false), ([], 2, true), (fullQueue, 2, false), (fullQueue, 3, false)].map
      (fun x : List Note × Nat × Bool =>
        let t := noteGone (.reply ⟨.fixes, x.2.2, [1, 2]⟩) (pageLeft x.1 x.2.1)
        (t.na.queue.length, t.na.dump.isSome, t.na.dropped)) =
    [(1, true, 0), (0, false, 0), (16, false, 1), (16, true, 1)] := by decide +kernel

/-- A COMMAND for node 18, which this node is not, and commands in CLASHED. -/
def commandOther (code argument : Byte) : Bytes := frame 255 8 0 1 0 [18, code, 0, argument]

theorem test_hyps_CommandsPassedOver :
    (∀ b ∈ [commandOther 1 1, commandOther 1 2, commandOther 1 3, commandOther 1 4, commandOther 2 0, commandOther 3 0,
        commandOther 4 1, commandOther 5 0, commandOther 6 0],
      completed stocked .a b = some b ∧ judge stocked b = .command (parseFrame b) ∧
        (commandPayload (parseFrame b).payload).target = 18 ∧ stocked.nc.cfg.nodeId ≠ 18) ∧
    (let s := { stocked with nc := { stocked.nc with node := .clashed } }
     ∀ b ∈ [commandFrame 1 1, commandFrame 1 2, commandFrame 1 3, commandFrame 1 4, commandFrame 2 0, commandFrame 3 0,
        commandFrame 4 1, commandFrame 6 0],
      completed s .a b = some b ∧ judge s b = .command (parseFrame b) ∧ s.nc.node = .clashed ∧
        (commandPayload (parseFrame b).payload).code ≠ 5) := by decide +kernel
theorem test_hyps_CommandsPassedOver_code : ∀ x ∈ [(commandOther 1 1, (⟨18, 1, 1⟩ : CommandPayload)),
      (commandOther 1 2, ⟨18, 1, 2⟩), (commandOther 1 3, ⟨18, 1, 3⟩), (commandOther 1 4, ⟨18, 1, 4⟩),
      (commandOther 2 0, ⟨18, 2, 0⟩), (commandOther 3 0, ⟨18, 3, 0⟩), (commandOther 4 1, ⟨18, 4, 1⟩),
      (commandOther 5 0, ⟨18, 5, 0⟩), (commandOther 6 0, ⟨18, 6, 0⟩)],
    commandPayload (parseFrame x.1).payload = x.2 := by decide +kernel

theorem test_hyps_SentFrame : cfgT.runNo ≤ 255 ∧ cfgT.nodeId ≤ 255 ∧ cfgT.position ≤ 65535 ∧
    (List.replicate 96 (7 : Byte)).length ≤ 96 := by decide

/-! ### States that meet the invariants and step on -/

theorem test_hyps_Link : LinkOk (mac .backoff (flying .state none (some 0))) ∧ LinkOk run :=
  ⟨⟨by decide +kernel, fun _ _ n hn _ => by cases List.mem_singleton.mp hn; exact ⟨_, _, rfl, rfl⟩, by decide +kernel⟩,
    ⟨by decide +kernel, fun h => absurd rfl h, by decide +kernel⟩⟩
theorem test_hyps_Engine : EngineOk echoPass := by
  refine ⟨by decide +kernel, nofun, by decide +kernel, ?_, by decide +kernel⟩
  intro j hj
  cases List.mem_singleton.mp hj
  exact ⟨[], rfl⟩
theorem test_hyps_Bounds : BurstsOk run ∧ FrontBounded run ∧ TablesBounded run ∧ QueueBounded run ∧ CountersBounded run :=
  ⟨⟨by decide, by decide, by decide, nofun, nofun, nofun, nofun, nofun⟩,
    ⟨List.length_replicate, List.length_replicate, by decide, by decide⟩,
    ⟨by decide, by decide, by decide, by decide, by decide, by decide, by decide, by decide, by decide, by decide⟩,
    ⟨by decide, by decide⟩, by unfold CountersBounded; decide +kernel⟩
theorem test_hyps_steps : (stateOf (step run)).isSome = true ∧
    (stateOf (step (run.withPending [.passEnd]))).isSome = true := by decide +kernel

end Sys2Proof.Tests
end

