-- ==== Sys2Proof/Proofs/Conversions.lean ====
section
/-! SUPPORT. The rounding of conv and ticks (R20, R21). Both divide by a positive number with `roundHalfAway`, so each
fact about them is one about `roundHalfAway`: its values for a dividend of 0 or more are a floor division, and it is odd. -/

namespace Sys2Proof.Machine

/-- `r` is the integer nearest to n / d, of two equally near ones that farther from zero. -/
structure NearestHalfAway (n d r : Int) : Prop where
  near : 2 * (n - d * r).natAbs ≤ d.natAbs
  away : 2 * (n - d * r).natAbs = d.natAbs → n.natAbs ≤ (d * r).natAbs

theorem NearestHalfAway.neg {n d r : Int} (h : NearestHalfAway n d r) : NearestHalfAway (-n) d (-r) := by
  have err : -n - d * -r = -(n - d * r) := by ring
  constructor
  · rw [err, Int.natAbs_neg]; exact h.near
  · rw [err, Int.natAbs_neg, Int.natAbs_neg, Int.mul_neg, Int.natAbs_neg]; exact h.away

/-! ## Rounding a quotient -/

theorem roundHalfAway_of_nonneg {n d : Int} (hn : 0 ≤ n) (hd : 0 < d) :
    roundHalfAway n d = (2 * n + d) / (2 * d) := by
  simp [roundHalfAway, hn.not_gt, hd.not_gt, abs_of_nonneg hn, abs_of_pos hd]

theorem roundHalfAway_zero (d : Int) : roundHalfAway 0 d = 0 := by
  have below : d.natAbs / (2 * d.natAbs) = 0 := by
    rw [Nat.div_eq_zero_iff]; omega
  simp [roundHalfAway, below]

theorem roundHalfAway_neg (n : Int) {d : Int} (hd : 0 < d) : roundHalfAway (-n) d = -roundHalfAway n d := by
  rcases lt_trichotomy n 0 with hn | rfl | hn
  · simp [roundHalfAway, hn, hn.le, hd.not_gt]
  · simp [roundHalfAway_zero]
  · simp [roundHalfAway, hn, hn.le, hd.not_gt]

theorem roundHalfAway_nonneg {n d : Int} (hn : 0 ≤ n) (hd : 0 < d) : 0 ≤ roundHalfAway n d := by
  rw [roundHalfAway_of_nonneg hn hd]
  exact Int.ediv_nonneg (by omega) (by omega)

/-- The floor of (2n + d) / 2d leaves an error n − d·r in −d/2 … d/2, the upper end excluded: at a half, r is the greater
of the two. -/
theorem nearestHalfAway_of_nonneg {n d : Int} (hn : 0 ≤ n) (hd : 0 < d) :
    NearestHalfAway n d (roundHalfAway n d) := by
  have hr := roundHalfAway_nonneg hn hd
  have lower : 2 * d * roundHalfAway n d ≤ 2 * n + d := by
    rw [roundHalfAway_of_nonneg hn hd]; exact Int.mul_ediv_self_le (by omega)
  have upper : 2 * n + d < 2 * d * roundHalfAway n d + 2 * d := by
    rw [roundHalfAway_of_nonneg hn hd]; exact Int.lt_mul_ediv_self_add (by omega)
  have hdr : 0 ≤ d * roundHalfAway n d := mul_nonneg hd.le hr
  rw [mul_assoc] at lower upper
  constructor <;> omega

theorem nearestHalfAway_roundHalfAway (n : Int) {d : Int} (hd : 0 < d) :
    NearestHalfAway n d (roundHalfAway n d) := by
  rcases le_total 0 n with hn | hn
  · exact nearestHalfAway_of_nonneg hn hd
  · have h := (nearestHalfAway_of_nonneg (Int.neg_nonneg_of_nonpos hn) hd).neg
    rwa [roundHalfAway_neg n hd, neg_neg, neg_neg] at h

/-! ## The clamp of conv -/

theorem clampInt_eq_max_min {lo hi : Int} (h : lo ≤ hi) (x : Int) : clampInt x lo hi = max lo (min hi x) := by
  unfold clampInt
  split
  · omega
  · split <;> omega

theorem clampInt_neg_symm {b : Int} (hb : 0 ≤ b) (x : Int) : clampInt (-x) (-b) b = -clampInt x (-b) b := by
  rw [clampInt_eq_max_min (by omega), clampInt_eq_max_min (by omega)]
  omega

theorem clampInt_nonneg {lo hi x : Int} (hhi : 0 ≤ hi) (hx : 0 ≤ x) : 0 ≤ clampInt x lo hi := by
  unfold clampInt
  split
  · omega
  · split <;> omega

/-! ## conv (R20) -/

theorem conv_neg (vf : Nat) (t : Int) : conv vf (-t) = -conv vf t := by
  unfold conv
  rw [clampInt_neg_symm (by decide), neg_mul, neg_mul, roundHalfAway_neg _ (by decide)]

theorem conv_nonneg (vf : Nat) {t : Int} (ht : 0 ≤ t) : 0 ≤ conv vf t := by
  have hclamp : 0 ≤ clampInt t (-(2 ^ 31 - 1)) (2 ^ 31 - 1) := clampInt_nonneg (by decide) ht
  exact roundHalfAway_nonneg (by positivity) (by decide)

theorem conv_nonpos (vf : Nat) {t : Int} (ht : t ≤ 0) : conv vf t ≤ 0 := by
  have h := conv_nonneg vf (Int.neg_nonneg_of_nonpos ht)
  rw [conv_neg] at h
  omega

theorem conv_zero (vf : Nat) : conv vf 0 = 0 := le_antisymm (conv_nonpos vf le_rfl) (conv_nonneg vf le_rfl)

theorem conv_nearest (vf : Nat) (t : Int) :
    NearestHalfAway (max (-(2 ^ 31 - 1)) (min (2 ^ 31 - 1) t) * vf * 37474) 10000000 (conv vf t) := by
  rw [← clampInt_eq_max_min (by decide)]
  exact nearestHalfAway_roundHalfAway _ (by decide)

/-! ## ticks (R21) -/

section
variable {vf : Nat}

theorem ticks_divisor_pos (hvf : 0 < vf) : (0 : Int) < vf * 37474 := by omega

theorem ticks_neg (hvf : 0 < vf) (dm : Int) : ticks vf (-dm) = -ticks vf dm := by
  unfold ticks
  rw [neg_mul, roundHalfAway_neg _ (ticks_divisor_pos hvf)]

theorem ticks_nonneg (hvf : 0 < vf) {dm : Int} (hdm : 0 ≤ dm) : 0 ≤ ticks vf dm :=
  roundHalfAway_nonneg (by omega) (ticks_divisor_pos hvf)

theorem ticks_nearest (hvf : 0 < vf) (dm : Int) :
    NearestHalfAway (dm * 10000000) (vf * 37474) (ticks vf dm) :=
  nearestHalfAway_roundHalfAway _ (ticks_divisor_pos hvf)

end

/-- Settles O13: both conversions are `roundHalfAway` of their products, with a positive divisor. -/
theorem conversionsRoundToNearest : Obligations.ConversionsRoundToNearest := by
  refine ⟨fun vf t => ?_, fun vf dm hvf => ?_, by decide⟩
  · obtain ⟨near, away⟩ := conv_nearest vf t
    exact ⟨near, away, conv_nonneg vf, conv_nonpos vf, conv_zero vf, conv_neg vf t⟩
  · obtain ⟨near, away⟩ := ticks_nearest hvf dm
    exact ⟨near, away, ticks_nonneg hvf, ticks_neg hvf dm⟩

end Sys2Proof.Machine
end

