-- ==== Sys2Proof/Proofs/PairScore.lean ====
section
/-! SUPPORT. The signature score and the location of a pair (R102, R110). The score indexes both signatures by 0 … 15; on
two signatures of 16 points that is a walk along their pairs, and what it is against a bound or a constant is read off
each pair. -/

namespace Sys2Proof.Machine

/-! ## The signature score (R102) -/

/-- The greater of two points less the lesser. -/
def pointGap (p : Nat × Nat) : Nat := max p.1 p.2 - min p.1 p.2

theorem natAbs_sub_eq_pointGap (x y : Nat) : ((x : Int) - y).natAbs = pointGap (x, y) := by
  unfold pointGap; omega

theorem pointGap_le {b : Nat} {p : Nat × Nat} (h₁ : p.1 ≤ b) (h₂ : p.2 ≤ b) : pointGap p ≤ b := by
  unfold pointGap; omega

@[simp] theorem pointGap_zero_left (y : Nat) : pointGap (0, y) = y := by simp [pointGap]

/-- Against points of 0 the gaps are the other list itself. -/
theorem map_pointGap_zip_zeros (ys : List Nat) : ((List.replicate ys.length 0).zip ys).map pointGap = ys := by
  induction ys with
  | nil => rfl
  | cons y ys ih => simp [List.replicate_succ, ih]

section
variable {xs ys : List Nat}

theorem score_eq_sum_pointGap (hx : xs.length = 16) (hy : ys.length = 16) :
    score xs ys = ((xs.zip ys).map pointGap).sum := by
  unfold score
  congr 1
  refine List.ext_getElem (by simp [hx, hy]) fun i hi _ => ?_
  have hi : i < 16 := by simpa using hi
  simp [hx, hy, hi, natAbs_sub_eq_pointGap]

theorem score_le (hx : xs.length = 16) (hy : ys.length = 16) {b : Nat} (hxb : ∀ x ∈ xs, x ≤ b) (hyb : ∀ y ∈ ys, y ≤ b) :
    score xs ys ≤ 16 * b := by
  have each : ∀ g ∈ (xs.zip ys).map pointGap, g ≤ b := by
    simp only [List.mem_map]
    rintro g ⟨p, hp, rfl⟩
    obtain ⟨hpx, hpy⟩ := List.of_mem_zip hp
    exact pointGap_le (hxb _ hpx) (hyb _ hpy)
  calc score xs ys = ((xs.zip ys).map pointGap).sum := score_eq_sum_pointGap hx hy
    _ ≤ ((xs.zip ys).map pointGap).length • b := List.sum_le_card_nsmul _ b each
    _ = 16 * b := by simp [hx, hy]

theorem score_replicate_zero (hy : ys.length = 16) : score (List.replicate 16 0) ys = ys.sum := by
  rw [score_eq_sum_pointGap List.length_replicate hy, ← hy, map_pointGap_zip_zeros]

end

/-- Every point differs by 0 from itself, past the end of the list too. -/
theorem score_self (xs : List Nat) : score xs xs = 0 := by simp [score]

/-! ## Kind and position of a result (R110) -/

section
variable {own upper x2 : Int}

theorem located_beyondLow (h : x2 ≤ 2 * own) : located own upper x2 = (.beyondLow, own) := if_pos h

theorem located_beyondHigh (horder : own < upper) (h : 2 * upper ≤ x2) :
    located own upper x2 = (.beyondHigh, upper) := by
  have notLow : ¬x2 ≤ 2 * own := by omega
  rw [located, if_neg notLow, if_pos h]

theorem located_inside (hlow : 2 * own < x2) (hhigh : x2 < 2 * upper) :
    located own upper x2 = (.inside, x2 / 2) := by
  rw [located, if_neg hlow.not_ge, if_neg hhigh.not_ge]

theorem located_mem_range (horder : own < upper) :
    own ≤ (located own upper x2).2 ∧ (located own upper x2).2 ≤ upper := by
  rcases le_or_gt x2 (2 * own) with hlow | hlow
  · rw [located_beyondLow hlow]
    exact ⟨le_rfl, horder.le⟩
  rcases le_or_gt (2 * upper) x2 with hhigh | hhigh
  · rw [located_beyondHigh horder hhigh]
    exact ⟨horder.le, le_rfl⟩
  · rw [located_inside hlow hhigh]
    constructor <;> omega

end

/-- Settles O32: the score clauses pair by pair, the location clauses by the three ranges of X2. -/
theorem scoreAndLocationOfAPair : Obligations.ScoreAndLocationOfAPair := by
  refine ⟨fun xs ys hx hy hxb hyb =>
      ⟨score_eq_sum_pointGap hx hy, score_le hx hy hxb hyb, score_self xs, score_replicate_zero hy⟩,
    fun own upper x2 horder =>
      ⟨located_beyondLow, located_beyondHigh horder, fun hlow hhigh => ?_, by omega, located_mem_range horder⟩⟩
  rw [located_inside hlow hhigh]
  exact ⟨rfl, by omega, by omega, by omega, by omega⟩

end Sys2Proof.Machine
end

