-- ==== Sys2Proof/Proofs/Steps.lean ====
section
/-! SUPPORT. What every step keeps. A command answers a next state under which all of `Keeps` holds (`exec_keeps`, one case
per row); the clock raises events, which touches no block but NC's count of free values, or takes samples, a byte or a
tick, each of which `Keeps` (`step_keeps`). -/

namespace Sys2Proof.Machine

open Sys2Proof

/-- An operation that a node not held runs as it is. -/
theorem next_live (f : State → State) {s : State} (h : s.nc.node ≠ .held) :
    (.next (live f s) : Answer) = .next (f s) := congrArg _ (live_eq f h)

/-- Every command answers a next state, with the waiting commands and every invariant kept. -/
theorem exec_keeps (i : Instr) (s : State) : ∃ t, exec i s = .next t ∧ Keeps s t := by
  cases i with
  | resetAssert => exact ⟨_, rfl, assertReset_keeps s⟩
  | resetRelease => exact ⟨_, rfl, releaseReset_keeps s⟩
  | configReadEnd o => exact ⟨_, rfl, configReadEnd_keeps o s⟩
  | configReadTimeout => exact ⟨_, rfl, configReadTimeout_keeps s⟩
  | carrierRise ch => exact ⟨_, rfl, carrierRise_keeps ch s⟩
  | carrierFall ch => exact ⟨_, rfl, carrierFall_keeps ch s⟩
  | jamTimeExpiry ch => exact ⟨_, rfl, live_keeps (jamTimeExpiry_keeps ch) s⟩
  | jamClearExpiry ch => exact ⟨_, rfl, live_keeps (jamClearExpiry_keeps ch) s⟩
  | calibrationStart => exact ⟨_, rfl, live_keeps calibrationStart_keeps s⟩
  | calibrationEnd => exact ⟨_, rfl, live_keeps calibrationEnd_keeps s⟩
  | calibrationDue => exact ⟨_, rfl, live_keeps calibrationDue_keeps s⟩
  | envelopeValue => exact ⟨_, rfl, live_keeps envelopeValue_keeps s⟩
  | probeBandValue => exact ⟨_, rfl, live_keeps probeBandValue_keeps s⟩
  | snapshotFull slot => exact ⟨_, rfl, live_keeps (snapshotFull_keeps slot) s⟩
  | probeWindowFull => exact ⟨_, rfl, live_keeps probeWindowFull_keeps s⟩
  | arrivalCaptureFull => exact ⟨_, rfl, live_keeps arrivalCaptureFull_keeps s⟩
  | passEnd => exact ⟨_, rfl, live_keeps passEnd_keeps s⟩
  | probeDue => exact ⟨_, rfl, live_keeps probeDue_keeps s⟩
  | settleExpiry => exact ⟨_, rfl, live_keeps settleExpiry_keeps s⟩
  | probeGuardExpiry => exact ⟨_, rfl, live_keeps probeGuardExpiry_keeps s⟩
  | arrivalExpiry k => exact ⟨_, rfl, live_keeps (fun u => (arrivalExpiry_step k u).keeps) s⟩
  | silenceExpiry p => exact ⟨_, rfl, live_keeps (fun u => (silenceExpiry_step p u).keeps) s⟩
  | stalenessExpiry p => exact ⟨_, rfl, live_keeps (fun u => (stalenessExpiry_step p u).keeps) s⟩
  | pairHoldExpiry k => exact ⟨_, rfl, live_keeps (pairHoldExpiry_keeps k) s⟩
  | noticeExpiry k => exact ⟨_, rfl, live_keeps (fun u => (noticeExpiry_step k u).keeps) s⟩
  | fixAgeExpiry p => exact ⟨_, rfl, live_keeps (fun u => (fixAgeExpiry_step p u).keeps) s⟩
  | probeFrame ch bs => exact ⟨_, rfl, noteRow_keeps 1 _ (fun f u => (handleProbeNote_step f u).keeps) ch bs s⟩
  | burstFrame ch bs => exact ⟨_, rfl, noteRow_keeps 2 _ (fun f u => (handleBurstNote_step f u).keeps) ch bs s⟩
  | fixFrame ch bs => exact ⟨_, rfl, noteRow_keeps 3 _ handleReport_keeps ch bs s⟩
  | echoFrame ch bs => exact ⟨_, rfl, noteRow_keeps 4 _ handleReport_keeps ch bs s⟩
  | stateFrame ch bs => exact ⟨_, rfl, noteRow_keeps 5 _ (fun f u => (refreshSender_step f u).keeps) ch bs s⟩
  | replyFrame ch bs => exact ⟨_, rfl, noteRow_keeps 6 _ (fun f u => (refreshSender_step f u).keeps) ch bs s⟩
  | otherFrame ch bs => exact ⟨_, rfl, otherRow_keeps ch bs s⟩
  | queryFixes ch bs => exact ⟨_, rfl, commandRow_keeps _ _ (fun _ => queryTable_keeps .fixes) ch bs s⟩
  | queryFindings ch bs => exact ⟨_, rfl, commandRow_keeps _ _ (fun _ => queryTable_keeps .findings) ch bs s⟩
  | queryNeighbours ch bs => exact ⟨_, rfl, commandRow_keeps _ _ (fun _ => queryTable_keeps .neighbours) ch bs s⟩
  | queryState ch bs => exact ⟨_, rfl, commandRow_keeps _ _ (fun _ => queryOfState_keeps) ch bs s⟩
  | rebase ch bs => exact ⟨_, rfl, commandRow_keeps _ _ (fun _ u => (rebaseCommand_step u).keeps) ch bs s⟩
  | clearFixes ch bs => exact ⟨_, rfl, commandRow_keeps _ _ (fun _ => clearTable_keeps) ch bs s⟩
  | hush ch bs => exact ⟨_, rfl, commandRow_keeps _ _ (fun p => hushCommand_keeps p.argument) ch bs s⟩
  | restart ch bs => exact ⟨_, rfl, commandRow_keeps _ _ (fun _ => restartNode_keeps) ch bs s⟩
  | unknownCommand ch bs => exact ⟨_, rfl, commandRow_keeps _ _ (fun _ => countUnknown_keeps) ch bs s⟩
  | interframeGap => exact ⟨_, rfl, live_keeps interframeGap_keeps s⟩
  | backoffEnd => exact ⟨_, rfl, live_keeps backoffEnd_keeps s⟩
  | frameSent => exact ⟨_, rfl, live_keeps frameSent_keeps s⟩
  | collision => exact ⟨_, rfl, live_keeps collision_keeps s⟩
  | floorHoldExpiry => exact ⟨_, rfl, live_keeps floorHoldExpiry_keeps s⟩
  | noteDeadline k => exact ⟨_, rfl, live_keeps (noteDeadline_keeps k) s⟩
  | hushExpiry => exact ⟨_, rfl, live_keeps hushExpiry_keeps s⟩
  | stateTimer => exact ⟨_, rfl, live_keeps stateTimer_keeps s⟩
  | preambleAndSync ch => exact ⟨_, rfl, preambleAndSync_keeps ch s⟩
  | lenAbove96 ch bs => exact ⟨_, rfl, lenAbove96_keeps ch bs s⟩

/-- The invariants of Safety.lean, whatever becomes of the queue of waiting commands. -/
structure KeepsInvariants (s t : State) : Prop where
  link : LinkOk s → LinkOk t
  engine : EngineOk s → EngineOk t
  bursts : BurstsOk s → BurstsOk t
  front : FrontBounded s → FrontBounded t
  tables : TablesBounded s → TablesBounded t
  queue : QueueBounded s → QueueBounded t
  counters : CountersBounded s → CountersBounded t

theorem Keeps.invariants {s t : State} (h : Keeps s t) : KeepsInvariants s t :=
  ⟨h.link, h.engine, h.bursts, h.front, h.tables, h.queue, h.counters⟩

theorem KeepsInvariants.trans {s t u : State} (h : KeepsInvariants s t) (k : KeepsInvariants t u) :
    KeepsInvariants s u :=
  ⟨k.link ∘ h.link, k.engine ∘ h.engine, k.bursts ∘ h.bursts, k.front ∘ h.front, k.tables ∘ h.tables,
    k.queue ∘ h.queue, k.counters ∘ h.counters⟩

/-- Nothing but the waiting commands and NC's own numbers has changed. -/
theorem keepsInvariants_of_same {s t : State} (node : t.nc.node = s.nc.node) (cfe : t.cfe = s.cfe) (iw : t.iw = s.iw)
    (ce : t.ce = s.ce) (ptu : t.ptu = s.ptu) (pu : t.pu = s.pu) (ft : t.ft = s.ft) (ec : t.ec = s.ec)
    (lc : t.lc = s.lc) (na : t.na = s.na) : KeepsInvariants s t := by
  obtain ⟨link, engine, bursts, front, tables, queue, counters⟩ :=
    invariants_congr node cfe iw ce ptu pu ft ec lc na
  exact ⟨link, engine, bursts, front, tables, queue, counters⟩

theorem withPending_keepsInvariants (s : State) (xs : List Instr) : KeepsInvariants s (s.withPending xs) :=
  keepsInvariants_of_same rfl rfl rfl rfl rfl rfl rfl rfl rfl rfl

theorem raise_keepsInvariants (s : State) : KeepsInvariants s (raise s) := by
  rw [raise_eq]
  exact keepsInvariants_of_same rfl rfl rfl rfl rfl rfl rfl rfl rfl rfl

theorem idle_keepsInvariants (s : State) : KeepsInvariants s (idle s) := by
  by_cases held : s.nc.node = .held
  · rw [idle_held held]
    exact (Keeps.refl s).invariants
  by_cases due : dueEvents s = []
  · cases sample : sampleDue s with
    | true =>
      rw [idle_sample held due sample]
      exact (takeSample_keeps s).invariants
    | false =>
      cases byte : byteDue s with
      | true =>
        rw [idle_byte held due sample byte]
        exact (takeByte_keeps s).invariants
      | false =>
        rw [idle_tick held due sample byte]
        exact (advance_keeps s).invariants
  · rw [idle_raise held due]
    exact raise_keepsInvariants s

theorem step_keepsInvariants {s t : State} (h : step s = .next t) : KeepsInvariants s t := by
  cases queue : s.pending with
  | nil =>
    rw [step_nil queue] at h
    obtain rfl : idle s = t := by injection h
    exact idle_keepsInvariants s
  | cons c rest =>
    rw [step_cons queue] at h
    obtain ⟨u, run, keeps⟩ := exec_keeps c (s.withPending rest)
    rw [run] at h
    obtain rfl : u = t := by injection h
    exact (withPending_keepsInvariants s rest).trans keeps.invariants

/-- Settles O58. -/
theorem everyStepKeepsTheLink : Obligations.EveryStepKeepsTheLink :=
  fun _ _ link h => (step_keepsInvariants h).link link

/-- Settles O59. -/
theorem everyStepKeepsTheEngine : Obligations.EveryStepKeepsTheEngine :=
  fun _ _ engine h => (step_keepsInvariants h).engine engine

/-- Settles O60. -/
theorem everyStepKeepsTheBounds : Obligations.EveryStepKeepsTheBounds :=
  fun _ _ bursts front tables queue counters h =>
    let keeps := step_keepsInvariants h
    ⟨keeps.bursts bursts, keeps.front front, keeps.tables tables, keeps.queue queue, keeps.counters counters⟩

/-- Settles O2: each row's meaning answers a next state, and `Keeps` says that the waiting commands stand. -/
theorem everyCommandRunsAndLeavesTheQueue : Obligations.EveryCommandRunsAndLeavesTheQueue := fun i s =>
  let ⟨t, run, keeps⟩ := exec_keeps i s
  ⟨t, run, keeps.pending⟩

/-- Settles O1. -/
theorem stepRunsFrontCommand : Obligations.StepRunsFrontCommand := fun _ _ _ => step_cons

end Sys2Proof.Machine
end

