-- ==== Sys2Proof/Proofs/Blocks.lean ====
section
/-! SUPPORT. Which blocks differ, read block by block, and what the small operations on the node's parts leave. -/

namespace Sys2Proof.Machine

open Sys2Proof

theorem unchangedBut_iff {bs : List Block} {s t : State} : UnchangedBut bs s t ↔
    (Block.nc ∉ bs → t.nc = s.nc) ∧ (Block.cfe ∉ bs → t.cfe = s.cfe) ∧ (Block.iw ∉ bs → t.iw = s.iw) ∧
    (Block.ce ∉ bs → t.ce = s.ce) ∧ (Block.ptu ∉ bs → t.ptu = s.ptu) ∧ (Block.pu ∉ bs → t.pu = s.pu) ∧
    (Block.ft ∉ bs → t.ft = s.ft) ∧ (Block.ec ∉ bs → t.ec = s.ec) ∧ (Block.lc ∉ bs → t.lc = s.lc) ∧
    (Block.na ∉ bs → t.na = s.na) ∧ t.pending = s.pending := by
  constructor
  · rintro ⟨same, pending⟩
    exact ⟨same .nc, same .cfe, same .iw, same .ce, same .ptu, same .pu, same .ft, same .ec, same .lc, same .na, pending⟩
  · rintro ⟨nc, cfe, iw, ce, ptu, pu, ft, ec, lc, na, pending⟩
    refine ⟨fun b => ?_, pending⟩
    cases b with
    | nc => exact nc
    | cfe => exact cfe
    | iw => exact iw
    | ce => exact ce
    | ptu => exact ptu
    | pu => exact pu
    | ft => exact ft
    | ec => exact ec
    | lc => exact lc
    | na => exact na

/-! ## Views of the node state -/

theorem isRunning_iff {s : State} : s.isRunning = true ↔ s.nc.node = .running := by simp [State.isRunning]

theorem isRunning_eq_false {s : State} : s.isRunning = false ↔ s.nc.node ≠ .running := by simp [State.isRunning]

theorem isClashed_iff {s : State} : s.isClashed = true ↔ s.nc.node = .clashed := by simp [State.isClashed]

theorem isClashed_eq_false {s : State} : s.isClashed = false ↔ s.nc.node ≠ .clashed := by simp [State.isClashed]

theorem hushed_eq_false {s : State} : s.hushed = false ↔ s.na.hush = none := by simp [State.hushed]

theorem hushed_iff {s : State} : s.hushed = true ↔ s.na.hush ≠ none := by
  simp [State.hushed, Option.isSome_iff_ne_none]

theorem bump_eq (n : Nat) : bump n = min (n + 1) 65535 := rfl

theorem window_isFree_iff {w : Window} : w.isFree = true ↔ w = .free := by cases w <;> simp [Window.isFree]

theorem arrivalBuffer_isFree_iff {w : ArrivalBuffer} : w.isFree = true ↔ w = .free := by
  cases w <;> simp [ArrivalBuffer.isFree]

theorem slot_isFree_iff {w : Slot} : w.isFree = true ↔ w = .free := by cases w <;> simp [Slot.isFree]

/-! ## Channels -/

@[simp] theorem channel_setChannel (l : Lc) (ch : ChanId) (x : Channel) : (l.setChannel ch x).channel ch = x := by
  cases ch <;> rfl

@[simp] theorem setChannel_mac (l : Lc) (ch : ChanId) (x : Channel) : (l.setChannel ch x).mac = l.mac := by
  cases ch <;> rfl

@[simp] theorem setChannel_setChannel (l : Lc) (ch : ChanId) (x y : Channel) :
    (l.setChannel ch x).setChannel ch y = l.setChannel ch y := by
  cases ch <;> rfl

/-! ## A node whose reset line is asserted follows no channel -/

section
variable {s : State} (held : s.nc.node = .held)
include held

theorem followed_held (ch : ChanId) : followed s ch = false := by simp [followed, held]

theorem received_held (ch : ChanId) (bytes : Bytes) : received s ch bytes = none := by
  simp [received, followed_held held]

theorem completed_held (ch : ChanId) (bytes : Bytes) : completed s ch bytes = none := by
  simp [completed, received_held held]

end

/-! ## Frame rows without a frame -/

section
variable {s : State} {ch : ChanId} {bytes : Bytes} (none_ : completed s ch bytes = none)
include none_

theorem noteRow_none (kind : Nat) (act : Frame → State → State) : noteRow kind act ch bytes s = s := by
  simp [noteRow, none_]

theorem commandRow_none (mine : CommandPayload → Bool) (act : CommandPayload → State → State) :
    commandRow mine act ch bytes s = s := by
  simp [commandRow, none_]

theorem otherRow_none : otherRow ch bytes s = s := by simp [otherRow, none_]

end

/-! ## A rise of carrier and the backoff (R150) -/

theorem backoffRise_counting {s : State} {ch : ChanId} (mac : s.lc.mac = .backoff)
    (own : flightChannel s = some ch) : backoffRise ch s = (s.withNa (s.na.setFlight fun n =>
      { n with link := n.link.map fun l => { l with remaining := l.remaining.map (max 1) } })).setMac .defer :=
  if_pos ⟨mac, own⟩

theorem backoffRise_other {s : State} {ch : ChanId} (h : s.lc.mac ≠ .backoff ∨ flightChannel s ≠ some ch) :
    backoffRise ch s = s :=
  if_neg (by tauto)

end Sys2Proof.Machine
end

