-- ==== Sys2Proof/Proofs/ResetLine.lean ====
section
/-! SUPPORT. The reset line (R1, R12): the values at the release, and a node that is held. -/

namespace Sys2Proof.Machine

open Sys2Proof

/-! ## The values at the release -/

theorem reset_linkOk : LinkOk State.reset := LinkOk.ofIdle rfl rfl rfl

theorem reset_queue : QueueBounded State.reset := ⟨by decide, by decide⟩

/-- Settles O6: the values of the record `State.reset`, one by one. -/
theorem resetStateValues : Obligations.ResetStateValues := by
  unfold Obligations.ResetStateValues
  simp only [State.reset, Nc.reset, Cfe.reset, Iw.reset, Ce.reset, Ptu.reset, Pu.reset, Ft.reset, Ec.reset, Lc.reset,
    Na.reset, State.runLine, State.isRunning, State.faultLine, State.counters]
  decide

/-- Settles O7. -/
theorem resetStateMeetsInvariants : Obligations.ResetStateMeetsInvariants :=
  ⟨reset_linkOk, EngineOk.empty rfl rfl, BurstsOk.empty rfl rfl, reset_front, reset_tables, reset_queue, reset_counters⟩

/-- Settles O10. -/
theorem resetReleaseGivesPowerOnValues : Obligations.ResetReleaseGivesPowerOnValues := by
  intro s held
  refine ⟨_, congrArg Host.Outcome.next (if_pos held), ?_⟩
  refine ⟨rfl, rfl, rfl, rfl, rfl, rfl, rfl, rfl, rfl, rfl, rfl, rfl, rfl, rfl, rfl, rfl, rfl, rfl, rfl, rfl, rfl, rfl, rfl⟩

/-! ## A held node -/

theorem setFlight_all (a : Na) :
    (a.setFlight fun n => { n with inFlight := false }).queue = a.queue.map fun n => { n with inFlight := false } := by
  refine List.map_congr_left fun n _ => ?_
  cases h : n.inFlight with
  | true => rfl
  | false => cases n; simp_all

/-- Of a held node the commands but the line's own and the carrier edges change nothing. -/
theorem exec_held {s : State} (held : s.nc.node = .held) {i : Instr} (assert : i ≠ .resetAssert)
    (release : i ≠ .resetRelease) (edge : ∀ ch, i ≠ .carrierRise ch ∧ i ≠ .carrierFall ch) : exec i s = .next s := by
  have stands : ∀ f : State → State, (.next (live f s) : Answer) = .next s := fun f => congrArg _ (live_held f held)
  have unread : ∀ ch bytes, completed s ch bytes = none := completed_held held
  have note : ∀ kind act ch bytes, (.next (noteRow kind act ch bytes s) : Answer) = .next s :=
    fun kind act ch bytes => congrArg _ (noteRow_none (unread ch bytes) kind act)
  have command : ∀ mine act ch bytes, (.next (commandRow mine act ch bytes s) : Answer) = .next s :=
    fun mine act ch bytes => congrArg _ (commandRow_none (unread ch bytes) mine act)
  cases i with
  | resetAssert => exact absurd rfl assert
  | resetRelease => exact absurd rfl release
  | carrierRise ch => exact absurd rfl (edge ch).1
  | carrierFall ch => exact absurd rfl (edge ch).2
  | configReadEnd o => exact congrArg _ (if_neg (by simp [readCanEnd, held]))
  | configReadTimeout => exact congrArg _ (if_neg (by simp [readTimedOut, held]))
  | probeFrame | burstFrame | fixFrame | echoFrame | stateFrame | replyFrame => exact note _ _ _ _
  | otherFrame ch bytes => exact congrArg _ (otherRow_none (unread ch bytes))
  | queryFixes | queryFindings | queryNeighbours | queryState | rebase | clearFixes | hush | restart | unknownCommand =>
    exact command _ _ _ _
  | preambleAndSync ch => exact congrArg _ (if_neg (by simp [followed_held held]))
  | lenAbove96 ch bytes => exact congrArg Host.Outcome.next (by simp [lenAbove96, received_held held])
  | _ => exact stands _

/-- Settles O8: the assertion by the record it builds, a held node by `exec_held`, the edges by what they do to a channel that
is not followed. -/
theorem resetLineStopsTheNode : Obligations.ResetLineStopsTheNode := by
  refine ⟨fun s => ⟨_, rfl, rfl, rfl, rfl, rfl, rfl, rfl, rfl, rfl, fun c => ?_, rfl, setFlight_all s.na, ?_⟩,
    fun i s held => exec_held held, fun ch s held idle => ⟨fun low => ?_, fun high quiet => ?_⟩, fun s held queue => ?_⟩
  · cases c <;> rfl
  · simp [unchangedBut_iff, assertReset]
  · refine ⟨carrierRise ch s, rfl, ?_⟩
    have rise : carrierRise ch s = s.withLc (s.lc.setChannel ch { s.lc.channel ch with
        carrier := true, jamTime := none, jamClear := none }) := by
      rw [carrierRise, if_neg (by simp [low]), backoffRise_other (.inl (by simp [idle]))]
      simp [Channel.rise, followed_held held]
    rw [rise]
    exact ⟨rfl, lcSame s _⟩
  · refine ⟨carrierFall ch s, rfl, ?_⟩
    have fall : carrierFall ch s = s.withLc (s.lc.setChannel ch { s.lc.channel ch with
        carrier := false, jamTime := none, jamClear := none, idle := 0 }) := by
      rw [carrierFall, if_pos high]
      cases ch <;> simp_all [Channel.fall, followed_held held, Lc.setChannel, Lc.channel]
    rw [fall]
    exact ⟨rfl, lcSame s _⟩
  · rw [step_nil queue, idle_held held]

end Sys2Proof.Machine
end

