-- ==== Sys2Proof/Proofs/Clock.lean ====
section
/-! SUPPORT. The clock on an empty queue (entries 3 and 4): the events it raises, the samples it takes, the byte of the own
frame it takes, and the tick. -/

namespace Sys2Proof.Machine

open Sys2Proof

/-! ## Events due -/

theorem mem_dueIf {b : Bool} {i j : Instr} : i ∈ dueIf b j ↔ b = true ∧ i = j := by
  cases b <;> simp [dueIf]

theorem mem_dueAt {α : Type} {p : α → Bool} {f : Nat → Instr} {xs : List α} {i : Instr} :
    i ∈ dueAt p f xs ↔ ∃ k x, xs[k]? = some x ∧ p x = true ∧ i = f k := by
  simp only [dueAt, List.mem_map, List.mem_filter, Prod.exists, List.mem_zipIdx_iff_getElem?]
  constructor
  · rintro ⟨x, k, ⟨hx, hp⟩, rfl⟩
    exact ⟨k, x, hx, hp, rfl⟩
  · rintro ⟨k, x, hx, hp, rfl⟩
    exact ⟨x, k, ⟨hx, hp⟩, rfl⟩

theorem readTimedOut_iff (s : State) : readTimedOut s = true ↔ s.nc.node = .loading ∧ 16000000 ≤ s.nc.now.toNat := by
  rw [readTimedOut, Bool.and_eq_true, beq_iff_eq, decide_eq_true_eq]
  rfl

theorem calDeferred_eq_false (s : State) : calDeferred s = false ↔ s.nc.node = .calibrating ∨
    (s.iw.detector.isOpen = false ∧ (∀ w ∈ s.iw.slots, w.isFilling = false) ∧ s.cfe.window.isCapturing = false ∧
      s.cfe.arrival.isCapturing = false) := by
  simp only [calDeferred, Bool.and_eq_false_iff, bne_eq_false_iff_eq, Bool.or_eq_false_iff, List.any_eq_false,
    Bool.not_eq_true, and_assoc]

theorem calCanStart_iff (s : State) : calCanStart s = true ↔ s.cfe.cal = .waiting ∧ s.nc.now.toNat % 64 = 0 ∧
    s.nc.sampled = false ∧ (s.nc.node = .calibrating ∨ (s.iw.detector.isOpen = false ∧
      (∀ w ∈ s.iw.slots, w.isFilling = false) ∧ s.cfe.window.isCapturing = false ∧ s.cfe.arrival.isCapturing = false)) := by
  simp only [calCanStart, Bool.and_eq_true, beq_iff_eq, Bool.not_eq_true', calDeferred_eq_false, and_assoc]

theorem calOver_iff (s : State) : calOver s = true ↔
    ∃ start a b c d, s.cfe.cal = .running start a b c d ∧ 2048 ≤ diff s.nc.now start := by
  cases h : s.cfe.cal with
  | running start =>
    simp only [calOver, h, decide_eq_true_eq, CalState.running.injEq]
    constructor
    · exact fun ended => ⟨_, _, _, _, _, ⟨rfl, rfl, rfl, rfl, rfl⟩, ended⟩
    · rintro ⟨_, _, _, _, _, ⟨rfl, _⟩, ended⟩
      exact ended
  | _ => simp [calOver, h]

theorem slot_isFull_iff (w : Slot) : w.isFull = true ↔ ∃ start o xs, w = .filling start o xs ∧ 512 ≤ xs.length := by
  cases w <;> simp [Slot.isFull]

theorem window_isFull_iff (w : Window) : w.isFull = true ↔ ∃ e xs, w = .capturing e xs ∧ 2048 ≤ xs.length := by
  cases w <;> simp [Window.isFull]

theorem arrivalBuffer_isFull_iff (w : ArrivalBuffer) :
    w.isFull = true ↔ ∃ c u xs, w = .capturing c u xs ∧ 512 ≤ xs.length := by
  cases w <;> simp [ArrivalBuffer.isFull]

theorem probeIsDue_iff (s : State) : probeIsDue s = true ↔
    ∃ d, s.ptu.schedule = .counting d ∧ reached s.nc.now d = true := by
  cases h : s.ptu.schedule <;> simp [probeIsDue, h]

theorem settleIsDue_iff (s : State) : settleIsDue s = true ↔
    ∃ d, s.ptu.schedule = .settling d ∧ reached s.nc.now d = true := by
  cases h : s.ptu.schedule <;> simp [settleIsDue, h]

theorem placeExpired_iff {α : Type} (now : Time) (timer : α → Option Time) (o : Option α) :
    placeExpired now timer o = true ↔ ∃ x, o = some x ∧ expired now (timer x) = true := by
  cases o <;> simp [placeExpired]

theorem gapMet_eq_some {s : State} {k : Link} : gapMet s = some k ↔ s.lc.mac = .defer ∧ ∃ n c, s.na.flight = some n ∧
    n.link = some k ∧ k.channel = some c ∧ (s.lc.channel c).carrier = false ∧ 160000 ≤ (s.lc.channel c).idle := by
  constructor
  · intro h
    unfold gapMet at h
    split at h
    · next l mac link =>
      obtain ⟨n, flight, nlink⟩ := Option.bind_eq_some_iff.1 link
      split at h
      · next c chan =>
        split at h
        · next met =>
          obtain rfl : l = k := by injection h
          rw [Bool.and_eq_true, Bool.not_eq_true', decide_eq_true_eq] at met
          exact ⟨mac, n, c, flight, nlink, chan, met.1, met.2⟩
        · exact absurd h nofun
      · exact absurd h nofun
    · exact absurd h nofun
  · rintro ⟨mac, n, c, flight, link, chan, carrier, idle⟩
    simp [gapMet, mac, flight, link, chan, carrier, idle, gapTicks]

theorem gapMet_ne_none_iff (s : State) : gapMet s ≠ none ↔ s.lc.mac = .defer ∧ ∃ n l c, s.na.flight = some n ∧
    n.link = some l ∧ l.channel = some c ∧ (s.lc.channel c).carrier = false ∧ 160000 ≤ (s.lc.channel c).idle := by
  simp only [Option.ne_none_iff_exists', gapMet_eq_some]
  constructor
  · rintro ⟨l, mac, n, c, rest⟩
    exact ⟨mac, n, l, c, rest⟩
  · rintro ⟨mac, n, l, c, rest⟩
    exact ⟨l, mac, n, c, rest⟩

theorem backoffOver_iff (s : State) : backoffOver s = true ↔
    s.lc.mac = .backoff ∧ ∃ n l, s.na.flight = some n ∧ n.link = some l ∧ l.remaining = some 0 := by
  simp only [backoffOver, Bool.and_eq_true, beq_iff_eq, Option.bind_eq_some_iff]
  refine and_congr_right fun _ => ?_
  constructor
  · rintro ⟨l, ⟨n, flight, link⟩, zero⟩
    exact ⟨n, l, flight, link, zero⟩
  · rintro ⟨n, l, flight, link, zero⟩
    exact ⟨l, ⟨n, flight, link⟩, zero⟩

/-! ## The frame on air -/

theorem onAir_eq_some {s : State} {x : Transmission} : onAir s = some x ↔ s.lc.mac = .sending ∧ s.lc.tx = some x := by
  by_cases mac : s.lc.mac = .sending <;> simp [onAir, mac]

theorem onAir_any (s : State) (p : Transmission → Bool) :
    (onAir s).any p = true ↔ s.lc.mac = .sending ∧ ∃ x, s.lc.tx = some x ∧ p x = true := by
  simp only [Option.any_eq_true, onAir_eq_some]
  constructor
  · rintro ⟨x, ⟨mac, tx⟩, hp⟩
    exact ⟨mac, x, tx, hp⟩
  · rintro ⟨mac, x, tx, hp⟩
    exact ⟨x, ⟨mac, tx⟩, hp⟩

theorem agrees_iff (x : Transmission) : x.agrees = true ↔ x.heard = (x.bytes.take x.heard.length).map some := by
  simp [Transmission.agrees]

theorem whole_iff (x : Transmission) : x.whole = true ↔ x.heard = x.bytes.map some := by simp [Transmission.whole]

/-- A frame heard whole is one heard as sent so far, to its last byte. -/
theorem whole_iff_agrees (x : Transmission) : x.whole = true ↔ x.agrees = true ∧ x.heard.length = x.bytes.length := by
  rw [whole_iff, agrees_iff]
  constructor
  · intro h
    have len : x.heard.length = x.bytes.length := by rw [h, List.length_map]
    exact ⟨by rw [len, List.take_length, h], len⟩
  · rintro ⟨h, len⟩
    rwa [len, List.take_length] at h

theorem heardWhole_iff (s : State) : heardWhole s = true ↔ ∃ x, Hears s x ∧ x.heard.length = x.bytes.length := by
  simp only [heardWhole, onAir_any, whole_iff_agrees, agrees_iff, Hears]
  constructor
  · rintro ⟨mac, x, tx, heard, len⟩
    exact ⟨x, ⟨mac, tx, heard⟩, len⟩
  · rintro ⟨x, ⟨mac, tx, heard⟩, len⟩
    exact ⟨mac, x, tx, heard, len⟩

theorem heardDiffering_iff (s : State) :
    heardDiffering s = true ↔ s.lc.mac = .sending ∧ ∃ x, s.lc.tx = some x ∧ ¬Hears s x := by
  simp only [heardDiffering, onAir_any, Bool.not_eq_true']
  refine and_congr_right fun mac => exists_congr fun x => and_congr_right fun tx => ?_
  rw [← Bool.not_eq_true, agrees_iff, Hears]
  tauto

theorem syncHeard_iff (s : State) (ch : ChanId) : syncHeard s ch = true ↔ followed s ch = true ∧
    (s.lc.channel ch).receiver = none ∧ ∃ x, Hears s x ∧ x.channel = ch ∧ x.heard.length = 4 := by
  simp only [syncHeard, Bool.and_eq_true, Option.isNone_iff_eq_none, onAir_any, beq_iff_eq, agrees_iff, and_assoc, Hears]
  refine and_congr_right fun _ => and_congr_right fun _ => ?_
  constructor
  · rintro ⟨mac, x, tx, chan, len, heard⟩
    exact ⟨x, mac, tx, heard, chan, len⟩
  · rintro ⟨x, mac, tx, heard, chan, len⟩
    exact ⟨mac, x, tx, chan, len, heard⟩

theorem received_nil (s : State) (ch : ChanId) :
    received s ch [] = if followed s ch then (s.lc.channel ch).receiver else none := by
  unfold received
  cases (s.lc.channel ch).receiver <;> simp

theorem overlong_iff (s : State) (ch : ChanId) : overlong s ch = true ↔ followed s ch = true ∧
    ∃ bs, (s.lc.channel ch).receiver = some bs ∧ bs.length = 7 ∧ 96 < (byteAt bs 6).toNat := by
  rw [overlong, received_nil, Option.any_eq_true]
  cases followed s ch with
  | true => simp only [if_true, true_and, Bool.and_eq_true, beq_iff_eq, decide_eq_true_eq]; rfl
  | false => simp

theorem isDrop_iff (v : Verdict) : v.isDrop = true ↔ ∀ f, v ≠ .note f ∧ v ≠ .command f := by
  cases v <;> simp [Verdict.isDrop]

theorem droppable_iff (s : State) (ch : ChanId) : droppable s ch = true ↔
    ∃ bs, completed s ch [] = some bs ∧ ∀ f, judge s bs ≠ .note f ∧ judge s bs ≠ .command f := by
  simp [droppable, Option.any_eq_true, isDrop_iff]

/-! ## The due events are those `Due` names (R17) -/

/-- The rows whose events the clock raises for NC, CFE and CE. -/
def ofFront : Instr → Bool
  | .configReadTimeout | .calibrationStart | .calibrationEnd | .calibrationDue | .envelopeValue | .probeBandValue
  | .snapshotFull _ | .probeWindowFull | .arrivalCaptureFull | .passEnd => true
  | _ => false

/-- The rows whose events the clock raises for PTU, IW, PU and FT. -/
def ofTables : Instr → Bool
  | .probeDue | .settleExpiry | .probeGuardExpiry | .arrivalExpiry _ | .silenceExpiry _ | .stalenessExpiry _
  | .pairHoldExpiry _ | .noticeExpiry _ | .fixAgeExpiry _ => true
  | _ => false

/-- The rows whose events the clock raises for LC and NA. -/
def ofLink : Instr → Bool
  | .jamTimeExpiry _ | .jamClearExpiry _ | .interframeGap | .backoffEnd | .frameSent | .collision
  | .preambleAndSync _ | .lenAbove96 .. | .otherFrame .. | .floorHoldExpiry | .noteDeadline _ | .hushExpiry
  | .stateTimer => true
  | _ => false

theorem mem_dueFront (s : State) (i : Instr) : i ∈ dueFront s ↔ ofFront i = true ∧ Due s i := by
  simp only [dueFront, List.mem_append, mem_dueIf, mem_dueAt, readTimedOut_iff, calCanStart_iff, calOver_iff,
    slot_isFull_iff, window_isFull_iff, arrivalBuffer_isFull_iff, Option.isSome_iff_ne_none, Option.any_eq_true]
  cases i with
  | _ => simp [Due, ofFront]

theorem mem_dueTables (s : State) (i : Instr) : i ∈ dueTables s ↔ ofTables i = true ∧ Due s i := by
  simp only [dueTables, List.mem_append, mem_dueIf, mem_dueAt, probeIsDue_iff, settleIsDue_iff, placeExpired_iff]
  cases i with
  | _ => simp [Due, ofTables]

theorem mem_dueLink (s : State) (i : Instr) : i ∈ dueLink s ↔ ofLink i = true ∧ Due s i := by
  simp only [dueLink, dueReception, List.mem_append, mem_dueIf, mem_dueAt, backoffOver_iff,
    Bool.and_eq_true, heardWhole_iff, heardDiffering_iff, syncHeard_iff, overlong_iff, droppable_iff,
    Option.isSome_iff_ne_none, gapMet_ne_none_iff]
  cases i with
  | jamTimeExpiry ch | jamClearExpiry ch | preambleAndSync ch => cases ch <;> simp [Due, ofLink, Lc.channel]
  | lenAbove96 ch | otherFrame ch => cases ch <;> simp [Due, ofLink, Lc.channel, and_comm]
  | frameSent | collision => simp [Due, ofLink, and_comm]
  | noteDeadline k => simp [Due, ofLink, imp_iff_not_or]
  | _ => simp [Due, ofLink]

/-- An event is one of those of NC, CFE and CE, of the tables, or of LC and NA. -/
theorem mem_dueEvents (s : State) (i : Instr) : i ∈ dueEvents s ↔ Due s i := by
  have own : Due s i → ofFront i = true ∨ ofTables i = true ∨ ofLink i = true := by
    cases i <;> simp [Due, ofFront, ofTables, ofLink]
  simp only [dueEvents, List.mem_append, mem_dueFront, mem_dueTables, mem_dueLink]
  tauto

end Sys2Proof.Machine
end

