-- ==== Sys2Proof/Proofs/ClockSteps.lean ====
section
/-! SUPPORT. The four things the clock does on an empty queue, and what each leaves (entries 3 and 4). -/

namespace Sys2Proof.Machine

open Sys2Proof

/-! ## The greatest of a list (R27, R40) -/

theorem foldl_max_spec (xs : List Nat) (a : Nat) :
    a ≤ xs.foldl max a ∧ (∀ x ∈ xs, x ≤ xs.foldl max a) ∧ (xs.foldl max a = a ∨ xs.foldl max a ∈ xs) := by
  induction xs generalizing a with
  | nil => simp
  | cons x xs ih =>
    obtain ⟨start, members, found⟩ := ih (max a x)
    simp only [List.foldl_cons, List.mem_cons]
    refine ⟨by omega, fun y hy => ?_, ?_⟩
    · rcases hy with rfl | hy
      · omega
      · exact members y hy
    · rcases found with found | found
      · rcases max_choice a x with left | right
        · exact .inl (found.trans left)
        · exact .inr (.inl (found.trans right))
      · exact .inr (.inr found)

theorem le_greatest {xs : List Nat} {x : Nat} (h : x ∈ xs) : x ≤ greatest xs := (foldl_max_spec xs 0).2.1 x h

theorem greatest_mem {xs : List Nat} (h : xs ≠ []) : greatest xs ∈ xs := by
  obtain ⟨y, hy⟩ := List.exists_mem_of_ne_nil xs h
  obtain zero | found := (foldl_max_spec xs 0).2.2
  · have : y = 0 := Nat.le_zero.1 (zero ▸ le_greatest hy)
    exact (show greatest xs = y from zero.trans this.symm) ▸ hy
  · exact found

theorem greatest_spec {xs : List Nat} (h : xs ≠ []) : Greatest xs (greatest xs) :=
  ⟨greatest_mem h, fun _ => le_greatest⟩

theorem blockValue_excursion (offset : Int) (history : List Int) :
    GreatestExcursion offset (history.take 16) (blockValue offset history) := by
  refine ⟨fun x hx => le_greatest (List.mem_map_of_mem hx), fun ne => ?_⟩
  obtain ⟨x, hx, value⟩ := List.mem_map.1 (greatest_mem (xs := (history.take 16).map (rectify offset)) (by simpa using ne))
  exact ⟨x, hx, value.symm⟩

theorem blockValue_take (offset : Int) (history : List Int) :
    blockValue offset (history.take 128) = blockValue offset history := by
  rw [blockValue, blockValue, List.take_take]
  rfl

theorem detecting_iff (n : NodeState) : detecting n = true ↔ n = .calibrating ∨ n = .running ∨ n = .clashed := by
  cases n <;> simp [detecting]

theorem formEnvelope_detecting {s : State} {now : Time} (block : now.toNat % 64 = 0) (h : Detects s) :
    formEnvelope s now = some ⟨plus now (-64), blockValue s.cfe.offR s.cfe.ring⟩ :=
  if_pos ⟨block, (detecting_iff _).2 h.1, h.2⟩

theorem formEnvelope_other {s : State} {now : Time} (h : now.toNat % 64 ≠ 0 ∨ ¬Detects s) :
    formEnvelope s now = s.cfe.envelope := by
  refine if_neg fun ⟨block, detects, cal⟩ => ?_
  exact h.elim (· block) (· ⟨(detecting_iff _).1 detects, cal⟩)

theorem formProbeValue_detecting {s : State} {history : List Int} (block : s.nc.now.toNat % 64 = 60) (h : Detects s) :
    formProbeValue s history s.cfe.cal = some ⟨plus s.nc.now (-60), blockValue s.cfe.offP history⟩ :=
  if_pos ⟨block, (detecting_iff _).2 h.1, h.2⟩

theorem formProbeValue_other {s : State} {history : List Int} (h : s.nc.now.toNat % 64 ≠ 60 ∨ ¬Detects s) :
    formProbeValue s history s.cfe.cal = s.cfe.probeValue := by
  refine if_neg fun ⟨block, detects, cal⟩ => ?_
  exact h.elim (· block) (· ⟨(detecting_iff _).1 detects, cal⟩)

/-! ## A byte of the own frame, or a tick -/

theorem sampleDue_iff (s : State) : sampleDue s = true ↔ s.nc.now.toNat % 4 = 0 ∧ s.nc.sampled = false := by
  simp [sampleDue]

theorem byteDue_iff (s : State) : byteDue s = true ↔ s.lc.mac = .sending ∧ ∃ x, s.lc.tx = some x ∧
    x.heard.length < x.bytes.length ∧ ((25600 * (x.heard.length + 1) : Nat) : Int) ≤ diff s.nc.now x.start := by
  simp only [byteDue, onAir_any, Bool.and_eq_true, decide_eq_true_eq]
  rfl

theorem takeByte_eq {s : State} {x : Transmission} (h : s.lc.tx = some x) : takeByte s = { s with
    nc := { s.nc with fresh := s.nc.fresh + 1 }
    lc := { s.lc.setChannel x.channel { s.lc.channel x.channel with
        receiver := (s.lc.channel x.channel).receiver.map (· ++ (Config.loopbackByte s.nc.fresh).toList) } with
      tx := some { x with heard := x.heard ++ [Config.loopbackByte s.nc.fresh] } } } := by
  unfold takeByte
  rw [h]
  rfl

/-- The backoff counts the tick unless its channel carries (R150). -/
theorem countTick_eq (l : Lc) (n : Note) : n.countTick l = { n with link := n.link.map fun k => { k with
    remaining := if (k.channel.all fun c => (l.channel c).carrier) = true then k.remaining
      else k.remaining.map (· - 1) } } := by
  unfold Note.countTick
  congr 2
  funext k
  cases hc : k.channel with
  | none => cases k; simp_all
  | some c => cases hr : (l.channel c).carrier <;> cases k <;> simp_all

theorem advance_na_counting {s : State} (mac : s.lc.mac = .backoff) :
    (advance s).na = { s.na with queue := s.na.queue.map fun n =>
      if n.inFlight = true then { n with link := n.link.map fun l => { l with
        remaining := if (l.channel.all fun c => (s.lc.channel c).carrier) = true then l.remaining
          else l.remaining.map (· - 1) } } else n } := by
  have : (advance s).na = s.na.setFlight (Note.countTick s.lc) := if_pos mac
  rw [this, Na.setFlight]
  simp only [countTick_eq]

theorem advance_channel (s : State) (ch : ChanId) : (advance s).lc.channel ch = { s.lc.channel ch with
    idle := if followed s ch = true ∧ (s.lc.channel ch).carrier = false
      then min ((s.lc.channel ch).idle + 1) 160000 else (s.lc.channel ch).idle } := by
  cases ch <;> exact tick_eq _ _

/-- Settles O3: a byte due is taken (`takeByte_eq`); with none the tick is `advance`. -/
theorem emptyQueueStepHearsAByteOrAddsOneTick : Obligations.EmptyQueueStepHearsAByteOrAddsOneTick := by
  intro s queue held due sampled
  have sample : sampleDue s = false := by
    rw [← Bool.not_eq_true, sampleDue_iff]
    rintro ⟨instant, fresh⟩
    simp [instant, fresh] at sampled
  refine ⟨fun x mac tx more ended => ?_, fun early => ?_⟩
  · have byte : byteDue s = true := (byteDue_iff s).2 ⟨mac, x, tx, more, ended⟩
    refine ⟨takeByte s, Config.loopbackByte s.nc.fresh, ?_, ?_⟩
    · rw [step_nil queue, idle_byte held due sample byte]
    · rw [takeByte_eq tx]
      exact ⟨rfl, rfl, by simp [unchangedBut_iff]⟩
  · have byte : byteDue s = false := by
      rw [← Bool.not_eq_true, byteDue_iff]
      rintro ⟨mac, x, tx, more, ended⟩
      exact absurd ended (not_le.2 (early x mac tx more))
    refine ⟨advance s, ?_, rfl, rfl, advance_channel s, fun mac => if_neg mac, advance_na_counting, rfl, ?_, ?_, ?_⟩
    · rw [step_nil queue, idle_tick held due sample byte]
    · exact fun block detects => ⟨_, formEnvelope_detecting block detects, blockValue_excursion _ _⟩
    · exact formEnvelope_other
    · simp [unchangedBut_iff, advance]

/-- Settles O4: `raise` puts the due events in the order of their keys; `mem_dueEvents` says which they are. -/
theorem emptyQueueStepRaisesDueEvents : Obligations.EmptyQueueStepRaisesDueEvents := by
  refine ⟨fun s queue held due => ⟨raise s, ?_, ?_, ?_⟩, mem_dueEvents⟩
  · rw [step_nil queue, idle_raise held due]
  · rw [raise_pending]
    exact inKeyOrder_perm _ _
  · rw [raise_eq]

/-! ## Samples -/

theorem cal_add_early {now start : Time} {rP rN pP pN : Int} (xr xp : Int) (h : diff now start < 1024) :
    (CalState.running start rP rN pP pN).add now xr xp = .running start (rP + xr) rN (pP + xp) pN := if_pos h

theorem cal_add_late {now start : Time} {rP rN pP pN : Int} (xr xp : Int) (h : 1024 ≤ diff now start) :
    (CalState.running start rP rN pP pN).add now xr xp = .running start rP (rN + xr) pP (pN + xp) := if_neg (not_lt.2 h)

theorem cal_add_other {c : CalState} (now : Time) (xr xp : Int) (h : c.isRunning = false) : c.add now xr xp = c := by
  cases c with
  | running => exact absurd h nofun
  | _ => rfl

theorem slot_take_filling {start : Time} {o : Int} {xs : List Int} (x : Int) (h : xs.length < 512) :
    (Slot.filling start o xs).take x = .filling start o (xs ++ [x]) := if_pos h

theorem slot_take_other {w : Slot} (x : Int) (h : (!w.isFilling || decide (512 ≤ w.samples.length)) = true) :
    w.take x = w := by
  cases w with
  | filling start o xs =>
    have full : 512 ≤ xs.length := of_decide_eq_true h
    exact if_neg (not_lt.2 full)
  | _ => rfl

theorem window_take_capturing {now e : Time} {xs : List Int} (x : Int) (from_ : 0 ≤ diff now e) (h : xs.length < 2048) :
    (Window.capturing e xs).take now x = .capturing e (xs ++ [x]) := if_pos ⟨from_, h⟩

theorem window_take_other {now : Time} {w : Window} (x : Int)
    (h : ∀ e xs, w = .capturing e xs → diff now e < 0 ∨ 2048 ≤ xs.length) : w.take now x = w := by
  cases w with
  | capturing e xs =>
    refine if_neg fun ⟨from_, room⟩ => ?_
    rcases h e xs rfl with before | full <;> omega
  | _ => rfl

theorem arrival_take_capturing {c u : Time} {xs : List Int} (x : Int) (h : xs.length < 512) :
    (ArrivalBuffer.capturing c u xs).take x = .capturing c u (xs ++ [x]) := if_pos h

theorem arrival_take_other {w : ArrivalBuffer} (x : Int) (h : ∀ c u xs, w = .capturing c u xs → 512 ≤ xs.length) :
    w.take x = w := by
  cases w with
  | capturing c u xs => exact if_neg (not_lt.2 (h c u xs rfl))
  | _ => rfl

theorem emit_chirp {n : Nat} (h : n < 256) : emit (some n) = (chirpSample n, some (n + 1)) := if_pos h

theorem emit_quiet {c : Option Nat} (h : ∀ n, c = some n → 256 ≤ n) : emit c = (0, none) := by
  cases c with
  | none => rfl
  | some n => exact if_neg (not_lt.2 (h n rfl))

theorem sample12_range (x : Int) : -2048 ≤ sample12 x ∧ sample12 x ≤ 2047 := clampInt_range x _ _ (by decide)

theorem takeSample_eq (s : State) : ∃ xr xp, -2048 ≤ xr ∧ xr ≤ 2047 ∧ -2048 ≤ xp ∧ xp ≤ 2047 ∧ takeSample s = { s with
    cfe := sampledCfe s xr xp
    iw := { s.iw with slots := s.iw.slots.map (Slot.take xr) }
    nc := { s.nc with sampled := true, fresh := s.nc.fresh + 1 } } := by
  obtain ⟨rLow, rHigh⟩ := sample12_range (Config.returnInput (inputSwitch s.cfe.cal s.nc.now) s.nc.fresh)
  obtain ⟨pLow, pHigh⟩ := sample12_range (Config.probeInput (inputSwitch s.cfe.cal s.nc.now) s.nc.fresh)
  exact ⟨_, _, rLow, rHigh, pLow, pHigh, rfl⟩

/-- Settles O5: part by part of the front end, each by what it does with one more sample. -/
theorem emptyQueueStepTakesSamples : Obligations.EmptyQueueStepTakesSamples := by
  intro s queue held due instant fresh
  obtain ⟨xr, xp, rLow, rHigh, pLow, pHigh, taken⟩ := takeSample_eq s
  refine ⟨takeSample s, xr, xp, ?_, rLow, rHigh, pLow, pHigh, ?_⟩
  · rw [step_nil queue, idle_sample held due ((sampleDue_iff s).2 ⟨instant, fresh⟩)]
  rw [taken]
  refine ⟨rfl, fun start rP rN pP pN cal => ?_, cal_add_other _ _ _, ?_, formProbeValue_other, rfl, ?_, ?_, ?_, ?_, ?_, ?_,
    ?_, ?_, rfl, by simp [unchangedBut_iff]⟩
  · simp only [sampledCfe, cal]
    exact ⟨cal_add_early xr xp, cal_add_late xr xp⟩
  · intro block detects
    refine ⟨_, formProbeValue_detecting block detects, ?_⟩
    rw [blockValue_take]
    exact blockValue_excursion _ _
  · intro i start o xs slot room
    simp only [List.getElem?_map, slot, Option.map_some, slot_take_filling xr room]
  · intro i stands
    simp only [List.getElem?_map]
    cases slot : s.iw.slots[i]? with
    | none => rfl
    | some w =>
      rw [slot] at stands
      exact congrArg some (slot_take_other xr stands)
  · intro e xs window from_ room
    simp only [sampledCfe, window, window_take_capturing xp from_ room]
  · exact window_take_other xp
  · intro c u xs arrival room
    simp only [sampledCfe, arrival, arrival_take_capturing xp room]
  · exact arrival_take_other xp
  · intro n chirp more
    simp only [sampledCfe, chirp, emit_chirp more, and_self]
  · intro over_
    simp only [sampledCfe, emit_quiet over_, and_self]

end Sys2Proof.Machine
end

