-- ==== Sys2Proof/Proofs/RandomSource.lean ====
section
/-! SUPPORT. The random source (R23, R24). A stage x ^ (x shifted) gives 0 for 0 alone: each bit of x equals one nearer the
end from which zeros come in. The rejection loop answers its first accepted output. -/

namespace Sys2Proof.Machine

open Sys2Proof

/-! ## The generator never reaches 0 (R23) -/

theorem eq_zero_of_xor_shiftLeft {w k : Nat} (hk : 0 < k) {x : BitVec w} (h : x ^^^ (x <<< k) = 0) : x = 0 := by
  have clear : ∀ i, x.getLsbD i = false := by
    intro i
    induction i using Nat.strong_induction_on with
    | _ i ih =>
      have bit : (x ^^^ (x <<< k)).getLsbD i = false := by rw [h]; simp
      by_cases low : i < k
      · simpa [low] using bit
      · simpa [low, ih (i - k) (by omega)] using bit
  exact BitVec.eq_of_getLsbD_eq fun i _ => by simp [clear i]

theorem eq_zero_of_xor_ushiftRight {w k : Nat} (hk : 0 < k) {x : BitVec w} (h : x ^^^ (x >>> k) = 0) : x = 0 := by
  have clear : ∀ d i, w ≤ i + d → x.getLsbD i = false := by
    intro d
    induction d with
    | zero => exact fun i hi => BitVec.getLsbD_of_ge x i hi
    | succ d ih =>
      intro i hi
      have bit : (x ^^^ (x >>> k)).getLsbD i = false := by rw [h]; simp
      simpa [ih (k + i) (by omega)] using bit
  exact BitVec.eq_of_getLsbD_eq fun i _ => by simp [clear w i (by omega)]

theorem rngStep_ne_zero {x : Seed} (h : x ≠ 0) : rngStep x ≠ 0 := by
  intro zero
  have second := eq_zero_of_xor_shiftLeft (by decide) zero
  have first := eq_zero_of_xor_ushiftRight (by decide) second
  exact h (eq_zero_of_xor_shiftLeft (by decide) first)

theorem seed_zero : seed 0 = 1 := by decide

theorem seed_toNat {id : Nat} (low : 1 ≤ id) (high : id ≤ 255) : (seed id).toNat = id * 16843009 := by
  have value : (BitVec.ofNat 32 (id * 16843009)).toNat = id * 16843009 := by
    rw [BitVec.toNat_ofNat]
    omega
  have nonzero : BitVec.ofNat 32 (id * 16843009) ≠ 0 := by
    intro zero
    rw [zero] at value
    change 0 = _ at value
    omega
  rw [seed, if_neg nonzero, value]

/-! ## Draws (R24) -/

theorem bitsFor_eq {n b : Nat} (pos : 0 < n) (low : 2 ^ (b - 1) ≤ n) (high : n < 2 ^ b) : bitsFor n = b := by
  obtain ⟨c, rfl⟩ : ∃ c, b = c + 1 := Nat.exists_eq_succ_of_ne_zero (by rintro rfl; omega)
  rw [bitsFor, (Nat.log2_eq_iff pos.ne').2 ⟨low, high⟩, Nat.add_sub_cancel]

/-- The loop passes over `m` outputs above `n` and answers the next. -/
theorem drawLoop_first {n : Nat} (m k : Nat) (x : Seed) (bound : m < k)
    (rejected : ∀ j, j < m → n < (rngStep^[j + 1] x).toNat % 2 ^ bitsFor n)
    (accepted : (rngStep^[m + 1] x).toNat % 2 ^ bitsFor n ≤ n) :
    drawLoop n k x = ((rngStep^[m + 1] x).toNat % 2 ^ bitsFor n, rngStep^[m + 1] x) := by
  induction m generalizing k x with
  | zero =>
    obtain ⟨k, rfl⟩ := Nat.exists_eq_succ_of_ne_zero bound.ne'
    exact if_pos accepted
  | succ m ih =>
    obtain ⟨k, rfl⟩ := Nat.exists_eq_succ_of_ne_zero (Nat.ne_zero_of_lt bound)
    have first : ¬(rngStep x).toNat % 2 ^ bitsFor n ≤ n := not_le.2 (rejected 0 (by omega))
    rw [drawLoop, if_neg first]
    exact ih k (rngStep x) (by omega) (fun j hj => rejected (j + 1) (by omega)) accepted

/-- Settles O9: the seed and the draws by computation in ℕ, the generator's period by its three stages. -/
theorem randomSourceStepsAndDraws : Obligations.RandomSourceStepsAndDraws := by
  refine ⟨seed_zero, fun id => seed_toNat, fun x => ⟨_, _, rfl, rfl, rfl⟩, fun x => rngStep_ne_zero, fun x => rfl, draw_le,
    fun n b m x pos low high bound rejected accepted => ?_⟩
  obtain rfl := bitsFor_eq pos low high
  rw [draw, if_neg pos.ne']
  exact drawLoop_first m _ x bound rejected accepted

end Sys2Proof.Machine
end

