-- ==== Sys2Proof/Proofs/Configuration.lean ====
section
/-! SUPPORT. The configuration read (R2 to R5, R172). -/

namespace Sys2Proof.Machine

open Sys2Proof

/-! ## Fields of the block -/

theorem fieldBytes_eq {bs : Bytes} {offset size : Nat} (h : offset + size ≤ bs.length) :
    fieldBytes bs offset size = (List.range size).map fun k => byteAt bs (offset + k) := by
  refine List.ext_getElem (by simp [fieldBytes]; omega) fun i h1 h2 => ?_
  have : offset + i < bs.length := by simp [fieldBytes] at h1; omega
  simp [fieldBytes, byteAt, List.getD_eq_getElem?_getD, List.getElem?_eq_getElem this]

theorem field_one {bs : Bytes} {offset : Nat} (h : offset + 1 ≤ bs.length) :
    field bs offset 1 = (byteAt bs offset).toNat := by
  simp [field, fieldBytes_eq h, beNat]

theorem field_two {bs : Bytes} {offset : Nat} (h : offset + 2 ≤ bs.length) :
    field bs offset 2 = 256 * (byteAt bs offset).toNat + (byteAt bs (offset + 1)).toNat := by
  simp [field, fieldBytes_eq h, beNat, List.range_succ, mul_comm]

theorem isErased_iff {bs : Bytes} {offset size : Nat} (h : offset + size ≤ bs.length) :
    isErased bs offset size = true ↔ ∀ k, k < size → byteAt bs (offset + k) = 255 := by
  simp [isErased, fieldBytes_eq h]

/-- A field erased, or taken at the nearest value of its range (R3). -/
theorem fieldTaken_of {bs : Bytes} {offset size lo hi standard v : Nat} (h : offset + size ≤ bs.length) (order : lo ≤ hi)
    (value : v = if isErased bs offset size = true then standard else max lo (min hi (field bs offset size))) :
    FieldTaken bs offset size lo hi standard v := by
  rw [FieldTaken, ← isErased_iff h]
  constructor
  · exact fun erased => value.trans (if_pos erased)
  · rintro ⟨k, hk, differs⟩
    have kept : ¬isErased bs offset size = true := fun erased => differs ((isErased_iff h).1 erased k hk)
    rw [if_neg kept] at value
    omega

theorem clampedField_taken {bs : Bytes} (length : bs.length = 64) (offset size lo hi standard : Nat)
    (h : offset + size ≤ 64) (order : lo ≤ hi) :
    FieldTaken bs offset size lo hi standard (clampedField bs offset size lo hi standard) :=
  fieldTaken_of (by omega) order rfl

theorem dualField_iff (bs : Bytes) : dualField bs = true ↔ byteAt bs 33 ≠ 0 := by simp [dualField]

theorem statePeriodField_zero {bs : Bytes} (length : bs.length = 64) (h : field bs 34 2 = 0) : statePeriodField bs = 0 := by
  have kept : ¬isErased bs 34 2 = true := by
    rw [isErased_iff (by omega)]
    intro erased
    have := field_two (bs := bs) (offset := 34) (by omega)
    have := erased 0 (by omega)
    simp_all
  rw [statePeriodField, if_neg kept, if_pos h]

theorem statePeriodField_taken {bs : Bytes} (length : bs.length = 64) (h : field bs 34 2 ≠ 0) :
    FieldTaken bs 34 2 5 3600 60 (statePeriodField bs) :=
  fieldTaken_of (by omega) (by decide) (by rw [statePeriodField, if_neg h])

/-- Settles O12: each field is a `clampedField` but DUAL and STATE_PERIOD. -/
theorem loadedConfigurationLiesInRange : Obligations.LoadedConfigurationLiesInRange := by
  intro block length
  have taken := clampedField_taken length
  refine ⟨field_one (by omega), field_one (by omega), field_two (by omega), taken 6 2 600 950 870 (by decide) (by decide),
    taken 8 2 250 4000 1000 (by decide) (by decide), taken 10 2 1 2047 300 (by decide) (by decide),
    ⟨_, taken 12 2 0 2047 200 (by decide) (by decide), rfl⟩, taken 14 1 0 15 3 (by decide) (by decide),
    taken 15 2 1 2047 256 (by decide) (by decide), taken 17 2 0 500 40 (by decide) (by decide),
    taken 19 2 0 4080 600 (by decide) (by decide), taken 21 2 10 1000 60 (by decide) (by decide),
    taken 23 1 1 32 3 (by decide) (by decide), taken 24 2 10 3600 600 (by decide) (by decide),
    taken 26 1 1 127 8 (by decide) (by decide), taken 27 1 5 200 20 (by decide) (by decide),
    taken 28 1 1 15 3 (by decide) (by decide), taken 29 1 1 127 24 (by decide) (by decide),
    taken 30 1 1 16 4 (by decide) (by decide), taken 31 2 10 500 50 (by decide) (by decide), fun zero => ?_,
    (dualField_iff block).2, statePeriodField_zero length, statePeriodField_taken length,
    taken 36 1 0 6 6 (by decide) (by decide), taken 37 1 0 6 5 (by decide) (by decide),
    taken 38 1 0 6 4 (by decide) (by decide), taken 39 1 0 6 3 (by decide) (by decide),
    taken 40 1 0 6 1 (by decide) (by decide)⟩
  exact Bool.eq_false_iff.2 fun dual => (dualField_iff block).1 dual zero

/-! ## The end of LOADING -/

theorem readNames_iff {o : ReadOutcome} (possible : readPossible o = true) : readNames o = true ↔
    ∃ block, o = .complete block ∧ byteAt block 0 = 198 ∧ byteAt block 1 = 41 ∧ 1 ≤ (byteAt block 2).toNat ∧
      (byteAt block 2).toNat ≤ 254 := by
  cases o with
  | notAcknowledged => simp [readNames]
  | complete block =>
    have length : block.length = 64 := by simpa [readPossible] using possible
    simp [readNames, hasMarker, field_one (bs := block) (offset := 2) (by omega), and_assoc]

theorem stateAfterRead_calibrating (o : ReadOutcome) : stateAfterRead o = .calibrating ↔ readNames o = true := by
  cases h : readNames o <;> simp [stateAfterRead, h]

theorem stateAfterRead_cases (o : ReadOutcome) : stateAfterRead o = .calibrating ∨ stateAfterRead o = .unnamed := by
  cases h : readNames o <;> simp [stateAfterRead, h]

theorem leaveLoading_cal (node : NodeState) (cfg : Cfg) (s : State) :
    (leaveLoading node cfg s).cfe.cal = if node = .calibrating then .waiting else .idle := rfl

theorem begin_eq (follow : Bool) (now : Time) (c : Channel) : c.begin follow now = { c with
    jammed := false, jamClear := none, receiver := none
    jamTime := if follow = true ∧ c.carrier = true then some (plus now 40000000) else none } := by
  simp [Channel.begin, jamTimeTicks]

theorem leaveLoading_channel (node : NodeState) (cfg : Cfg) (s : State) (c : ChanId) :
    (leaveLoading node cfg s).lc.channel c = { s.lc.channel c with
      jammed := false, jamClear := none, receiver := none, idle := 0
      jamTime := if (c = .a ∨ cfg.dual = true) ∧ (s.lc.channel c).carrier = true
        then some (plus s.nc.now 40000000) else none } := by
  cases c <;> simp [leaveLoading, Lc.channel, begin_eq]

/-- Settles O11: both rows are `leaveLoading`. -/
theorem configurationReadEndsLoading : Obligations.ConfigurationReadEndsLoading := by
  refine ⟨fun o s loading possible early => ?_, fun s loading late => ?_⟩
  · have ends : readCanEnd o s = true := by simp [readCanEnd, loading, possible, readLimit, early]
    have named := (stateAfterRead_calibrating o).trans (readNames_iff possible)
    have cal := leaveLoading_cal (stateAfterRead o) (settledCfg o) s
    refine ⟨leaveLoading (stateAfterRead o) (settledCfg o) s, congrArg Host.Outcome.next (if_pos ends), rfl,
      stateAfterRead_cases o, named, rfl, rfl, rfl, fun h => ?_, fun h => ?_, ?_, rfl, rfl, rfl,
      leaveLoading_channel _ _ s, by simp [unchangedBut_iff, leaveLoading]⟩
    · exact cal.trans (if_pos h)
    · exact cal.trans (if_neg (by rw [show stateAfterRead o = .unnamed from h]; decide))
    · simp [leaveLoading, begin_eq]
  · have ends : readTimedOut s = true := (readTimedOut_iff s).2 ⟨loading, late⟩
    refine ⟨leaveLoading .unnamed Cfg.default s, congrArg Host.Outcome.next (if_pos ends), rfl, rfl, seed_zero, rfl, rfl,
      rfl, rfl, rfl, fun c => ?_, by simp [unchangedBut_iff, leaveLoading]⟩
    rw [leaveLoading_channel]
    simp [Cfg.default]

end Sys2Proof.Machine
end

