-- ==== Sys2Proof/Proofs/Calibration.lean ====
section
/-! SUPPORT. The offset calibration (R28 to R31). -/

namespace Sys2Proof.Machine

open Sys2Proof

/-- An operation that leaves a state as it is does so of a held node too. -/
theorem live_same {f : State → State} {s : State} (h : f s = s) : live f s = s := by
  by_cases held : s.nc.node = .held
  · exact live_held f held
  · rw [live_eq f held, h]

theorem calibrationStart_ready {s : State} (h : calCanStart s = true) : calibrationStart s =
    s.withCfe { s.cfe with cal := .running s.nc.now 0 0 0 0, envelope := none, probeValue := none } := if_pos h

theorem calibrationStart_deferred {s : State} (h : calDeferred s = true) : calibrationStart s = s :=
  if_neg (by simp [calCanStart, h])

theorem calDeferred_iff (s : State) : calDeferred s = true ↔ s.nc.node ≠ .calibrating ∧
    (s.iw.detector.isOpen = true ∨ (∃ w ∈ s.iw.slots, w.isFilling = true) ∨ s.cfe.window.isCapturing = true ∨
      s.cfe.arrival.isCapturing = true) := by
  simp only [calDeferred, Bool.and_eq_true, bne_iff_ne, Bool.or_eq_true, List.any_eq_true, or_assoc]

/-- The front end after a calibration with the sums P and N of each band (R28, R30). -/
def calibrated (s : State) (rP rN pP pN : Int) : Cfe := { s.cfe with
  offR := clampInt (roundHalfAway (rP + rN) 512) (-255) 255
  offP := clampInt (roundHalfAway (pP + pN) 512) (-255) 255
  cal := .idle, calDue := some (plus s.nc.now 48000000000) }

theorem calibrationEnd_over {s : State} {start : Time} {rP rN pP pN : Int} (cal : s.cfe.cal = .running start rP rN pP pN)
    (ended : 2048 ≤ diff s.nc.now start) : calibrationEnd s = if s.nc.node = .calibrating
      then enterRunning (s.withCfe (calibrated s rP rN pP pN)) else unblock (s.withCfe (calibrated s rP rN pP pN)) := by
  unfold calibrationEnd
  rw [cal]
  exact if_pos ended

theorem drawMicros_le (n : Nat) (s : State) : ∃ d x, d ≤ n ∧ drawMicros n s = (800 * d, s.withNc { s.nc with rng := x }) :=
  ⟨(draw n s.nc.rng).1, (draw n s.nc.rng).2, draw_le n s.nc.rng, rfl⟩

/-- The node in RUNNING, its probe period drawn, its STATE timer and its detector started (R6). -/
theorem enterRunning_eq (s : State) : ∃ (d : Nat) (x : Seed), d ≤ 1000 * s.nc.cfg.probePeriod ∧ enterRunning s = { s with
    nc := { s.nc with node := .running, rng := x }
    ptu := { s.ptu with schedule := .counting (plus s.nc.now (800 * d : Nat)) }
    na := { s.na with
      stateTimer := if s.nc.cfg.statePeriod = 0 then none
        else some (plus s.nc.now (800000000 * s.nc.cfg.statePeriod : Nat)) }
    iw := { s.iw with detector := if s.nc.cfg.confirmN = 0 then .off else .watch 0 0 0 } } := by
  obtain ⟨d, x, bound, drawn⟩ := drawMicros_le (1000 * s.nc.cfg.probePeriod) (s.withNc { s.nc with node := .running })
  refine ⟨d, x, bound, ?_⟩
  have period : (perSecond * s.nc.cfg.statePeriod = 0) = (s.nc.cfg.statePeriod = 0) := by simp [perSecond]
  rw [enterRunning, drawn]
  simp only [period]
  rfl

/-- Settles O14. -/
theorem calibrationWaitsStartsAndEnds : Obligations.CalibrationWaitsStartsAndEnds := by
  refine ⟨fun s live_ waiting block fresh clear => ?_, fun s node deferred => ?_, fun s live_ due => ?_,
    fun s start rP rN pP pN live_ cal ended => ⟨fun node => ?_, fun node => ?_⟩⟩
  · have ready : calCanStart s = true := (calCanStart_iff s).2 ⟨waiting, block, fresh, clear.symm⟩
    refine ⟨_, next_live calibrationStart live_, ?_⟩
    rw [calibrationStart_ready ready]
    exact ⟨rfl, cfeSame s _⟩
  · exact congrArg Host.Outcome.next
      (live_same (calibrationStart_deferred ((calDeferred_iff s).2 ⟨node, deferred⟩)))
  · refine ⟨_, next_live calibrationDue live_, ?_⟩
    rw [calibrationDue, if_pos due]
    exact ⟨rfl, cfeSame s _⟩
  · refine (next_live calibrationEnd live_).trans ?_
    rw [calibrationEnd_over cal ended, if_neg node]
    rfl
  · refine ⟨_, next_live calibrationEnd live_, ?_⟩
    rw [calibrationEnd_over cal ended, if_pos node]
    obtain ⟨d, x, bound, entered⟩ := enterRunning_eq (s.withCfe (calibrated s rP rN pP pN))
    rw [entered]
    exact ⟨rfl, rfl, rfl, ⟨d, bound, rfl⟩, rfl, rfl, by simp [unchangedBut_iff]⟩

end Sys2Proof.Machine
end

