-- ==== Sys2Proof/Proofs/Exchange.lean ====
section
/-! SUPPORT. The exchange of a peer (R91 to R94): its offset, distance and rate, and what its verdict makes of the entry. -/

namespace Sys2Proof.Machine

open Sys2Proof

/-! ## The computation (R92, R93) -/

/-- A time plus a difference in range lies that difference on (R15). -/
theorem diff_plus_self (t : Time) {d : Int} (low : -(2 ^ 47) ≤ d) (high : d < 2 ^ 47) : diff (plus t d) t = d := by
  have cancel : t + BitVec.ofInt 48 d - t = BitVec.ofInt 48 d := by
    rw [BitVec.add_comm, BitVec.add_sub_cancel]
  rw [diff, plus, cancel, BitVec.toInt_ofInt]
  exact Int.bmod_eq_of_le (by omega) (by omega)

theorem exchangeOf_driftless (vf : Nat) (eA eB : Time) {theta d : Int} (number : Byte)
    (fLow : -(2 ^ 47) ≤ theta + d) (fHigh : theta + d < 2 ^ 47) (rLow : -(2 ^ 47) ≤ d - theta) (rHigh : d - theta < 2 ^ 47) :
    (exchangeOf vf ⟨eA, plus eA (theta + d)⟩ ⟨eB, plus eB (d - theta), number⟩ 0).theta = theta ∧
      (exchangeOf vf ⟨eA, plus eA (theta + d)⟩ ⟨eB, plus eB (d - theta), number⟩ 0).distance = conv vf d := by
  simp only [exchangeOf, diff_plus_self eA fLow fHigh, diff_plus_self eB rLow rHigh]
  refine ⟨by omega, congrArg (conv vf) ?_⟩
  rw [mul_zero]
  omega

theorem jumped_eq (rate adopt : Option Int) (jumps : Nat) :
    jumped rate adopt jumps = if jumps < 2 then (rate, jumps + 1) else (adopt, 0) := by
  rw [jumped]
  split <;> split <;> first | rfl | omega

section
variable {dTheta dMid : Int} {jumps : Nat}

theorem updateRate_close (rate : Option Int) (h : dMid < 2 ^ 24) : updateRate dTheta dMid rate jumps = (rate, jumps) :=
  if_pos h

theorem updateRate_far (rate : Option Int) (mid : 2 ^ 24 ≤ dMid) (h : 2 ^ 31 ≤ dTheta.natAbs) :
    updateRate dTheta dMid rate jumps = if jumps < 2 then (rate, jumps + 1) else (none, 0) := by
  rw [updateRate, if_neg (not_lt.2 mid), if_pos (by omega), jumped_eq]

/-- The rate that an exchange measures (R93). -/
def measured (dTheta dMid : Int) : Int := max (-(2 ^ 23 - 1)) (min (2 ^ 23 - 1) ((dTheta * 2 ^ 32).tdiv dMid))

theorem measured_eq (dTheta dMid : Int) :
    clampInt ((dTheta * 2 ^ 32).tdiv dMid) (-rateLimit) rateLimit = measured dTheta dMid := by
  rw [rateLimit, clampInt_eq_max_min (by decide)]
  rfl

theorem updateRate_first (mid : 2 ^ 24 ≤ dMid) (h : dTheta.natAbs < 2 ^ 31) :
    updateRate dTheta dMid none jumps = (some (measured dTheta dMid), 0) := by
  rw [updateRate, if_neg (not_lt.2 mid), if_neg (by omega), measured_eq]

theorem updateRate_measured (r : Int) (mid : 2 ^ 24 ≤ dMid) (h : dTheta.natAbs < 2 ^ 31) :
    updateRate dTheta dMid (some r) jumps =
      if 2 ^ 19 < ((measured dTheta dMid - r).natAbs : Int) then jumped (some r) (some (measured dTheta dMid)) jumps
      else (some (r + (measured dTheta dMid - r).tdiv 4), 0) := by
  rw [updateRate, if_neg (not_lt.2 mid), if_neg (by omega), measured_eq]

end

/-- Settles O21. -/
theorem exchangeFindsOffsetDistanceAndRate : Obligations.ExchangeFindsOffsetDistanceAndRate := by
  refine ⟨fun vf eA eB theta d number => exchangeOf_driftless vf eA eB number, fun vf f r rate => rfl,
    fun dTheta dMid rate jumps => ⟨updateRate_close rate, updateRate_far rate, fun mid h =>
      ⟨_, rfl, fun none_ => ?_, fun r some_ jump => ?_, fun r some_ steady => ?_⟩⟩⟩
  · rw [none_]
    exact updateRate_first mid h
  · rw [some_, updateRate_measured r mid h]
    exact (if_pos (by exact_mod_cast jump)).trans (jumped_eq _ _ _)
  · rw [some_, updateRate_measured r mid h]
    exact if_neg (by push Not; exact_mod_cast steady)

/-! ## The verdict (R91, R94) -/

theorem legsClose_iff (cfg : Cfg) (f : ForwardLeg) (r : ReverseLeg) :
    legsClose cfg f r = true ↔ (diff f.eA r.hA).natAbs ≤ 1600000 * cfg.probePeriod := by
  have span : legSpan cfg = 1600000 * cfg.probePeriod := by rw [legSpan, periodTicks, perMs]; omega
  rw [legsClose, decide_eq_true_eq, span]

theorem syncAge_eq (cfg : Cfg) : syncAge cfg = 3200000 * cfg.probePeriod := by rw [syncAge, periodTicks, perMs]; omega

theorem settleStale_young {cfg : Cfg} {now : Time} {n : Neighbour}
    (h : ∀ y, n.sync = some y → diff now y.mid ≤ (3200000 * cfg.probePeriod : Nat)) : settleStale cfg now n = n := by
  unfold settleStale
  cases sync : n.sync with
  | none => rfl
  | some y => exact if_neg (by rw [syncAge_eq]; exact not_lt.2 (h y sync))

theorem settleStale_old {cfg : Cfg} {now : Time} {n : Neighbour} {y : Sync} (sync : n.sync = some y)
    (h : (3200000 * cfg.probePeriod : Nat) < diff now y.mid) :
    settleStale cfg now n = { n with state := .stale, stale := none } := by
  unfold settleStale
  rw [sync]
  exact if_pos (by rw [syncAge_eq]; exact h)

/-- Only state and staleness timer can differ. -/
theorem settleStale_cases (cfg : Cfg) (now : Time) (n : Neighbour) :
    settleStale cfg now n = n ∨ settleStale cfg now n = { n with state := .stale, stale := none } := by
  unfold settleStale
  split
  · split
    · exact .inr rfl
    · exact .inl rfl
  · exact .inl rfl

theorem consistent_iff (cfg : Cfg) (peer : Nat) (x : Exchange) : x.consistent cfg peer = true ↔
    0 ≤ x.distance ∧ (x.distance - ((peer : Int) - cfg.position).natAbs).natAbs ≤ cfg.posTol := by
  simp [Exchange.consistent]

/-- The entry that a consistent exchange leaves, before its age is looked at. -/
def agreed (cfg : Cfg) (x : Exchange) (n : Neighbour) : Neighbour := { n.adopt cfg x with
  state := (stateAfter n.state n.streak true).1, streak := (stateAfter n.state n.streak true).2
  exchanges := min (n.exchanges + 1) 65535, distance := some (max 0 (min 65535 x.distance)).toNat }

/-- The entry that an inconsistent exchange leaves, before its age is looked at. -/
def doubted (x : Exchange) (n : Neighbour) : Neighbour := { n with
  state := .doubtful, streak := 0
  exchanges := min (n.exchanges + 1) 65535, distance := some (max 0 (min 65535 x.distance)).toNat }

section
variable {cfg : Cfg} {now : Time} {f : ForwardLeg} {r : ReverseLeg} {n : Neighbour}

theorem exchange_consistent (h : (exchangeOf cfg.vf f r (n.rate.getD 0)).consistent cfg n.position = true) :
    n.exchange cfg now f r = settleStale cfg now (agreed cfg (exchangeOf cfg.vf f r (n.rate.getD 0)) n) := by
  simp only [Neighbour.exchange, h, if_true, agreed, clampInt_eq_max_min (show (0 : Int) ≤ 65535 by decide)]
  rfl

theorem exchange_inconsistent (h : (exchangeOf cfg.vf f r (n.rate.getD 0)).consistent cfg n.position = false) :
    n.exchange cfg now f r = settleStale cfg now (doubted (exchangeOf cfg.vf f r (n.rate.getD 0)) n) := by
  simp only [Neighbour.exchange, h, doubted, clampInt_eq_max_min (show (0 : Int) ≤ 65535 by decide)]
  rfl

end

/-- The table of R94 for a consistent exchange. -/
theorem stateAfter_consistent (st : PeerState) (streak : Nat) : stateAfter st streak true =
    if st = .doubtful ∧ streak < 2 then (.doubtful, streak + 1) else (.synced, 0) := by
  cases st with
  | doubtful =>
    by_cases h : streak < 2
    · simp [stateAfter, h]
    · simp [stateAfter, h, not_lt.1 h]
  | _ => rfl

theorem exchange_frame (cfg : Cfg) (now : Time) (f : ForwardLeg) (r : ReverseLeg) (n : Neighbour) :
    let m := n.exchange cfg now f r
    m = { n with
      state := m.state, streak := m.streak, sync := m.sync, rate := m.rate, jumps := m.jumps, stale := m.stale
      exchanges := min (n.exchanges + 1) 65535
      distance := some (max 0 (min 65535 (exchangeOf cfg.vf f r (n.rate.getD 0)).distance)).toNat } := by
  cases h : (exchangeOf cfg.vf f r (n.rate.getD 0)).consistent cfg n.position with
  | true =>
    rw [exchange_consistent h]
    rcases settleStale_cases cfg now (agreed cfg (exchangeOf cfg.vf f r (n.rate.getD 0)) n) with e | e <;> rw [e] <;> rfl
  | false =>
    rw [exchange_inconsistent h]
    rcases settleStale_cases cfg now (doubted (exchangeOf cfg.vf f r (n.rate.getD 0)) n) with e | e <;> rw [e] <;> rfl

theorem storeForward_spec (cfg : Cfg) (now : Time) (f : ForwardLeg) (n : Neighbour) :
    (n.reverse = none → n.storeForward cfg now f = { n with forward := some f }) ∧
    (∀ r, n.reverse = some r → 1600000 * cfg.probePeriod < (diff f.eA r.hA).natAbs →
      n.storeForward cfg now f = { n with forward := some f, reverse := none }) ∧
    (∀ r, n.reverse = some r → (diff f.eA r.hA).natAbs ≤ 1600000 * cfg.probePeriod →
      n.storeForward cfg now f = { n with forward := some f }.exchange cfg now f r) := by
  unfold Neighbour.storeForward
  refine ⟨fun none_ => by rw [none_], fun r some_ far => ?_, fun r some_ near => ?_⟩
  · rw [some_]
    exact if_neg (by rw [legsClose_iff]; exact not_le.2 far)
  · rw [some_]
    exact if_pos ((legsClose_iff cfg f r).2 near)

theorem storeReverse_spec (cfg : Cfg) (now : Time) (r : ReverseLeg) (n : Neighbour) :
    (n.forward = none → n.storeReverse cfg now r = { n with reverse := some r }) ∧
    (∀ f, n.forward = some f → 1600000 * cfg.probePeriod < (diff f.eA r.hA).natAbs →
      n.storeReverse cfg now r = { n with reverse := some r, forward := none }) ∧
    (∀ f, n.forward = some f → (diff f.eA r.hA).natAbs ≤ 1600000 * cfg.probePeriod →
      n.storeReverse cfg now r = { n with reverse := some r }.exchange cfg now f r) := by
  unfold Neighbour.storeReverse
  refine ⟨fun none_ => by rw [none_], fun f some_ far => ?_, fun f some_ near => ?_⟩
  · rw [some_]
    exact if_neg (by rw [legsClose_iff]; exact not_le.2 far)
  · rw [some_]
    exact if_pos ((legsClose_iff cfg f r).2 near)

/-- What a consistent exchange makes of the entry (R92 to R94). -/
theorem agreed_spec (cfg : Cfg) (now : Time) (x : Exchange) (n : Neighbour) :
    let m := settleStale cfg now (agreed cfg x n)
    m.sync = some ⟨x.theta, x.mid⟩ ∧
      (n.sync = none → m.rate = n.rate ∧ m.jumps = n.jumps) ∧
      (∀ y, n.sync = some y →
        (m.rate, m.jumps) = updateRate (x.theta - y.theta) (diff x.mid y.mid) n.rate n.jumps) ∧
      (n.state ≠ .doubtful ∨ 2 ≤ n.streak → m.streak = 0) ∧
      (n.state = .doubtful → n.streak < 2 → m.streak = n.streak + 1) ∧
      (diff now x.mid ≤ (3200000 * cfg.probePeriod : Nat) →
        m.stale = some (plus x.mid (3200000 * cfg.probePeriod + 1 : Nat)) ∧
        m.state = if n.state = .doubtful ∧ n.streak < 2 then .doubtful else .synced) ∧
      ((3200000 * cfg.probePeriod : Nat) < diff now x.mid → m.stale = none ∧ m.state = .stale) := by
  intro m
  have sync : (agreed cfg x n).sync = some ⟨x.theta, x.mid⟩ := rfl
  have same : m.sync = (agreed cfg x n).sync ∧ m.rate = (agreed cfg x n).rate ∧ m.jumps = (agreed cfg x n).jumps ∧
      m.streak = (agreed cfg x n).streak := by
    rcases settleStale_cases cfg now (agreed cfg x n) with e | e <;> simp [m, e]
  obtain ⟨hsync, hrate, hjumps, hstreak⟩ := same
  have streak : m.streak = if n.state = .doubtful ∧ n.streak < 2 then n.streak + 1 else 0 := by
    rw [hstreak, agreed, stateAfter_consistent]
    split <;> rfl
  refine ⟨hsync.trans sync, fun none_ => ?_, fun y some_ => ?_, fun h => ?_, fun doubtful two => ?_, fun young => ?_,
    fun old => ?_⟩
  · rw [hrate, hjumps, agreed, Neighbour.adopt, none_]
    exact ⟨rfl, rfl⟩
  · rw [hrate, hjumps, agreed, Neighbour.adopt, some_]
  · rw [streak, if_neg]
    rintro ⟨doubtful, two⟩
    rcases h with h | h
    · exact h doubtful
    · omega
  · rw [streak, if_pos ⟨doubtful, two⟩]
  · have kept : m = agreed cfg x n := settleStale_young fun y hy => by
      obtain rfl : ⟨x.theta, x.mid⟩ = y := Option.some.inj (sync.symm.trans hy)
      exact young
    rw [kept, agreed, stateAfter_consistent]
    refine ⟨?_, by split <;> rfl⟩
    simp [Neighbour.adopt, staleExpiry, syncAge_eq]
  · have turned := settleStale_old (now := now) sync old
    exact ⟨congrArg Neighbour.stale turned, congrArg Neighbour.state turned⟩

/-- What an inconsistent exchange makes of the entry (R92, R94). -/
theorem doubted_spec (cfg : Cfg) (now : Time) (x : Exchange) (n : Neighbour) :
    let m := settleStale cfg now (doubted x n)
    m.sync = n.sync ∧ m.rate = n.rate ∧ m.jumps = n.jumps ∧ m.streak = 0 ∧
      ((∀ y, n.sync = some y → diff now y.mid ≤ (3200000 * cfg.probePeriod : Nat)) →
        m.stale = n.stale ∧ m.state = .doubtful) ∧
      (∀ y, n.sync = some y → (3200000 * cfg.probePeriod : Nat) < diff now y.mid → m.stale = none ∧ m.state = .stale) := by
  intro m
  have same : m.sync = n.sync ∧ m.rate = n.rate ∧ m.jumps = n.jumps ∧ m.streak = 0 := by
    rcases settleStale_cases cfg now (doubted x n) with e | e <;> simp [m, e, doubted]
  obtain ⟨hsync, hrate, hjumps, hstreak⟩ := same
  refine ⟨hsync, hrate, hjumps, hstreak, fun young => ?_, fun y some_ old => ?_⟩
  · have kept : m = doubted x n := settleStale_young young
    rw [kept]
    exact ⟨rfl, rfl⟩
  · have turned := settleStale_old (n := doubted x n) some_ old
    exact ⟨congrArg Neighbour.stale turned, congrArg Neighbour.state turned⟩

/-- Settles O15. -/
theorem exchangeVerdictSetsTheEntry : Obligations.ExchangeVerdictSetsTheEntry := by
  refine ⟨storeForward_spec, storeReverse_spec, fun cfg now f r n =>
    ⟨exchange_frame cfg now f r n, fun positive near => ?_, fun off => ?_⟩⟩
  · rw [exchange_consistent ((consistent_iff _ _ _).2 ⟨positive, near⟩)]
    exact agreed_spec cfg now _ n
  · have differs : (exchangeOf cfg.vf f r (n.rate.getD 0)).consistent cfg n.position = false := by
      rw [← Bool.not_eq_true, consistent_iff]
      rintro ⟨positive, near⟩
      rcases off with off | off <;> omega
    rw [exchange_inconsistent differs]
    exact doubted_spec cfg now _ n

end Sys2Proof.Machine
end

