-- ==== Sys2Proof/Proofs/Choices.lean ====
section
/-! SUPPORT. The choices made over lists and tables of places: the first member that meets a test, and the member that no
other goes before (`bestIdx_dominant`), carried from the list of occupied places to the table. -/

namespace Sys2Proof.Machine

open Sys2Proof

/-! ## The first member that meets a test -/

theorem findIdx?_first {α : Type} {p : α → Bool} {xs : List α} {i : Nat} {x : α} (hx : xs[i]? = some x) (hp : p x = true)
    (first : ∀ k, k < i → ∀ y, xs[k]? = some y → p y = false) : xs.findIdx? p = some i := by
  obtain ⟨bound, rfl⟩ := List.getElem?_eq_some_iff.1 hx
  refine List.findIdx?_eq_some_iff_getElem.2 ⟨bound, hp, fun j hj => ?_⟩
  simp [first j hj xs[j] (List.getElem?_eq_getElem (by omega))]

theorem find?_first {α : Type} {p : α → Bool} {xs : List α} {i : Nat} {x : α} (hx : xs[i]? = some x) (hp : p x = true)
    (first : ∀ k, k < i → ∀ y, xs[k]? = some y → p y = false) : xs.find? p = some x := by
  obtain ⟨bound, rfl⟩ := List.getElem?_eq_some_iff.1 hx
  refine List.find?_eq_some_iff_getElem.2 ⟨hp, i, bound, rfl, fun j hj => ?_⟩
  simp [first j hj xs[j] (List.getElem?_eq_getElem (by omega))]

/-! ## Tables of places -/

theorem placed_eq_some {α : Type} {xs : List (Option α)} {p : Nat} {x : α} :
    placed xs p = some x ↔ xs[p]? = some (some x) := by
  simp [placed, Option.join_eq_some_iff]

theorem mem_occupied {α : Type} {xs : List (Option α)} {x : α} : x ∈ occupied xs ↔ ∃ p : Nat, xs[p]? = some (some x) := by
  rw [← List.mem_iff_getElem?, occupied, List.mem_filterMap]
  exact exists_eq_right

theorem mem_occupiedWithPlace {α : Type} {xs : List (Option α)} {p : Nat} {x : α} :
    (p, x) ∈ occupiedWithPlace xs ↔ xs[p]? = some (some x) := by
  simp only [occupiedWithPlace, List.mem_filterMap, Prod.exists, List.mem_zipIdx_iff_getElem?, Option.map_eq_some_iff,
    Prod.mk.injEq]
  constructor
  · rintro ⟨o, q, place, y, rfl, rfl, rfl⟩
    exact place
  · exact fun place => ⟨some x, p, place, x, rfl, rfl, rfl⟩

theorem zipIdx_pairwise {α : Type} (xs : List α) (k : Nat) : (xs.zipIdx k).Pairwise fun a b => a.2 < b.2 := by
  induction xs generalizing k with
  | nil => exact .nil
  | cons x xs ih =>
    refine .cons (fun b hb => ?_) (ih (k + 1))
    have := (List.mk_mem_zipIdx_iff_le_and_getElem?_sub (x := b.1) (i := b.2)).1 hb
    exact this.1

theorem occupiedWithPlace_pairwise {α : Type} (xs : List (Option α)) :
    (occupiedWithPlace xs).Pairwise fun a b => a.1 < b.1 := by
  refine List.Pairwise.filterMap _ (fun a b before c hc d hd => ?_) (zipIdx_pairwise xs 0)
  obtain ⟨_, _, rfl⟩ := Option.map_eq_some_iff.1 hc
  obtain ⟨_, _, rfl⟩ := Option.map_eq_some_iff.1 hd
  exact before

theorem emptyPlace_first {α : Type} {xs : List (Option α)} {p : Nat} (empty : xs[p]? = some none)
    (first : ∀ q : Nat, q < p → xs[q]? ≠ some none) : emptyPlace xs = some p :=
  findIdx?_first empty rfl fun k hk y hy => by
    cases y with
    | none => exact absurd hy (first k hk)
    | some _ => rfl

theorem emptyPlace_none {α : Type} {xs : List (Option α)} : emptyPlace xs = none ↔ ∀ p : Nat, xs[p]? ≠ some none := by
  simp only [emptyPlace, List.findIdx?_eq_none_iff, List.mem_iff_getElem?]
  constructor
  · intro full p empty
    exact absurd (full none ⟨p, empty⟩) nofun
  · rintro full (_ | x) ⟨p, place⟩
    · exact absurd place (full p)
    · rfl

/-! ## The best occupied place -/

/-- The place of the entry that `better` prefers to every other. -/
def bestPlace {α : Type} (better : Nat × α → Nat × α → Bool) (ok : Nat × α → Bool) (xs : List (Option α)) : Option Nat :=
  ((bestIdx better ok (occupiedWithPlace xs)).bind ((occupiedWithPlace xs)[·]?)).map (·.1)

theorem bestPlace_dominant {α : Type} {better : Nat × α → Nat × α → Bool} {ok : Nat × α → Bool} {xs : List (Option α)}
    {p : Nat} {x : α} (hx : xs[p]? = some (some x)) (ho : ok (p, x) = true)
    (h : ∀ (q : Nat) (y : α), xs[q]? = some (some y) → q ≠ p → ok (q, y) = true →
      better (q, y) (p, x) = false ∧ (q < p → better (p, x) (q, y) = true)) :
    bestPlace better ok xs = some p := by
  have ordered := List.pairwise_iff_getElem.1 (occupiedWithPlace_pairwise xs)
  obtain ⟨i, hi⟩ := List.mem_iff_getElem?.1 (mem_occupiedWithPlace.2 hx)
  obtain ⟨iBound, iEq⟩ := List.getElem?_eq_some_iff.1 hi
  have best : bestIdx better ok (occupiedWithPlace xs) = some i := by
    refine bestIdx_dominant hi ho fun j ⟨q, y⟩ hj hok other => ?_
    obtain ⟨jBound, jEq⟩ := List.getElem?_eq_some_iff.1 hj
    have place := mem_occupiedWithPlace.1 (List.mem_of_getElem? hj)
    have before : j < i → q < p := fun hji => by simpa [iEq, jEq] using ordered j i jBound iBound hji
    have after : i < j → p < q := fun hij => by simpa [iEq, jEq] using ordered i j iBound jBound hij
    obtain ⟨loses, wins⟩ := h q y place (by omega) hok
    exact ⟨loses, fun hji => wins (before hji)⟩
  rw [bestPlace, best, Option.bind_some, hi]
  rfl

theorem bestPlace_none {α : Type} {better : Nat × α → Nat × α → Bool} {ok : Nat × α → Bool} {xs : List (Option α)} :
    bestPlace better ok xs = none ↔ ∀ (p : Nat) (x : α), xs[p]? = some (some x) → ok (p, x) = false := by
  have total : bestPlace better ok xs = none ↔ bestIdx better ok (occupiedWithPlace xs) = none := by
    rw [bestPlace, Option.map_eq_none_iff]
    cases best : bestIdx better ok (occupiedWithPlace xs) with
    | none => simp
    | some i => simpa using bestIdx_lt best
  rw [total, bestIdx_none]
  exact ⟨fun h p x hx => h _ (mem_occupiedWithPlace.2 hx), fun h ⟨p, x⟩ hx => h p x (mem_occupiedWithPlace.1 hx)⟩

/-! ## The partner (R96) -/

/-- Settles O22: smaller position, then lower ID, is a strict order, so the member chosen is one that no other precedes. -/
theorem partnerIsNearestSyncedAbove : Obligations.PartnerIsNearestSyncedAbove := by
  intro own table
  have chosen : ∀ i, bestIdx (fun a b => decide (a.position < b.position) || (a.position == b.position && decide (a.id < b.id)))
      (fun n => n.state == .synced && decide (own < n.position)) (occupied table) = some i →
      ∃ n, (occupied table)[i]? = some n ∧ n.state = .synced ∧ own < n.position ∧ ∀ m ∈ occupied table, m.state = .synced →
        own < m.position → n.position < m.position ∨ (n.position = m.position ∧ n.id ≤ m.id) := by
    intro i best
    obtain ⟨n, hn, ok, none_⟩ := bestIdx_best (fun x => by simp) (fun x y z => by simp; omega) best
    simp only [Bool.and_eq_true, beq_iff_eq, decide_eq_true_eq] at ok
    refine ⟨n, hn, ok.1, ok.2, fun m hm synced above => ?_⟩
    have := none_ m hm (by simp [synced, above])
    simp only [Bool.or_eq_false_iff, Bool.and_eq_false_iff, decide_eq_false_iff_not, beq_eq_false_iff_ne] at this
    omega
  constructor
  · intro id h
    obtain ⟨n, hn, rfl⟩ := Option.map_eq_some_iff.1 h
    obtain ⟨i, best, place⟩ := Option.bind_eq_some_iff.1 hn
    obtain ⟨m, hm, rest⟩ := chosen i best
    obtain rfl : m = n := Option.some.inj (hm.symm.trans place)
    exact ⟨m, List.mem_of_getElem? hm, rfl, rest⟩
  · have found : choosePartner own table = none ↔ bestIdx (fun a b : Neighbour => decide (a.position < b.position) ||
        (a.position == b.position && decide (a.id < b.id))) (fun n => n.state == .synced && decide (own < n.position))
        (occupied table) = none := by
      rw [choosePartner, Option.map_eq_none_iff]
      cases best : bestIdx _ _ (occupied table) with
      | none => simp
      | some i => simpa using bestIdx_lt best
    rw [found, bestIdx_none]
    simp only [Bool.and_eq_false_imp, beq_iff_eq, decide_eq_false_iff_not, not_lt]

end Sys2Proof.Machine
end

