-- ==== Sys2Proof/Proofs/FrontEnd.lean ====
section
/-! SUPPORT. The probe-band detector, the captures and the probe schedule (R34 to R39, R75 to R83). -/

namespace Sys2Proof.Machine

open Sys2Proof

/-! ## Arrival records (R82, R83) -/

theorem addArrival_room {t : Time} {p : Ptu} (h : p.arrivals.length < 4) : addArrival t p = { p with
    arrivals := p.arrivals ++ [⟨t, .capturing, none, some (plus t 80000000)⟩] } := if_pos h

/-- The choice among four records of the one to discard. -/
def discardIdx (p : Ptu) : Option Nat := bestIdx (fun x y => earlier x.trigger y.trigger) (fun _ => true) p.arrivals

theorem discardIdx_first {p : Ptu} {i : Nat} {a : Arrival} (place : p.arrivals[i]? = some a)
    (first : ∀ (j : Nat) (b : Arrival), p.arrivals[j]? = some b → j ≠ i →
      earlier a.trigger b.trigger = true ∨ (earlier b.trigger a.trigger = false ∧ i < j)) : discardIdx p = some i := by
  refine bestIdx_dominant place rfl fun j b hj _ other => ?_
  rcases first j b hj other with before | ⟨after, later⟩
  · exact ⟨earlier_asymm _ _ before, fun _ => before⟩
  · exact ⟨after, fun sooner => absurd later sooner.not_gt⟩

theorem addArrival_full {t : Time} {p : Ptu} (h : 4 ≤ p.arrivals.length) : ∃ i, i < p.arrivals.length ∧
    discardIdx p = some i ∧ addArrival t p = { p with
      arrivals := p.arrivals.eraseIdx i ++ [⟨t, .capturing, none, some (plus t 80000000)⟩]
      discarded := min (p.discarded + 1) 65535 } := by
  obtain ⟨i, found⟩ := Option.isSome_iff_exists.1 (bestIdx_isSome_of_all
    (better := fun x y : Arrival => earlier x.trigger y.trigger) (show 0 < p.arrivals.length by omega))
  refine ⟨i, bestIdx_lt found, found, ?_⟩
  rw [addArrival, if_neg (not_lt.2 h), found]
  rfl

section
variable {u : Time} {s : State}

theorem arrivalIdx_first {i : Nat} {a : Arrival} (place : s.ptu.arrivals[i]? = some a) (trigger : a.trigger = u)
    (first : ∀ k, k < i → ∀ x, s.ptu.arrivals[k]? = some x → x.trigger ≠ u) : arrivalIdx u s.ptu = some i :=
  findIdx?_first place (by simpa using trigger) fun k hk x hx => by simpa using first k hk x hx

theorem arrivalIdx_none (h : ∀ a ∈ s.ptu.arrivals, a.trigger ≠ u) : arrivalIdx u s.ptu = none := by
  simpa [arrivalIdx, List.findIdx?_eq_none_iff] using h

theorem arrivalTiming_first {i : Nat} {a : Arrival} (place : s.ptu.arrivals[i]? = some a) (found : arrivalIdx u s.ptu = some i) :
    arrivalTiming u s = s.withPtu { s.ptu with arrivals := s.ptu.arrivals.set i { a with state := .timing } } := by
  rw [arrivalTiming, found]
  simp only [modify_eq_set _ _ _ _ place]

theorem arrivalTiming_ptu {p : Ptu} (same : s.ptu = p) {i : Nat} {a : Arrival} (place : p.arrivals[i]? = some a)
    (trigger : a.trigger = u) (first : ∀ k, k < i → ∀ x, p.arrivals[k]? = some x → x.trigger ≠ u) :
    (arrivalTiming u s).ptu = { p with arrivals := p.arrivals.set i { a with state := .timing } } := by
  subst same
  rw [arrivalTiming_first place (arrivalIdx_first place trigger first), State.withPtu_ptu]

theorem arrivalTiming_none (h : arrivalIdx u s.ptu = none) : arrivalTiming u s = s := by rw [arrivalTiming, h]

theorem arrivalTiming_ptu_none {p : Ptu} (same : s.ptu = p) (h : ∀ a ∈ p.arrivals, a.trigger ≠ u) :
    (arrivalTiming u s).ptu = p := by
  subst same
  rw [arrivalTiming_none (arrivalIdx_none h)]

theorem arrivalTiming_same (u : Time) (s : State) : UnchangedBut [.ptu] s (arrivalTiming u s) := by
  unfold arrivalTiming
  split
  · exact UnchangedBut.refl _ _
  · exact ptuSame _ _

theorem arrivalRefused_first {i : Nat} (found : arrivalIdx u s.ptu = some i) : arrivalRefused u s =
    s.withPtu { s.ptu with arrivals := s.ptu.arrivals.eraseIdx i, discarded := min (s.ptu.discarded + 1) 65535 } := by
  rw [arrivalRefused, found]
  rfl

theorem arrivalRefused_ptu {p : Ptu} (same : s.ptu = p) {i : Nat} {a : Arrival} (place : p.arrivals[i]? = some a)
    (trigger : a.trigger = u) (first : ∀ k, k < i → ∀ x, p.arrivals[k]? = some x → x.trigger ≠ u) :
    (arrivalRefused u s).ptu =
      { p with arrivals := p.arrivals.eraseIdx i, discarded := min (p.discarded + 1) 65535 } := by
  subst same
  rw [arrivalRefused_first (arrivalIdx_first place trigger first), State.withPtu_ptu]

theorem arrivalRefused_none (h : arrivalIdx u s.ptu = none) : arrivalRefused u s = s := by rw [arrivalRefused, h]

theorem arrivalRefused_ptu_none {p : Ptu} (same : s.ptu = p) (h : ∀ a ∈ p.arrivals, a.trigger ≠ u) :
    (arrivalRefused u s).ptu = p := by
  subst same
  rw [arrivalRefused_none (arrivalIdx_none h)]

theorem arrivalRefused_same (u : Time) (s : State) : UnchangedBut [.ptu] s (arrivalRefused u s) := by
  unfold arrivalRefused
  split
  · exact UnchangedBut.refl _ _
  · exact ptuSame _ _

end

/-! ## Triggers (R37, R38) -/

theorem canTrigger_iff (s : State) : canTrigger s = true ↔ s.nc.node = .running ∧ s.cfe.arrival = .free ∧
    s.cfe.window.isCapturing = false ∧ s.cfe.cal.isRunning = false := by
  simp only [canTrigger, Bool.and_eq_true, isRunning_iff, arrivalBuffer_isFree_iff, Bool.not_eq_true', and_assoc]

section
variable {s : State} {v : BlockValue} (value : s.cfe.probeValue = some v)
include value

theorem probeBandValue_taken (loud : s.nc.cfg.probeTh ≤ v.value) (can : canTrigger s = true) :
    probeBandValue s = trigger v.block (s.withCfe { s.cfe with probeValue := none }) := by
  rw [probeBandValue, value]
  exact if_pos (by simp [loud, can])

theorem probeBandValue_let_go (h : ¬(s.nc.cfg.probeTh ≤ v.value ∧ canTrigger s = true)) :
    probeBandValue s = s.withCfe { s.cfe with probeValue := none } := by
  rw [probeBandValue, value]
  exact if_neg (by simpa using h)

end

/-- The probe timing unit with the guard of a trigger at T running (R77). -/
def guarded (t : Time) (p : Ptu) : Ptu := { p with lastTrigger := some t, guard := some (plus t 120000001) }

theorem trigger_eq (t : Time) (s : State) : trigger t s = (s.withCfe { s.cfe with
    arrival := .capturing (plus t (-256)) t (samplesFrom s s.cfe.history (plus t (-256))) }).withPtu
      (addArrival t (guarded t s.ptu)) := rfl

/-- Settles O16. -/
theorem probeBandValueTriggersCapture : Obligations.ProbeBandValueTriggersCapture := by
  refine ⟨fun s v live_ value => ⟨fun running free window cal loud => ?_, fun stops => ?_⟩,
    fun s history from_ => ⟨fun before => if_pos before, fun since => if_neg (not_lt.2 since)⟩⟩
  · have can := (canTrigger_iff s).2 ⟨running, free, window, cal⟩
    refine ⟨_, samplesFrom s s.cfe.history (plus v.block (-256)), next_live probeBandValue live_, ?_⟩
    rw [probeBandValue_taken value loud can]
    rw [trigger_eq, State.withCfe_ptu]
    rcases Nat.lt_or_ge s.ptu.arrivals.length 4 with room | full
    · rw [addArrival_room (p := guarded v.block s.ptu) room]
      exact ⟨rfl, rfl, rfl, ⟨_, rfl, fun _ => ⟨rfl, rfl⟩, fun four => by omega⟩, by simp [unchangedBut_iff]⟩
    · obtain ⟨i, bound, found, added⟩ := addArrival_full (t := v.block) (p := guarded v.block s.ptu) full
      rw [added]
      refine ⟨rfl, rfl, rfl, ⟨_, rfl, fun room => by omega, fun four => ⟨?_, rfl, fun j a place first => ?_⟩⟩,
        by simp [unchangedBut_iff]⟩
      · rw [List.length_eraseIdx_of_lt bound]
        exact congrArg (· - 1) four
      · have same : i = j :=
          Option.some.inj (found.symm.trans (discardIdx_first (p := guarded v.block s.ptu) place first))
        rw [same]
        rfl
  · refine ⟨_, next_live probeBandValue live_, ?_⟩
    rw [probeBandValue_let_go value ?_]
    · exact ⟨rfl, cfeSame s _⟩
    · rintro ⟨loud, can⟩
      obtain ⟨running, free, window, cal⟩ := (canTrigger_iff s).1 can
      simp [running, free, window, cal] at stops
      omega

/-! ## Full captures (R35, R38, R39, R80, R83) -/

section
variable {s : State} {e : Time} {xs : List Int} (window : s.cfe.window = .capturing e xs) (full : 2048 ≤ xs.length)
include window full

theorem probeWindowFull_taken {c : Ce} (node : s.nc.node ≠ .clashed) (taken : s.ce.submit s.nc.now (.echo e) = some c) :
    probeWindowFull s = (s.withCfe { s.cfe with window := .held e xs }).withCe c := by
  simp [probeWindowFull, window, full, isClashed_eq_false.2 node, taken]

theorem probeWindowFull_freed (h : s.nc.node = .clashed ∨ s.ce.submit s.nc.now (.echo e) = none) :
    probeWindowFull s = unblock (s.withCfe { s.cfe with window := .free }) := by
  by_cases node : s.nc.node = .clashed
  · simp [probeWindowFull, window, full, isClashed_iff.2 node, freeWindow]
  · simp [probeWindowFull, window, full, isClashed_eq_false.2 node, h.resolve_left node, freeWindow]

end

section
variable {s : State} {c u : Time} {xs : List Int} (arrival : s.cfe.arrival = .capturing c u xs) (full : 512 ≤ xs.length)
include arrival full

theorem arrivalCaptureFull_taken {x : Ce} (node : s.nc.node ≠ .clashed)
    (taken : s.ce.submit s.nc.now (.arrival c u) = some x) :
    arrivalCaptureFull s = arrivalTiming u ((s.withCfe { s.cfe with arrival := .held c u xs }).withCe x) := by
  simp [arrivalCaptureFull, arrival, full, isClashed_eq_false.2 node, taken]

theorem arrivalCaptureFull_refused (node : s.nc.node ≠ .clashed)
    (refused : s.ce.submit s.nc.now (.arrival c u) = none) :
    arrivalCaptureFull s = arrivalRefused u (s.withCfe { s.cfe with arrival := .free }) := by
  simp [arrivalCaptureFull, arrival, full, isClashed_eq_false.2 node, refused]

theorem arrivalCaptureFull_clashed (node : s.nc.node = .clashed) :
    arrivalCaptureFull s = s.withCfe { s.cfe with arrival := .free } := by
  simp [arrivalCaptureFull, arrival, full, isClashed_iff.2 node]

end

/-- A submission is taken when the engine is IDLE or fewer than four wait (R59). -/
theorem submit_taken (c : Ce) (now : Time) (j : Job) (h : c.running = none ∨ c.waiting.length < 4) : ∃ d,
    c.submit now j = some d ∧ (c.running = none → d = { c with running := some ⟨j, 1, 8, plus now j.passTicks⟩ }) ∧
      (c.running ≠ none → d = { c with waiting := c.waiting ++ [j] }) := by
  by_cases idle : c.running = none
  · exact ⟨_, submit_idle c now j idle, fun _ => rfl, fun busy => absurd idle busy⟩
  · exact ⟨_, submit_wait c now j idle (h.resolve_left idle), fun none_ => absurd none_ idle, fun _ => rfl⟩

/-- Settles O17: each capture by the engine's answer to its submission. -/
theorem fullCapturesAreHandedOver : Obligations.FullCapturesAreHandedOver := by
  refine ⟨fun s e xs live_ window full => ⟨fun node idle => ?_, fun node busy room => ?_, fun freed => ?_⟩,
    fun s c u xs live_ arrival full => ⟨_, next_live arrivalCaptureFull live_, fun node room => ?_,
      fun node busy queued => ?_, fun node => ?_⟩⟩
  · refine (next_live probeWindowFull live_).trans ?_
    rw [probeWindowFull_taken window full node (submit_idle _ _ _ idle)]
    rfl
  · refine (next_live probeWindowFull live_).trans ?_
    rw [probeWindowFull_taken window full node (submit_wait _ _ _ busy room)]
    rfl
  · refine (next_live probeWindowFull live_).trans ?_
    rw [probeWindowFull_freed window full (freed.imp_right fun ⟨busy, queued⟩ => submit_refused _ _ _ busy queued)]
    rfl
  · obtain ⟨x, taken, started, queued⟩ := submit_taken s.ce s.nc.now (.arrival c u) room
    rw [arrivalCaptureFull_taken arrival full node taken]
    have same := (ceSame (s.withCfe { s.cfe with arrival := .held c u xs }) x).trans (arrivalTiming_same u _)
      (cs := [.ce, .ptu]) (by simp) (by simp)
    obtain ⟨_, cfe, _, ce, _⟩ := unchangedBut_iff.1 (arrivalTiming_same u ((s.withCfe { s.cfe with
      arrival := .held c u xs }).withCe x))
    have ceIs := ce (by simp)
    refine ⟨cfe (by simp), fun idle => ceIs.trans (started idle), fun busy => ceIs.trans (queued busy),
      fun i a place trigger first => ?_, fun other => ?_, (cfeSame s _).trans same (by simp) (by simp)⟩
    · exact arrivalTiming_ptu rfl place trigger first
    · exact arrivalTiming_ptu_none rfl other
  · rw [arrivalCaptureFull_refused arrival full node (submit_refused _ _ _ busy queued)]
    obtain ⟨_, cfe, _⟩ := unchangedBut_iff.1 (arrivalRefused_same u (s.withCfe { s.cfe with arrival := .free }))
    refine ⟨cfe (by simp), fun i a place trigger first => ?_, fun other => ?_,
      (cfeSame s _).trans (arrivalRefused_same u _) (by simp) (by simp)⟩
    · exact arrivalRefused_ptu rfl place trigger first
    · exact arrivalRefused_ptu_none rfl other
  · rw [arrivalCaptureFull_clashed arrival full node]
    exact ⟨rfl, cfeSame s _⟩

end Sys2Proof.Machine
end

