-- ==== Sys2Proof/Proofs/ProbeSchedule.lean ====
section
/-! SUPPORT. The emission test of the probe schedule and the clearing of its conditions (R75 to R79). -/

namespace Sys2Proof.Machine

open Sys2Proof

/-! ## The conditions -/

theorem window_isFree_eq_false {w : Window} : w.isFree = false ↔ w ≠ .free := by
  rw [Bool.eq_false_iff, Ne, window_isFree_iff]

theorem failing_any_iff (s : State) : (failing s).any = true ↔ s.nc.node ≠ .running ∨ s.na.hush ≠ none ∨
    (∃ n ∈ s.na.queue, n.content.isProbe = true) ∨ s.cfe.window ≠ .free ∨ s.ptu.guard ≠ none ∨
      s.cfe.cal.isRunning = true := by
  simp only [failing, Failing.any, Bool.or_eq_true, Bool.not_eq_true', isRunning_eq_false, hushed_iff,
    List.any_eq_true, window_isFree_eq_false, Option.isSome_iff_ne_none, or_assoc]

/-- One of the conditions that failed at a test still fails (R77). -/
def Stands (w : Failing) (s : State) : Prop :=
  (w.hushed = true ∧ (s.nc.node ≠ .running ∨ s.na.hush ≠ none)) ∨
    (w.note = true ∧ ∃ n ∈ s.na.queue, n.content.isProbe = true) ∨ (w.window = true ∧ s.cfe.window ≠ .free) ∨
    (w.guard = true ∧ s.ptu.guard ≠ none) ∨ (w.calibrating = true ∧ s.cfe.cal.isRunning = true)

theorem standing_any_iff (w : Failing) (s : State) : (w.and (failing s)).any = true ↔ Stands w s := by
  simp only [Stands, failing, Failing.and, Failing.any, Bool.or_eq_true, Bool.and_eq_true, Bool.not_eq_true',
    isRunning_eq_false, hushed_iff, List.any_eq_true, window_isFree_eq_false, Option.isSome_iff_ne_none, or_assoc]

/-! ## SETTLING -/

theorem settle_draws (s : State) : ∃ (d : Nat) (x : Seed), d ≤ 150000 ∧ settle s = { s with
    nc := { s.nc with rng := x }, ptu := { s.ptu with schedule := .settling (plus s.nc.now (800 * d : Nat)) } } := by
  obtain ⟨d, x, bound, drawn⟩ := drawMicros_le 150000 s
  refine ⟨d, x, bound, ?_⟩
  rw [settle, drawn]
  rfl

theorem unblock_nc (s : State) : (unblock s).nc = { s.nc with rng := (unblock s).nc.rng } := by
  unfold unblock
  split
  · split <;> rfl
  · rfl

section
variable {s : State} {w : Failing} (blocked : s.ptu.schedule = .blocked w)
include blocked

theorem unblock_draws (clear : ¬Stands w s) : ∃ (d : Nat) (x : Seed), d ≤ 150000 ∧ unblock s = { s with
    nc := { s.nc with rng := x }, ptu := { s.ptu with schedule := .settling (plus s.nc.now (800 * d : Nat)) } } := by
  rw [unblock_settles blocked (Bool.eq_false_iff.2 fun stands => clear ((standing_any_iff w s).1 stands))]
  exact settle_draws s

theorem unblock_schedule_settling (clear : ¬Stands w s) :
    ∃ d : Nat, d ≤ 150000 ∧ (unblock s).ptu.schedule = .settling (plus s.nc.now (800 * d : Nat)) := by
  obtain ⟨d, x, bound, settled⟩ := unblock_draws blocked clear
  exact ⟨d, bound, by rw [settled]⟩

theorem unblock_schedule_blocked (stands : Stands w s) : (unblock s).ptu.schedule = .blocked w := by
  rw [unblock_stays blocked ((standing_any_iff w s).2 stands), blocked]

end

theorem probeGuardExpiry_expired {s : State} (h : expired s.nc.now s.ptu.guard = true) :
    probeGuardExpiry s = unblock (s.withPtu { s.ptu with guard := none }) := if_pos h

/-! ## The emission -/

/-- The first sample instant from a time on is a multiple of four less than four ticks later (R34). -/
theorem nextInstant_spec (t : Time) : (nextInstant t).toNat % 4 = 0 ∧ 0 ≤ diff (nextInstant t) t ∧
    diff (nextInstant t) t ≤ 3 := by
  have bound : (4 - t.toNat % 4) % 4 ≤ 3 := by omega
  have later : diff (nextInstant t) t = ((4 - t.toNat % 4) % 4 : Nat) := diff_plus_self t (by omega) (by omega)
  refine ⟨?_, by omega, by omega⟩
  rw [nextInstant, plus, BitVec.ofInt_natCast, BitVec.toNat_add, BitVec.toNat_ofNat]
  omega

/-- A schedule event at its time is the emission test (R75, R77). -/
theorem scheduleEvent_tests {s : State} (live_ : s.nc.node ≠ .held) (i : Instr)
    (at_ : (i = .probeDue ∧ (∃ d, s.ptu.schedule = .counting d ∧ reached s.nc.now d = true)) ∨
      (i = .settleExpiry ∧ (∃ d, s.ptu.schedule = .settling d ∧ reached s.nc.now d = true))) :
    exec i s = .next (emissionTest s) := by
  rcases at_ with ⟨rfl, d, counting, due⟩ | ⟨rfl, d, settling, due⟩
  · refine (next_live probeDue live_).trans ?_
    rw [probeDue, counting]
    exact congrArg Host.Outcome.next (if_pos due)
  · refine (next_live settleExpiry live_).trans ?_
    rw [settleExpiry, settling]
    exact congrArg Host.Outcome.next (if_pos due)

theorem emissionTest_blocked {s : State} (h : (failing s).any = true) :
    emissionTest s = s.withPtu { s.ptu with schedule := .blocked (failing s) } := if_pos h

theorem emissionTest_clear {s : State} (h : (failing s).any = false) : emissionTest s = recordEmission (beginEmission s) := by
  have clear : ¬((failing s).any = true) := by simp [h]
  have accepts : acceptsEmission s = true := by
    rw [failing_any_iff] at clear
    push Not at clear
    obtain ⟨running, _, _, window, _, cal⟩ := clear
    simp [acceptsEmission, isRunning_iff.2 running, window_isFree_iff.2 window, cal]
  exact (if_neg clear).trans (if_pos accepts)

/-- What the PTU records of an emission, and the note it offers (R76, R78, R79). -/
theorem recordEmission_offers (s : State) : ∃ (d : Nat) (x : Seed), d ≤ 125 * s.nc.cfg.probePeriod ∧ recordEmission s =
    offer (.probe s.ptu.nextProbe (nextInstant s.nc.now) s.ptu.heard) 7 (some (plus (nextInstant s.nc.now) 80000000))
      { s with
        nc := { s.nc with rng := x }
        ptu := { s.ptu with
          nextProbe := s.ptu.nextProbe + 1
          history := keepNewest 4 (s.ptu.history ++ [⟨s.ptu.nextProbe, nextInstant s.nc.now⟩]), heard := []
          schedule := .counting (plus (nextInstant s.nc.now) (800000 * s.nc.cfg.probePeriod + 800 * d : Nat)) } } := by
  obtain ⟨d, x, bound, drawn⟩ := drawMicros_le (125 * s.nc.cfg.probePeriod) (s.withPtu { s.ptu with
    nextProbe := s.ptu.nextProbe + 1
    history := keepNewest 4 (s.ptu.history ++ [⟨s.ptu.nextProbe, nextInstant s.nc.now⟩]), heard := [] })
  refine ⟨d, x, bound, ?_⟩
  rw [recordEmission]
  simp only [drawn]
  rfl

/-- Settles O18. -/
theorem emissionTakesNumberAndNote : Obligations.EmissionTakesNumberAndNote := by
  intro s running hush noNote window guard cal room i at_
  have live_ : s.nc.node ≠ .held := by simp [running]
  have clear : (failing s).any = false := by
    rw [Bool.eq_false_iff, Ne, failing_any_iff]
    simpa [running, hush, window, guard, cal] using noNote
  obtain ⟨d, x, bound, recorded⟩ := recordEmission_offers (beginEmission s)
  obtain ⟨aligned, low, high⟩ := nextInstant_spec s.nc.now
  refine ⟨_, nextInstant s.nc.now, d, samplesFrom s s.cfe.history (nextInstant s.nc.now),
    newNote s.nc.now (.probe s.ptu.nextProbe (nextInstant s.nc.now) s.ptu.heard) 7
      (some (plus (nextInstant s.nc.now) 80000000)),
    (scheduleEvent_tests live_ i at_).trans (congrArg Host.Outcome.next
      ((emissionTest_clear clear).trans (recorded.trans (offer_room _ _ _ (isRunning_iff.2 running) room)))),
    aligned, low, high, rfl, ?_⟩
  refine ⟨?_, rfl, rfl, rfl, rfl, rfl, bound, rfl, rfl, rfl, rfl, rfl, rfl, rfl, rfl, rfl, rfl, rfl, ?_⟩
  · simp only [beginEmission, List.isEmpty_iff]
    rfl
  · simp [unchangedBut_iff, beginEmission]

/-- Settles O19. -/
theorem emissionHeldBackUntilConditionsClear : Obligations.EmissionHeldBackUntilConditionsClear := by
  refine ⟨fun s live_ fails i at_ => ?_, fun s live_ due => ?_, fun s => ⟨unblock_eq, fun w blocked => ⟨fun stands => ?_,
    fun clear => ?_⟩⟩⟩
  · refine ⟨_, scheduleEvent_tests live_ i at_, ?_⟩
    rw [emissionTest_blocked ((failing_any_iff s).2 fails)]
    exact ⟨rfl, ptuSame s _⟩
  · have ptu := unblock_ptu (s.withPtu { s.ptu with guard := none })
    refine ⟨_, (next_live probeGuardExpiry live_).trans (congrArg Host.Outcome.next (probeGuardExpiry_expired due)),
      ?_, ?_, ?_, fun w blocked => ⟨fun guardOnly => ?_, fun stands => ?_⟩, rfl,
      (ptuSame s _).trans (unblock_same _) (by simp) (by simp)⟩
    · exact congrArg Ptu.guard ptu
    · exact ptu
    · exact unblock_nc _
    · refine unblock_schedule_settling (w := w) blocked fun stands => ?_
      simp [Stands, guardOnly] at stands
    · refine unblock_schedule_blocked (w := w) blocked ?_
      exact stands.elim (fun ⟨w_, hush⟩ => .inl ⟨w_, .inr hush⟩) (fun window => .inr (.inr (.inl window)))
  · exact unblock_stays blocked ((standing_any_iff w s).2 stands)
  · exact unblock_draws blocked clear

end Sys2Proof.Machine
end

