-- ==== Sys2Proof/Proofs/Detector.lean ====
section
/-! SUPPORT. The envelope detector, its onsets and its open burst (R40 to R45, R48, R53, R54). -/

namespace Sys2Proof.Machine

open Sys2Proof

/-! ## A value delivered (R40, R41) -/

/-- The node with the value delivered taken from the register. -/
def valueTaken (s : State) : State := s.withCfe { s.cfe with envelope := none }

section
variable {s : State} {v : BlockValue} (value : s.cfe.envelope = some v)
include value

theorem envelopeValue_watch {count : Nat} {first : Time} {peak : Nat} (running : s.nc.node = .running)
    (on : 1 ≤ s.nc.cfg.confirmN) (watching : s.iw.detector = .watch count first peak) :
    envelopeValue s = watchValue count first peak v (valueTaken s) := by
  simp [envelopeValue, valueTaken, value, isRunning_iff.2 running, on, watching]

theorem envelopeValue_opened {o : OpenBurst} (running : s.nc.node = .running) (on : 1 ≤ s.nc.cfg.confirmN)
    (opened : s.iw.detector = .opened o) :
    envelopeValue s = openValue o v (valueTaken s) := by
  simp [envelopeValue, valueTaken, value, isRunning_iff.2 running, on, opened]

theorem envelopeValue_let_go (off : s.nc.node ≠ .running ∨ s.nc.cfg.confirmN = 0) :
    envelopeValue s = valueTaken s := by
  have not_taken : (s.isRunning && decide (1 ≤ s.nc.cfg.confirmN)) = false := by
    rcases off with node | zero
    · simp [isRunning_eq_false.2 node]
    · simp [zero]
  simp [envelopeValue, valueTaken, value, not_taken]

end

/-! ## The onset run (R41) -/

section
variable {s : State} {v : BlockValue} {count : Nat} {first : Time} {peak : Nat}

theorem watchValue_quiet (quiet : v.value < s.nc.cfg.upperTh) :
    watchValue count first peak v s = s.withIw { s.iw with detector := .watch 0 0 0 } := if_pos quiet

theorem watchValue_joins (loud : s.nc.cfg.upperTh ≤ v.value) (some_ : 0 < count)
    (follows : v.block = plus first (64 * count : Nat)) : watchValue count first peak v s =
      if s.nc.cfg.confirmN ≤ count + 1 then onset first (max peak v.value) s
      else s.withIw { s.iw with detector := .watch (count + 1) first (max peak v.value) } := by
  have joins : (decide (0 < count) && v.block == plus first (64 * count : Nat)) = true := by simp [some_, follows]
  rw [watchValue, if_neg (not_lt.2 loud)]
  simp only [joins, if_true]

theorem watchValue_starts (loud : s.nc.cfg.upperTh ≤ v.value)
    (apart : count = 0 ∨ v.block ≠ plus first (64 * count : Nat)) : watchValue count first peak v s =
      if s.nc.cfg.confirmN ≤ 1 then onset v.block v.value s
      else s.withIw { s.iw with detector := .watch 1 v.block v.value } := by
  have starts : (decide (0 < count) && v.block == plus first (64 * count : Nat)) = false := by
    rcases apart with zero | other
    · simp [zero]
    · rw [beq_eq_false_iff_ne.2 other, Bool.and_false]
  rw [watchValue, if_neg (not_lt.2 loud)]
  simp only [starts, Bool.false_eq_true, if_false]

end

/-! ## The onset (R42, R48, R53) -/

theorem evictIdx_first {bs : List Burst} {i : Nat} {x : Burst} (place : bs[i]? = some x)
    (state : x.state = .timed ∨ x.state = .untimed)
    (first : ∀ j y, bs[j]? = some y → j ≠ i → y.state = .timed ∨ y.state = .untimed →
      earlier x.onset y.onset = true) : evictIdx bs = some i := by
  refine bestIdx_dominant place (by simpa using state) fun j y hj accepted other => ?_
  have before := first j y hj other (by simpa using accepted)
  exact ⟨earlier_asymm _ _ before, fun _ => before⟩

theorem makeRoom_room_left {w : Iw} (room : w.bursts.length < 16) : w.makeRoom = w := if_pos room

theorem makeRoom_evicts {w : Iw} {i : Nat} {x : Burst} (full : 16 ≤ w.bursts.length) (place : w.bursts[i]? = some x)
    (evicted : evictIdx w.bursts = some i) : w.makeRoom = { w with
      bursts := w.bursts.eraseIdx i
      evicted := if x.state = .timed then min (w.evicted + 1) 65535 else w.evicted } := by
  rw [Iw.makeRoom, if_neg (not_lt.2 full), evicted]
  simp [place, bump_eq]

theorem makeRoom_eq (w : Iw) :
    w.makeRoom = { w with bursts := w.makeRoom.bursts, evicted := w.makeRoom.evicted } := by
  unfold Iw.makeRoom
  split
  · rfl
  · split <;> rfl

/-- The list and the count of evictions that room made leaves. -/
def Keeps16 (w : Iw) (kept : List Burst) (evicted : Nat) : Prop :=
  (w.bursts.length < 16 → kept = w.bursts ∧ evicted = w.evicted) ∧
  (16 ≤ w.bursts.length → ∀ i x, w.bursts[i]? = some x → x.state = .timed ∨ x.state = .untimed →
    (∀ j y, w.bursts[j]? = some y → j ≠ i → y.state = .timed ∨ y.state = .untimed →
      earlier x.onset y.onset = true) →
    kept = w.bursts.eraseIdx i ∧ evicted = if x.state = .timed then min (w.evicted + 1) 65535 else w.evicted)

theorem makeRoom_keeps16 (w : Iw) : Keeps16 w w.makeRoom.bursts w.makeRoom.evicted := by
  refine ⟨fun room => ?_, fun full i x place state first => ?_⟩
  · rw [makeRoom_room_left room]
    exact ⟨rfl, rfl⟩
  · rw [makeRoom_evicts full place (evictIdx_first place state first)]
    exact ⟨rfl, rfl⟩

theorem freeSlot_first {w : Iw} {i : Nat} (free : w.slots[i]? = some .free)
    (first : ∀ j, j < i → w.slots[j]? ≠ some .free) : w.freeSlot = some i := by
  refine findIdx?_first free rfl fun k hk y hy => ?_
  rw [Bool.eq_false_iff, Ne, slot_isFree_iff]
  rintro rfl
  exact first k hk hy

theorem freeSlot_none {w : Iw} (taken : ∀ x ∈ w.slots, x ≠ .free) : w.freeSlot = none := by
  refine List.findIdx?_eq_none_iff.2 fun x hx => ?_
  rw [Bool.eq_false_iff, Ne, slot_isFree_iff]
  exact taken x hx

section
variable {s : State} {c : Time} {peak : Nat} {w : Iw} (room : s.iw.makeRoom = w)
include room

theorem onset_untimed (none_ : w.freeSlot = none) : onset c peak s = s.withIw { w with
    detector := .opened ⟨w.nextBurst, c, peak, s.nc.cfg.confirmN, 0, false⟩
    bursts := w.bursts ++ [⟨w.nextBurst, .untimed, true, c, peak, s.nc.cfg.confirmN, none, none, none⟩]
    nextBurst := w.nextBurst + 1, seen := bump w.seen, untimed := bump w.untimed } := by
  rw [onset, room]
  simp [none_]

theorem onset_captures {i : Nat} (found : w.freeSlot = some i) : onset c peak s = s.withIw { w with
    detector := .opened ⟨w.nextBurst, c, peak, s.nc.cfg.confirmN, 0, false⟩
    bursts := w.bursts ++ [⟨w.nextBurst, .capturing, true, c, peak, s.nc.cfg.confirmN, some i, none, none⟩]
    slots := w.slots.set i (newSnapshot s c)
    nextBurst := w.nextBurst + 1, seen := bump w.seen } := by
  rw [onset, room]
  simp [found]

end

/-- The list and the record that an onset at F with greatest value P leaves (R42, R48, R53). -/
def Declares (s : State) (f : Time) (p : Nat) (iw : Iw) (kept : List Burst) (b : Burst) : Prop :=
  iw = { s.iw with
    detector := .opened ⟨s.iw.nextBurst, f, p, s.nc.cfg.confirmN, 0, false⟩, bursts := kept ++ [b]
    slots := iw.slots, nextBurst := s.iw.nextBurst + 1, seen := min (s.iw.seen + 1) 65535
    untimed := iw.untimed, evicted := iw.evicted } ∧
  Keeps16 s.iw kept iw.evicted ∧
  b = ⟨s.iw.nextBurst, b.state, true, f, p, s.nc.cfg.confirmN, b.slot, none, none⟩ ∧
  ((∀ w ∈ s.iw.slots, w ≠ .free) → b.state = .untimed ∧ b.slot = none ∧ iw.slots = s.iw.slots ∧
    iw.untimed = min (s.iw.untimed + 1) 65535) ∧
  (∀ i, s.iw.slots[i]? = some .free → (∀ j, j < i → s.iw.slots[j]? ≠ some .free) →
    b.state = .capturing ∧ b.slot = some i ∧ iw.untimed = s.iw.untimed ∧
    ∃ xs, xs = samplesFrom s s.cfe.ring (plus f (-512)) ∧
      iw.slots = s.iw.slots.set i (.filling (plus f (-512)) s.cfe.offR xs))

theorem onset_declares (f : Time) (p : Nat) (s : State) :
    ∃ kept b, Declares s f p (onset f p s).iw kept b ∧ UnchangedBut [.iw] s (onset f p s) := by
  have room := makeRoom_eq s.iw
  have keeps := makeRoom_keeps16 s.iw
  cases slot : s.iw.freeSlot with
  | none =>
    rw [onset_untimed room slot]
    refine ⟨_, _, ⟨rfl, keeps, rfl, fun _ => ⟨rfl, rfl, rfl, rfl⟩, fun i free first => ?_⟩, iwSame s _⟩
    exact absurd (slot.symm.trans (freeSlot_first free first)) (by simp)
  | some k =>
    rw [onset_captures room slot]
    refine ⟨_, _, ⟨rfl, keeps, rfl, fun taken => ?_, fun i free first => ?_⟩, iwSame s _⟩
    · exact absurd (slot.symm.trans (freeSlot_none taken)) (by simp)
    · obtain rfl : k = i := Option.some.inj (slot.symm.trans (freeSlot_first free first))
      exact ⟨rfl, rfl, rfl, _, rfl, rfl⟩

theorem runGrown_same (n : Nat) (f : Time) (p : Nat) (s : State) : UnchangedBut [.iw] s
    (if s.nc.cfg.confirmN ≤ n then onset f p s else s.withIw { s.iw with detector := .watch n f p }) := by
  split
  · obtain ⟨_, _, _, same⟩ := onset_declares f p s
    exact same
  · exact iwSame s _

theorem watchValue_same (count : Nat) (first : Time) (peak : Nat) (v : BlockValue) (s : State) :
    UnchangedBut [.iw] s (watchValue count first peak v s) := by
  unfold watchValue
  split
  · exact iwSame s _
  · exact runGrown_same _ _ _ s

/-- Settles O23. -/
theorem watchValuesCountAndDeclareOnsets : Obligations.WatchValuesCountAndDeclareOnsets := by
  refine ⟨fun s v count first f peak p running value watching loud completes => ?_,
    fun s v count first peak running value watching on => ?_, fun s live_ off some_ => ?_⟩
  · have live_ : s.nc.node ≠ .held := by simp [running]
    have on : 1 ≤ s.nc.cfg.confirmN := by omega
    obtain ⟨kept, b, declares, same⟩ := onset_declares f p (valueTaken s)
    have declared : envelopeValue s = onset f p (valueTaken s) := by
      rw [envelopeValue_watch value running on watching]
      rcases completes with ⟨rfl, one, rfl, rfl⟩ | ⟨some_, follows, last, rfl, rfl⟩
      · exact (watchValue_starts (s := valueTaken s) loud (.inl rfl)).trans (if_pos one.le)
      · exact (watchValue_joins (s := valueTaken s) loud some_ follows).trans (if_pos last.le)
    obtain ⟨iw, ⟨kept_room, kept_full⟩, record, untimed, captures⟩ := declares
    refine ⟨_, kept, b, (next_live envelopeValue live_).trans (congrArg Host.Outcome.next declared), iw, kept_room,
      kept_full, record, untimed, captures, same.1 .cfe (by simp), (cfeSame s _).trans same (by simp) (by simp)⟩
  · have live_ : s.nc.node ≠ .held := by simp [running]
    refine ⟨_, next_live envelopeValue live_, ?_⟩
    rw [envelopeValue_watch value running on watching]
    have same := watchValue_same count first peak v (valueTaken s)
    refine ⟨same.1 .cfe (by simp), (cfeSame s _).trans same (by simp) (by simp), fun quiet => ?_,
      fun loud some_ follows more => ?_, fun loud apart more => ?_⟩
    · rw [watchValue_quiet (s := valueTaken s) quiet]
      rfl
    · exact congrArg State.iw
        ((watchValue_joins (s := valueTaken s) loud some_ follows).trans (if_neg (not_le.2 more)))
    · exact congrArg State.iw ((watchValue_starts (s := valueTaken s) loud apart).trans (if_neg (not_le.2 more)))
  · obtain ⟨v, value⟩ := Option.ne_none_iff_exists'.1 some_
    refine ⟨_, next_live envelopeValue live_, ?_⟩
    rw [envelopeValue_let_go value off]
    exact ⟨rfl, cfeSame s _⟩

/-! ## BURST NOTEs (R54) -/

theorem offerBurst_off {s : State} (n : BurstNote) (off : s.nc.cfg.levelBurst = 0) : offerBurst n s = s := if_pos off

theorem offerBurst_room {s : State} (n : BurstNote) (on : s.nc.cfg.levelBurst ≠ 0) (running : s.nc.node = .running)
    (room : s.na.queue.length < 16) : offerBurst n s = serve (s.withNa { s.na with queue := s.na.queue ++
      [newNote s.nc.now (.burst n) s.nc.cfg.levelBurst (some (plus s.nc.now 200000000))] }) :=
  (if_neg on).trans (offer_room _ _ _ (isRunning_iff.2 running) room)

theorem offerBurst_same (n : BurstNote) (s : State) : UnchangedBut [.nc, .ptu, .lc, .na] s (offerBurst n s) := by
  unfold offerBurst
  split
  · exact UnchangedBut.refl _ _
  · exact offer_same _ _ _ _

/-! ## The open burst (R43 to R45) -/

section
variable {o : OpenBurst} {lower : Nat} {v : BlockValue}

theorem take_below (h : v.value < lower) :
    o.take lower v = { o with below := o.below + 1, peak := max o.peak v.value } := if_neg (not_le.2 h)

theorem take_above (h : lower ≤ v.value) : o.take lower v = { o with
    below := 0, duration := max o.duration (min ((diff v.block o.onset / 64).toNat + 1) 65535)
    peak := max o.peak v.value } := if_pos h

end

section
variable (o : OpenBurst) (b : Burst)

theorem follow_opened : (b.follow o).opened = b.opened := by unfold Burst.follow; split <;> rfl

theorem follow_state : (b.follow o).state = b.state := by unfold Burst.follow; split <;> rfl

theorem follow_timing : (b.follow o).timing = b.timing := by unfold Burst.follow; split <;> rfl

theorem follow_toLong : (b.follow o).toLong = if b.opened = true then { b with
    peak := o.peak, duration := o.duration, state := if b.state = .capturing then .capturing else .long
    slot := if b.state = .queued then none else b.slot, hold := if b.state = .timed then none else b.hold } else b := by
  unfold Burst.follow
  split
  case isTrue opened => cases state : b.state <;> simp [Burst.toLong, opened]
  case isFalse closed => simp [Burst.toLong, closed]

end

/-- The records that leave as the open burst ends, and the mark cleared in the others (R44). -/
theorem endRecords_follow (o : OpenBurst) (bs : List Burst) : endRecords (bs.map (Burst.follow o)) =
    (bs.filter fun b => !(b.opened && (b.state == .untimed || b.state == .long))).map fun b =>
      if b.opened = true then { b with opened := false, peak := o.peak, duration := o.duration } else b := by
  have leaves : ((fun b : Burst => !(b.opened && (b.state == .untimed || b.state == .long))) ∘ Burst.follow o) =
      fun b => !(b.opened && (b.state == .untimed || b.state == .long)) := by
    funext b
    simp [follow_opened, follow_state]
  rw [endRecords, List.filter_map, leaves, List.map_map]
  refine List.map_congr_left fun b _ => ?_
  cases opened : b.opened with
  | true => simp [Burst.follow, opened]
  | false =>
    simp only [Function.comp_apply, Burst.follow, opened, Bool.false_eq_true, if_false]
    rw [← opened]

/-- The timing of the open record after the value is that of the open record before it. -/
theorem openRecord_follow (o : OpenBurst) (w : Iw) :
    (w.mapBursts (Burst.follow o)).openRecord.bind (·.timing) = (w.bursts.find? (·.opened)).bind (·.timing) := by
  have opened : ((fun b : Burst => b.opened) ∘ Burst.follow o) = fun b => b.opened := by
    funext b
    simp [follow_opened]
  simp only [Iw.openRecord, Iw.mapBursts, List.find?_map, opened, Option.bind_map, Function.comp_def, follow_timing]

theorem longNote_follow (o p : OpenBurst) (w : Iw) : o.longNote (w.mapBursts (Burst.follow p)).openRecord =
    ⟨o.number, true, o.onset, o.peak, o.duration,
      (((w.bursts.find? (·.opened)).bind (·.timing)).map (·.signature)).getD (List.replicate 16 0)⟩ := by
  rw [OpenBurst.longNote, openRecord_follow]

section
variable {s : State} {o o' : OpenBurst} {v : BlockValue} (taken : o.take s.nc.cfg.lowerTh v = o')
include taken

theorem openValue_ends (ended : 8 ≤ o'.below) : openValue o v s = s.withIw { s.iw with
    detector := .watch 0 0 0
    bursts := (s.iw.bursts.filter fun b => !(b.opened && (b.state == .untimed || b.state == .long))).map fun b =>
      if b.opened = true then { b with opened := false, peak := o'.peak, duration := o'.duration } else b } := by
  subst taken
  rw [← endRecords_follow]
  exact if_pos ended

theorem openValue_goes_on (below : o'.below < 8) (short : o'.long = true ∨ o'.duration < 12500) :
    openValue o v s = s.withIw { s.iw with
      detector := .opened o', bursts := s.iw.bursts.map (Burst.follow o') } := by
  subst taken
  refine (if_neg (not_le.2 below)).trans (if_neg ?_)
  rintro ⟨long, fresh⟩
  rcases short with already | short
  · simp [fresh] at already
  · exact absurd long (not_le.2 short)

theorem openValue_turns_long (below : o'.below < 8) (fresh : o'.long = false) (long : 12500 ≤ o'.duration) :
    openValue o v s = offerBurst
      ⟨o'.number, true, o'.onset, o'.peak, o'.duration,
        (((s.iw.bursts.find? (·.opened)).bind (·.timing)).map (·.signature)).getD (List.replicate 16 0)⟩
      (s.withIw { s.iw with
        detector := .opened { o' with long := true }
        bursts := s.iw.bursts.map fun b => (b.follow o').toLong }) := by
  subst taken
  refine (if_neg (not_le.2 below)).trans ((if_pos ⟨long, fresh⟩).trans ?_)
  simp only [longNote_follow]
  simp only [Iw.mapBursts, List.map_map]
  rfl

end

theorem openValue_cfe (o : OpenBurst) (v : BlockValue) (s : State) : (openValue o v s).cfe = s.cfe := by
  unfold openValue
  dsimp only
  split
  · rfl
  · split
    · exact (offerBurst_same _ _).1 .cfe (by simp)
    · rfl

/-- Settles O25. -/
theorem openBurstEndsOrTurnsLong : Obligations.OpenBurstEndsOrTurnsLong := by
  intro s v o running on value opened
  have live_ : s.nc.node ≠ .held := by simp [running]
  dsimp only
  refine ⟨_, next_live envelopeValue live_, ?_⟩
  rw [envelopeValue_opened value running on opened]
  refine ⟨?_, fun quiet below short => ?_, fun quiet below => ?_, fun loud short => ⟨_, rfl, ?_⟩,
    fun loud fresh long => ⟨_, rfl, ?_⟩⟩
  · exact openValue_cfe o v (valueTaken s)
  · rw [openValue_goes_on (s := valueTaken s) (take_below quiet) (by dsimp only; omega) short]
    exact ⟨rfl, (cfeSame s _).trans (iwSame _ _) (by simp) (by simp)⟩
  · rw [openValue_ends (s := valueTaken s) (take_below quiet) (by dsimp only; omega)]
    exact ⟨rfl, (cfeSame s _).trans (iwSame _ _) (by simp) (by simp)⟩
  · rw [openValue_goes_on (s := valueTaken s) (take_above loud) (by dsimp only; omega) ?_]
    · exact ⟨rfl, (cfeSame s _).trans (iwSame _ _) (by simp) (by simp)⟩
    · exact short.imp_right fun ⟨ran, index⟩ => by dsimp only; omega
  · rw [openValue_turns_long (s := valueTaken s) (take_above loud) (by dsimp only; omega) fresh (by dsimp only; omega)]
    refine ⟨?_, fun off => ?_, fun loudest room => ?_⟩
    · refine ((offerBurst_same _ _).1 .iw (by simp)).trans ?_
      simp only [follow_toLong]
      rfl
    · rw [offerBurst_off (s := (valueTaken s).withIw _) _ off]
      exact (cfeSame s _).trans (iwSame _ _) (by simp) (by simp)
    · refine ⟨_, _, offerBurst_room (s := (valueTaken s).withIw _) _ loudest running room, rfl, fun b x found timing => ?_,
        fun untimed => ?_, by simp [unchangedBut_iff, valueTaken]⟩
      · simp [found, timing, valueTaken]
      · have none_ : (s.iw.bursts.find? (·.opened)).bind (·.timing) = none := by
          cases found : s.iw.bursts.find? (·.opened) with
          | none => rfl
          | some b => exact untimed b found
        simp [none_, valueTaken]

end Sys2Proof.Machine
end

