-- ==== Sys2Proof/Proofs/Snapshots.lean ====
section
/-! SUPPORT. The snapshot slots and the records that hold them (R46, R49, R50). -/

namespace Sys2Proof.Machine

open Sys2Proof

section
variable {w : Iw} {i j : Nat} {b : Burst}

theorem holder_first (place : w.bursts[j]? = some b) (slot : b.slot = some i)
    (first : ∀ k, k < j → ∀ a, w.bursts[k]? = some a → a.slot ≠ some i) : w.holder i = some j :=
  findIdx?_first place (by simpa using slot) fun k hk a ha => by simpa using first k hk a ha

theorem holder_of_none (h : ∀ b ∈ w.bursts, b.slot ≠ some i) : w.holder i = none := by
  simpa [Iw.holder, List.findIdx?_eq_none_iff] using h

/-- The record of a slot, counted UNTIMED (R49, R50, R52). -/
theorem untime_eq (place : w.bursts[j]? = some b) : w.untime j = { w with
    untimed := min (w.untimed + 1) 65535
    bursts := if b.opened = true then w.bursts.set j { b with state := .untimed, slot := none }
      else w.bursts.eraseIdx j } := by
  rw [Iw.untime, place]
  simp only [modify_eq_set _ _ _ _ place]
  split <;> rfl

theorem untimeClashed_eq (found : w.holder i = some j) (place : w.bursts[j]? = some b) : w.untimeClashed i =
    { w with bursts := w.bursts.set j { b with state := .untimed, slot := none } } := by
  rw [Iw.untimeClashed, found]
  simp only [modify_eq_set _ _ _ _ place]
  rfl

end

section
variable {s : State} {i j : Nat} {start : Time} {o : Int} {xs : List Int} {b : Burst}

theorem snapshotFull_full (slot : s.iw.slots[i]? = some (.filling start o xs)) (full : 512 ≤ xs.length) :
    snapshotFull i s = if s.isClashed then s.withIw ((s.iw.setSlot i .free).untimeClashed i)
      else submitSnapshot i start o xs s := by
  rw [snapshotFull, List.getD_eq_getElem?_getD, slot]
  exact if_pos full

theorem submitSnapshot_taken {c : Ce} (taken : s.ce.submit s.nc.now (.burst i start o) = some c)
    (found : s.iw.holder i = some j) (place : s.iw.bursts[j]? = some b) : submitSnapshot i start o xs s =
      (s.withCe c).withIw { s.iw with
        slots := s.iw.slots.set i (.job start o xs), bursts := s.iw.bursts.set j { b with state := .queued } } := by
  have found' : (s.iw.setSlot i (.job start o xs)).holder i = some j := found
  simp only [submitSnapshot, taken, found']
  simp only [Iw.setSlot, modify_eq_set _ _ _ _ place]

theorem submitSnapshot_refused (refused : s.ce.submit s.nc.now (.burst i start o) = none)
    (found : s.iw.holder i = some j) :
    submitSnapshot i start o xs s = s.withIw ((s.iw.setSlot i .free).untime j) := by
  have found' : (s.iw.setSlot i .free).holder i = some j := found
  simp only [submitSnapshot, refused, found']

end

/-- Settles O26. -/
theorem fullSnapshotSubmitsJob : Obligations.FullSnapshotSubmitsJob := by
  intro s i j start o xs b live_ slot full place held first
  have found : s.iw.holder i = some j := holder_first place held first
  refine ⟨_, next_live (snapshotFull i) live_, ?_⟩
  rw [snapshotFull_full slot full]
  refine ⟨fun node room => ?_, fun node busy queued => ?_, fun node => ?_⟩
  · obtain ⟨c, taken, started, waits⟩ := submit_taken s.ce s.nc.now (.burst i start o) room
    rw [isClashed_eq_false.2 node, if_neg Bool.false_ne_true, submitSnapshot_taken taken found place]
    exact ⟨rfl, rfl, rfl, started, waits, by simp [unchangedBut_iff]⟩
  · rw [isClashed_eq_false.2 node, if_neg Bool.false_ne_true,
      submitSnapshot_refused (submit_refused _ _ _ busy queued) found, untime_eq (w := s.iw.setSlot i .free) place]
    exact ⟨rfl, rfl, fun opened => if_pos opened, fun closed => if_neg (by simp [closed]), iwSame s _⟩
  · rw [isClashed_iff.2 node, if_pos rfl, untimeClashed_eq (w := s.iw.setSlot i .free) found place]
    exact ⟨rfl, rfl, rfl, iwSame s _⟩

end Sys2Proof.Machine
end

