-- ==== Sys2Proof/Proofs/Passes.lean ====
section
/-! SUPPORT. The end of a correlation pass, and what each DONE leaves of the buffers (R60, R63). -/

namespace Sys2Proof.Machine

open Sys2Proof

/-- The state that a DONE leaves to its submitter: the engine has gone on (R60). -/
def engineFreed (s : State) : State := s.withCe (s.ce.advance s.nc.now)

/-! ## Clamped passes -/

theorem passClamped_iff (s : State) (r : Running) :
    passClamped s r = true ↔ ∃ a ∈ jobAccs s r.job, isClamped r.shift a = true := by
  simp [passClamped]

theorem passClamped_eq_false (s : State) (r : Running) :
    passClamped s r = false ↔ ∀ a ∈ jobAccs s r.job, isClamped r.shift a = false := by
  simp [passClamped]

section
variable {s : State} {r : Running} (running : s.ce.running = some r) (ended : reached s.nc.now r.endsAt = true)
include running ended

theorem passEnd_again (clamped : ∃ a ∈ jobAccs s r.job, isClamped r.shift a = true) (shift : r.shift < 20) :
    passEnd s = s.withCe { s.ce with
      running := some ⟨r.job, r.pass + 1, r.shift + 4, plus s.nc.now r.job.passTicks⟩ } := by
  simp only [passEnd, running, ended, (passClamped_iff s r).2 clamped, shift]
  rfl

theorem passEnd_done (done : (∀ a ∈ jobAccs s r.job, isClamped r.shift a = false) ∨ 20 ≤ r.shift) :
    passEnd s = deliver s r (passClamped s r) (engineFreed s) := by
  have not_again : (passClamped s r && decide (r.shift < 20)) = false := by
    rcases done with clear | last
    · rw [(passClamped_eq_false s r).2 clear, Bool.false_and]
    · rw [decide_eq_false (not_lt.2 last), Bool.and_false]
  simp only [passEnd, running, ended, not_again]
  rfl

end

/-! ## What a DONE leaves of the buffers and of NC -/

/-- Offering a record's note and then the record moves no buffer and of NC only the generator. -/
theorem offered_step (j : Nat) (n : BurstNote) (s : State) : TableStep s (offerRecord j (offerBurst n s)) := by
  refine TableStep.trans ?_ (offerRecord_step j _)
  unfold offerBurst
  split
  · exact TableStep.refl s
  · exact (offer_step _ _ _ s).table

theorem becomeTimed_eq {s : State} {j : Nat} {b : Burst} (place : s.iw.bursts[j]? = some b) (t : Timing) :
    becomeTimed j t s = offerRecord j (offerBurst ⟨b.number, false, t.fine, b.peak, b.duration, t.signature⟩
      (s.withIw { s.iw with bursts := s.iw.bursts.set j { b with
        state := .timed, slot := none, timing := some t, hold := some (plus t.timedAt 400000000) } })) := by
  rw [becomeTimed, place]
  rfl

/-- The slot is freed, nothing else that holds samples changes, and of NC only the generator. -/
structure FreesSlot (i : Nat) (s t : State) : Prop where
  ce : t.ce = s.ce
  cfe : t.cfe = s.cfe
  slots : t.iw.slots = s.iw.slots.set i .free
  nc : t.nc = { s.nc with rng := t.nc.rng }

theorem FreesSlot.ofIw {i : Nat} {s : State} {w : Iw} (slots : w.slots = s.iw.slots.set i .free) :
    FreesSlot i s (s.withIw w) := ⟨rfl, rfl, slots, rfl⟩

theorem FreesSlot.andThen {i : Nat} {s t u : State} (h : FreesSlot i s t) (step : TableStep t u) : FreesSlot i s u where
  ce := step.ce.trans h.ce
  cfe := step.cfe.trans h.cfe
  slots := step.slots.trans h.slots
  nc := by
    rw [step.nc, h.nc]

theorem burstResult_frees (r : TimingResult) (s : State) : FreesSlot r.slot s (burstResult r s) := by
  unfold burstResult
  dsimp only
  split
  case h_1 => exact .ofIw rfl
  case h_2 j found =>
    split
    · exact .ofIw (untimeClashed_others r.slot _).1
    · split
      · exact .ofIw (untime_others j _).1
      · obtain ⟨b, place, _⟩ := holder_sound found
        rw [becomeTimed_eq (s := s.withIw (s.iw.setSlot r.slot .free)) place]
        exact FreesSlot.andThen (.ofIw rfl) (offered_step j _ _)

/-- What the DONE of a job leaves of the engine, of NC and of the buffers (R50, R80, R83). -/
structure DoneLeaves (j : Job) (s t : State) : Prop where
  ce : t.ce = s.ce
  nc : t.nc = { s.nc with rng := t.nc.rng }
  burst : ∀ i start o, j = .burst i start o → t.iw.slots = s.iw.slots.set i .free ∧ t.cfe = s.cfe
  arrival : ∀ c u, j = .arrival c u → t.cfe = { s.cfe with arrival := .free } ∧ t.iw.slots = s.iw.slots
  echo : ∀ e, j = .echo e → t.cfe = { s.cfe with window := .free } ∧ t.iw.slots = s.iw.slots

theorem FreesSlot.leaves {i : Nat} {start : Time} {o : Int} {s t : State} (h : FreesSlot i s t) :
    DoneLeaves (.burst i start o) s t where
  ce := h.ce
  nc := h.nc
  burst := by
    rintro _ _ _ ⟨⟩
    exact ⟨h.slots, h.cfe⟩
  arrival := nofun
  echo := nofun

theorem DoneLeaves.ofArrival {c u : Time} {s t : State} (step : TableStep (s.withCfe { s.cfe with arrival := .free }) t) :
    DoneLeaves (.arrival c u) s t where
  ce := step.ce
  nc := step.nc
  burst := nofun
  arrival := fun _ _ _ => ⟨step.cfe, step.slots⟩
  echo := nofun

theorem freeWindow_step (s : State) : TableStep (s.withCfe { s.cfe with window := .free }) (freeWindow s) :=
  (unblock_step _).table

theorem DoneLeaves.ofEcho {e : Time} {s t : State} (step : TableStep (s.withCfe { s.cfe with window := .free }) t) :
    DoneLeaves (.echo e) s t where
  ce := step.ce
  nc := step.nc
  burst := nofun
  arrival := nofun
  echo := fun _ _ => ⟨step.cfe, step.slots⟩

theorem deliver_leaves (before : State) (r : Running) (saturated : Bool) (s : State) :
    DoneLeaves r.job s (deliver before r saturated s) := by
  unfold deliver
  cases r.job with
  | burst i start o => exact (burstResult_frees (timingResult before r saturated i start o) s).leaves
  | arrival c u =>
    dsimp only
    split
    · exact .ofArrival (TableStep.refl _)
    · exact .ofArrival (arrivalResult_step _ _)
  | echo e =>
    dsimp only
    split
    · exact .ofEcho ((freeWindow_step s).trans (handleProfile_step _ _))
    · exact .ofEcho (freeWindow_step s)

/-- Settles O27. -/
theorem passEndRerunsOrReportsDone : Obligations.PassEndRerunsOrReportsDone := by
  intro s r live_ running ended
  refine ⟨_, next_live passEnd live_, ?_⟩
  by_cases again : (∃ a ∈ jobAccs s r.job, isClamped r.shift a = true) ∧ r.shift < 20
  · obtain ⟨clamped, shift⟩ := again
    rw [passEnd_again running ended clamped shift]
    refine ⟨fun _ _ => ⟨rfl, ceSame s _⟩, fun done => ?_, rfl⟩
    rcases done with clear | last
    · obtain ⟨a, mem, yes⟩ := clamped
      simp [clear a mem] at yes
    · exact absurd shift (not_lt.2 last)
  · have done : (∀ a ∈ jobAccs s r.job, isClamped r.shift a = false) ∨ 20 ≤ r.shift := by
      rw [not_and_or] at again
      simpa using again
    rw [passEnd_done running ended done]
    have leaves := deliver_leaves s r (passClamped s r) (engineFreed s)
    refine ⟨fun clamped shift => absurd ⟨clamped, shift⟩ again, fun _ => ⟨leaves.ce, fun idle => ?_, fun j js waits => ?_,
      leaves.burst, leaves.arrival, leaves.echo⟩, leaves.nc⟩
    · refine leaves.ce.trans ?_
      simp [engineFreed, Ce.advance, idle]
    · refine leaves.ce.trans ?_
      simp [engineFreed, Ce.advance, waits, Job.start]

end Sys2Proof.Machine
end

