-- ==== Sys2Proof/Proofs/Results.lean ====
section
/-! SUPPORT. The accumulators and the results of the correlation engine (R62 to R69). -/

namespace Sys2Proof.Machine

open Sys2Proof

/-! ## Accumulators (R62, R63) -/

theorem dot_append (xs ts us : List Int) : dot xs (ts ++ us) = dot xs ts + dot (xs.drop ts.length) us := by
  induction ts generalizing xs with
  | nil => simp [dot]
  | cons t ts ih =>
    cases xs with
    | nil => simp [dot]
    | cons x xs =>
      rw [List.cons_append, dot, dot, ih]
      simp [add_assoc]

theorem dot_nonneg (xs ts : List Int) (hx : ∀ x ∈ xs, 0 ≤ x) (ht : ∀ t ∈ ts, 0 ≤ t) : 0 ≤ dot xs ts := by
  induction xs generalizing ts with
  | nil => cases ts <;> simp [dot]
  | cons x xs ih =>
    cases ts with
    | nil => simp [dot]
    | cons t ts =>
      rw [List.forall_mem_cons] at hx ht
      exact add_nonneg (mul_nonneg hx.1 ht.1) (ih ts hx.2 ht.2)

theorem dot_nonpos (xs ts : List Int) (hx : ∀ x ∈ xs, 0 ≤ x) (ht : ∀ t ∈ ts, t ≤ 0) : dot xs ts ≤ 0 := by
  induction xs generalizing ts with
  | nil => cases ts <;> simp [dot]
  | cons x xs ih =>
    cases ts with
    | nil => simp [dot]
    | cons t ts =>
      rw [List.forall_mem_cons] at hx ht
      exact add_nonpos (mul_nonpos_of_nonneg_of_nonpos hx.1 ht.1) (ih ts hx.2 ht.2)

/-- Of samples in 0 … 2047 the two halves of the onset kernel take opposite signs, so their sum is within the bound of
one half. -/
theorem dot_onsetKernel_bound (xs : List Int) (h : ∀ x ∈ xs, 0 ≤ x ∧ x ≤ 2047) :
    (dot xs onsetKernel).natAbs ≤ 33538048 := by
  have tail : ∀ x ∈ xs.drop 16, 0 ≤ x ∧ x ≤ 2047 := fun x hx => h x (List.mem_of_mem_drop hx)
  have first := dot_bound 2047 1024 xs (List.replicate 16 (-1024)) (fun x hx => by have := h x hx; omega) (by simp)
  have second := dot_bound 2047 1024 (xs.drop 16) (List.replicate 16 1024) (fun x hx => by have := tail x hx; omega)
    (by simp)
  have low := dot_nonpos xs (List.replicate 16 (-1024)) (fun x hx => (h x hx).1) (by simp)
  have high := dot_nonneg (xs.drop 16) (List.replicate 16 1024) (fun x hx => (tail x hx).1) (by simp)
  rw [List.length_replicate] at first second
  rw [onsetKernel, dot_append, List.length_replicate]
  omega

theorem dot_chirpTemplate_bound (xs : List Int) (h : ∀ x ∈ xs, -2048 ≤ x ∧ x ≤ 2047) :
    (dot xs chirpTemplate).natAbs ≤ 1073217536 := by
  have bound := dot_bound 2048 2047 xs chirpTemplate (fun x hx => by have := h x hx; omega) chirp_bound
  rw [chirpTemplate, List.length_map, List.length_range] at bound
  exact bound

theorem isClamped_eq_false {shift : Nat} {a : Int} (low : -32768 ≤ a / 2 ^ shift) (high : a / 2 ^ shift ≤ 32767) :
    isClamped shift a = false := by
  have same : narrow shift a = a / 2 ^ shift := by
    rw [narrow, clampInt_eq_max_min (by decide)]
    omega
  simp [isClamped, same]

theorem mem_jobAccs {s : State} {j : Job} {a : Int} (h : a ∈ jobAccs s j) :
    ∃ k, a = dot ((jobInput s j).drop k) j.template := by
  obtain ⟨k, _, rfl⟩ := List.mem_map.1 h
  exact ⟨k, rfl⟩

theorem burst_input_range (s : State) (i : Nat) (start : Time) (o : Int) :
    ∀ x ∈ jobInput s (.burst i start o), 0 ≤ x ∧ x ≤ 2047 := by
  intro x hx
  obtain ⟨y, _, rfl⟩ := List.mem_map.1 hx
  have := Nat.min_le_right (y - o).natAbs 2047
  simp only [rectify]
  omega

theorem burst_accs_bound {s : State} {i : Nat} {start : Time} {o a : Int} (h : a ∈ jobAccs s (.burst i start o)) :
    a.natAbs ≤ 33538048 := by
  obtain ⟨k, rfl⟩ := mem_jobAccs h
  exact dot_onsetKernel_bound _ fun x hx => burst_input_range s i start o x (List.mem_of_mem_drop hx)

/-- Settles O29. -/
theorem accumulatorsStayInBounds : Obligations.AccumulatorsStayInBounds := by
  intro s j _ arrival window a mem
  have bound : a.natAbs ≤ 1073217536 := by
    cases j with
    | burst i start o => exact (burst_accs_bound mem).trans (by decide)
    | arrival c u =>
      obtain ⟨k, rfl⟩ := mem_jobAccs mem
      exact dot_chirpTemplate_bound _ fun x hx => arrival x (List.mem_of_mem_drop hx)
    | echo e =>
      obtain ⟨k, rfl⟩ := mem_jobAccs mem
      exact dot_chirpTemplate_bound _ fun x hx => window x (List.mem_of_mem_drop hx)
  refine ⟨?_, bound, isClamped_eq_false (by omega) (by omega)⟩
  rintro i start o rfl
  have small := burst_accs_bound mem
  exact ⟨small, isClamped_eq_false (by omega) (by omega)⟩

/-! ## The peak (R64) -/

theorem exists_peak {ys : List Int} (h : ys ≠ []) : ∃ k, Peak ys k := by
  classical
  have some_ : ∃ k, k < ys.length ∧ ∀ j, j < ys.length → ys.getD j 0 ≤ ys.getD k 0 := by
    obtain ⟨k, bound, most⟩ := Finset.exists_max_image (Finset.range ys.length) (ys.getD · 0)
      ⟨0, Finset.mem_range.2 (List.length_pos_iff.2 h)⟩
    exact ⟨k, Finset.mem_range.1 bound, fun j hj => most j (Finset.mem_range.2 hj)⟩
  obtain ⟨bound, most⟩ := Nat.find_spec some_
  refine ⟨Nat.find some_, bound, fun j hj => ⟨most j hj, fun before => ?_⟩⟩
  have lower := Nat.find_min some_ before
  push Not at lower
  obtain ⟨i, hi, above⟩ := lower hj
  exact above.trans_le (most i hi)

theorem greatestIdx_eq {ys : List Int} {k : Nat} (peak : Peak ys k) : greatestIdx ys = k := by
  obtain ⟨bound, most⟩ := peak
  have found : bestIdx (fun a b : Int => decide (b < a)) (fun _ => true) ys = some k := by
    refine bestIdx_dominant (List.getElem?_eq_getElem bound) rfl fun j y hj _ _ => ?_
    obtain ⟨inside, rfl⟩ := List.getElem?_eq_some_iff.1 hj
    obtain ⟨le, lt⟩ := most j inside
    rw [List.getD_eq_getElem _ _ inside, List.getD_eq_getElem _ _ bound] at le lt
    exact ⟨decide_eq_false (not_lt.2 le), fun before => decide_eq_true (lt before)⟩
  rw [greatestIdx, found, Option.getD_some]

theorem greatestIdx_peak {ys : List Int} (h : ys ≠ []) : Peak ys (greatestIdx ys) := by
  obtain ⟨k, peak⟩ := exists_peak h
  rwa [greatestIdx_eq peak]

/-! ## Interpolation (R65) -/

theorem roundHalfAway_neg_neg (n : Int) {d : Int} (hd : d < 0) : roundHalfAway (-n) (-d) = roundHalfAway n d := by
  rcases eq_or_ne n 0 with rfl | nonzero
  · rw [neg_zero, roundHalfAway_zero, roundHalfAway_zero]
  · have signs : (decide (-n < 0) = decide (-d < 0)) ↔ (decide (n < 0) = decide (d < 0)) := by
      simp only [decide_eq_decide]
      omega
    simp only [roundHalfAway, Int.natAbs_neg, signs]

theorem rounded_roundHalfAway (n : Int) {d : Int} (hd : d ≠ 0) : Rounded n d (roundHalfAway n d) := by
  rcases lt_or_gt_of_ne hd with neg | pos
  · obtain ⟨near, away⟩ := nearestHalfAway_roundHalfAway (-n) (Int.neg_pos_of_neg neg)
    rw [roundHalfAway_neg_neg n neg, Int.neg_mul] at near away
    rw [show -n - -(d * roundHalfAway n d) = -(n - d * roundHalfAway n d) by ring, Int.natAbs_neg, Int.natAbs_neg]
      at near
    rw [show -n - -(d * roundHalfAway n d) = -(n - d * roundHalfAway n d) by ring, Int.natAbs_neg, Int.natAbs_neg,
      Int.natAbs_neg, Int.natAbs_neg] at away
    exact ⟨near, away⟩
  · obtain ⟨near, away⟩ := nearestHalfAway_roundHalfAway n pos
    exact ⟨near, away⟩

theorem interpolate_interpolates (ys : List Int) (j : Nat) : Interpolates ys j (interpolate ys j) := by
  refine ⟨fun edge => if_pos edge, fun first last divisor => ⟨_, rounded_roundHalfAway _ divisor, ?_⟩⟩
  refine (if_neg ?_).trans (clampInt_eq_max_min (by decide) _)
  rintro (zero | short | none_)
  · omega
  · omega
  · exact divisor none_

/-! ## GOOD arrivals (R69) -/

theorem magnitudes_getD (ys : List Int) (j : Nat) : (magnitudes ys).getD j 0 = ((ys.getD j 0).natAbs : Int) := by
  rw [magnitudes, List.getD_eq_getElem?_getD, List.getD_eq_getElem?_getD, List.getElem?_map]
  cases ys[j]? <;> rfl

theorem isLocalMax_iff (ys : List Int) (j : Nat) : isLocalMax (magnitudes ys) j = true ↔
    (0 < j → (ys.getD (j - 1) 0).natAbs ≤ (ys.getD j 0).natAbs) ∧
      (j + 1 < ys.length → (ys.getD (j + 1) 0).natAbs ≤ (ys.getD j 0).natAbs) := by
  have length : (magnitudes ys).length = ys.length := List.length_map _
  simp only [isLocalMax, magnitudes_getD, length, Bool.and_eq_true, Bool.or_eq_true, decide_eq_true_eq, beq_iff_eq,
    Nat.cast_le, Nat.pos_iff_ne_zero, imp_iff_or_not, not_lt, not_not, Ne, or_comm]

theorem isGood_iff (ys : List Int) : isGood ys = true ↔ GoodArrival ys (greatestIdx (magnitudes ys)) := by
  have length : (magnitudes ys).length = ys.length := List.length_map _
  have peak : (0 < (magnitudes ys).getD (greatestIdx (magnitudes ys)) 0) ↔
      0 < (ys.getD (greatestIdx (magnitudes ys)) 0).natAbs := by
    rw [magnitudes_getD, Nat.cast_pos]
  have half : ∀ j, (2 * (magnitudes ys).getD j 0 ≤ (magnitudes ys).getD (greatestIdx (magnitudes ys)) 0) ↔
      2 * (ys.getD j 0).natAbs ≤ (ys.getD (greatestIdx (magnitudes ys)) 0).natAbs := fun j => by
    rw [magnitudes_getD, magnitudes_getD]
    exact_mod_cast Iff.rfl
  simp only [isGood, Bool.and_eq_true, decide_eq_true_eq, List.all_eq_true, List.mem_range, length,
    Bool.or_eq_true, Bool.not_eq_true', peak, half, GoodArrival]
  refine and_congr_right fun _ => forall₂_congr fun j _ => ?_
  rw [← Bool.not_eq_true, Bool.and_eq_true, isLocalMax_iff, decide_eq_true_eq, ← imp_iff_not_or]
  tauto

/-! ## Signatures (R67) -/

/-- The greatest of the 24 rectified samples of group i (R67). -/
def groupMaximum (xs : List Nat) (i : Nat) : Nat := greatest ((xs.drop (128 + 24 * i)).take 24)

theorem groupMaxima_eq (xs : List Nat) : groupMaxima xs = (List.range 16).map (groupMaximum xs) := rfl

theorem groupMaximum_greatest {xs : List Nat} (length : xs.length = 512) {i : Nat} (h : i < 16) :
    Greatest ((xs.drop (128 + 24 * i)).take 24) (groupMaximum xs i) := by
  refine greatest_spec ?_
  rw [Ne, ← List.length_eq_zero_iff, List.length_take, List.length_drop]
  omega

theorem signatureOf_eq {xs : List Nat} {top : Nat} (h : greatest (groupMaxima xs) = top) :
    signatureOf xs = (groupMaxima xs).map fun v => if top = 0 then 0 else v * 255 / top := by
  rw [← h, signatureOf]

theorem signatureOf_groups (xs : List Nat) (length : xs.length = 512) : ∃ (v : Nat → Nat) (top : Nat),
    (∀ i, i < 16 → Greatest ((xs.drop (128 + 24 * i)).take 24) (v i)) ∧ Greatest ((List.range 16).map v) top ∧
    signatureOf xs = (List.range 16).map fun i => if top = 0 then 0 else v i * 255 / top := by
  obtain ⟨top, greatest_⟩ : ∃ top, greatest (groupMaxima xs) = top := ⟨_, rfl⟩
  have some_ : groupMaxima xs ≠ [] := by
    rw [groupMaxima_eq, Ne, List.map_eq_nil_iff, List.range_eq_nil]
    decide
  have spec := greatest_spec some_
  rw [greatest_, groupMaxima_eq] at spec
  refine ⟨groupMaximum xs, top, fun i hi => groupMaximum_greatest length hi, spec, ?_⟩
  rw [signatureOf_eq greatest_, groupMaxima_eq, List.map_map]
  simp only [Function.comp_def]

end Sys2Proof.Machine
end

