-- ==== Sys2Proof/Proofs/Done.lean ====
section
/-! SUPPORT. What the submitter of each job does with its result (R50, R54, R80, R83, R130). -/

namespace Sys2Proof.Machine

open Sys2Proof

theorem offerRecord_no_partner {s : State} (j : Nat) (h : s.ptu.partner = none) : offerRecord j s = s := by
  have none_ : s.partnerEntry = none := by simp [State.partnerEntry, h]
  simp [offerRecord, none_]

/-! ## BURST TIMING results (R50) -/

section
variable {s : State} {r : TimingResult} {j : Nat} {b : Burst}

theorem burstResult_let_go (none_ : ∀ b ∈ s.iw.bursts, b.slot ≠ some r.slot) :
    burstResult r s = s.withIw { s.iw with slots := s.iw.slots.set r.slot .free } := by
  have found : (s.iw.setSlot r.slot .free).holder r.slot = none := holder_of_none none_
  simp only [burstResult, found]
  rfl

variable (found : s.iw.holder r.slot = some j) (place : s.iw.bursts[j]? = some b)
include found place

theorem burstResult_clashed (node : s.nc.node = .clashed) : burstResult r s = s.withIw { s.iw with
    slots := s.iw.slots.set r.slot .free, bursts := s.iw.bursts.set j { b with state := .untimed, slot := none } } := by
  have found' : (s.iw.setSlot r.slot .free).holder r.slot = some j := found
  simp only [burstResult, found', isClashed_iff.2 node, if_true, untimeClashed_eq found' place]
  rfl

theorem burstResult_saturated (node : s.nc.node ≠ .clashed) (none_ : r.timing = none) :
    burstResult r s = s.withIw { s.iw with
      slots := s.iw.slots.set r.slot .free, untimed := min (s.iw.untimed + 1) 65535
      bursts := if b.opened = true then s.iw.bursts.set j { b with state := .untimed, slot := none }
        else s.iw.bursts.eraseIdx j } := by
  have found' : (s.iw.setSlot r.slot .free).holder r.slot = some j := found
  simp only [burstResult, found', isClashed_eq_false.2 node, Bool.false_eq_true, if_false, none_]
  rw [untime_eq (w := s.iw.setSlot r.slot .free) place]
  rfl

theorem burstResult_timed {fine : Time} {sig : List Nat} (node : s.nc.node ≠ .clashed) (timed : r.timing = some (fine, sig)) :
    burstResult r s = offerRecord j (offerBurst ⟨b.number, false, fine, b.peak, b.duration, sig⟩ (s.withIw { s.iw with
      slots := s.iw.slots.set r.slot .free
      bursts := s.iw.bursts.set j { b with
        state := .timed, slot := none, hold := some (plus s.nc.now 400000000)
        timing := some ⟨fine, sig, s.nc.now⟩ } })) := by
  have found' : (s.iw.setSlot r.slot .free).holder r.slot = some j := found
  simp only [burstResult, found', isClashed_eq_false.2 node, Bool.false_eq_true, if_false, timed]
  rw [becomeTimed_eq (s := s.withIw (s.iw.setSlot r.slot .free)) place]
  rfl

end

/-! ## ARRIVAL results (R83) -/

section
variable {s : State} {r : ArrivalResult}

theorem arrivalResult_let_go (none_ : ∀ a ∈ s.ptu.arrivals, a.trigger ≠ r.trigger) : arrivalResult r s = s := by
  rw [arrivalResult, arrivalIdx_none none_]

variable {i : Nat} {a : Arrival} (found : arrivalIdx r.trigger s.ptu = some i)
include found

theorem arrivalResult_discarded (bad : r.good = none) : arrivalResult r s = s.withPtu { s.ptu with
    arrivals := s.ptu.arrivals.eraseIdx i, discarded := min (s.ptu.discarded + 1) 65535 } := by
  simp only [arrivalResult, found, bad]
  rfl

variable (place : s.ptu.arrivals[i]? = some a)
include place

theorem arrivalResult_good {hA : Time} (good : r.good = some hA) (unlabelled : a.label = none) :
    arrivalResult r s =
      s.withPtu { s.ptu with arrivals := s.ptu.arrivals.set i { a with state := .good hA } } := by
  simp only [arrivalResult, found, good, place, Option.bind_some, unlabelled, modify_eq_set _ _ _ _ place]

theorem arrivalResult_leg {hA : Time} {l : Label} (good : r.good = some hA) (labelled : a.label = some l) :
    arrivalResult r s =
      makeReverseLeg l hA (s.withPtu { s.ptu with arrivals := s.ptu.arrivals.eraseIdx i }) := by
  simp only [arrivalResult, found, good, place, Option.bind_some, labelled]
  rfl

end

/-! ## INVALID profiles (R130, R140) -/

/-- What EC counts of an INVALID profile (R130). -/
def invalidCounted (e : Ec) : Ec := { e with
  invalid := min (e.invalid + 1) 65535, invalidStreak := min (e.invalidStreak + 1) 3
  weak := e.weak || decide (2 ≤ e.invalidStreak) }

theorem countInvalid_eq (e : Ec) : e.countInvalid = invalidCounted e := by
  have third : (min (e.invalidStreak + 1) 3 == 3) = decide (2 ≤ e.invalidStreak) := by
    rw [Bool.eq_iff_iff, beq_iff_eq, decide_eq_true_eq]
    omega
  rw [Ec.countInvalid, third]
  rfl

theorem handleProfile_invalid {p : Profile} (s : State) (invalid : p.valid = false) :
    handleProfile p s = if s.ec.rebase = true then takeRebase (s.withEc (invalidCounted s.ec))
      else s.withEc (invalidCounted s.ec) := by
  have classified : classifyProfile p s = s.withEc (invalidCounted s.ec) := by
    rw [classifyProfile, if_pos invalid, countInvalid_eq]
  rw [handleProfile, classified]
  rfl

theorem profileOf_invalid {cfg : Cfg} {e : Time} {saturated : Bool} {shift : Nat} {ys : List Int}
    (h : saturated = true ∨ mainPeak ys * 2 ^ shift < 2 ^ 18) : (profileOf cfg e saturated shift ys).valid = false := by
  rw [profileOf, if_pos (by simpa using h)]

/-! ## The DONE of each job -/

section
variable {s : State} {r : Running}

theorem exec_passEnd_done (live_ : s.nc.node ≠ .held) (running : s.ce.running = some r)
    (ended : reached s.nc.now r.endsAt = true)
    (done : (∀ a ∈ jobAccs s r.job, isClamped r.shift a = false) ∨ 20 ≤ r.shift) :
    exec .passEnd s = .next (deliver s r (passClamped s r) (engineFreed s)) :=
  (next_live passEnd live_).trans (congrArg Host.Outcome.next (passEnd_done running ended done))

theorem deliver_burst {i : Nat} {start : Time} {o : Int} (job : r.job = .burst i start o) (saturated : Bool) (t : State) :
    deliver s r saturated t = burstResult (timingResult s r saturated i start o) t := by
  rw [deliver, job]

theorem deliver_arrival {c u : Time} (job : r.job = .arrival c u) (saturated : Bool) {t : State} (node : t.nc.node ≠ .clashed) :
    deliver s r saturated t =
      arrivalResult (arrivalRecord s r saturated c u) (t.withCfe { t.cfe with arrival := .free }) := by
  simp [deliver, job, isClashed_eq_false.2 node]

theorem deliver_arrival_clashed {c u : Time} (job : r.job = .arrival c u) (saturated : Bool) {t : State}
    (node : t.nc.node = .clashed) : deliver s r saturated t = t.withCfe { t.cfe with arrival := .free } := by
  simp [deliver, job, isClashed_iff.2 node]

theorem deliver_echo {e : Time} (job : r.job = .echo e) (saturated : Bool) {t : State} (node : t.nc.node = .running) :
    deliver s r saturated t = handleProfile (echoResult s r saturated e) (freeWindow t) := by
  simp [deliver, job, isRunning_iff.2 node]

theorem deliver_echo_clashed {e : Time} (job : r.job = .echo e) (saturated : Bool) {t : State}
    (node : t.nc.node ≠ .running) : deliver s r saturated t = freeWindow t := by
  simp [deliver, job, isRunning_eq_false.2 node]

theorem timingResult_timing {i : Nat} {start : Time} {o : Int} {xs : List Int}
    (slot : s.iw.slots[i]? = some (.job start o xs)) : (timingResult s r false i start o).timing =
      some (fineOnset start (passOutputs s r), signatureOf (xs.map (rectify o))) := by
  simp [timingResult, slot, Slot.samples]

end

/-- R50, R54: the record of a BURST TIMING job that no clamp spoilt becomes TIMED, its note and the record are offered. -/
theorem burstDone_timed {s : State} {r : Running} {i j : Nat} {start : Time} {o : Int} {xs : List Int} {b : Burst}
    (running : s.nc.node = .running) (job : r.job = .burst i start o) (slot : s.iw.slots[i]? = some (.job start o xs))
    (place : s.iw.bursts[j]? = some b) (found : s.iw.holder i = some j) :
    ∃ (u : State) (fine : Time) (sig : List Nat), fine = fineOnset start (passOutputs s r) ∧
      sig = signatureOf (xs.map (rectify o)) ∧
      u.iw = { s.iw with
        slots := s.iw.slots.set i .free
        bursts := s.iw.bursts.set j { b with
          state := .timed, slot := none, hold := some (plus s.nc.now 400000000)
          timing := some ⟨fine, sig, s.nc.now⟩ } } ∧
      deliver s r false (engineFreed s) =
        offerRecord j (offerBurst ⟨b.number, false, fine, b.peak, b.duration, sig⟩ u) ∧
      (s.nc.cfg.levelBurst = 0 → s.ptu.partner = none → deliver s r false (engineFreed s) = u) ∧
      u.ce = s.ce.advance s.nc.now ∧ UnchangedBut [.iw, .ce] s u := by
  have delivered := (deliver_burst job false (engineFreed s)).trans (burstResult_timed (s := engineFreed s) (j := j) (b := b)
    found place (by simp [engineFreed, running]) (timingResult_timing slot))
  refine ⟨_, _, _, rfl, rfl, rfl, delivered, fun off alone => ?_, rfl, by simp [unchangedBut_iff, engineFreed]⟩
  rw [delivered, offerBurst_off (s := (engineFreed s).withIw _) _ off,
    offerRecord_no_partner (s := (engineFreed s).withIw _) j alone]

/-- The state in which the PTU takes the result of an ARRIVAL job (R83). -/
def arrivalFreed (s : State) : State := (engineFreed s).withCfe { s.cfe with arrival := .free }

theorem deliver_arrival_running {s : State} {r : Running} {c u : Time} (running : s.nc.node = .running)
    (job : r.job = .arrival c u) (saturated : Bool) : deliver s r saturated (engineFreed s) =
      arrivalResult (arrivalRecord s r saturated c u) (arrivalFreed s) :=
  deliver_arrival (t := engineFreed s) job saturated (by simp [engineFreed, running])

section
variable {s : State} {r : Running} {c u : Time} {i : Nat} {a : Arrival} (running : s.nc.node = .running)
  (job : r.job = .arrival c u) (place : s.ptu.arrivals[i]? = some a) (trigger : a.trigger = u)
  (first : ∀ k, k < i → ∀ x, s.ptu.arrivals[k]? = some x → x.trigger ≠ u)
include running job place trigger first

theorem arrivalDone_discarded {saturated : Bool} (bad : arrivalTime saturated c (passOutputs s r) = none) :
    deliver s r saturated (engineFreed s) = (arrivalFreed s).withPtu { s.ptu with
      arrivals := s.ptu.arrivals.eraseIdx i, discarded := min (s.ptu.discarded + 1) 65535 } :=
  (deliver_arrival_running running job saturated).trans
    (arrivalResult_discarded (s := arrivalFreed s) (arrivalIdx_first (s := arrivalFreed s) place trigger first) bad)

theorem arrivalDone_good {hA : Time} (good : arrivalTime false c (passOutputs s r) = some hA) (unlabelled : a.label = none) :
    deliver s r false (engineFreed s) = (arrivalFreed s).withPtu { s.ptu with
      arrivals := s.ptu.arrivals.set i { a with state := .good hA } } :=
  (deliver_arrival_running running job false).trans (arrivalResult_good (s := arrivalFreed s)
    (r := arrivalRecord s r false c u) (arrivalIdx_first (s := arrivalFreed s) place trigger first) place good unlabelled)

theorem arrivalDone_leg {hA : Time} {l : Label} (good : arrivalTime false c (passOutputs s r) = some hA)
    (labelled : a.label = some l) : deliver s r false (engineFreed s) =
      makeReverseLeg l hA ((arrivalFreed s).withPtu { s.ptu with arrivals := s.ptu.arrivals.eraseIdx i }) :=
  (deliver_arrival_running running job false).trans (arrivalResult_leg (s := arrivalFreed s)
    (r := arrivalRecord s r false c u) (arrivalIdx_first (s := arrivalFreed s) place trigger first) place good labelled)

end

theorem freeWindow_same (s : State) : UnchangedBut [.nc, .cfe, .ptu] s (freeWindow s) :=
  (cfeSame s _).trans (unblock_same _) (by simp) (by simp)

/-- R130, R140: an INVALID profile is counted and a pending REBASE taken. -/
theorem echoDone_invalid {s : State} {r : Running} {e : Time} {saturated : Bool} (running : s.nc.node = .running)
    (job : r.job = .echo e) (invalid : saturated = true ∨ mainPeak (passOutputs s r) * 2 ^ r.shift < 2 ^ 18) :
    deliver s r saturated (engineFreed s) = if s.ec.rebase = true
      then takeRebase ((freeWindow (engineFreed s)).withEc (invalidCounted s.ec))
      else (freeWindow (engineFreed s)).withEc (invalidCounted s.ec) := by
  have ec : (freeWindow (engineFreed s)).ec = s.ec := (unblock_frame _).ec
  rw [deliver_echo (t := engineFreed s) job saturated running, echoResult,
    handleProfile_invalid _ (profileOf_invalid invalid), ec]

/-- Settles O28. -/
theorem doneResultReachesItsRecord : Obligations.DoneResultReachesItsRecord := by
  refine ⟨fun s r node running ended clear => ?_, fun n u => ⟨offerBurst_off n, fun on node room =>
    ⟨_, offerBurst_room n on node room, rfl, naSame u _⟩⟩, fun s r node running ended done => ?_, fun s r node =>
    ⟨fun i start o j b job place slot first => ?_, fun c u i a running ended clamped last job place trigger first => ?_⟩,
    fun s r e node running job ended invalid => ?_, fun ys => ?_, signatureOf_groups⟩
  · have live_ : s.nc.node ≠ .held := by simp [node]
    refine ⟨_, exec_passEnd_done live_ running ended (.inl clear), ?_⟩
    rw [(passClamped_eq_false s r).2 clear]
    refine ⟨fun i start o xs j b job slot place holds first => burstDone_timed node job slot place
        (holder_first place holds first), fun c u i a hA job place trigger unlabelled first good => ?_,
      fun c u i a l hA job place trigger labelled first good => ?_, fun c u i a job place trigger first bad => ?_⟩
    · rw [arrivalDone_good node job place trigger first good unlabelled]
      exact ⟨rfl, by simp [unchangedBut_iff, arrivalFreed, engineFreed]⟩
    · rw [arrivalDone_leg node job place trigger first good labelled]
      rfl
    · rw [arrivalDone_discarded node job place trigger first bad]
      exact ⟨rfl, by simp [unchangedBut_iff, arrivalFreed, engineFreed]⟩
  · have live_ : s.nc.node ≠ .held := by rcases node with node | node <;> simp [node]
    have exec_ := exec_passEnd_done live_ running ended done
    refine ⟨fun i start o job none_ => exec_.trans ?_, fun c u job let_go => exec_.trans ?_,
      fun i start o j b job clashed place slot first => exec_.trans ?_, fun e job clashed => exec_.trans ?_⟩
    · rw [deliver_burst job]
      exact congrArg Host.Outcome.next (burstResult_let_go (s := engineFreed s) none_)
    · rcases eq_or_ne s.nc.node .clashed with clashed | other
      · exact congrArg Host.Outcome.next (deliver_arrival_clashed (t := engineFreed s) job _ clashed)
      · rw [deliver_arrival (t := engineFreed s) job _ other]
        exact congrArg Host.Outcome.next
          (arrivalResult_let_go (s := arrivalFreed s) (let_go.resolve_left other))
    · rw [deliver_burst job]
      exact congrArg Host.Outcome.next
        (burstResult_clashed (s := engineFreed s) (holder_first place slot first) place clashed)
    · exact congrArg Host.Outcome.next
        (deliver_echo_clashed (t := engineFreed s) job _ (by simp [engineFreed, clashed]))
  · rw [deliver_burst job]
    exact burstResult_saturated (holder_first place slot first) place (by simp [node]) rfl
  · have live_ : s.nc.node ≠ .held := by simp [node]
    rw [exec_passEnd_done live_ running ended (.inr last), (passClamped_iff s r).2 clamped]
    exact congrArg Host.Outcome.next (arrivalDone_discarded node job place trigger first rfl)
  · have live_ : s.nc.node ≠ .held := by simp [node]
    have done : ((∀ a ∈ jobAccs s r.job, isClamped r.shift a = false) ∨ 20 ≤ r.shift) ∧
        (passClamped s r = true ∨ mainPeak (passOutputs s r) * 2 ^ r.shift < 2 ^ 18) := by
      rcases invalid with ⟨clear, weak⟩ | ⟨clamped, last⟩
      · exact ⟨.inl clear, .inr weak⟩
      · exact ⟨.inr last, .inl ((passClamped_iff s r).2 clamped)⟩
    obtain ⟨done, invalid⟩ := done
    refine ⟨(exec_passEnd_done live_ running ended done).trans
      (congrArg Host.Outcome.next (echoDone_invalid node job invalid)), ?_⟩
    have freed : UnchangedBut [.nc, .cfe, .ce, .ptu] s (freeWindow (engineFreed s)) :=
      (ceSame s _).trans (freeWindow_same (engineFreed s)) (by simp) (by simp)
    exact freed.trans (ecSame (freeWindow (engineFreed s)) (invalidCounted s.ec)) (by simp) (by simp)
  · refine ⟨fun some_ => ⟨greatestIdx_peak some_, greatestIdx_peak (by simpa using some_)⟩,
      interpolate_interpolates ys, fun start => rfl, fun c => rfl, fun good c => ?_, fun bad c => ?_⟩
    · rw [arrivalTime, (isGood_iff ys).2 good]
      rfl
    · rw [arrivalTime, Bool.eq_false_iff.2 (mt (isGood_iff ys).1 bad)]
      rfl

end Sys2Proof.Machine
end

