-- ==== Sys2Proof/Proofs/Timers.lean ====
section
/-! SUPPORT. The partner's choice after a change of the table, the FIX NOTEs of a removed fix, and the timers that take
entries from the lists and tables. -/

namespace Sys2Proof.Machine

open Sys2Proof

/-! ## The table set (R96, R108, R139) -/

section
variable {table : List (Option Neighbour)} {s : State}

theorem setTable_kept (h : choosePartner s.nc.cfg.position table = s.ptu.partner) :
    setTable table s = s.withPtu { s.ptu with table := table } := if_pos h

theorem setTable_changed (h : choosePartner s.nc.cfg.position table ≠ s.ptu.partner) : setTable table s = { s with
    ptu := { s.ptu with table := table, partner := choosePartner s.nc.cfg.position table }
    pu := { s.pu with notices := [], lastPair := none }
    ec := { s.ec with
      candidates := s.ec.candidates.filter fun c => decide ((c.distance : Int) ≤
        coverageLimit s.nc.cfg ((choosePartner s.nc.cfg.position table).bind (entryOf table))) } } := if_neg h

theorem setTable_ptu (table : List (Option Neighbour)) (s : State) : (setTable table s).ptu =
    { s.ptu with table := table, partner := choosePartner s.nc.cfg.position table } := by
  by_cases h : choosePartner s.nc.cfg.position table = s.ptu.partner
  · rw [setTable_kept h, h]
    rfl
  · rw [setTable_changed h]

theorem setTable_same (table : List (Option Neighbour)) (s : State) : UnchangedBut [.ptu, .pu, .ec] s (setTable table s) := by
  by_cases h : choosePartner s.nc.cfg.position table = s.ptu.partner
  · rw [setTable_kept h]
    exact (ptuSame s _).weaken (by simp)
  · rw [setTable_changed h]
    simp [unchangedBut_iff]

end

/-! ## Notes of a removed fix (R123) -/

theorem unlinkFix_of {p : Nat} {n : Note} {image : Fix} (h : n.content = .fix (some p) image) :
    unlinkFix p n = { n with content := .fix none image } := by
  rw [unlinkFix, h]
  exact if_pos rfl

theorem unlinkFix_other {p : Nat} {n : Note} (h : n.content.standsFor p = false) : unlinkFix p n = n := by
  unfold unlinkFix
  split
  case h_1 q image content =>
    refine if_neg ?_
    rintro rfl
    simp [content, Content.standsFor] at h
  case h_2 => rfl

theorem unlinkFix_standsFor (p : Nat) (n : Note) : (unlinkFix p n).content.standsFor p = false := by
  cases stands : n.content.standsFor p with
  | false => rw [unlinkFix_other stands, stands]
  | true =>
    have content : ∃ image, n.content = .fix (some p) image := by
      unfold Content.standsFor at stands
      split at stands
      case h_1 q image content => exact ⟨image, by rw [content, eq_of_beq stands]⟩
      case h_2 => cases stands
    obtain ⟨image, content⟩ := content
    rw [unlinkFix_of content]
    rfl

/-- No note of the queue stands for a record removed (R123). -/
theorem removed_notes {p : Nat} {queue : List Note} : ∀ n ∈ queue.map (unlinkFix p), n.content.standsFor p = false :=
  List.forall_mem_map.2 fun n _ => unlinkFix_standsFor p n

/-! ## The timers -/

section
variable {s : State} {i : Nat}

theorem pairHoldExpiry_expired {b : Burst} (place : s.iw.bursts[i]? = some b) (over_ : expired s.nc.now b.hold = true) :
    pairHoldExpiry i s = s.withIw { s.iw with bursts := s.iw.bursts.eraseIdx i } := by
  rw [pairHoldExpiry, place]
  exact if_pos over_

theorem arrivalExpiry_expired {a : Arrival} (place : s.ptu.arrivals[i]? = some a)
    (over_ : expired s.nc.now a.expiry = true) :
    arrivalExpiry i s = s.withPtu { s.ptu with arrivals := s.ptu.arrivals.eraseIdx i } := by
  rw [arrivalExpiry, place]
  exact if_pos over_

theorem noticeExpiry_expired {n : Notice} (place : s.pu.notices[i]? = some n)
    (over_ : expired s.nc.now n.expiry = true) :
    noticeExpiry i s = s.withPu { s.pu with notices := s.pu.notices.eraseIdx i } := by
  rw [noticeExpiry, place]
  exact if_pos over_

theorem fixAgeExpiry_expired {f : Fix} (place : s.ft.places[i]? = some (some f))
    (over_ : expired s.nc.now f.age = true) : fixAgeExpiry i s = removeFix i s := by
  rw [fixAgeExpiry, placed_eq_some.2 place]
  exact if_pos over_

theorem silenceExpiry_expired {n : Neighbour} (place : s.ptu.table[i]? = some (some n))
    (over_ : expired s.nc.now n.silence = true) : silenceExpiry i s = setTable (s.ptu.table.set i none) s := by
  rw [silenceExpiry, placed_eq_some.2 place]
  exact if_pos over_

theorem stalenessExpiry_expired {n : Neighbour} (place : s.ptu.table[i]? = some (some n))
    (over_ : expired s.nc.now n.stale = true) :
    stalenessExpiry i s = setTable (s.ptu.table.set i (some n.turnStale)) s := by
  rw [stalenessExpiry, placed_eq_some.2 place]
  exact if_pos over_

end

/-- Settles O30. -/
theorem expiredEntriesLeaveTheirTables : Obligations.ExpiredEntriesLeaveTheirTables := by
  refine ⟨fun s live_ => ⟨fun i b place over_ => ?_, fun i a place over_ => ?_, fun i n place over_ => ?_,
    fun p f place over_ => ?_⟩, fun p n => ⟨fun image => unlinkFix_of, unlinkFix_other⟩,
    fun s p n live_ place => ⟨fun over_ => ?_, fun over_ => ?_⟩, fun table s => ⟨setTable_kept, setTable_changed⟩⟩
  · refine ⟨_, next_live (pairHoldExpiry i) live_, ?_⟩
    rw [pairHoldExpiry_expired place over_]
    exact ⟨rfl, iwSame s _⟩
  · refine ⟨_, next_live (arrivalExpiry i) live_, ?_⟩
    rw [arrivalExpiry_expired place over_]
    exact ⟨rfl, ptuSame s _⟩
  · refine ⟨_, next_live (noticeExpiry i) live_, ?_⟩
    rw [noticeExpiry_expired place over_]
    exact ⟨rfl, puSame s _⟩
  · refine ⟨_, next_live (fixAgeExpiry p) live_, ?_⟩
    rw [fixAgeExpiry_expired place over_]
    exact ⟨rfl, rfl, List.length_map _, removed_notes, (ftSame s _).trans (naSame _ _) (by simp) (by simp)⟩
  · refine ⟨_, (next_live (silenceExpiry p) live_).trans
      (congrArg Host.Outcome.next (silenceExpiry_expired place over_)), rfl, ?_⟩
    have ptu := setTable_ptu (s.ptu.table.set p none) s
    refine ⟨congrArg Ptu.table ptu, ?_, fun changed => ?_, fun kept => ?_, setTable_same _ s⟩
    · rw [ptu]
    · rw [ptu] at changed
      rw [setTable_changed changed]
    · rw [ptu] at kept
      rw [setTable_kept kept]
      exact ⟨rfl, rfl⟩
  · refine ⟨_, n.turnStale, (next_live (stalenessExpiry p) live_).trans
      (congrArg Host.Outcome.next (stalenessExpiry_expired place over_)), rfl, ?_⟩
    have ptu := setTable_ptu (s.ptu.table.set p (some n.turnStale)) s
    refine ⟨congrArg Ptu.table ptu, rfl, fun fresh => if_pos fresh, fun old => if_neg ?_, ?_, setTable_same _ s⟩
    · rcases old with old | old <;> simp [old]
    · rw [ptu]

end Sys2Proof.Machine
end

