-- ==== Sys2Proof/Proofs/Fixes.lean ====
section
/-! SUPPORT. Taking a result, announcing and corroborating fixes (R116 to R126). -/

namespace Sys2Proof.Machine

open Sys2Proof

/-! ## The merge (R118) -/

/-- A quotient rounded to zero lies between 0 and the dividend. -/
theorem tdiv_between (d : Int) (k : Nat) : min d 0 ≤ d.tdiv k ∧ d.tdiv k ≤ max d 0 := by
  rcases le_total 0 d with pos | neg
  · exact ⟨(min_le_right _ _).trans (Int.tdiv_nonneg pos (Int.natCast_nonneg k)),
      (Int.tdiv_le_self k pos).trans (le_max_left _ _)⟩
  · have pos : 0 ≤ -d := Int.neg_nonneg_of_nonpos neg
    have low := Int.tdiv_nonneg pos (Int.natCast_nonneg k)
    have high := Int.tdiv_le_self k pos
    rw [Int.neg_tdiv] at low high
    omega

theorem merge_centre_between (cfg : Cfg) (r : Result) (f : Fix) :
    min f.centre r.x ≤ (f.merge cfg r).centre ∧ (f.merge cfg r).centre ≤ max f.centre r.x := by
  obtain ⟨low, high⟩ := tdiv_between (r.x - f.centre) (f.count + 1)
  simp only [Fix.merge]
  rw [Nat.cast_add, Nat.cast_one] at low high
  omega

/-! ## The places of R117 and R120 -/

theorem canTake_iff {radius : Nat} {r : Result} {f : Fix} : canTake radius r f = true ↔ Fits radius r f := by
  simp only [canTake, Fits, Bool.and_eq_true, beq_iff_eq, decide_eq_true_eq, and_assoc]

/-- How far a result lies from a fix's centre (R117). -/
def gap (r : Result) (f : Fix) : Nat := (r.x - f.centre).natAbs

theorem mergePlace_first {radius : Nat} {r : Result} {places : List (Option Fix)} {p : Nat} {f : Fix}
    (place : places[p]? = some (some f)) (fits : Fits radius r f)
    (first : ∀ (q : Nat) (g : Fix), places[q]? = some (some g) → q ≠ p → Fits radius r g →
      gap r f < gap r g ∨ (gap r f = gap r g ∧ (earlier f.firstSeen g.firstSeen = true ∨
        (earlier g.firstSeen f.firstSeen = false ∧ p < q)))) : mergePlace radius r places = some p := by
  refine bestPlace_dominant place (canTake_iff.2 fits) fun q g hq other ok => ?_
  simp only [Bool.or_eq_false_iff, Bool.or_eq_true, Bool.and_eq_true, Bool.and_eq_false_iff, decide_eq_true_eq,
    decide_eq_false_iff_not, beq_iff_eq, beq_eq_false_iff_ne]
  have rank := first q g hq other (canTake_iff.1 ok)
  unfold gap at rank
  rcases rank with nearer | ⟨same, earlier_ | ⟨not_later, lower⟩⟩
  · exact ⟨⟨by omega, .inl (by omega)⟩, fun _ => .inl nearer⟩
  · exact ⟨⟨by omega, .inr (earlier_asymm _ _ earlier_)⟩, fun _ => .inr ⟨same, earlier_⟩⟩
  · exact ⟨⟨by omega, .inr not_later⟩, fun before => absurd before lower.not_gt⟩

theorem mergePlace_none {radius : Nat} {r : Result} {places : List (Option Fix)}
    (h : ∀ f ∈ occupied places, ¬Fits radius r f) : mergePlace radius r places = none :=
  bestPlace_none.2 fun p f place => Bool.eq_false_iff.2 fun fits =>
    h f (mem_occupied.2 ⟨p, place⟩) (canTake_iff.1 fits)

theorem replacedPlace_first {places : List (Option Fix)} {p : Nat} {f : Fix} (place : places[p]? = some (some f))
    (one : f.count = 1) (first : ∀ (q : Nat) (g : Fix), places[q]? = some (some g) → q ≠ p → g.count = 1 →
      earlier f.lastSeen g.lastSeen = true ∨ (earlier g.lastSeen f.lastSeen = false ∧ p < q)) :
    replacedPlace places = some p := by
  refine bestPlace_dominant place (beq_iff_eq.2 one) fun q g hq other ok => ?_
  rcases first q g hq other (beq_iff_eq.1 ok) with earlier_ | ⟨not_later, lower⟩
  · exact ⟨earlier_asymm _ _ earlier_, fun _ => earlier_⟩
  · exact ⟨not_later, fun before => absurd before lower.not_gt⟩

theorem replacedPlace_none {places : List (Option Fix)} (h : ∀ f ∈ occupied places, f.count ≠ 1) :
    replacedPlace places = none :=
  bestPlace_none.2 fun p f place => beq_eq_false_iff_ne.2 (h f (mem_occupied.2 ⟨p, place⟩))

/-! ## A result taken (R117 to R120) -/

section
variable {s : State} {r : Result} {p : Nat}

theorem takeResult_merges {f : Fix} (place : s.ft.places[p]? = some (some f))
    (best : mergePlace s.nc.cfg.mergeRadius r s.ft.places = some p) :
    takeResult r s = fixTests p (putFix p (f.merge s.nc.cfg r) s) := by
  simp only [takeResult, best, placed_eq_some.2 place]

variable (alone : mergePlace s.nc.cfg.mergeRadius r s.ft.places = none)
include alone

theorem takeResult_makes (empty : emptyPlace s.ft.places = some p) : takeResult r s = makeFix p r s := by
  simp only [takeResult, alone, empty]

theorem takeResult_replaces (full : emptyPlace s.ft.places = none) (replaced : replacedPlace s.ft.places = some p) :
    takeResult r s = makeFix p r (removeFix p s) := by
  simp only [takeResult, alone, full, replaced]

theorem takeResult_discards (full : emptyPlace s.ft.places = none) (none_ : replacedPlace s.ft.places = none) :
    takeResult r s = s.withFt { s.ft with discarded := min (s.ft.discarded + 1) 65535 } := by
  simp only [takeResult, alone, full, none_]
  rfl

end

/-- Settles O34. -/
theorem resultsMergeOrMakeFixes : Obligations.ResultsMergeOrMakeFixes := by
  refine ⟨fun cfg r f low high _ _ => ?_, fun s r => ⟨fun p f place fits first => ?_, fun alone =>
    ⟨fun p empty first => ?_, fun full => ⟨fun p f place one first => ?_, fun none_ => ?_⟩⟩⟩⟩
  · obtain ⟨centreLow, centreHigh⟩ := merge_centre_between cfg r f
    have lowIs : (f.merge cfg r).low = min f.low r.x := rfl
    have highIs : (f.merge cfg r).high = max f.high r.x := rfl
    exact ⟨lowIs, highIs, by omega, by omega, centreLow, centreHigh, rfl, rfl, rfl, rfl, rfl⟩
  · exact takeResult_merges place (mergePlace_first place fits first)
  · exact ⟨_, takeResult_makes (mergePlace_none alone) (emptyPlace_first empty first), rfl, ftSame s _⟩
  · exact ⟨_, takeResult_replaces (mergePlace_none alone) (emptyPlace_none.2 full) (replacedPlace_first place one first),
      rfl, rfl, removed_notes, by simp [unchangedBut_iff, removeFix]⟩
  · exact takeResult_discards (mergePlace_none alone) (emptyPlace_none.2 full) (replacedPlace_none none_)

end Sys2Proof.Machine
end

