-- ==== Sys2Proof/Proofs/Announcing.lean ====
section
/-! SUPPORT. The announce test and the corroboration test of a fix (R122 to R125). -/

namespace Sys2Proof.Machine

open Sys2Proof

/-! ## The announce test (R122) -/

theorem announcePoint_iff (a c : Nat) :
    isAnnouncePoint a c = true ↔ (∃ k, c = a * 2 ^ k ∧ c ≤ 255) ∨ c = 255 := by
  simp only [isAnnouncePoint, Bool.or_eq_true, Bool.and_eq_true, beq_iff_eq, decide_eq_true_eq, List.any_eq_true,
    List.mem_range]
  constructor
  · rintro (most | ⟨small, k, _, point⟩)
    · exact .inr most
    · exact .inl ⟨k, point.symm, small⟩
  · rintro (⟨k, rfl, small⟩ | most)
    · refine .inr ⟨small, ?_⟩
      rcases Nat.eq_zero_or_pos a with rfl | pos
      · exact ⟨0, by omega, by simp⟩
      · refine ⟨k, ?_, rfl⟩
        by_contra large
        have power : 2 ^ 9 ≤ 2 ^ k := Nat.pow_le_pow_right (by omega) (by omega)
        have := Nat.mul_le_mul pos power
        omega
    · exact .inl most

theorem announceDue_iff (a : Nat) (f : Fix) : announceDue a f = true ↔ Announces a f := by
  rw [announceDue, Bool.and_eq_true, announcePoint_iff, Option.all_eq_true]
  simp only [decide_eq_true_eq, Announces]

section
variable {s : State} {p : Nat} {f : Fix} (place : s.ft.places[p]? = some (some f))
include place

theorem announceTest_due (due : Announces s.nc.cfg.announceCount f) : announceTest p s = announce p f s := by
  rw [announceTest, placed_eq_some.2 place]
  exact if_pos ((announceDue_iff _ f).2 due)

theorem announceTest_quiet (quiet : ¬Announces s.nc.cfg.announceCount f) : announceTest p s = s := by
  rw [announceTest, placed_eq_some.2 place]
  exact if_neg (mt (announceDue_iff _ f).1 quiet)

end

/-! ## The record put in its place and its notes (R123) -/

/-- The note stands for the record in place P and may follow it. -/
abbrev Follows (m : Mac) (p : Nat) (n : Note) : Prop := n.content.standsFor p = true ∧ ¬(n.inFlight = true ∧ m = .sending)

theorem follows_iff (m : Mac) (p : Nat) (n : Note) :
    (n.content.standsFor p && !isSending m n) = true ↔ Follows m p n := by
  simp only [isSending, Follows, Bool.and_eq_true, Bool.not_eq_true', ← Bool.not_eq_true, beq_iff_eq]

theorem followFix_eq (m : Mac) (p : Nat) (f : Fix) (n : Note) :
    followFix m p f n = if Follows m p n then { n with content := .fix (some p) f } else n := by
  unfold followFix
  by_cases follows : Follows m p n
  · rw [if_pos ((follows_iff m p n).2 follows), if_pos follows]
  · rw [if_neg (mt (follows_iff m p n).1 follows), if_neg follows]

theorem putFix_eq (p : Nat) (f : Fix) (s : State) : putFix p f s = { s with
    ft := { s.ft with places := s.ft.places.set p (some f) }
    na := { s.na with
      queue := s.na.queue.map fun n =>
        if Follows s.lc.mac p n then { n with content := .fix (some p) f } else n } } := by
  simp only [← followFix_eq]
  rfl

theorem putFix_alone {p : Nat} (f : Fix) {s : State} (alone : ∀ n ∈ s.na.queue, ¬Follows s.lc.mac p n) :
    putFix p f s = s.withFt { s.ft with places := s.ft.places.set p (some f) } := by
  have same : s.na.queue.map (followFix s.lc.mac p f) = s.na.queue := by
    refine (List.map_congr_left fun n hn => ?_).trans (List.map_id _)
    rw [followFix_eq, if_neg (alone n hn), id]
  rw [putFix, same]
  rfl

theorem waits_iff (m : Mac) (p : Nat) (queue : List Note) :
    (queue.any fun n => n.content.standsFor p && !isSending m n) = true ↔ ∃ n ∈ queue, Follows m p n := by
  simp only [List.any_eq_true, follows_iff]

/-- The announce event of a fix one of whose notes waits, or that announces nothing (R123). -/
theorem announce_silent {s : State} {p : Nat} {f : Fix}
    (h : s.nc.cfg.levelFix = 0 ∨ ∃ n ∈ s.na.queue, Follows s.lc.mac p n) :
    announce p f s = putFix p { f with announced := some f.count } s := by
  rw [announce]
  by_cases level : s.nc.cfg.levelFix = 0
  · exact if_pos level
  · exact (if_neg level).trans (if_pos ((waits_iff s.lc.mac p s.na.queue).2 (h.resolve_left level)))

theorem announce_offers {s : State} {p : Nat} {f : Fix} (level : s.nc.cfg.levelFix ≠ 0)
    (alone : ∀ n ∈ s.na.queue, ¬Follows s.lc.mac p n) : announce p f s =
      offer (.fix (some p) { f with announced := some f.count }) s.nc.cfg.levelFix none
        (s.withFt { s.ft with places := s.ft.places.set p (some { f with announced := some f.count }) }) := by
  have none_ : ¬∃ n ∈ s.na.queue, Follows s.lc.mac p n := fun ⟨n, mem, follows⟩ => alone n mem follows
  rw [announce, putFix_alone _ alone]
  exact (if_neg level).trans (if_neg (mt (waits_iff s.lc.mac p s.na.queue).1 none_))

/-! ## Corroboration (R124) -/

theorem qualifies_iff (radius : Nat) (f : Fix) (g : Finding) :
    qualifies radius f g = true ↔ Corroborates radius f g := by
  have kind : g.kind ≠ .gone ↔ g.kind = .new ∨ g.kind = .grown := by cases g.kind <;> simp
  simp only [qualifies, Corroborates, Bool.and_eq_true, bne_iff_ne, decide_eq_true_eq, kind, and_assoc]

theorem corroborator_first {radius : Nat} {f : Fix} {gs : List Finding} {i : Nat} {g : Finding} (place : gs[i]? = some g)
    (ok : Corroborates radius f g)
    (first : ∀ (j : Nat) (h : Finding), gs[j]? = some h → j ≠ i → Corroborates radius f h →
      offCentre f g < offCentre f h ∨ (offCentre f g = offCentre f h ∧ (earlier g.confirmed h.confirmed = true ∨
        (earlier h.confirmed g.confirmed = false ∧ i < j)))) : corroborator radius f gs = some g := by
  have best : bestIdx (fun g h => decide (offCentre f g < offCentre f h) ||
      (offCentre f g == offCentre f h && earlier g.confirmed h.confirmed)) (qualifies radius f) gs = some i := by
    refine bestIdx_dominant place ((qualifies_iff radius f g).2 ok) fun j h hj okj other => ?_
    simp only [Bool.or_eq_false_iff, Bool.or_eq_true, Bool.and_eq_true, Bool.and_eq_false_iff, decide_eq_true_eq,
      decide_eq_false_iff_not, beq_iff_eq, beq_eq_false_iff_ne]
    rcases first j h hj other ((qualifies_iff radius f h).1 okj) with nearer | ⟨same, sooner | ⟨not_sooner, before⟩⟩
    · exact ⟨⟨by omega, .inl (by omega)⟩, fun _ => .inl nearer⟩
    · exact ⟨⟨by omega, .inr (earlier_asymm _ _ sooner)⟩, fun _ => .inr ⟨same, sooner⟩⟩
    · exact ⟨⟨by omega, .inr not_sooner⟩, fun j_first => absurd j_first before.not_gt⟩
  rw [corroborator, best, Option.bind_some, place]

theorem corroborator_none {radius : Nat} {f : Fix} {gs : List Finding} (h : ∀ g ∈ gs, ¬Corroborates radius f g) :
    corroborator radius f gs = none := by
  rw [corroborator, bestIdx_none.2 fun g hg => Bool.eq_false_iff.2 (mt (qualifies_iff radius f g).1 (h g hg))]
  rfl

section
variable {s : State} {p : Nat} {f : Fix} (place : s.ft.places[p]? = some (some f))
include place

theorem corroborate_outside (outside : f.kind ≠ .inside) : corroborate p s = s := by
  simp only [corroborate, placed_eq_some.2 place, outside, if_false]

theorem corroborate_none (h : ∀ g ∈ s.ec.findings, ¬Corroborates s.nc.cfg.mergeRadius f g) : corroborate p s = s := by
  simp only [corroborate, placed_eq_some.2 place, corroborator_none h, ite_self]

variable {g : Finding} (inside : f.kind = .inside)
  (chosen : corroborator s.nc.cfg.mergeRadius f s.ec.findings = some g)
include inside chosen

theorem corroborate_first (fresh : f.corroboration = none) : corroborate p s =
    announce p { f with corroboration := some ⟨g.number, g.kind, g.position⟩ }
      (putFix p { f with corroboration := some ⟨g.number, g.kind, g.position⟩ } s) := by
  simp only [corroborate, placed_eq_some.2 place, inside, if_true, chosen, fresh]
  rfl

theorem corroborate_again (held : f.corroboration ≠ none) : corroborate p s =
    putFix p { f with corroboration := some ⟨g.number, g.kind, g.position⟩ } s := by
  obtain ⟨c, held⟩ := Option.ne_none_iff_exists'.1 held
  simp only [corroborate, placed_eq_some.2 place, inside, if_true, chosen, held]
  rfl

end

/-- Settles O33. -/
theorem fixesAreAnnouncedAndCorroborated : Obligations.FixesAreAnnouncedAndCorroborated := by
  refine ⟨fun s p f => putFix_eq p f s, fun s p f place => ⟨rfl, announceTest_due place, announceTest_quiet place⟩,
    fun s p f => ⟨announce_silent, fun level alone running room => ?_⟩, fun s p f place =>
    ⟨fun none_ => ?_, fun inside i g chosen ok first => ?_⟩, fun s => rfl⟩
  · have no_follower : ∀ n ∈ s.na.queue, ¬Follows s.lc.mac p n := fun n mem ⟨stands, free⟩ => free (alone n mem stands)
    refine ⟨_, (announce_offers level no_follower).trans (offer_room _ _ _ (isRunning_iff.2 running) room), rfl, rfl,
      by simp [unchangedBut_iff]⟩
  · exact none_.elim (corroborate_outside place) (corroborate_none place)
  · have best := corroborator_first chosen ok first
    exact ⟨corroborate_first place inside best, corroborate_again place inside best⟩

end Sys2Proof.Machine
end

