-- ==== Sys2Proof/Proofs/Nearest.lean ====
section
/-! SUPPORT. The member nearest a distance (R131, R133, R135, R136), and marks and candidates kept in order. -/

namespace Sys2Proof.Machine

open Sys2Proof

/-! ## The nearest member -/

section
variable {α : Type} {distance : α → Nat} {d : Nat} {ok : α → Prop} {test : α → Bool} {xs : List α}

theorem nearest_bestIdx (tests : ∀ x, test x = true ↔ ok x) {i : Nat} {x : α} (h : Nearest distance d ok xs i x) :
    bestIdx (fun x y => decide (apart (distance x) d < apart (distance y) d) ||
      (apart (distance x) d == apart (distance y) d && decide (distance x < distance y))) test xs = some i := by
  obtain ⟨place, meets, nearest⟩ := h
  refine bestIdx_dominant place ((tests x).2 meets) fun j y hj okj other => ?_
  have rank := nearest j y hj other ((tests y).1 okj)
  simp only [Bool.or_eq_false_iff, Bool.or_eq_true, Bool.and_eq_true, Bool.and_eq_false_iff, decide_eq_true_eq,
    decide_eq_false_iff_not, beq_iff_eq, beq_eq_false_iff_ne]
  exact ⟨by omega, fun _ => rank⟩

theorem none_bestIdx (tests : ∀ x, test x = true ↔ ok x) {better : α → α → Bool} (h : ∀ x ∈ xs, ¬ok x) :
    bestIdx better test xs = none :=
  bestIdx_none.2 fun x hx => Bool.eq_false_iff.2 (mt (tests x).1 (h x hx))

end

theorem nearestMark_nearest {reach d i : Nat} {b : List Mark} {m : Mark}
    (h : Nearest (·.distance) d (fun x => apart x.distance d ≤ reach) b i m) :
    nearestMark reach d (fun _ => true) b = some i :=
  nearest_bestIdx (fun x => by simp) h

theorem nearestMark_none {reach d : Nat} {b : List Mark} (h : ∀ x ∈ b, reach < apart x.distance d) :
    nearestMark reach d (fun _ => true) b = none :=
  none_bestIdx (ok := fun x => apart x.distance d ≤ reach) (fun x => by simp) fun x hx => not_le.2 (h x hx)

/-! ## A mark inserted in distance order -/

theorem insertMark_perm (m : Mark) (b : List Mark) : (insertMark m b).Perm (m :: b) := by
  induction b with
  | nil => exact .refl _
  | cons x xs ih =>
    rw [insertMark]
    split
    · exact (ih.cons x).trans (.swap m x xs)
    · exact .refl _

theorem insertMark_pairwise {m : Mark} {b : List Mark} (apart_ : ∀ x ∈ b, x.distance ≠ m.distance)
    (sorted : b.Pairwise fun x y => x.distance < y.distance) :
    (insertMark m b).Pairwise fun x y => x.distance < y.distance := by
  induction sorted with
  | nil => exact List.pairwise_singleton _ _
  | @cons x xs before sorted ih =>
    rw [List.forall_mem_cons] at apart_
    obtain ⟨first, rest⟩ := apart_
    rw [insertMark]
    split
    case isTrue nearer =>
      refine .cons (fun y hy => ?_) (ih rest)
      rcases List.mem_cons.1 ((insertMark_perm m xs).mem_iff.1 hy) with rfl | old
      · exact nearer
      · exact before y old
    case isFalse farther =>
      refine .cons (fun y hy => ?_) (.cons before sorted)
      rcases List.mem_cons.1 hy with rfl | old
      · omega
      · have := before y old
        omega

/-- Marks out of reach of a distance lie at other distances. -/
theorem distance_ne_of_reach {reach d : Nat} {b : List Mark} (h : ∀ x ∈ b, reach < apart x.distance d) :
    ∀ x ∈ b, x.distance ≠ d := by
  intro x hx same
  have := h x hx
  simp [apart, same] at this

/-! ## Candidates in order (R134, R136) -/

/-- Candidate A does not come after candidate B. -/
def Ordered (a b : Candidate) : Prop :=
  a.distance < b.distance ∨ (a.distance = b.distance ∧ a.kind.rank ≤ b.kind.rank)

theorem notAfter_iff (a b : Candidate) : a.notAfter b = true ↔ Ordered a b := by
  simp [Candidate.notAfter, Ordered]

theorem Ordered.trans {a b c : Candidate} (h : Ordered a b) (k : Ordered b c) : Ordered a c := by
  unfold Ordered at *
  omega

theorem Ordered.of_not {a b : Candidate} (h : ¬Ordered a b) : Ordered b a := by
  unfold Ordered at *
  omega

theorem insertCandidate_perm (c : Candidate) (xs : List Candidate) : (insertCandidate c xs).Perm (c :: xs) := by
  induction xs with
  | nil => exact .refl _
  | cons x xs ih =>
    rw [insertCandidate]
    split
    · exact (ih.cons x).trans (.swap c x xs)
    · exact .refl _

theorem insertCandidate_pairwise {c : Candidate} {xs : List Candidate} (sorted : xs.Pairwise Ordered) :
    (insertCandidate c xs).Pairwise Ordered := by
  induction sorted with
  | nil => exact List.pairwise_singleton _ _
  | @cons x xs before sorted ih =>
    rw [insertCandidate]
    split
    case isTrue first =>
      refine .cons (fun y hy => ?_) ih
      rcases List.mem_cons.1 ((insertCandidate_perm c xs).mem_iff.1 hy) with rfl | old
      · exact (notAfter_iff x y).1 first
      · exact before y old
    case isFalse after =>
      have sooner : Ordered c x := .of_not (mt (notAfter_iff x c).2 after)
      refine .cons (fun y hy => ?_) (.cons before sorted)
      rcases List.mem_cons.1 hy with rfl | old
      · exact sooner
      · exact sooner.trans (before y old)

theorem foldl_insertCandidate_perm (cs acc : List Candidate) :
    (cs.foldl (fun acc c => insertCandidate c acc) acc).Perm (cs ++ acc) := by
  induction cs generalizing acc with
  | nil => exact .refl _
  | cons c cs ih => exact (ih _).trans (((insertCandidate_perm c acc).append_left cs).trans List.perm_middle)

theorem foldl_insertCandidate_pairwise (cs acc : List Candidate) (sorted : acc.Pairwise Ordered) :
    (cs.foldl (fun acc c => insertCandidate c acc) acc).Pairwise Ordered := by
  induction cs generalizing acc with
  | nil => exact sorted
  | cons c cs ih => exact ih _ (insertCandidate_pairwise sorted)

theorem sortCandidates_perm (cs : List Candidate) : (sortCandidates cs).Perm cs := by
  have := foldl_insertCandidate_perm cs []
  rwa [List.append_nil] at this

theorem sortCandidates_pairwise (cs : List Candidate) : (sortCandidates cs).Pairwise Ordered :=
  foldl_insertCandidate_pairwise cs [] .nil

end Sys2Proof.Machine
end

