-- ==== Sys2Proof/Proofs/Profiles.lean ====
section
/-! SUPPORT. Profiles: their marks, their classes, the learning of a baseline, and a REBASE (R70 to R72, R130, R131, R140). -/

namespace Sys2Proof.Machine

open Sys2Proof

/-! ## Learning (R131) -/

section
variable {reach : Nat} {e : Ec} {m : Mark}

theorem learnMark_merges {i : Nat} {b : Mark}
    (h : Nearest (·.distance) m.distance (fun x => apart x.distance m.distance ≤ reach) e.baseline i b) :
    learnMark reach e m = { e with baseline := e.baseline.set i { b with
      q := max b.q m.q, positive := if b.q < m.q then m.positive else b.positive } } := by
  have merged : b.learn m =
      { b with q := max b.q m.q, positive := if b.q < m.q then m.positive else b.positive } := by
    unfold Mark.learn
    split
    case isTrue less => rw [max_eq_right less.le]
    case isFalse least => rw [max_eq_left (not_lt.1 least)]
  rw [learnMark, nearestMark_nearest h]
  simp only [modify_eq_set _ _ _ _ h.1, merged]

theorem learnMark_inserts (out : ∀ b ∈ e.baseline, reach < apart b.distance m.distance) (room : e.baseline.length < 24) :
    learnMark reach e m = { e with baseline := insertMark m e.baseline } := by
  rw [learnMark, nearestMark_none out]
  exact if_pos room

theorem learnMark_drops (out : ∀ b ∈ e.baseline, reach < apart b.distance m.distance) (full : 24 ≤ e.baseline.length) :
    learnMark reach e m = { e with dropped := min (e.dropped + 1) 65535 } := by
  rw [learnMark, nearestMark_none out]
  exact if_neg (not_lt.2 full)

end

/-- Learning touches the baseline and the count of dropped marks alone. -/
theorem foldl_learnMark_others (reach : Nat) (ms : List Mark) (e : Ec) : ∃ b d,
    ms.foldl (learnMark reach) e = { e with baseline := b, dropped := d } := by
  induction ms generalizing e with
  | nil => exact ⟨_, _, rfl⟩
  | cons m ms ih =>
    have one : ∃ b d, learnMark reach e m = { e with baseline := b, dropped := d } := by
      unfold learnMark
      split
      · exact ⟨_, _, rfl⟩
      · split <;> exact ⟨_, _, rfl⟩
    obtain ⟨b, d, one⟩ := one
    obtain ⟨b', d', rest⟩ := ih (learnMark reach e m)
    exact ⟨b', d', by rw [List.foldl_cons, rest, one]⟩

theorem dropWeakest_first {ms : List Mark} {i : Nat} {m : Mark} (place : ms[i]? = some m)
    (first : ∀ j x, ms[j]? = some x → j ≠ i → m.q < x.q ∨ (m.q = x.q ∧ x.distance < m.distance)) :
    dropWeakest ms = ms.eraseIdx i := by
  have best : bestIdx (fun a b : Mark => decide (a.q < b.q) || (a.q == b.q && decide (b.distance < a.distance)))
      (fun _ => true) ms = some i := by
    refine bestIdx_dominant place rfl fun j x hj _ other => ?_
    have rank := first j x hj other
    simp only [Bool.or_eq_false_iff, Bool.or_eq_true, Bool.and_eq_true, Bool.and_eq_false_iff, decide_eq_true_eq,
      decide_eq_false_iff_not, beq_iff_eq, beq_eq_false_iff_ne]
    exact ⟨by omega, fun _ => rank⟩
  rw [dropWeakest, best]

/-! ## REBASE (R140, R126) -/

theorem followTable_eq (m : Mac) (places : List (Option Fix)) : followTable m places = fun n =>
    if n.inFlight = true ∧ m = .sending then n else { n with content := refreshed places n.content } := by
  funext n
  simp only [followTable, isSending, Bool.and_eq_true, beq_iff_eq]

theorem takeRebase_eq (s : State) : takeRebase s = { s with
    ec := { s.ec with baseline := [], candidates := [], findings := [], learned := 0, watching := false, rebase := false }
    ft := { s.ft with places := s.ft.places.map (Option.map Fix.bare) }
    na := { s.na with
      queue := s.na.queue.map (followTable s.lc.mac (s.ft.places.map (Option.map Fix.bare))) } } := rfl

theorem takeRebase_same (s : State) : UnchangedBut [.ft, .ec, .na] s (takeRebase s) := by
  rw [takeRebase_eq]
  simp [unchangedBut_iff]

/-! ## Marks (R70 to R72) -/

theorem mainPeak_greatest {ys : List Int} (h : 4 ≤ ys.length) : Greatest ((ys.take 4).map Int.natAbs) (mainPeak ys) := by
  refine greatest_spec ?_
  rw [Ne, ← List.length_eq_zero_iff, List.length_map, List.length_take]
  omega

theorem isMark_iff (floor : Nat) (ys : List Int) (k : Nat) :
    isMark floor ys k = true ↔ MarkAt floor (mainPeak ys) ys k := by
  simp only [isMark, Bool.and_eq_true, decide_eq_true_eq, and_assoc]
  exact Iff.rfl

theorem mark_inside {floor m0 : Nat} {ys : List Int} {k : Nat} (h : MarkAt floor m0 ys k) : k < ys.length := by
  obtain ⟨_, _, _, falls, _⟩ := h
  by_contra outside
  change (ys.getD (k + 1) 0).natAbs < (ys.getD k 0).natAbs at falls
  rw [List.getD_eq_default ys 0 (not_lt.1 outside)] at falls
  simp at falls

theorem interpolate_bound (ys : List Int) (k : Nat) : -2 ≤ interpolate ys k ∧ interpolate ys k ≤ 2 := by
  unfold interpolate
  dsimp only
  split
  · decide
  · exact clampInt_range _ (-2) 2 (by decide)

theorem conv_mono (vf : Nat) {a b : Int} (pos : 0 ≤ a) (le : a ≤ b) : conv vf a ≤ conv vf b := by
  have clamps : clampInt a (-(2 ^ 31 - 1)) (2 ^ 31 - 1) ≤ clampInt b (-(2 ^ 31 - 1)) (2 ^ 31 - 1) := by
    rw [clampInt_eq_max_min (by decide), clampInt_eq_max_min (by decide)]
    omega
  have start : 0 ≤ clampInt a (-(2 ^ 31 - 1)) (2 ^ 31 - 1) := clampInt_nonneg (by decide) pos
  have scaled := mul_le_mul_of_nonneg_right (mul_le_mul_of_nonneg_right clamps (Int.natCast_nonneg vf))
    (show (0 : Int) ≤ 37474 by decide)
  unfold conv
  rw [roundHalfAway_of_nonneg (by positivity) (by decide), roundHalfAway_of_nonneg ?_ (by decide)]
  · exact Int.ediv_le_ediv (by decide) (by omega)
  · exact le_trans (by positivity) scaled

/-- A later lag lies no nearer: the interpolation moves a lag by half of the step between lags at most (R65). -/
theorem lagTicks_le (ys : List Int) {j k : Nat} (h : j < k) : lagTicks ys j ≤ lagTicks ys k := by
  have := interpolate_bound ys j
  have := interpolate_bound ys k
  unfold lagTicks
  omega

theorem markAt_distance_le (vf : Nat) (ys : List Int) {j k : Nat} (first : 1 ≤ j) (h : j < k) :
    (markAt vf ys j).distance ≤ (markAt vf ys k).distance := by
  have start : 0 ≤ lagTicks ys j := by
    have := interpolate_bound ys j
    unfold lagTicks
    omega
  have le := conv_mono vf start (lagTicks_le ys h)
  exact Int.toNat_le_toNat (Int.ediv_le_ediv (by decide) le)

/-- The lags of the marks, in order. -/
def markLags (cfg : Cfg) (ys : List Int) : List Nat := (List.range ys.length).filter (isMark cfg.echoFloor ys)

theorem markLags_pairwise (cfg : Cfg) (ys : List Int) : (markLags cfg ys).Pairwise (· < ·) :=
  List.pairwise_lt_range.filter _

theorem mem_markLags (cfg : Cfg) (ys : List Int) (k : Nat) :
    k ∈ markLags cfg ys ↔ MarkAt cfg.echoFloor (mainPeak ys) ys k := by
  rw [markLags, List.mem_filter, List.mem_range, isMark_iff]
  exact and_iff_right_of_imp mark_inside

theorem allMarks_pairwise (cfg : Cfg) (ys : List Int) :
    (allMarks cfg ys).Pairwise fun a b => a.distance ≤ b.distance := by
  refine List.pairwise_map.2 ((markLags_pairwise cfg ys).imp_of_mem fun {j k} hj _ before => ?_)
  obtain ⟨far, _⟩ := (mem_markLags cfg ys j).1 hj
  exact markAt_distance_le cfg.vf ys (by omega) before

/-! ## The classes of a profile (R130) -/

/-- The marks of a profile and the marks of it that the profile keeps (R72). -/
def keptMarks (found : List Mark) : List Mark := dropMarks (found.length - 32) found

/-- The profile of an ECHO job with the marks found (R70 to R72). -/
def validProfile (s : State) (r : Running) (e : Time) : Profile :=
  ⟨e, r.shift, false, mainPeak (passOutputs s r), true,
    (allMarks s.nc.cfg (passOutputs s r)).any fun m => decide (128 ≤ m.q), keptMarks (allMarks s.nc.cfg (passOutputs s r))⟩

theorem echoResult_valid {s : State} {r : Running} (e : Time)
    (strong : 2 ^ 18 ≤ mainPeak (passOutputs s r) * 2 ^ r.shift) : echoResult s r false e = validProfile s r e := by
  have valid : ¬((false || decide (mainPeak (passOutputs s r) * 2 ^ r.shift < 2 ^ 18)) = true) := by
    simpa using strong
  rw [echoResult, profileOf]
  exact if_neg valid

theorem validProfile_collided (s : State) (r : Running) (e : Time) :
    (validProfile s r e).collided = true ↔ ∃ m ∈ allMarks s.nc.cfg (passOutputs s r), 128 ≤ m.q := by
  simp only [validProfile, List.any_eq_true, decide_eq_true_eq]

theorem validProfile_clean {s : State} {r : Running} (e : Time)
    (clean : ∀ m ∈ allMarks s.nc.cfg (passOutputs s r), m.q < 128) : (validProfile s r e).collided = false := by
  rw [Bool.eq_false_iff, Ne, validProfile_collided]
  rintro ⟨m, mem, strong⟩
  exact absurd (clean m mem) (not_lt.2 strong)

section
variable {p : Profile} (valid : p.valid = true)
include valid

theorem classifyProfile_collided (s : State) (collided : p.collided = true) : classifyProfile p s =
    s.withEc { s.ec with collided := min (s.ec.collided + 1) 65535 } := by
  simp [classifyProfile, valid, collided, bump_eq]

theorem classifyProfile_learning {s : State} (clean : p.collided = false) (learning : s.ec.watching = false) :
    classifyProfile p s =
      s.withEc (learnProfile s.nc.cfg p.marks { s.ec with invalidStreak := 0, weak := false }) := by
  simp [classifyProfile, valid, clean, learning]

theorem classifyProfile_watching {s : State} (clean : p.collided = false) (watching : s.ec.watching = true) :
    classifyProfile p s = compareProfile p.marks (s.withEc { s.ec with invalidStreak := 0, weak := false }) := by
  simp [classifyProfile, valid, clean, watching]

end

/-- What a profile laid into the baseline leaves of EC (R131). -/
theorem learnProfile_eq (cfg : Cfg) (ms : List Mark) (e : Ec) : learnProfile cfg ms e =
    { ms.foldl (learnMark cfg.markMatch) e with
      learned := e.learned + 1, watching := decide (cfg.baseRuns ≤ e.learned + 1) } := by
  obtain ⟨b, d, others⟩ := foldl_learnMark_others cfg.markMatch ms e
  rw [learnProfile, others]

/-! ## What a confirmation keeps (R136) -/

theorem confirmBaseline_others (reach : Nat) (c : Candidate) (e : Ec) : (confirmBaseline reach c e).1 =
    { e with baseline := (confirmBaseline reach c e).1.baseline, dropped := (confirmBaseline reach c e).1.dropped } := by
  unfold confirmBaseline
  dsimp only
  repeat' split
  all_goals rfl

/-- The finding of a confirmation (R136, R137). -/
def confirmedFinding (s : State) (c : Candidate) : Finding :=
  findingOf s.nc.cfg s.nc.now s.ec.nextFinding c (confirmBaseline s.nc.cfg.markMatch c s.ec).2

/-- EC after a confirmation, before its finding is handed on (R136, R137). -/
def confirmedEc (s : State) (c : Candidate) : Ec := { s.ec with
  baseline := (confirmBaseline s.nc.cfg.markMatch c s.ec).1.baseline
  dropped := (confirmBaseline s.nc.cfg.markMatch c s.ec).1.dropped
  candidates := s.ec.candidates.erase c
  findings := keepNewest 8 (s.ec.findings ++ [confirmedFinding s c]), nextFinding := s.ec.nextFinding + 1 }

theorem confirm_eq (s : State) (c : Candidate) :
    confirm s c = handFinding (confirmedFinding s c) (s.withEc (confirmedEc s c)) := by
  unfold confirm confirmedEc confirmedFinding
  dsimp only
  rw [confirmBaseline_others]
  rfl

theorem confirm_rebase (s : State) (c : Candidate) : (confirm s c).ec.rebase = s.ec.rebase := by
  rw [confirm_eq, (handFinding_same (confirmedFinding s c) (s.withEc (confirmedEc s c))).1 .ec (by simp)]
  rfl

theorem foldl_confirm_rebase (cs : List Candidate) (s : State) : (cs.foldl confirm s).ec.rebase = s.ec.rebase := by
  induction cs generalizing s with
  | nil => rfl
  | cons c cs ih => rw [List.foldl_cons, ih, confirm_rebase]

/-- Of a REBASE that waits, no profile of any class takes notice (R130). -/
theorem classifyProfile_rebase (p : Profile) (s : State) : (classifyProfile p s).ec.rebase = s.ec.rebase := by
  unfold classifyProfile
  split
  · rfl
  · split
    · rfl
    · dsimp only
      split
      · exact foldl_confirm_rebase _ _
      · rw [learnProfile_eq]
        obtain ⟨b, d, others⟩ := foldl_learnMark_others s.nc.cfg.markMatch p.marks { s.ec with invalidStreak := 0, weak := false }
        rw [State.withEc_ec, others]

theorem handleProfile_eq (p : Profile) (s : State) : handleProfile p s =
    if s.ec.rebase = true then takeRebase (classifyProfile p s) else classifyProfile p s := by
  rw [handleProfile, ← classifyProfile_rebase p s]

/-! ## The DONE of an ECHO job whose profile is valid -/

/-- The state in which EC takes a profile: the engine has gone on and the window is free (R80). -/
def profileState (s : State) : State := freeWindow (engineFreed s)

theorem profileState_ec (s : State) : (profileState s).ec = s.ec := (unblock_frame _).ec

theorem profileState_cfg (s : State) : (profileState s).nc.cfg = s.nc.cfg := (unblock_frame _).cfg

theorem profileState_same (s : State) : UnchangedBut [.nc, .cfe, .ce, .ptu] s (profileState s) :=
  (ceSame s _).trans (freeWindow_same (engineFreed s)) (by simp) (by simp)

theorem exec_echo_valid {s : State} {r : Running} {e : Time} (node : s.nc.node = .running) (running : s.ce.running = some r)
    (job : r.job = .echo e) (ended : reached s.nc.now r.endsAt = true)
    (clear : ∀ a ∈ jobAccs s r.job, isClamped r.shift a = false)
    (strong : 2 ^ 18 ≤ mainPeak (passOutputs s r) * 2 ^ r.shift) : exec .passEnd s = .next (if s.ec.rebase = true
      then takeRebase (classifyProfile (validProfile s r e) (profileState s))
      else classifyProfile (validProfile s r e) (profileState s)) := by
  have live_ : s.nc.node ≠ .held := by simp [node]
  rw [exec_passEnd_done live_ running ended (.inl clear), (passClamped_eq_false s r).2 clear,
    deliver_echo (t := engineFreed s) job false node, echoResult_valid e strong, handleProfile_eq]
  have ec := profileState_ec s
  rw [profileState] at ec
  rw [ec]
  rfl

/-- Settles O20. -/
theorem echoProfilesAreLearnedOrCounted : Obligations.EchoProfilesAreLearnedOrCounted := by
  refine ⟨fun s r e node running job ended clear strong => ?_, fun reach e m => ⟨fun i b => learnMark_merges, fun out =>
    ⟨fun room => ⟨_, learnMark_inserts out room, insertMark_perm m _, insertMark_pairwise (distance_ne_of_reach out)⟩,
      learnMark_drops out⟩⟩, fun n ms => ⟨rfl, rfl, fun i m => dropWeakest_first⟩, fun s => ⟨_, rfl, rfl, rfl, ?_,
    takeRebase_same s⟩, fun ys => mainPeak_greatest, fun cfg ys => ⟨markLags cfg ys, markLags_pairwise cfg ys,
    mem_markLags cfg ys, rfl, allMarks_pairwise cfg ys⟩⟩
  · have learned : s.ec.watching = false → (validProfile s r e).collided = false →
        classifyProfile (validProfile s r e) (profileState s) = (profileState s).withEc (learnProfile s.nc.cfg
          (keptMarks (allMarks s.nc.cfg (passOutputs s r))) { s.ec with invalidStreak := 0, weak := false }) := by
      intro learning clean
      rw [classifyProfile_learning (s := profileState s) rfl clean (by rw [profileState_ec, learning]), profileState_ec,
        profileState_cfg]
      rfl
    have collided : (∃ m ∈ allMarks s.nc.cfg (passOutputs s r), 128 ≤ m.q) →
        classifyProfile (validProfile s r e) (profileState s) =
          (profileState s).withEc { s.ec with collided := min (s.ec.collided + 1) 65535 } := by
      intro strongest
      rw [classifyProfile_collided rfl _ ((validProfile_collided s r e).2 strongest), profileState_ec]
    refine ⟨_, exec_echo_valid node running job ended clear strong, fun class_ => ?_, fun strongest => ?_,
      fun clean learning => ?_⟩
    · by_cases strongest : ∃ m ∈ allMarks s.nc.cfg (passOutputs s r), 128 ≤ m.q
      · rw [collided strongest]
        rfl
      · rw [learned (class_.resolve_right strongest) (Bool.eq_false_iff.2 (mt (validProfile_collided s r e).1 strongest))]
        rfl
    · rw [collided strongest]
      exact ⟨rfl, (profileState_same s).trans (ecSame _ _) (by simp) (by simp)⟩
    · rw [learned learning (validProfile_clean e clean), learnProfile_eq]
      exact ⟨_, rfl, rfl, (profileState_same s).trans (ecSame _ _) (by simp) (by simp)⟩
  · rw [takeRebase_eq]
    simp only [followTable_eq]

end Sys2Proof.Machine
end

