-- ==== Sys2Proof/Proofs/Watching.lean ====
section
/-! SUPPORT. Profiles in WATCHING: matching, conditions, candidates, confirmations and findings (R133 to R138). -/

namespace Sys2Proof.Machine

open Sys2Proof

/-! ## Matching (R133) -/

theorem matchMark_takes {reach : Nat} {b : List Taken} {m : Mark} {i : Nat} {x : Taken} (un : List Mark)
    (h : Nearest (·.1.distance) m.distance (fun y => apart y.1.distance m.distance ≤ reach ∧ y.2 = none) b i x) :
    matchMark reach (b, un) m = (b.set i (x.1, some m), un) := by
  have taken : takenBy reach b m = some i := nearest_bestIdx (fun y => by simp) h
  simp only [matchMark, taken, modify_eq_set _ _ _ _ h.1]

theorem matchMark_unmatched {reach : Nat} {b : List Taken} {m : Mark} (un : List Mark)
    (h : ∀ y ∈ b, apart y.1.distance m.distance ≤ reach → y.2 ≠ none) : matchMark reach (b, un) m = (b, un ++ [m]) := by
  have untaken : takenBy reach b m = none :=
    none_bestIdx (ok := fun y : Taken => apart y.1.distance m.distance ≤ reach ∧ y.2 = none) (fun y => by simp)
      fun y hy ⟨near, free⟩ => h y hy near free
  simp only [matchMark, untaken]

/-! ## Conditions (R134) -/

theorem baselineCondition_eq_some {grow : Nat} {x : Taken} {c : Candidate} : baselineCondition grow x = some c ↔
    (x.2 = none ∧ c = ⟨.gone, x.1.distance, 1, 0, false, x.1.q⟩) ∨
    ∃ m, x.2 = some m ∧ (x.1.q + grow ≤ m.q ∨ m.positive ≠ x.1.positive) ∧
      c = ⟨.grown, x.1.distance, 1, m.q, m.positive, x.1.q⟩ := by
  obtain ⟨b, _ | m⟩ := x
  · simp [baselineCondition, eq_comm]
  · simp [baselineCondition, eq_comm]

theorem mem_conditions {cfg : Cfg} {limit : Int} {baseline marks : List Mark} {c : Candidate} :
    c ∈ conditions cfg limit baseline marks ↔ (c.distance : Int) ≤ limit ∧
      ((∃ m ∈ (matchProfile cfg.markMatch baseline marks).2, c = ⟨.new, m.distance, 1, m.q, m.positive, 0⟩) ∨
        (∃ b, (b, none) ∈ (matchProfile cfg.markMatch baseline marks).1 ∧ c = ⟨.gone, b.distance, 1, 0, false, b.q⟩) ∨
        ∃ b m, (b, some m) ∈ (matchProfile cfg.markMatch baseline marks).1 ∧
          (b.q + cfg.growStep ≤ m.q ∨ m.positive ≠ b.positive) ∧
          c = ⟨.grown, b.distance, 1, m.q, m.positive, b.q⟩) := by
  generalize matches_ : matchProfile cfg.markMatch baseline marks = k
  have sorted := (sortCandidates_perm (((k.2.map newCondition) ++ k.1.filterMap (baselineCondition cfg.growStep)).filter
    fun c => decide ((c.distance : Int) ≤ limit))).mem_iff (a := c)
  rw [conditions, matches_]
  refine sorted.trans ?_
  rw [List.mem_filter, List.mem_append, List.mem_map, List.mem_filterMap, decide_eq_true_eq, and_comm]
  refine and_congr_right fun _ => or_congr ?_ ?_
  · simp only [newCondition, eq_comm]
  · simp only [baselineCondition_eq_some, Prod.exists]
    constructor
    · rintro ⟨b, o, mem, ⟨rfl, gone⟩ | ⟨m, rfl, grows, grown⟩⟩
      · exact .inl ⟨b, mem, gone⟩
      · exact .inr ⟨b, m, mem, grows, grown⟩
    · rintro (⟨b, mem, gone⟩ | ⟨b, m, mem, grows, grown⟩)
      · exact ⟨b, none, mem, .inl ⟨rfl, gone⟩⟩
      · exact ⟨b, some m, mem, .inr ⟨m, rfl, grows, grown⟩⟩

/-! ## Candidates (R135) -/

theorem near_iff (reach : Nat) (c x : Candidate) :
    c.near reach x = true ↔ x.kind = c.kind ∧ apart x.distance c.distance ≤ reach := by
  simp [Candidate.near]

section
variable {reach : Nat} {xs : List Continued} (left : List Candidate) {c : Candidate}

theorem continueOne_continues {i : Nat} {x : Continued} (h : Nearest (·.1.distance) c.distance
    (fun y => y.1.kind = c.kind ∧ apart y.1.distance c.distance ≤ reach ∧ y.2 = false) xs i x) :
    continueOne reach (xs, left) c = (xs.set i ({ c with streak := x.1.streak + 1 }, true), left) := by
  have found : continuedBy reach c xs = some i := nearest_bestIdx (fun y => by simp [near_iff, and_assoc]) h
  simp only [continueOne, found, modify_eq_set _ _ _ _ h.1, Candidate.continueAs]

variable (taken : ∀ y ∈ xs, y.1.kind = c.kind → apart y.1.distance c.distance ≤ reach → y.2 = true)
include taken

theorem continuedBy_none : continuedBy reach c xs = none :=
  none_bestIdx (ok := fun y : Continued => y.1.kind = c.kind ∧ apart y.1.distance c.distance ≤ reach ∧ y.2 = false)
    (fun y => by simp [near_iff, and_assoc]) fun y hy ⟨kind, near, free⟩ => by
      simp [taken y hy kind near] at free

theorem continueOne_absorbs (some_ : ∃ y ∈ xs, y.1.kind = c.kind ∧ apart y.1.distance c.distance ≤ reach) :
    continueOne reach (xs, left) c = (xs, left) := by
  have near : (xs.any fun x => c.near reach x.1) = true := by simpa [near_iff] using some_
  simp only [continueOne, continuedBy_none taken, near, if_true]

theorem continueOne_leaves (none_ : ∀ y ∈ xs, y.1.kind = c.kind → reach < apart y.1.distance c.distance) :
    continueOne reach (xs, left) c = (xs, left ++ [c]) := by
  have far : (xs.any fun x => c.near reach x.1) = false := by
    rw [List.any_eq_false]
    intro y hy near
    obtain ⟨kind, near⟩ := (near_iff reach c y.1).1 near
    exact absurd near (not_le.2 (none_ y hy kind))
  simp only [continueOne, continuedBy_none taken, far, Bool.false_eq_true, if_false]

end

section
variable {reach : Nat} {kept made : List Candidate} {c : Candidate}

theorem createOne_absorbs (h : ∃ x ∈ made, x.kind = c.kind ∧ apart x.distance c.distance ≤ reach) :
    createOne reach (kept, made) c = (kept, made) := by
  have near : made.any (c.near reach) = true := by simpa [near_iff] using h
  exact if_pos near

theorem createOne_creates (h : ∀ x ∈ made, x.kind = c.kind → reach < apart x.distance c.distance) :
    createOne reach (kept, made) c = (kept, if kept.length + made.length < 8 then made ++ [c] else made) := by
  have far : ¬(made.any (c.near reach) = true) := by
    rw [List.any_eq_true]
    rintro ⟨x, hx, near⟩
    obtain ⟨kind, near⟩ := (near_iff reach c x).1 near
    exact absurd near (not_le.2 (h x hx kind))
  refine (if_neg far).trans ?_
  split <;> rfl

end

/-! ## The comparison of a profile (R133 to R136) -/

theorem profileState_partnerEntry (s : State) : (profileState s).partnerEntry = s.partnerEntry := by
  have frame := unblock_frame ((engineFreed s).withCfe { s.cfe with window := .free })
  have partner : (profileState s).ptu.partner = s.ptu.partner := frame.partner
  have table : (profileState s).ptu.table = s.ptu.table := frame.table
  rw [State.partnerEntry, partner, table]
  rfl

/-- The candidates after the profile of an ECHO job (R134, R135). -/
def movedCandidates (s : State) (r : Running) : List Candidate :=
  nextCandidates s.nc.cfg.markMatch (conditions s.nc.cfg (coverageLimit s.nc.cfg s.partnerEntry) s.ec.baseline
    (keptMarks (allMarks s.nc.cfg (passOutputs s r)))) s.ec.candidates

/-- The candidates to confirm after the profile of an ECHO job, in their order (R136). -/
def confirmedCandidates (s : State) (r : Running) : List Candidate :=
  sortCandidates ((movedCandidates s r).filter fun c => c.streak == s.nc.cfg.persist)

/-- EC with the candidates moved, before the confirmations. -/
def comparedState (s : State) (r : Running) : State := (profileState s).withEc
  { s.ec with invalidStreak := 0, weak := false, candidates := movedCandidates s r }

theorem classifyProfile_compares {s : State} {r : Running} {e : Time} (watching : s.ec.watching = true)
    (clean : ∀ m ∈ allMarks s.nc.cfg (passOutputs s r), m.q < 128) :
    classifyProfile (validProfile s r e) (profileState s) =
      (confirmedCandidates s r).foldl confirm (comparedState s r) := by
  have entry : ((profileState s).withEc { s.ec with invalidStreak := 0, weak := false }).partnerEntry = s.partnerEntry :=
    profileState_partnerEntry s
  have cfg : ((profileState s).withEc { s.ec with invalidStreak := 0, weak := false }).nc.cfg = s.nc.cfg :=
    profileState_cfg s
  rw [classifyProfile_watching (s := profileState s) rfl (validProfile_clean e clean) (by rw [profileState_ec, watching]),
    profileState_ec, compareProfile]
  simp only [entry, cfg, State.withEc_ec]
  rfl

/-- Settles O24. -/
theorem watchedProfilesMoveTheCandidates : Obligations.WatchedProfilesMoveTheCandidates := by
  refine ⟨fun s r e node running job ended clear strong watching clean => ?_, fun cfg n => ⟨rfl, rfl⟩,
    fun reach b un m => ⟨fun i x => matchMark_takes un, matchMark_unmatched un⟩, fun cfg limit baseline marks =>
    ⟨sortCandidates_pairwise _, fun c => mem_conditions⟩, fun reach xs left c => ⟨fun i x => continueOne_continues left,
      fun taken => ⟨continueOne_absorbs left taken, continueOne_leaves left taken⟩⟩, fun reach kept made c =>
    ⟨createOne_absorbs, createOne_creates⟩, fun reach conds cands => rfl⟩
  refine ⟨_, comparedState s r, movedCandidates s r, confirmedCandidates s r, rfl, ?_, rfl, rfl, sortCandidates_perm _,
    sortCandidates_pairwise _, rfl, (profileState_same s).trans (ecSame _ _) (by simp) (by simp)⟩
  rw [exec_echo_valid node running job ended clear strong, classifyProfile_compares watching clean]

/-! ## Confirmations (R136, R137) -/

section
variable {reach : Nat} {c : Candidate} {e : Ec} {i : Nat} {m : Mark}
  (near : Nearest (·.distance) c.distance (fun x => apart x.distance c.distance ≤ reach) e.baseline i m)
include near

theorem confirmBaseline_read : (confirmBaseline reach c e).2 = m.q := by
  unfold confirmBaseline
  rw [nearestMark_nearest near]
  cases kind : c.kind <;> simp [near.1]

theorem confirmBaseline_removes (gone : c.kind = .gone) :
    (confirmBaseline reach c e).1 = { e with baseline := e.baseline.eraseIdx i } := by
  unfold confirmBaseline
  rw [nearestMark_nearest near, gone]

theorem confirmBaseline_sets (here : c.kind ≠ .gone) : (confirmBaseline reach c e).1 =
    { e with baseline := e.baseline.set i { m with q := c.q, positive := c.positive } } := by
  unfold confirmBaseline
  rw [nearestMark_nearest near]
  cases kind : c.kind with
  | new => simp only [modify_eq_set _ _ _ _ near.1]
  | grown => simp only [modify_eq_set _ _ _ _ near.1]
  | gone => exact absurd kind here

end

section
variable {reach : Nat} {c : Candidate} {e : Ec} (far : ∀ m ∈ e.baseline, reach < apart m.distance c.distance)
include far

theorem confirmBaseline_alone (old : c.kind ≠ .new) : confirmBaseline reach c e = (e, c.before) := by
  unfold confirmBaseline
  rw [nearestMark_none far]
  cases kind : c.kind with
  | new => exact absurd kind old
  | grown => rfl
  | gone => rfl

theorem confirmBaseline_inserts (new_ : c.kind = .new) (room : e.baseline.length < 24) : (confirmBaseline reach c e).1 =
    { e with baseline := insertMark ⟨c.distance, c.q, c.positive⟩ e.baseline } := by
  unfold confirmBaseline
  rw [nearestMark_none far, new_]
  simp [room]

theorem confirmBaseline_drops (new_ : c.kind = .new) (full : 24 ≤ e.baseline.length) : (confirmBaseline reach c e).1 =
    { e with dropped := min (e.dropped + 1) 65535 } := by
  unfold confirmBaseline
  rw [nearestMark_none far, new_]
  simp [not_lt.2 full, bump_eq]

end

theorem confirmedFinding_before_new {s : State} {c : Candidate} (new_ : c.kind = .new) :
    (confirmedFinding s c).before = none := if_pos new_

theorem confirmedFinding_before {s : State} {c : Candidate} (old : c.kind ≠ .new) :
    (confirmedFinding s c).before = some (confirmBaseline s.nc.cfg.markMatch c s.ec).2 := if_neg old

/-- Settles O31. -/
theorem confirmationMakesAFinding : Obligations.ConfirmationMakesAFinding := by
  refine ⟨fun s c => ⟨confirmedFinding s c, confirmedEc s c, confirm_eq s c, rfl, rfl, confirmedFinding_before_new,
    fun i m near => ?_, fun far => ⟨fun old => ?_, fun new_ room => ?_, fun new_ full => ?_⟩⟩, fun f s => ?_⟩
  · refine ⟨?_, fun gone => ?_, fun here => ?_, fun old => ?_⟩
    · rcases eq_or_ne c.kind .gone with gone | here
      · rw [confirmedEc, confirmBaseline_removes near gone]
      · rw [confirmedEc, confirmBaseline_sets near here]
    · rw [confirmedEc, confirmBaseline_removes near gone]
    · rw [confirmedEc, confirmBaseline_sets near here]
    · rw [confirmedFinding_before old, confirmBaseline_read near]
  · have alone := confirmBaseline_alone far old
    exact ⟨by rw [confirmedEc, alone], by rw [confirmedEc, alone], by rw [confirmedFinding_before old, alone]⟩
  · have inserts := confirmBaseline_inserts far new_ room
    have baseline : (confirmedEc s c).baseline = insertMark ⟨c.distance, c.q, c.positive⟩ s.ec.baseline := by
      rw [confirmedEc, inserts]
    rw [baseline]
    exact ⟨insertMark_perm _ _, insertMark_pairwise (distance_ne_of_reach far), by rw [confirmedEc, inserts]⟩
  · have drops := confirmBaseline_drops far new_ full
    exact ⟨by rw [confirmedEc, drops], by rw [confirmedEc, drops]⟩
  · refine ⟨_, rfl, fun off => if_pos off, fun on running room => ?_⟩
    exact ⟨_, (if_neg on).trans (offer_room _ _ _ (isRunning_iff.2 running) room), rfl, naSame s _⟩

end Sys2Proof.Machine
end

