-- ==== Sys2Proof/Proofs/Channels.lean ====
section
/-! SUPPORT. The channels: the start and the cut of a reception, the carrier and the jam timers (R143, R144, R149, R150). -/

namespace Sys2Proof.Machine

open Sys2Proof

@[simp] theorem setChannel_bad (l : Lc) (ch : ChanId) (x : Channel) : (l.setChannel ch x).bad = l.bad := by
  cases ch <;> rfl

/-! ## Receptions (R144) -/

theorem preambleAndSync_starts {s : State} {ch : ChanId} (follow : followed s ch = true)
    (hunting : (s.lc.channel ch).receiver = none) : preambleAndSync ch s = setReceiver ch (some []) s :=
  if_pos (by simp [follow, hunting])

theorem received_eq {s : State} {ch : ChanId} {held : Bytes} (follow : followed s ch = true)
    (receiving : (s.lc.channel ch).receiver = some held) (bytes : Bytes) : received s ch bytes = some (held ++ bytes) := by
  simp [received, follow, receiving]

theorem lenAbove96_ends {s : State} {ch : ChanId} {bytes bs : Bytes} (taken : received s ch bytes = some bs)
    (header : bs.length = 7) (long : 96 < (byteAt bs 6).toNat) :
    lenAbove96 ch bytes s = countBad (setReceiver ch none s) := by
  rw [lenAbove96, taken]
  exact if_pos ⟨header, long⟩

theorem countBad_setReceiver (ch : ChanId) (r : Option Bytes) (s : State) : countBad (setReceiver ch r s) = s.withLc
    { s.lc.setChannel ch { s.lc.channel ch with receiver := r } with bad := min (s.lc.bad + 1) 65535 } := by
  simp only [countBad, setReceiver, State.withLc_lc, setChannel_bad, bump_eq]
  rfl

/-- Settles O41. -/
theorem receptionBeginsAndIsCutByLength : Obligations.ReceptionBeginsAndIsCutByLength := by
  refine ⟨fun s ch follow hunting => congrArg Host.Outcome.next (preambleAndSync_starts follow hunting),
    fun s ch held bytes follow receiving header long => ?_⟩
  exact congrArg Host.Outcome.next
    ((lenAbove96_ends (received_eq follow receiving bytes) header long).trans (countBad_setReceiver ch none s))

/-! ## The carrier (R143, R150) -/

theorem rise_eq (follow : Bool) (now : Time) (c : Channel) : c.rise follow now = { c with
    carrier := true
    jamTime := if follow = true ∧ c.jammed = false then some (plus now 40000000) else none
    jamClear := none } := by
  simp only [Channel.rise, Bool.and_eq_true, Bool.not_eq_true']
  rfl

theorem fall_eq (follow : Bool) (now : Time) (c : Channel) : c.fall follow now = { c with
    carrier := false, jamTime := none, idle := 0, receiver := none
    jamClear := if follow = true ∧ c.jammed = true then some (plus now 800000000) else none } := by
  simp only [Channel.fall, Bool.and_eq_true]
  rfl

theorem carrierRise_quiet {s : State} {ch : ChanId} (quiet : (s.lc.channel ch).carrier = false) : carrierRise ch s =
    backoffRise ch (s.withLc (s.lc.setChannel ch ((s.lc.channel ch).rise (followed s ch) s.nc.now))) :=
  if_neg (by simp [quiet])

theorem carrierFall_up {s : State} {ch : ChanId} (up : (s.lc.channel ch).carrier = true) : carrierFall ch s =
    s.withLc { s.lc.setChannel ch ((s.lc.channel ch).fall (followed s ch) s.nc.now) with
      bad := if (s.lc.channel ch).receiver.isSome = true then min (s.lc.bad + 1) 65535 else s.lc.bad } := by
  refine (if_pos up).trans ?_
  simp only [setChannel_bad, bump_eq]

section
variable {s : State} {ch : ChanId} (x : Channel)

theorem rise_resumes (mac : s.lc.mac = .backoff) (own : flightChannel s = some ch) :
    backoffRise ch (s.withLc (s.lc.setChannel ch x)) = { s with
      lc := { s.lc.setChannel ch x with mac := .defer }
      na := s.na.setFlight fun n =>
        { n with link := n.link.map fun l => { l with remaining := l.remaining.map (max 1) } } } :=
  backoffRise_counting (s := s.withLc (s.lc.setChannel ch x)) (by simp [mac]) own

theorem rise_leaves (other : s.lc.mac ≠ .backoff ∨ flightChannel s ≠ some ch) :
    backoffRise ch (s.withLc (s.lc.setChannel ch x)) = s.withLc (s.lc.setChannel ch x) :=
  backoffRise_other (s := s.withLc (s.lc.setChannel ch x)) (other.imp_left (by simp))

end

/-! ## The jam timers (R143, R149) -/

section
variable {s : State} {ch : ChanId}

theorem channelChanged_chooses (h : s.lc.mac = .held ∨ ((s.lc.mac = .defer ∨ s.lc.mac = .backoff) ∧
    flightChannel s = some ch ∧ (s.lc.channel ch).jammed = true)) : channelChanged ch s = serve (chooseChannel s) := by
  rcases h with mac | ⟨mac | mac, own, jammed⟩
  · simp [channelChanged, mac]
  · simp [channelChanged, mac, own, jammed]
  · simp [channelChanged, mac, own, jammed]

theorem channelChanged_goes_on (h : s.lc.mac = .idle ∨ s.lc.mac = .sending ∨ ((s.lc.mac = .defer ∨ s.lc.mac = .backoff) ∧
    ¬(flightChannel s = some ch ∧ (s.lc.channel ch).jammed = true))) : channelChanged ch s = s := by
  rcases h with mac | mac | ⟨mac | mac, other⟩
  · simp [channelChanged, mac]
  · simp [channelChanged, mac]
  · simp only [channelChanged, mac, if_neg other]
  · simp only [channelChanged, mac, if_neg other]

/-- The node with channel CH jammed, its JAM_TIME over. -/
def channelJammed (ch : ChanId) (s : State) : State :=
  s.withLc (s.lc.setChannel ch { s.lc.channel ch with jammed := true, jamTime := none })

/-- The node with channel CH clear, its JAM_CLEAR over. -/
def channelCleared (ch : ChanId) (s : State) : State :=
  s.withLc (s.lc.setChannel ch { s.lc.channel ch with jammed := false, jamClear := none })

theorem jamTimeExpiry_expired (over_ : expired s.nc.now (s.lc.channel ch).jamTime = true) :
    jamTimeExpiry ch s = channelChanged ch (channelJammed ch s) := if_pos over_

theorem jamClearExpiry_expired (over_ : expired s.nc.now (s.lc.channel ch).jamClear = true) :
    jamClearExpiry ch s = channelChanged ch (channelCleared ch s) := if_pos over_

theorem channelJammed_mac (ch : ChanId) (s : State) : (channelJammed ch s).lc.mac = s.lc.mac := setChannel_mac _ _ _

theorem channelCleared_mac (ch : ChanId) (s : State) : (channelCleared ch s).lc.mac = s.lc.mac := setChannel_mac _ _ _

theorem channelJammed_jammed (ch : ChanId) (s : State) : ((channelJammed ch s).lc.channel ch).jammed = true := by
  simp [channelJammed]

theorem channelCleared_jammed (ch : ChanId) (s : State) : ((channelCleared ch s).lc.channel ch).jammed = false := by
  simp [channelCleared]

end

/-- Settles O42. -/
theorem carrierAndJamTimersMoveTheChannel : Obligations.CarrierAndJamTimersMoveTheChannel := by
  refine ⟨fun s ch quiet => ⟨fun backoff own => ?_, fun other => ?_⟩, fun s ch up => ?_, fun s ch live_ =>
    ⟨fun over_ => ⟨fun affected => ?_, fun other => ?_⟩, fun over_ => ⟨fun held => ?_, fun other => ?_⟩⟩⟩
  · refine congrArg Host.Outcome.next ((carrierRise_quiet quiet).trans ?_)
    rw [rise_eq, rise_resumes _ backoff own]
    rfl
  · refine congrArg Host.Outcome.next ((carrierRise_quiet quiet).trans ?_)
    rw [rise_eq, rise_leaves _ other]
  · refine congrArg Host.Outcome.next ((carrierFall_up up).trans ?_)
    rw [fall_eq]
  · refine (next_live (jamTimeExpiry ch) live_).trans (congrArg Host.Outcome.next ((jamTimeExpiry_expired over_).trans ?_))
    refine channelChanged_chooses ?_
    rw [channelJammed_mac]
    exact affected.imp_right fun ⟨mac, own⟩ => ⟨mac, own, channelJammed_jammed ch s⟩
  · refine (next_live (jamTimeExpiry ch) live_).trans (congrArg Host.Outcome.next ((jamTimeExpiry_expired over_).trans ?_))
    refine channelChanged_goes_on ?_
    rw [channelJammed_mac]
    exact other.imp_right (Or.imp_right fun ⟨mac, elsewhere⟩ => ⟨mac, fun ⟨own, _⟩ => elsewhere own⟩)
  · refine (next_live (jamClearExpiry ch) live_).trans
      (congrArg Host.Outcome.next ((jamClearExpiry_expired over_).trans (channelChanged_chooses (.inl ?_))))
    rw [channelCleared_mac, held]
  · refine (next_live (jamClearExpiry ch) live_).trans
      (congrArg Host.Outcome.next ((jamClearExpiry_expired over_).trans (channelChanged_goes_on ?_)))
    rw [channelCleared_mac, channelCleared_jammed]
    cases mac : s.lc.mac with
    | idle => simp
    | held => exact absurd mac other
    | defer => simp
    | backoff => simp
    | sending => simp

end Sys2Proof.Machine
end

