-- ==== Sys2Proof/Proofs/Acceptance.lean ====
section
/-! SUPPORT. How a completed frame is judged, and what one that some check drops leaves (R144 to R148, R8). -/

namespace Sys2Proof.Machine

open Sys2Proof

/-! ## The checks of the sender (R146 to R148) -/

theorem ownEcho_eq_false (s : State) : ownEcho s = false ↔ s.lc.mac ≠ .sending ∧
    ∀ e, s.lc.ownEnd = some e → within s.nc.now e (plus e 80000) = false := by
  rw [ownEcho, Bool.or_eq_false_iff, beq_eq_false_iff_ne]
  refine and_congr_right fun _ => ?_
  cases s.lc.ownEnd with
  | none => simp
  | some e => simp [ownGuardTicks]

theorem lastSeqOf_ne (s : State) (sender : Nat) (seq : Byte) : lastSeqOf s sender ≠ some seq ↔
    ∀ n, entryOf s.ptu.table sender = some n → n.lastSeq ≠ some seq := by
  rw [lastSeqOf, Ne, Option.bind_eq_some_iff]
  exact ⟨fun h n entry same => h ⟨n, entry, same⟩, fun h ⟨n, entry, same⟩ => h n entry same⟩

section
variable {s : State} {f g : Frame}

theorem judgeSender_note : judgeSender s f = .note g ↔ g = f ∧ f.sender ≠ s.nc.cfg.nodeId ∧ f.sender ≠ 0 ∧
    f.sender ≠ 255 ∧ f.kind ≠ 8 ∧ lastSeqOf s f.sender ≠ some f.seq ∧ s.nc.node = .running := by
  unfold judgeSender
  split
  case isTrue own => split <;> simp [own]
  case isFalse other =>
    split
    case isTrue none_ => simp [none_]
    case isFalse named =>
      split
      case isTrue listener => split <;> simp [listener]
      case isFalse peer =>
        split
        case isTrue accepted =>
          rw [isRunning_iff] at accepted
          exact ⟨fun same => ⟨(Verdict.note.inj same).symm, other, named, peer, accepted⟩,
            fun ⟨same, _⟩ => congrArg Verdict.note same.symm⟩
        case isFalse dropped =>
          rw [isRunning_iff] at dropped
          simp only [reduceCtorEq, false_iff]
          rintro ⟨_, _, _, _, accepted⟩
          exact dropped accepted

theorem judgeSender_command : judgeSender s f = .command g ↔ g = f ∧ f.sender ≠ s.nc.cfg.nodeId ∧ f.sender = 255 ∧
    f.kind = 8 ∧ s.lc.listenerSeq ≠ some f.seq ∧ (s.nc.node = .running ∨ s.nc.node = .clashed) := by
  unfold judgeSender
  split
  case isTrue own => split <;> simp [own]
  case isFalse other =>
    split
    case isTrue none_ => simp [none_]
    case isFalse named =>
      split
      case isTrue listener =>
        split
        case isTrue accepted =>
          rw [isRunning_iff, isClashed_iff] at accepted
          exact ⟨fun same => ⟨(Verdict.command.inj same).symm, other, listener, accepted⟩,
            fun ⟨same, _⟩ => congrArg Verdict.command same.symm⟩
        case isFalse dropped =>
          rw [isRunning_iff, isClashed_iff] at dropped
          simp only [reduceCtorEq, false_iff]
          rintro ⟨_, _, _, accepted⟩
          exact dropped accepted
      case isFalse peer => split <;> simp [peer]

theorem judgeSender_clash : judgeSender s f = .clash ↔ f.sender = s.nc.cfg.nodeId ∧ ownEcho s = false := by
  unfold judgeSender
  split
  case isTrue own => split <;> simp_all
  case isFalse other =>
    split
    case isTrue none_ => simp [other]
    case isFalse named => split <;> split <;> simp [other]

theorem judgeSender_counts : judgeSender s f ≠ .badCrc ∧ judgeSender s f ≠ .otherRun := by
  unfold judgeSender
  split
  · split <;> simp
  · split
    · simp
    · split <;> split <;> simp

end

/-! ## The checks of a completed frame (R145 to R148) -/

section
variable {s : State} {bs : Bytes}

theorem judge_badCrc : judge s bs = .badCrc ↔ crcAgrees bs = false := by
  obtain ⟨notBad, _⟩ := judgeSender_counts (s := s) (f := parseFrame bs)
  unfold judge
  dsimp only
  split
  case isTrue bad => simp [bad]
  case isFalse good => split <;> [skip; split <;> [skip; split]] <;> simp [good, notBad]

theorem judge_otherRun : judge s bs = .otherRun ↔ crcAgrees bs = true ∧ (parseFrame bs).run ≠ s.nc.cfg.runNo := by
  obtain ⟨_, notOther⟩ := judgeSender_counts (s := s) (f := parseFrame bs)
  unfold judge
  dsimp only
  split
  case isTrue bad => simp [bad]
  case isFalse good =>
    split
    case isTrue other => simp_all
    case isFalse own => split <;> [skip; split] <;> simp_all

/-- A verdict of the sender checks: the frame has passed the checks before them. -/
theorem judge_eq_judgeSender {v : Verdict} (handed : v ≠ .badCrc ∧ v ≠ .otherRun ∧ v ≠ .dropped) : judge s bs = v ↔
    crcAgrees bs = true ∧ (parseFrame bs).run = s.nc.cfg.runNo ∧ s.nc.node ≠ .unnamed ∧
      kindLengthOk (parseFrame bs).kind (parseFrame bs).payload = true ∧ judgeSender s (parseFrame bs) = v := by
  obtain ⟨notBad, notOther, notDropped⟩ := handed
  unfold judge
  dsimp only
  split
  case isTrue bad => simp [bad, notBad.symm]
  case isFalse good =>
    split
    case isTrue other => simp [other, notOther.symm]
    case isFalse own =>
      split
      case isTrue unnamed => simp [unnamed, notDropped.symm]
      case isFalse named =>
        split
        case isTrue wrong => simp [wrong, notDropped.symm]
        case isFalse right => simp_all

end

/-! ## The payload lengths (R145, R168, R169, R171) -/

theorem entrySize_eq_none {n : Nat} (h : n = 0 ∨ 5 ≤ n) : entrySize n = none := by
  unfold entrySize
  split <;> first | rfl | omega

theorem replyLengthOk_iff (p : Bytes) : kindLengthOk 6 p = true ↔ 4 ≤ p.length ∧
    (((byteAt p 0).toNat % 128 = 1 ∧ p.length = 4 + (byteAt p 2).toNat * 25) ∨
      ((byteAt p 0).toNat % 128 = 2 ∧ p.length = 4 + (byteAt p 2).toNat * 14) ∨
      ((byteAt p 0).toNat % 128 = 3 ∧ p.length = 4 + (byteAt p 2).toNat * 18) ∨
      ((byteAt p 0).toNat % 128 = 4 ∧ p.length = 49)) := by
  have sect : (byteAt p 0).toNat % 128 = 1 ∨ (byteAt p 0).toNat % 128 = 2 ∨ (byteAt p 0).toNat % 128 = 3 ∨
      (byteAt p 0).toNat % 128 = 4 ∨ ((byteAt p 0).toNat % 128 = 0 ∨ 5 ≤ (byteAt p 0).toNat % 128) := by omega
  rcases sect with h | h | h | h | h
  · simp [kindLengthOk, h, entrySize]
  · simp [kindLengthOk, h, entrySize]
  · simp [kindLengthOk, h, entrySize]
  · simp [kindLengthOk, h, entrySize]
  · simp only [kindLengthOk, entrySize_eq_none h, Bool.and_false, Bool.false_eq_true, false_iff]
    omega

theorem kindLengthOk_iff (kind : Nat) (p : Bytes) : kindLengthOk kind p = true ↔
    (kind = 1 ∧ 8 ≤ p.length ∧ (byteAt p 7).toNat ≤ 11 ∧ p.length = 8 + 8 * (byteAt p 7).toNat) ∨
      (kind = 2 ∧ p.length = 28) ∨ (kind = 3 ∧ p.length = 25) ∨ (kind = 4 ∧ p.length = 14) ∨
      (kind = 5 ∧ p.length = 45) ∨ (kind = 6 ∧ kindLengthOk 6 p = true) ∨ (kind = 8 ∧ p.length = 4) := by
  by_cases known : kind = 1 ∨ kind = 2 ∨ kind = 3 ∨ kind = 4 ∨ kind = 5 ∨ kind = 6 ∨ kind = 8
  · rcases known with rfl | rfl | rfl | rfl | rfl | rfl | rfl
    · simp [kindLengthOk, and_assoc]
    · simp [kindLengthOk]
    · simp [kindLengthOk]
    · simp [kindLengthOk]
    · simp [kindLengthOk]
    · simp
    · simp [kindLengthOk]
  · have unknown : kindLengthOk kind p = false := by
      unfold kindLengthOk
      split <;> first | rfl | omega
    rw [unknown]
    simp only [Bool.false_eq_true, false_iff]
    omega

/-- Settles O35. -/
theorem acceptanceMakesEveryCheck : Obligations.AcceptanceMakesEveryCheck := by
  refine ⟨fun s bs f => ⟨?_, ?_, ?_, judge_badCrc, judge_otherRun⟩, fun kind p => ?_⟩
  · rw [judge_eq_judgeSender (by simp), judgeSender_note, lastSeqOf_ne]
    constructor
    · rintro ⟨crc, run, _, length, rfl, own, none_, listener, kind, fresh, running⟩
      exact ⟨rfl, crc, run, running, length, kind, own, none_, listener, fresh⟩
    · rintro ⟨rfl, crc, run, running, length, kind, own, none_, listener, fresh⟩
      exact ⟨crc, run, by simp [running], length, rfl, own, none_, listener, kind, fresh, running⟩
  · rw [judge_eq_judgeSender (by simp), judgeSender_command]
    constructor
    · rintro ⟨crc, run, _, length, rfl, own, listener, kind, fresh, node⟩
      exact ⟨rfl, crc, run, node, length, kind, listener, fun same => own (listener.trans same.symm), fresh⟩
    · rintro ⟨rfl, crc, run, node, length, kind, listener, own, fresh⟩
      refine ⟨crc, run, ?_, length, rfl, fun same => own (same.symm.trans listener), listener, kind, fresh, node⟩
      rcases node with node | node <;> simp [node]
  · rw [judge_eq_judgeSender (by simp), judgeSender_clash, ownEcho_eq_false]
  · rw [kindLengthOk_iff, replyLengthOk_iff]

/-! ## Frames that a check drops (R144 to R146, R8) -/

section
variable {s : State} {ch : ChanId} {bytes bs : Bytes} (done : completed s ch bytes = some bs)
include done

theorem otherRow_badCrc (verdict : judge s bs = .badCrc) : otherRow ch bytes s = countBad (setReceiver ch none s) := by
  simp only [otherRow, done, verdict, dropFrame]

theorem otherRow_otherRun (verdict : judge s bs = .otherRun) : otherRow ch bytes s = s.withLc
    { s.lc.setChannel ch { s.lc.channel ch with receiver := none } with otherRun := min (s.lc.otherRun + 1) 65535 } := by
  simp only [otherRow, done, verdict, dropFrame]
  cases ch <;> rfl

theorem otherRow_dropped (verdict : judge s bs = .dropped) : otherRow ch bytes s = setReceiver ch none s := by
  simp only [otherRow, done, verdict, dropFrame]

theorem otherRow_clash (verdict : judge s bs = .clash) :
    otherRow ch bytes s = reportClash (setReceiver ch none s) := by
  simp only [otherRow, done, verdict, dropFrame]

end

theorem clash_setReceiver (ch : ChanId) (s : State) : (setReceiver ch none s).lc.clash s.nc.now =
    { s.lc.setChannel ch { s.lc.channel ch with receiver := none } with
      mac := .idle, tx := none, ownEnd := if s.lc.mac = .sending then some s.nc.now else s.lc.ownEnd } := by
  cases ch <;> rfl

/-- Settles O40. -/
theorem droppedFramesAreCounted : Obligations.DroppedFramesAreCounted := by
  refine fun s ch bytes bs done => ⟨fun verdict => ?_, fun verdict => congrArg Host.Outcome.next (otherRow_otherRun done verdict),
    fun verdict => congrArg Host.Outcome.next (otherRow_dropped done verdict), fun verdict => ⟨fun node => ?_, fun node => ?_⟩⟩
  · exact congrArg Host.Outcome.next ((otherRow_badCrc done verdict).trans (countBad_setReceiver ch none s))
  · refine ⟨_, congrArg Host.Outcome.next ((otherRow_clash done verdict).trans (if_pos node)), ?_, rfl, rfl⟩
    rw [enterClashed, show (setReceiver ch none s).nc.now = s.nc.now from rfl, clash_setReceiver]
    rfl
  · refine congrArg Host.Outcome.next ((otherRow_clash done verdict).trans (if_neg ?_))
    simp [setReceiver, node]

end Sys2Proof.Machine
end

