-- ==== Sys2Proof/Proofs/Refresh.lean ====
section
/-! SUPPORT. What an accepted frame of a peer does: the refresh of its sender's entry (R87 to R89, R148, R159). -/

namespace Sys2Proof.Machine

open Sys2Proof

/-! ## The rows of the note frames (R148) -/

section
variable {s : State} {ch : ChanId} {bytes : Bytes} {kind : Nat} {f : Frame}

theorem noteRow_accepted (accepted : NoteAccepted s ch bytes kind f) (act : Frame → State → State) :
    noteRow kind act ch bytes s = act f (afterReception s ch) := by
  obtain ⟨bs, done, verdict, is⟩ := accepted
  simp only [noteRow, done, verdict, is, if_true]
  rfl

theorem exec_probeFrame (accepted : NoteAccepted s ch bytes 1 f) :
    exec (.probeFrame ch bytes) s = .next (handleProbeNote f (afterReception s ch)) :=
  congrArg Host.Outcome.next (noteRow_accepted accepted handleProbeNote)

theorem exec_burstFrame (accepted : NoteAccepted s ch bytes 2 f) :
    exec (.burstFrame ch bytes) s = .next (handleBurstNote f (afterReception s ch)) :=
  congrArg Host.Outcome.next (noteRow_accepted accepted handleBurstNote)

theorem exec_reportFrame {i : Instr} (accepted : NoteAccepted s ch bytes kind f)
    (row : (i, kind) ∈ [(Instr.fixFrame ch bytes, 3), (.echoFrame ch bytes, 4)]) :
    exec i s = .next (handleReport f (afterReception s ch)) := by
  simp only [List.mem_cons, Prod.mk.injEq, List.not_mem_nil, or_false] at row
  rcases row with ⟨rfl, rfl⟩ | ⟨rfl, rfl⟩
  · exact congrArg Host.Outcome.next (noteRow_accepted accepted handleReport)
  · exact congrArg Host.Outcome.next (noteRow_accepted accepted handleReport)

theorem exec_refreshFrame {i : Instr} (accepted : NoteAccepted s ch bytes kind f)
    (row : (i, kind) ∈ [(Instr.stateFrame ch bytes, 5), (.replyFrame ch bytes, 6)]) :
    exec i s = .next (refreshSender f (afterReception s ch)) := by
  simp only [List.mem_cons, Prod.mk.injEq, List.not_mem_nil, or_false] at row
  rcases row with ⟨rfl, rfl⟩ | ⟨rfl, rfl⟩
  · exact congrArg Host.Outcome.next (noteRow_accepted accepted refreshSender)
  · exact congrArg Host.Outcome.next (noteRow_accepted accepted refreshSender)

end

theorem afterReception_same (s : State) (ch : ChanId) : UnchangedBut [.lc] s (afterReception s ch) := lcSame s _

theorem afterReception_hunts (s : State) (ch : ChanId) : ((afterReception s ch).lc.channel ch).receiver = none := by
  simp [afterReception, setReceiver]

theorem TableStep.channel {s t : State} (h : TableStep s t) (ch : ChanId) : t.lc.channel ch = s.lc.channel ch := by
  cases ch
  · exact h.chA
  · exact h.chB

/-! ## The refreshed table (R87 to R89) -/

theorem entryOf_isSome {table : List (Option Neighbour)} {id : Nat} :
    (entryOf table id).isSome = true ↔ ∃ n ∈ occupied table, n.id = id := by
  simp [entryOf]

theorem removalTicks_eq (cfg : Cfg) : removalTicks cfg = 8000000 * cfg.probePeriod := by
  rw [removalTicks, periodTicks, perMs]
  omega

theorem earlier_irrefl (t : Time) : earlier t t = false := by simp [earlier, diff]

/-- The entry a new peer takes (R87). -/
theorem newNeighbour_eq (cfg : Cfg) (now : Time) (id pos : Nat) (seq : Byte) : newNeighbour cfg now id pos seq =
    ⟨id, pos, .heard, now, some seq, none, none, none, none, 0, none, 0, 0,
      some (plus now (8000000 * cfg.probePeriod : Nat)), none⟩ := by
  rw [newNeighbour, removalTicks_eq]

section
variable {cfg : Cfg} {now : Time} {id pos : Nat} {seq : Byte} {table : List (Option Neighbour)}

theorem refresh_eq (m : Neighbour) : m.refresh cfg now pos seq =
    if m.position = pos then { m with
      lastHeard := now, lastSeq := some seq, silence := some (plus now (removalTicks cfg : Nat)) }
    else { newNeighbour cfg now m.id pos seq with exchanges := m.exchanges } := by
  rw [Neighbour.refresh]
  split <;> rfl

theorem refreshTable_known (known : ∃ n ∈ occupied table, n.id = id) : refreshTable cfg now id pos seq table =
    table.map (Option.map fun m => if m.id = id then m.refresh cfg now pos seq else m) :=
  if_pos (entryOf_isSome.2 known)

theorem refreshTable_new {i : Nat} (unknown : ∀ n ∈ occupied table, n.id ≠ id) (place : newPlace table = some i) :
    refreshTable cfg now id pos seq table = table.set i (some (newNeighbour cfg now id pos seq)) := by
  have none_ : ¬(entryOf table id).isSome = true := fun known => by
    obtain ⟨n, mem, same⟩ := entryOf_isSome.1 known
    exact unknown n mem same
  rw [refreshTable, if_neg none_, place]

theorem refreshTable_full (unknown : ∀ n ∈ occupied table, n.id ≠ id) (full : newPlace table = none) :
    refreshTable cfg now id pos seq table = table := by
  have none_ : ¬(entryOf table id).isSome = true := fun known => by
    obtain ⟨n, mem, same⟩ := entryOf_isSome.1 known
    exact unknown n mem same
  rw [refreshTable, if_neg none_, full]

end

theorem newPlace_empty {table : List (Option Neighbour)} {i : Nat} (empty : table[i]? = some none)
    (first : ∀ j : Nat, j < i → table[j]? ≠ some none) : newPlace table = some i := by
  rw [newPlace, emptyPlace_first empty first]

theorem newPlace_replaces {table : List (Option Neighbour)} {i : Nat} {n : Neighbour}
    (full : ∀ i : Nat, table[i]? ≠ some none) (place : table[i]? = some (some n))
    (state : n.state = .heard ∨ n.state = .stale)
    (first : ∀ (j : Nat) (m : Neighbour), table[j]? = some (some m) → j ≠ i → m.state = .heard ∨ m.state = .stale →
      earlier n.lastHeard m.lastHeard = true ∨ (n.lastHeard = m.lastHeard ∧ n.id < m.id)) : newPlace table = some i := by
  rw [newPlace, emptyPlace_none.2 full]
  refine bestPlace_dominant place (by simpa using state) fun j m hj other ok => ?_
  have rank := first j m hj other (by simpa using ok)
  simp only [Bool.or_eq_false_iff, Bool.or_eq_true, Bool.and_eq_true, Bool.and_eq_false_iff, decide_eq_true_eq,
    decide_eq_false_iff_not, beq_iff_eq, beq_eq_false_iff_ne]
  rcases rank with sooner | ⟨same, lower⟩
  · exact ⟨⟨earlier_asymm _ _ sooner, .inl fun same => by simp [same, earlier_irrefl] at sooner⟩, fun _ => .inl sooner⟩
  · exact ⟨⟨by rw [same, earlier_irrefl], .inr (by omega)⟩, fun _ => .inr ⟨same, lower⟩⟩

theorem newPlace_none {table : List (Option Neighbour)} (full : ∀ i : Nat, table[i]? ≠ some none)
    (held : ∀ n ∈ occupied table, n.state = .synced ∨ n.state = .doubtful) : newPlace table = none := by
  rw [newPlace, emptyPlace_none.2 full]
  refine bestPlace_none.2 fun p n place => ?_
  rcases held n (mem_occupied.2 ⟨p, place⟩) with state | state <;> simp [state]

theorem newPlace_lt {table : List (Option Neighbour)} {i : Nat} (h : newPlace table = some i) : i < table.length := by
  unfold newPlace at h
  split at h
  case h_1 j empty =>
    obtain rfl : j = i := Option.some.inj h
    exact (List.findIdx?_eq_some_iff_getElem.1 empty).1
  case h_2 =>
    obtain ⟨⟨p, n⟩, hp, rfl⟩ := Option.map_eq_some_iff.1 h
    obtain ⟨j, _, place⟩ := Option.bind_eq_some_iff.1 hp
    exact (List.getElem?_eq_some_iff.1 (mem_occupiedWithPlace.1 (List.mem_of_getElem? place))).1

/-! ## The sender's entry -/

/-- The entry holds what the frame's header says of its sender (R87). -/
structure HeardNow (cfg : Cfg) (now : Time) (f : Frame) (n : Neighbour) : Prop where
  id : n.id = f.sender
  lastHeard : n.lastHeard = now
  lastSeq : n.lastSeq = some f.seq
  position : n.position = f.pos
  silence : n.silence = some (plus now (8000000 * cfg.probePeriod : Nat))

/-- The table holds an entry of the frame's sender that says so. -/
def Knows (cfg : Cfg) (now : Time) (f : Frame) (table : List (Option Neighbour)) : Prop :=
  ∃ n ∈ occupied table, HeardNow cfg now f n

theorem occupied_map (g : Neighbour → Neighbour) (table : List (Option Neighbour)) :
    occupied (table.map (Option.map g)) = (occupied table).map g := by
  simp [occupied, List.filterMap_map, List.map_filterMap]

theorem newNeighbour_heardNow (cfg : Cfg) (now : Time) (f : Frame) :
    HeardNow cfg now f (newNeighbour cfg now f.sender f.pos f.seq) := by
  rw [newNeighbour_eq]
  exact ⟨rfl, rfl, rfl, rfl, rfl⟩

theorem refresh_heardNow {cfg : Cfg} {now : Time} {f : Frame} {m : Neighbour} (sender : m.id = f.sender) :
    HeardNow cfg now f (m.refresh cfg now f.pos f.seq) := by
  rw [refresh_eq]
  split
  case isTrue position => exact ⟨sender, rfl, rfl, position, by rw [removalTicks_eq]⟩
  case isFalse moved =>
    rw [newNeighbour_eq]
    exact ⟨sender, rfl, rfl, rfl, rfl⟩

theorem refreshTable_knows {cfg : Cfg} {now : Time} {f : Frame} {table : List (Option Neighbour)}
    (h : (∃ n ∈ occupied table, n.id = f.sender) ∨ newPlace table ≠ none) :
    Knows cfg now f (refreshTable cfg now f.sender f.pos f.seq table) := by
  by_cases known : ∃ n ∈ occupied table, n.id = f.sender
  · rw [refreshTable_known known, Knows, occupied_map]
    obtain ⟨n, mem, sender⟩ := known
    exact ⟨_, List.mem_map.2 ⟨n, mem, rfl⟩, by rw [if_pos sender]; exact refresh_heardNow sender⟩
  · obtain ⟨i, place⟩ := Option.ne_none_iff_exists'.1 (h.resolve_left known)
    push Not at known
    rw [refreshTable_new known place]
    have bound := newPlace_lt place
    exact ⟨_, mem_occupied.2 ⟨i, List.getElem?_set_self bound⟩, newNeighbour_heardNow cfg now f⟩

/-- An entry with the header fields of another. -/
def SameHeader (n m : Neighbour) : Prop :=
  m.id = n.id ∧ m.lastHeard = n.lastHeard ∧ m.lastSeq = n.lastSeq ∧ m.position = n.position ∧ m.silence = n.silence

theorem exchange_header (cfg : Cfg) (now : Time) (f : ForwardLeg) (r : ReverseLeg) (n : Neighbour) :
    SameHeader n (n.exchange cfg now f r) := by
  rw [exchange_frame]
  exact ⟨rfl, rfl, rfl, rfl, rfl⟩

theorem storeForward_header (cfg : Cfg) (now : Time) (l : ForwardLeg) (n : Neighbour) :
    SameHeader n (n.storeForward cfg now l) := by
  unfold Neighbour.storeForward
  dsimp only
  split
  · exact ⟨rfl, rfl, rfl, rfl, rfl⟩
  · split
    · exact exchange_header cfg now l _ { n with forward := some l }
    · exact ⟨rfl, rfl, rfl, rfl, rfl⟩

theorem storeReverse_header (cfg : Cfg) (now : Time) (l : ReverseLeg) (n : Neighbour) :
    SameHeader n (n.storeReverse cfg now l) := by
  unfold Neighbour.storeReverse
  dsimp only
  split
  · exact ⟨rfl, rfl, rfl, rfl, rfl⟩
  · split
    · exact exchange_header cfg now _ l { n with reverse := some l }
    · exact ⟨rfl, rfl, rfl, rfl, rfl⟩

theorem HeardNow.ofHeader {cfg : Cfg} {now : Time} {f : Frame} {n m : Neighbour} (h : HeardNow cfg now f n)
    (same : SameHeader n m) : HeardNow cfg now f m := by
  obtain ⟨id, lastHeard, lastSeq, position, silence⟩ := same
  exact ⟨id.trans h.id, lastHeard.trans h.lastHeard, lastSeq.trans h.lastSeq, position.trans h.position,
    silence.trans h.silence⟩

theorem Knows.update {cfg : Cfg} {now : Time} {f : Frame} {table : List (Option Neighbour)} (h : Knows cfg now f table)
    (id : Nat) {g : Neighbour → Neighbour} (header : ∀ n, SameHeader n (g n)) :
    Knows cfg now f (updateEntry id g table) := by
  obtain ⟨n, mem, heard⟩ := h
  rw [Knows, updateEntry, occupied_map]
  refine ⟨_, List.mem_map.2 ⟨n, mem, rfl⟩, ?_⟩
  split
  · exact heard.ofHeader (header n)
  · exact heard

/-! ## The legs of a PROBE NOTE keep the entry -/

section
variable {cfg : Cfg} {now : Time} {f : Frame} {s : State} (h : Knows cfg now f s.ptu.table)
include h

theorem makeReverseLeg_knows (l : Label) (hA : Time) : Knows cfg now f (makeReverseLeg l hA s).ptu.table := by
  have table : (makeReverseLeg l hA s).ptu.table =
      updateEntry l.peer (·.storeReverse s.nc.cfg s.nc.now ⟨l.emission, hA, l.number⟩) s.ptu.table :=
    congrArg Ptu.table (setTable_ptu _ s)
  rw [table]
  exact h.update l.peer (storeReverse_header s.nc.cfg s.nc.now _)

theorem labelArrival_knows (i : Nat) (l : Label) : Knows cfg now f (labelArrival i l s).ptu.table := by
  unfold labelArrival
  split
  · exact h
  · split
    · exact makeReverseLeg_knows (s := s.withPtu (s.ptu.dropArrival i)) h l _
    · exact h

theorem labelStep_knows (peer : Nat) (p : ProbePayload) : Knows cfg now f (labelStep peer p s).ptu.table := by
  unfold labelStep
  dsimp only
  split
  · split
    · exact labelArrival_knows h _ _
    · exact h
  · split
    · exact h
    · exact h

theorem forwardLeg_knows (peer : Nat) (heard : Heard) : Knows cfg now f (forwardLeg peer s heard).ptu.table := by
  unfold forwardLeg
  split
  · split
    · rw [setTable_ptu]
      exact h.update peer (storeForward_header s.nc.cfg s.nc.now _)
    · exact h
  · exact h

end

theorem foldl_forwardLeg_knows {cfg : Cfg} {now : Time} {f : Frame} (peer : Nat) (heard : List Heard) {s : State}
    (h : Knows cfg now f s.ptu.table) : Knows cfg now f (heard.foldl (forwardLeg peer) s).ptu.table := by
  induction heard generalizing s with
  | nil => exact h
  | cons x xs ih => exact ih (forwardLeg_knows h peer x)

/-! ## A BURST NOTE leaves the neighbour table (R98 to R109) -/

theorem offer_table (c : Content) (level : Nat) (deadline : Option Time) (s : State) :
    (offer c level deadline s).ptu.table = s.ptu.table := (offer_frame c level deadline s).table

theorem announce_table (p : Nat) (f : Fix) (s : State) : (announce p f s).ptu.table = s.ptu.table := by
  unfold announce
  dsimp only
  split
  · rfl
  · split
    · rfl
    · exact offer_table _ _ _ _

theorem announceTest_table (p : Nat) (s : State) : (announceTest p s).ptu.table = s.ptu.table := by
  unfold announceTest
  split
  · split
    · exact announce_table _ _ _
    · rfl
  · rfl

theorem corroborate_table (p : Nat) (s : State) : (corroborate p s).ptu.table = s.ptu.table := by
  unfold corroborate
  split
  · rfl
  · split
    · split
      · rfl
      · dsimp only
        split
        · exact announce_table _ _ _
        · rfl
    · rfl

theorem fixTests_table (p : Nat) (s : State) : (fixTests p s).ptu.table = s.ptu.table :=
  (corroborate_table p _).trans (announceTest_table p s)

theorem takeResult_table (r : Result) (s : State) : (takeResult r s).ptu.table = s.ptu.table := by
  unfold takeResult
  split
  · split
    · exact fixTests_table _ _
    · rfl
  · split
    · exact fixTests_table _ _
    · split
      · exact fixTests_table _ _
      · rfl

theorem completePair_table (u : Neighbour) (t : Timing) (n : Notice) (s : State) :
    (completePair u t n s).ptu.table = s.ptu.table := by
  unfold completePair
  dsimp only
  split
  · exact takeResult_table _ _
  · rfl

theorem judgeBurstNote_table (p : Nat) (b : BurstPayload) (s : State) :
    (judgeBurstNote p b s).ptu.table = s.ptu.table := by
  unfold judgeBurstNote placeNotice
  repeat' split
  all_goals first | rfl | exact completePair_table _ _ _ _

end Sys2Proof.Machine
end

