-- ==== Sys2Proof/Proofs/Dispatch.lean ====
section
/-! SUPPORT. The dispatch of accepted frames: what each handler leaves beside its own act (R87, R148, R159). -/

namespace Sys2Proof.Machine

open Sys2Proof

/-! ## The refresh of a sender (R87 to R89) -/

theorem refreshSender_ptu (f : Frame) (s : State) : (refreshSender f s).ptu = { s.ptu with
    table := refreshTable s.nc.cfg s.nc.now f.sender f.pos f.seq s.ptu.table
    partner := choosePartner s.nc.cfg.position (refreshTable s.nc.cfg s.nc.now f.sender f.pos f.seq s.ptu.table) } :=
  setTable_ptu _ s

theorem refreshSender_same (f : Frame) (s : State) : UnchangedBut [.ptu, .pu, .ec] s (refreshSender f s) := setTable_same _ s

theorem refreshSender_knows {f : Frame} {s : State}
    (h : (∃ n ∈ occupied s.ptu.table, n.id = f.sender) ∨ newPlace s.ptu.table ≠ none) :
    Knows s.nc.cfg s.nc.now f (refreshSender f s).ptu.table := by
  rw [refreshSender_ptu]
  exact refreshTable_knows h

/-- What the refresh of the sender makes of the neighbour table (R87 to R89). -/
def RefreshedTable (cfg : Cfg) (now : Time) (f : Frame) (table refreshed_ : List (Option Neighbour)) : Prop :=
  ∃ silence new, silence = some (plus now (8000000 * cfg.probePeriod : Nat)) ∧
    new = (⟨f.sender, f.pos, .heard, now, some f.seq, none, none, none, none, 0, none, 0, 0, silence,
      none⟩ : Neighbour) ∧
    ((∃ n ∈ occupied table, n.id = f.sender) → refreshed_ = table.map (Option.map fun m =>
      if m.id = f.sender then
        if m.position = f.pos then { m with lastHeard := now, lastSeq := some f.seq, silence := silence }
        else { new with id := m.id, exchanges := m.exchanges }
      else m)) ∧
    ((∀ n ∈ occupied table, n.id ≠ f.sender) →
      (∀ i : Nat, table[i]? = some none → (∀ j : Nat, j < i → table[j]? ≠ some none) →
        refreshed_ = table.set i (some new)) ∧
      ((∀ i : Nat, table[i]? ≠ some none) →
        (∀ (i : Nat) (n : Neighbour), table[i]? = some (some n) → n.state = .heard ∨ n.state = .stale →
          (∀ (j : Nat) (m : Neighbour), table[j]? = some (some m) → j ≠ i → m.state = .heard ∨ m.state = .stale →
            earlier n.lastHeard m.lastHeard = true ∨ (n.lastHeard = m.lastHeard ∧ n.id < m.id)) →
          refreshed_ = table.set i (some new)) ∧
        ((∀ n ∈ occupied table, n.state = .synced ∨ n.state = .doubtful) → refreshed_ = table)))

theorem refreshTable_refreshed (cfg : Cfg) (now : Time) (f : Frame) (table : List (Option Neighbour)) :
    RefreshedTable cfg now f table (refreshTable cfg now f.sender f.pos f.seq table) := by
  refine ⟨_, newNeighbour cfg now f.sender f.pos f.seq, rfl, newNeighbour_eq _ _ _ _ _, fun known => ?_, fun unknown =>
    ⟨fun i empty first => refreshTable_new unknown (newPlace_empty empty first), fun full =>
      ⟨fun i n place state first => refreshTable_new unknown (newPlace_replaces full place state first),
        fun held => refreshTable_full unknown (newPlace_none full held)⟩⟩⟩
  rw [refreshTable_known known]
  simp only [refresh_eq, removalTicks_eq]
  rfl

/-! ## What every handler keeps -/

/-- The line time's node state, the front end, the engine, the snapshots and the channels, as a frame's act leaves them. -/
structure ActKeeps (s t : State) : Prop where
  nc : t.nc = { s.nc with rng := t.nc.rng }
  cfe : t.cfe = s.cfe
  ce : t.ce = s.ce
  slots : t.iw.slots = s.iw.slots
  channel : ∀ ch, t.lc.channel ch = s.lc.channel ch

theorem TableStep.actKeeps {s t : State} (h : TableStep s t) : ActKeeps s t := ⟨h.nc, h.cfe, h.ce, h.slots, h.channel⟩

theorem ActKeeps.trans {s t u : State} (h : ActKeeps s t) (k : ActKeeps t u) : ActKeeps s u where
  nc := by rw [k.nc, h.nc]
  cfe := k.cfe.trans h.cfe
  ce := k.ce.trans h.ce
  slots := k.slots.trans h.slots
  channel := fun ch => (k.channel ch).trans (h.channel ch)

theorem raiseFloor_frame (level : Nat) (s : State) : SendFrame (s.withNa { s.na with
    floor := max s.na.floor (min level 6), floorHold := some (plus s.nc.now 160000000) }) (raiseFloor level s) :=
  serve_frame _

theorem raiseFloor_actKeeps (level : Nat) (s : State) : ActKeeps s (raiseFloor level s) :=
  ActKeeps.trans (t := s.withNa { s.na with
    floor := max s.na.floor (min level 6), floorHold := some (plus s.nc.now 160000000) })
    ⟨rfl, rfl, rfl, rfl, fun _ => rfl⟩ (serve_step _).table.actKeeps

theorem handleReport_actKeeps (f : Frame) (s : State) : ActKeeps s (handleReport f s) :=
  (refreshSender_step f s).actKeeps.trans (raiseFloor_actKeeps f.level _)

theorem handleReport_table (f : Frame) (s : State) : (handleReport f s).ptu.table = (refreshSender f s).ptu.table :=
  (raiseFloor_frame f.level _).table

theorem handleReport_partner (f : Frame) (s : State) :
    (handleReport f s).ptu.partner = (refreshSender f s).ptu.partner := (raiseFloor_frame f.level _).partner

theorem handleProbeNote_knows {f : Frame} {s : State} (h : Knows s.nc.cfg s.nc.now f (refreshSender f s).ptu.table) :
    Knows s.nc.cfg s.nc.now f (handleProbeNote f s).ptu.table :=
  foldl_forwardLeg_knows f.sender _ (labelStep_knows h f.sender _)

theorem handleBurstNote_knows {f : Frame} {s : State} (h : Knows s.nc.cfg s.nc.now f (refreshSender f s).ptu.table) :
    Knows s.nc.cfg s.nc.now f (handleBurstNote f s).ptu.table := by
  rw [handleBurstNote, judgeBurstNote_table]
  exact h

/-- The four ways in which an accepted frame is handled, by the kind of its row. -/
theorem exec_noteFrame {s : State} {ch : ChanId} {bytes : Bytes} {kind : Nat} {f : Frame} {i : Instr}
    (accepted : NoteAccepted s ch bytes kind f)
    (row : (i, kind) ∈ [(.probeFrame ch bytes, 1), (.burstFrame ch bytes, 2), (.fixFrame ch bytes, 3),
      (.echoFrame ch bytes, 4), (.stateFrame ch bytes, 5), (.replyFrame ch bytes, 6)]) :
    (kind = 1 ∧ exec i s = .next (handleProbeNote f (afterReception s ch))) ∨
      (kind = 2 ∧ exec i s = .next (handleBurstNote f (afterReception s ch))) ∨
      ((kind = 3 ∨ kind = 4) ∧ exec i s = .next (handleReport f (afterReception s ch))) ∨
      ((kind = 5 ∨ kind = 6) ∧ exec i s = .next (refreshSender f (afterReception s ch))) := by
  simp only [List.mem_cons, Prod.mk.injEq, List.not_mem_nil, or_false] at row
  rcases row with ⟨rfl, rfl⟩ | ⟨rfl, rfl⟩ | ⟨rfl, rfl⟩ | ⟨rfl, rfl⟩ | ⟨rfl, rfl⟩ | ⟨rfl, rfl⟩
  · exact .inl ⟨rfl, exec_probeFrame accepted⟩
  · exact .inr (.inl ⟨rfl, exec_burstFrame accepted⟩)
  · exact .inr (.inr (.inl ⟨.inl rfl, exec_reportFrame accepted (by simp)⟩))
  · exact .inr (.inr (.inl ⟨.inr rfl, exec_reportFrame accepted (by simp)⟩))
  · exact .inr (.inr (.inr ⟨.inl rfl, exec_refreshFrame accepted (by simp)⟩))
  · exact .inr (.inr (.inr ⟨.inr rfl, exec_refreshFrame accepted (by simp)⟩))

/-- What each act of a note's frame leaves: what every act keeps, the sender's entry, and of a kind from 3 on the refreshed
table and the partner chosen on it. -/
structure Handled (f : Frame) (kind : Nat) (u t : State) : Prop where
  keeps : ActKeeps u t
  knows : (∃ n ∈ occupied u.ptu.table, n.id = f.sender) ∨ newPlace u.ptu.table ≠ none →
    Knows u.nc.cfg u.nc.now f t.ptu.table
  table : 3 ≤ kind → RefreshedTable u.nc.cfg u.nc.now f u.ptu.table t.ptu.table
  partner : 3 ≤ kind → t.ptu.partner = choosePartner u.nc.cfg.position t.ptu.table
  refresh : kind = 5 ∨ kind = 6 → t = refreshSender f u

theorem refreshSender_table (f : Frame) (u : State) :
    RefreshedTable u.nc.cfg u.nc.now f u.ptu.table (refreshSender f u).ptu.table := by
  rw [refreshSender_ptu]
  exact refreshTable_refreshed _ _ _ _

theorem refreshSender_partner (f : Frame) (u : State) :
    (refreshSender f u).ptu.partner = choosePartner u.nc.cfg.position (refreshSender f u).ptu.table := by
  rw [refreshSender_ptu]

theorem noteFrame_handled {s : State} {ch : ChanId} {bytes : Bytes} {kind : Nat} {f : Frame} {i : Instr}
    (accepted : NoteAccepted s ch bytes kind f)
    (row : (i, kind) ∈ [(.probeFrame ch bytes, 1), (.burstFrame ch bytes, 2), (.fixFrame ch bytes, 3),
      (.echoFrame ch bytes, 4), (.stateFrame ch bytes, 5), (.replyFrame ch bytes, 6)]) :
    ∃ t, exec i s = .next t ∧ Handled f kind (afterReception s ch) t := by
  rcases exec_noteFrame accepted row with ⟨is, ran⟩ | ⟨is, ran⟩ | ⟨is, ran⟩ | ⟨is, ran⟩
  · exact ⟨_, ran, (handleProbeNote_step f _).actKeeps, fun known => handleProbeNote_knows (refreshSender_knows known),
      by omega, by omega, by omega⟩
  · exact ⟨_, ran, (handleBurstNote_step f _).actKeeps, fun known => handleBurstNote_knows (refreshSender_knows known),
      by omega, by omega, by omega⟩
  · refine ⟨_, ran, handleReport_actKeeps f _, fun known => ?_, fun _ => ?_, fun _ => ?_, by omega⟩
    · rw [handleReport_table]
      exact refreshSender_knows known
    · rw [handleReport_table]
      exact refreshSender_table f _
    · rw [handleReport_partner, handleReport_table]
      exact refreshSender_partner f _
  · exact ⟨_, ran, (refreshSender_step f _).actKeeps, refreshSender_knows, fun _ => refreshSender_table f _,
      fun _ => refreshSender_partner f _, fun _ => rfl⟩

/-- Settles O36. -/
theorem acceptedFramesRefreshTheSender : Obligations.AcceptedFramesRefreshTheSender := by
  intro s ch bytes kind f i accepted row
  obtain ⟨t, ran, handled⟩ := noteFrame_handled accepted row
  have keeps := handled.keeps
  refine ⟨t, ran, ?_, fun known => ?_, keeps.nc, keeps.cfe, keeps.ce, keeps.slots, fun report => ?_, fun refresh => ?_⟩
  · rw [keeps.channel ch]
    exact afterReception_hunts s ch
  · obtain ⟨n, mem, heard⟩ := handled.knows known
    exact ⟨n, mem, heard.id, heard.lastHeard, heard.lastSeq, heard.position, heard.silence⟩
  · obtain ⟨silence, new, silence_, new_, known, unknown⟩ := handled.table report
    exact ⟨silence, new, silence_, new_, handled.partner report, known, unknown⟩
  · have is := handled.refresh refresh
    refine ⟨is, ?_⟩
    rw [is]
    exact (afterReception_same s ch).trans (refreshSender_same f _) (by simp) (by simp)

/-- Settles O38. -/
theorem reportFramesRaiseTheFloor : Obligations.ReportFramesRaiseTheFloor := by
  intro s ch bytes kind f i accepted row u
  have same : UnchangedBut [.lc, .ptu, .pu, .ec] s u :=
    (afterReception_same s ch).trans (refreshSender_same f _) (by simp) (by simp)
  obtain ⟨nc, cfe, iw, ce, _, _, ft, _, _, na, _⟩ := unchangedBut_iff.1 same
  have naIs := na (by simp)
  have ncIs := nc (by simp)
  have handled : handleReport f (afterReception s ch) = serve { u with na := { u.na with
      floor := max s.na.floor (min f.level 6), floorHold := some (plus s.nc.now 160000000) } } := by
    rw [← naIs, ← ncIs]
    rfl
  have frame := raiseFloor_frame f.level u
  rw [naIs, ncIs] at frame
  exact ⟨_, exec_reportFrame accepted row, handled, frame.floor, frame.floorHold, frame.cfe.trans (cfe (by simp)),
    frame.iw.trans (iw (by simp)), frame.ce.trans (ce (by simp)), frame.ft.trans (ft (by simp))⟩

end Sys2Proof.Machine
end

