-- ==== Sys2Proof/Proofs/Labels.lean ====
section
/-! SUPPORT. The label step and the legs of a PROBE NOTE (R85, R86). -/

namespace Sys2Proof.Machine

open Sys2Proof

/-! ## One member that meets a test -/

theorem countP_unique {α : Type} {p : α → Bool} {xs : List α} {i : Nat} {a : α} (place : xs[i]? = some a) (meets : p a = true)
    (others : ∀ (j : Nat) (b : α), xs[j]? = some b → j ≠ i → p b = false) : xs.countP p = 1 := by
  induction xs generalizing i with
  | nil => simp at place
  | cons x xs ih =>
    rw [List.countP_cons]
    cases i with
    | zero =>
      obtain rfl : x = a := by simpa using place
      have rest : xs.countP p = 0 := List.countP_eq_zero.2 fun b hb => by
        obtain ⟨j, hj⟩ := List.mem_iff_getElem?.1 hb
        simp [others (j + 1) b (by simpa using hj) (by omega)]
      rw [rest, if_pos meets]
    | succ i =>
      have head : p x = false := others 0 x rfl (by omega)
      rw [ih (i := i) (by simpa using place) fun j b hj other => others (j + 1) b (by simpa using hj) (by omega), head]
      rfl

theorem findIdx?_unique {α : Type} {p : α → Bool} {xs : List α} {i : Nat} {a : α} (place : xs[i]? = some a)
    (meets : p a = true) (others : ∀ (j : Nat) (b : α), xs[j]? = some b → j ≠ i → p b = false) :
    xs.findIdx? p = some i :=
  findIdx?_first place meets fun k before b hb => others k b hb before.ne

/-! ## The label step (R85) -/

section
variable {s : State} {i : Nat} {a : Arrival} (l : Label) (place : s.ptu.arrivals[i]? = some a)
include place

theorem labelArrival_waits (waits : ∀ hA, a.state ≠ .good hA) : labelArrival i l s = s.withPtu { s.ptu with
    arrivals := s.ptu.arrivals.set i { a with label := some l, expiry := none } } := by
  unfold labelArrival
  rw [place]
  dsimp only
  split
  case h_1 hA good => exact absurd good (waits hA)
  case h_2 => rw [modify_eq_set _ _ _ _ place]

theorem labelArrival_leg {hA : Time} (good : a.state = .good hA) : labelArrival i l s =
    makeReverseLeg l hA (s.withPtu { s.ptu with arrivals := s.ptu.arrivals.eraseIdx i }) := by
  simp only [labelArrival, place, good]
  rfl

end

section
variable {s : State} (peer : Nat) (p : ProbePayload)

theorem labelStep_one {i : Nat} {a : Arrival} (place : s.ptu.arrivals[i]? = some a)
    (inside : inNoteWindow s.nc.now a = true)
    (others : ∀ (j : Nat) (b : Arrival), s.ptu.arrivals[j]? = some b → j ≠ i → inNoteWindow s.nc.now b = false) :
    labelStep peer p s = labelArrival i ⟨peer, p.number, p.emission⟩ s := by
  simp only [labelStep, countP_unique place inside others, findIdx?_unique place inside others, if_true]

theorem labelStep_several (several : 2 ≤ s.ptu.arrivals.countP (inNoteWindow s.nc.now)) :
    labelStep peer p s = s.withPtu { s.ptu with
      arrivals := s.ptu.arrivals.filter fun a => !inNoteWindow s.nc.now a
      discarded := min (s.ptu.discarded + s.ptu.arrivals.countP (inNoteWindow s.nc.now)) 65535 } :=
  (if_neg (by omega)).trans (if_neg (by omega))

theorem labelStep_none (none_ : s.ptu.arrivals.countP (inNoteWindow s.nc.now) = 0) : labelStep peer p s = s :=
  (if_neg (by omega)).trans (if_pos none_)

end

/-! ## Legs (R81, R85, R86) -/

theorem setTable_lists (table : List (Option Neighbour)) (s : State) : (setTable table s).ptu.arrivals = s.ptu.arrivals ∧
    (setTable table s).ptu.heard = s.ptu.heard ∧ (setTable table s).ptu.discarded = s.ptu.discarded := by
  rw [setTable_ptu]
  exact ⟨rfl, rfl, rfl⟩

/-- The state in which a reverse leg has been stored, before the heard list takes its entry (R85). -/
def reverseStored (l : Label) (hA : Time) (s : State) : State :=
  setTable (s.ptu.table.map (Option.map fun n => if n.id = l.peer
    then n.storeReverse s.nc.cfg s.nc.now ⟨l.emission, hA, l.number⟩ else n)) s

theorem makeReverseLeg_eq (l : Label) (hA : Time) (s : State) : makeReverseLeg l hA s =
    (reverseStored l hA s).withPtu { (reverseStored l hA s).ptu with
      heard := keepNewest 11 (s.ptu.heard ++ [⟨l.peer, l.number, hA⟩]) } := by
  have heard : (reverseStored l hA s).ptu.heard = s.ptu.heard := (setTable_lists _ s).2.1
  rw [← heard]
  rfl

theorem makeReverseLeg_ptu (l : Label) (hA : Time) (s : State) :
    (makeReverseLeg l hA s).ptu.arrivals = s.ptu.arrivals ∧
      (makeReverseLeg l hA s).ptu.heard = keepNewest 11 (s.ptu.heard ++ [⟨l.peer, l.number, hA⟩]) := by
  rw [makeReverseLeg_eq]
  exact ⟨(setTable_lists _ s).1, rfl⟩

theorem forwardLeg_idle {peer : Nat} {s : State} {h : Heard}
    (other : h.peer ≠ s.nc.cfg.nodeId ∨ ∀ e ∈ s.ptu.history, e.number ≠ h.number) : forwardLeg peer s h = s := by
  rw [forwardLeg]
  split
  case isFalse => rfl
  case isTrue own =>
    have absent : (s.ptu.history.find? fun e => e.number == h.number) = none := by
      simpa using other.resolve_left (absurd own)
    rw [absent]

theorem forwardLeg_stores {peer : Nat} {s : State} {h : Heard} (own : h.peer = s.nc.cfg.nodeId) {i : Nat} {e : Emission}
    (place : s.ptu.history[i]? = some e) (number : e.number = h.number)
    (first : ∀ (j : Nat) (x : Emission), j < i → s.ptu.history[j]? = some x → x.number ≠ h.number) :
    forwardLeg peer s h = setTable (s.ptu.table.map (Option.map fun n => if n.id = peer
      then n.storeForward s.nc.cfg s.nc.now ⟨e.time, h.arrival⟩ else n)) s := by
  have found : (s.ptu.history.find? fun e => e.number == h.number) = some e :=
    find?_first place (by simpa using number) fun k before x hx => by simpa using first k x before hx
  rw [forwardLeg, if_pos own, found]
  rfl

/-- A forward leg leaves the arrival and heard lists. -/
theorem forwardLeg_lists (peer : Nat) (s : State) (h : Heard) :
    (forwardLeg peer s h).ptu.arrivals = s.ptu.arrivals ∧ (forwardLeg peer s h).ptu.heard = s.ptu.heard ∧
      (forwardLeg peer s h).ptu.discarded = s.ptu.discarded := by
  unfold forwardLeg
  split
  · split
    · exact setTable_lists _ s
    · exact ⟨rfl, rfl, rfl⟩
  · exact ⟨rfl, rfl, rfl⟩

theorem foldl_forwardLeg_lists (peer : Nat) (hs : List Heard) (s : State) :
    (hs.foldl (forwardLeg peer) s).ptu.arrivals = s.ptu.arrivals ∧
      (hs.foldl (forwardLeg peer) s).ptu.heard = s.ptu.heard ∧
      (hs.foldl (forwardLeg peer) s).ptu.discarded = s.ptu.discarded := by
  induction hs generalizing s with
  | nil => exact ⟨rfl, rfl, rfl⟩
  | cons h hs ih =>
    obtain ⟨arrivals, heard, discarded⟩ := ih (forwardLeg peer s h)
    obtain ⟨arrivals', heard', discarded'⟩ := forwardLeg_lists peer s h
    exact ⟨arrivals.trans arrivals', heard.trans heard', discarded.trans discarded'⟩

/-- Settles O37. -/
theorem probeNoteLabelsTheOneArrival : Obligations.ProbeNoteLabelsTheOneArrival := by
  refine ⟨fun s ch bytes f accepted => ?_, fun s peer p => ⟨fun i a place inside others => ?_, labelStep_several peer p,
    labelStep_none peer p⟩, fun l hA s => ⟨_, rfl, makeReverseLeg_eq l hA s⟩,
    fun peer s h => ⟨forwardLeg_idle, fun own i e => forwardLeg_stores own⟩⟩
  · refine ⟨_, exec_probeFrame accepted, rfl, ?_⟩
    obtain ⟨arrivals, heard, discarded⟩ := setTable_lists (refreshTable s.nc.cfg s.nc.now f.sender f.pos f.seq s.ptu.table)
      (afterReception s ch)
    have now : (refreshSender f (afterReception s ch)).nc.now = s.nc.now := (refreshSender_step f _).now
    obtain ⟨legArrivals, legHeard, legDiscarded⟩ := foldl_forwardLeg_lists f.sender (probePayload f.payload).heard
      (labelStep f.sender (probePayload f.payload) (refreshSender f (afterReception s ch)))
    change (refreshSender f (afterReception s ch)).ptu.arrivals = s.ptu.arrivals at arrivals
    change (refreshSender f (afterReception s ch)).ptu.heard = s.ptu.heard at heard
    change (refreshSender f (afterReception s ch)).ptu.discarded = s.ptu.discarded at discarded
    rw [handleProbeNote, legArrivals, legHeard, legDiscarded]
    generalize refreshSender f (afterReception s ch) = u at arrivals heard discarded now
    rw [← arrivals, ← heard, ← discarded, ← now]
    refine ⟨fun i a place inside others => ⟨fun waits => ?_, fun hA good => ?_⟩, fun several => ?_, fun none_ => ?_⟩
    · rw [labelStep_one _ _ place inside others, labelArrival_waits _ place waits]
      exact ⟨rfl, rfl⟩
    · rw [labelStep_one _ _ place inside others, labelArrival_leg _ place good]
      exact makeReverseLeg_ptu _ _ _
    · rw [labelStep_several _ _ several]
      exact ⟨rfl, rfl⟩
    · rw [labelStep_none _ _ (List.countP_eq_zero.2 fun a ha => by simp [none_ a ha])]
      exact ⟨rfl, rfl⟩
  · rw [labelStep_one peer p place inside others]
    exact ⟨labelArrival_waits _ place, fun hA => labelArrival_leg _ place⟩

end Sys2Proof.Machine
end

