-- ==== Sys2Proof/Proofs/Pairs.lean ====
section
/-! SUPPORT. BURST NOTEs of the partner, notices, records and the pairs they make (R98 to R112). -/

namespace Sys2Proof.Machine

open Sys2Proof

/-! ## Matches (R101 to R105) -/

theorem onsetsMatch_iff {cfg : Cfg} {upper : Nat} {t : Timing} {n : Notice} :
    onsetsMatch cfg upper t n = true ↔ Matches cfg upper t n := by
  rw [onsetsMatch, Bool.and_eq_true, decide_eq_true_eq, decide_eq_true_eq]
  exact Iff.rfl

theorem matchesNotice_iff {cfg : Cfg} {upper : Nat} {n : Notice} {b : Burst} : b.matchesNotice cfg upper n = true ↔
    b.state = .timed ∧ ∃ t, b.timing = some t ∧ Matches cfg upper t n := by
  simp only [Burst.matchesNotice, Bool.and_eq_true, beq_iff_eq, Option.any_eq_true, onsetsMatch_iff]

theorem rankLess_iff (x y : Nat × Nat) : rankLess x y = true ↔ x.1 < y.1 ∨ (x.1 = y.1 ∧ x.2 < y.2) := by
  simp [rankLess]

theorem rankLess_eq_false (x y : Nat × Nat) : rankLess x y = false ↔ ¬(x.1 < y.1 ∨ (x.1 = y.1 ∧ x.2 < y.2)) := by
  rw [← rankLess_iff, Bool.not_eq_true]

theorem pairRank_timed {n : Notice} {b : Burst} {t : Timing} (timing : b.timing = some t) :
    pairRank n b = (score t.signature n.signature, (diff t.fine n.ownOnset).natAbs) := by
  rw [pairRank, timing]
  rfl

theorem recordFor_best {cfg : Cfg} {upper : Nat} {n : Notice} {bs : List Burst} {i : Nat} {t : Timing}
    (best : BestRecord cfg upper n bs i t) : recordFor cfg upper n bs = some i := by
  obtain ⟨b, place, state, timing, matches_, first⟩ := best
  refine bestIdx_dominant place (matchesNotice_iff.2 ⟨state, t, timing, matches_⟩) fun j c hj ok other => ?_
  obtain ⟨state', u, timing', matches'⟩ := matchesNotice_iff.1 ok
  have rank := first j c u hj other state' timing' matches'
  simp only [pairRank_timed timing, pairRank_timed timing', Bool.or_eq_false_iff, Bool.or_eq_true, Bool.and_eq_true,
    Bool.and_eq_false_iff, rankLess_iff, rankLess_eq_false, beq_iff_eq, beq_eq_false_iff_ne, Prod.mk.injEq, Ne]
  rcases rank with lower | ⟨same, nearer | ⟨even, sooner⟩⟩
  · exact ⟨⟨by omega, .inl (by omega)⟩, fun _ => .inl (.inl lower)⟩
  · exact ⟨⟨by omega, .inl (by omega)⟩, fun _ => .inl (.inr ⟨same, nearer⟩)⟩
  · exact ⟨⟨by omega, .inr (earlier_asymm _ _ sooner)⟩, fun _ => .inr ⟨⟨same, even⟩, sooner⟩⟩

theorem recordFor_none {cfg : Cfg} {upper : Nat} {n : Notice} {bs : List Burst}
    (h : ∀ b ∈ bs, ∀ t, b.state = .timed → b.timing = some t → ¬Matches cfg upper t n) : recordFor cfg upper n bs = none :=
  bestIdx_none.2 fun b hb => Bool.eq_false_iff.2 fun ok => by
    obtain ⟨state, t, timing, matches_⟩ := matchesNotice_iff.1 ok
    exact h b hb t state timing matches_

theorem noticeFor_best {cfg : Cfg} {upper : Nat} {t : Timing} {ns : List Notice} {j : Nat} {n : Notice}
    (best : BestNotice cfg upper t ns j n) : noticeFor cfg upper t ns = some j := by
  obtain ⟨place, matches_, first⟩ := best
  refine bestIdx_dominant place (onsetsMatch_iff.2 matches_) fun k m hk ok other => ?_
  have rank := first k m hk other (onsetsMatch_iff.1 ok)
  simp only [rankLess_iff, rankLess_eq_false, onsetGap]
  omega

theorem noticeFor_none {cfg : Cfg} {upper : Nat} {t : Timing} {ns : List Notice}
    (h : ∀ n ∈ ns, ¬Matches cfg upper t n) : noticeFor cfg upper t ns = none :=
  bestIdx_none.2 fun n hn => Bool.eq_false_iff.2 (mt onsetsMatch_iff.1 (h n hn))

/-! ## A pair completed (R106, R109 to R112) -/

theorem keepsResult_iff (s : State) (upper : Nat) (k : FixKind) :
    keepsResult s upper k = true ↔ Kept s.ptu.table s.nc.cfg.position upper k := by
  cases k with
  | inside => simp [keepsResult, Kept]
  | beyondLow => simp [keepsResult, Kept]
  | beyondHigh => simp [keepsResult, Kept]

section
variable {u : Neighbour} {t : Timing} {n : Notice} {s : State} {k : FixKind × Int} {v : State}
  (location : located s.nc.cfg.position u.position
    ((s.nc.cfg.position : Int) + u.position + conv s.nc.cfg.vf (diff t.fine n.ownOnset)) = k)
  (paired : s.withPu { s.pu with
    lastPair := some ⟨n.number, n.peerOnset⟩, pairs := min (s.pu.pairs + 1) 65535 } = v)
include location paired

theorem completePair_kept (kept : Kept s.ptu.table s.nc.cfg.position u.position k.1) :
    completePair u t n s = takeResult ⟨k.1, u.id, u.position, k.2, s.nc.now⟩ v := by
  subst location paired
  exact if_pos ((keepsResult_iff s _ _).2 kept)

theorem completePair_handed (handed : ¬Kept s.ptu.table s.nc.cfg.position u.position k.1) :
    completePair u t n s = v.withPu { v.pu with handedOn := min (s.pu.handedOn + 1) 65535 } := by
  subst location paired
  exact if_neg (mt (keepsResult_iff s _ _).1 handed)

end

/-! ## A record offered (R105) -/

section
variable {s : State} {i id : Nat} {b : Burst} {t : Timing} {u : Neighbour} (partner : s.ptu.partner = some id)
  (entry : entryOf s.ptu.table id = some u)
include partner entry

theorem partnerEntry_eq : s.partnerEntry = some u := by rw [State.partnerEntry, partner, Option.bind_some, entry]

variable (place : s.iw.bursts[i]? = some b) (timing : b.timing = some t)
include place timing

theorem offerRecord_unmatched (none_ : ∀ n ∈ s.pu.notices, ¬Matches s.nc.cfg u.position t n) : offerRecord i s = s := by
  simp only [offerRecord, partnerEntry_eq partner entry, place, Option.bind_some, timing, noticeFor_none none_]

theorem offerRecord_pairs {j : Nat} {n : Notice} (best : BestNotice s.nc.cfg u.position t s.pu.notices j n) :
    offerRecord i s = completePair u t n { s with
      iw := { s.iw with bursts := s.iw.bursts.eraseIdx i }
      pu := { s.pu with notices := s.pu.notices.eraseIdx j } } := by
  simp only [offerRecord, partnerEntry_eq partner entry, place, Option.bind_some, timing, noticeFor_best best, best.1]
  rfl

end

/-! ## A BURST NOTE judged (R98 to R100, R104) -/

theorem isCopy_iff (x : Pu) (p : BurstPayload) : isCopy x p = true ↔
    (∃ n ∈ x.notices, n.number = p.number ∧ n.peerOnset = p.onset) ∨ x.lastPair = some ⟨p.number, p.onset⟩ := by
  simp [isCopy]

theorem judgeBurstNote_refused {s : State} {id : Nat} {p : BurstPayload} (refused : s.ptu.partner ≠ some id ∨
    p.long = true ∨ isCopy s.pu p = true ∨ ∀ n, entryOf s.ptu.table id = some n → n.sync = none) :
    judgeBurstNote id p s = s := by
  unfold judgeBurstNote
  split
  case isFalse => rfl
  case isTrue taken =>
    obtain ⟨partner, short⟩ := taken
    split
    case isTrue => rfl
    case isFalse fresh =>
      have unsynced : ∀ n, entryOf s.ptu.table id = some n → n.sync = none := by
        rcases refused with other | long | copy | unsynced
        · exact absurd partner other
        · simp [short] at long
        · exact absurd copy fresh
        · exact unsynced
      have entry : s.partnerEntry = entryOf s.ptu.table id := by rw [State.partnerEntry, partner, Option.bind_some]
      rw [entry]
      split
      · rfl
      · rename_i u found
        rw [unsynced u found]

section
variable {s : State} {id : Nat} {u : Neighbour} {y : Sync} {p : BurstPayload} (partner : s.ptu.partner = some id)
  (entry : entryOf s.ptu.table id = some u) (sync : u.sync = some y) (short : p.long = false)
  (fresh : isCopy s.pu p = false)
include partner entry sync short fresh

theorem judgeBurstNote_places :
    judgeBurstNote id p s = placeNotice u (noticeOf s.nc.now y u.rate p) s := by
  simp only [judgeBurstNote, partner, short, fresh, partnerEntry_eq partner entry, sync]
  rfl

end

theorem placeNotice_joins {u : Neighbour} {n : Notice} {s : State}
    (none_ : ∀ b ∈ s.iw.bursts, ∀ t, b.state = .timed → b.timing = some t → ¬Matches s.nc.cfg u.position t n) :
    placeNotice u n s = s.withPu { s.pu with notices := keepNewest 16 (s.pu.notices ++ [n]) } := by
  simp only [placeNotice, recordFor_none none_]
  rfl

theorem placeNotice_pairs {u : Neighbour} {n : Notice} {s : State} {i : Nat} {t : Timing}
    (best : BestRecord s.nc.cfg u.position n s.iw.bursts i t) :
    placeNotice u n s = completePair u t n (s.withIw { s.iw with bursts := s.iw.bursts.eraseIdx i }) := by
  obtain ⟨b, place, _, timing, _⟩ := id best
  simp only [placeNotice, recordFor_best best, place, Option.bind_some, timing]

/-! ## A refresh that moves nobody keeps the partner (R96) -/

/-- The peer is that of the SYNCED entry nearest above, of two the lower ID (R96). -/
def IsPartner (own : Nat) (ns : List Neighbour) (id : Nat) : Prop :=
  ∃ n ∈ ns, n.id = id ∧ n.state = .synced ∧ own < n.position ∧ ∀ m ∈ ns, m.state = .synced → own < m.position →
    n.position < m.position ∨ (n.position = m.position ∧ n.id ≤ m.id)

theorem isPartner_unique {own : Nat} {ns : List Neighbour} {i j : Nat} (h : IsPartner own ns i) (k : IsPartner own ns j) :
    i = j := by
  obtain ⟨n, memN, rfl, syncedN, aboveN, bestN⟩ := h
  obtain ⟨m, memM, rfl, syncedM, aboveM, bestM⟩ := k
  have := bestN m memM syncedM aboveM
  have := bestM n memN syncedN aboveN
  omega

theorem choosePartner_eq_some (own : Nat) (table : List (Option Neighbour)) (id : Nat) :
    choosePartner own table = some id ↔ IsPartner own (occupied table) id := by
  obtain ⟨chosen, none_⟩ := partnerIsNearestSyncedAbove own table
  refine ⟨chosen id, fun is => ?_⟩
  cases found : choosePartner own table with
  | none =>
    obtain ⟨n, mem, _, synced, above, _⟩ := is
    exact absurd (none_.1 found n mem synced) (not_le.2 above)
  | some j => rw [isPartner_unique (chosen j found) is]

theorem isPartner_map (own : Nat) (ns : List Neighbour) {g : Neighbour → Neighbour} (id : Nat)
    (same : ∀ n ∈ ns, (g n).id = n.id ∧ (g n).position = n.position ∧ (g n).state = n.state) :
    IsPartner own (ns.map g) id ↔ IsPartner own ns id := by
  constructor
  · rintro ⟨_, mem, is, synced, above, best⟩
    obtain ⟨n, memN, rfl⟩ := List.mem_map.1 mem
    obtain ⟨idN, positionN, stateN⟩ := same n memN
    rw [idN] at is
    rw [stateN] at synced
    rw [positionN] at above
    refine ⟨n, memN, is, synced, above, fun m memM syncedM aboveM => ?_⟩
    obtain ⟨idM, positionM, stateM⟩ := same m memM
    have rank := best (g m) (List.mem_map_of_mem memM) (stateM.trans syncedM) (by omega)
    omega
  · rintro ⟨n, memN, is, synced, above, best⟩
    obtain ⟨idN, positionN, stateN⟩ := same n memN
    refine ⟨g n, List.mem_map_of_mem memN, idN.trans is, stateN.trans synced, by omega, fun m mem syncedM aboveM => ?_⟩
    obtain ⟨m, memM, rfl⟩ := List.mem_map.1 mem
    obtain ⟨idM, positionM, stateM⟩ := same m memM
    have rank := best m memM (stateM.symm.trans syncedM) (by omega)
    omega

theorem choosePartner_map (own : Nat) (table : List (Option Neighbour)) {g : Neighbour → Neighbour}
    (same : ∀ n ∈ occupied table, (g n).id = n.id ∧ (g n).position = n.position ∧ (g n).state = n.state) :
    choosePartner own (table.map (Option.map g)) = choosePartner own table := by
  refine Option.ext fun id => ?_
  rw [choosePartner_eq_some, choosePartner_eq_some, occupied_map]
  exact isPartner_map own _ id same

/-- What the refresh of a frame makes of an entry (R87). -/
def heardAgain (s : State) (f : Frame) (m : Neighbour) : Neighbour :=
  if m.id = f.sender then m.refresh s.nc.cfg s.nc.now f.pos f.seq else m

theorem heardAgain_header (s : State) (f : Frame) (m : Neighbour) : (heardAgain s f m).id = m.id := by
  unfold heardAgain
  split
  · rw [refresh_eq]
    split <;> rfl
  · rfl

theorem heardAgain_still {s : State} {f : Frame} {m : Neighbour} (sender : m.id = f.sender) (position : m.position = f.pos) :
    heardAgain s f m = { m with
      lastHeard := s.nc.now, lastSeq := some f.seq, silence := some (plus s.nc.now (8000000 * s.nc.cfg.probePeriod : Nat)) } := by
  rw [heardAgain, if_pos sender, refresh_eq, if_pos position, removalTicks_eq]

theorem entryOf_sound {table : List (Option Neighbour)} {id : Nat} {u : Neighbour} (entry : entryOf table id = some u) :
    u ∈ occupied table ∧ u.id = id :=
  ⟨List.mem_of_find?_eq_some entry, by simpa using List.find?_some entry⟩

theorem entryOf_map {table : List (Option Neighbour)} {id : Nat} {u : Neighbour} (entry : entryOf table id = some u)
    {g : Neighbour → Neighbour} (same : ∀ n, (g n).id = n.id) : entryOf (table.map (Option.map g)) id = some (g u) := by
  have keeps : ((fun n : Neighbour => n.id == id) ∘ g) = fun n => n.id == id := by
    funext n
    simp [same]
  rw [entryOf, occupied_map, List.find?_map, keeps]
  rw [entryOf] at entry
  rw [entry]
  rfl

/-- Of a sender that stands where it stood, the refresh changes what its entry heard and nothing else (R87, R96). -/
theorem refreshSender_still {s t : State} {f : Frame} (nc : t.nc = s.nc) (ptu : t.ptu = s.ptu)
    (settled : choosePartner s.nc.cfg.position s.ptu.table = s.ptu.partner)
    (still : ∀ m ∈ occupied s.ptu.table, m.id = f.sender → m.position = f.pos)
    (known : ∃ n ∈ occupied s.ptu.table, n.id = f.sender) :
    refreshSender f t = t.withPtu { s.ptu with table := s.ptu.table.map (Option.map (heardAgain s f)) } := by
  have table : refreshTable t.nc.cfg t.nc.now f.sender f.pos f.seq t.ptu.table =
      s.ptu.table.map (Option.map (heardAgain s f)) := by
    rw [nc, ptu, refreshTable_known known]
    rfl
  have chosen : choosePartner t.nc.cfg.position (s.ptu.table.map (Option.map (heardAgain s f))) = t.ptu.partner := by
    rw [nc, ptu, choosePartner_map, settled]
    intro n mem
    by_cases sender : n.id = f.sender
    · rw [heardAgain_still sender (still n mem sender)]
      exact ⟨rfl, rfl, rfl⟩
    · rw [heardAgain, if_neg sender]
      exact ⟨rfl, rfl, rfl⟩
  rw [refreshSender, table, setTable_kept chosen, ptu]

/-- The state in which the partner's note is judged: its sender refreshed where it stood. -/
def partnerHeard (s : State) (ch : ChanId) (f : Frame) : State :=
  (afterReception s ch).withPtu { s.ptu with table := s.ptu.table.map (Option.map (heardAgain s f)) }

/-- A note of the partner, no copy and with the LONG flag clear, is placed as a notice (R98 to R100, R104). -/
theorem exec_burstFrame_places {s : State} {ch : ChanId} {bytes : Bytes} {f : Frame} {u : Neighbour} {y : Sync}
    (accepted : NoteAccepted s ch bytes 2 f) (partner : s.ptu.partner = some f.sender)
    (settled : choosePartner s.nc.cfg.position s.ptu.table = s.ptu.partner)
    (still : ∀ m ∈ occupied s.ptu.table, m.id = f.sender → m.position = f.pos)
    (entry : entryOf s.ptu.table f.sender = some u) (sync : u.sync = some y)
    (short : (burstPayload f.payload).long = false) (fresh : isCopy s.pu (burstPayload f.payload) = false) :
    exec (.burstFrame ch bytes) s = .next (placeNotice (heardAgain s f u)
      (noticeOf s.nc.now y u.rate (burstPayload f.payload)) (partnerHeard s ch f)) := by
  obtain ⟨mem, sender⟩ := entryOf_sound entry
  have again := heardAgain_still (s := s) sender (still u mem sender)
  have refreshed_ : refreshSender f (afterReception s ch) = partnerHeard s ch f :=
    refreshSender_still rfl rfl settled still ⟨u, mem, sender⟩
  refine (exec_burstFrame accepted).trans (congrArg Host.Outcome.next ?_)
  rw [handleBurstNote, refreshed_, judgeBurstNote_places (s := partnerHeard s ch f) (u := heardAgain s f u) (y := y) partner
    (entryOf_map entry (heardAgain_header s f)) (by rw [again, sync]) short fresh]
  rw [again]
  rfl

/-- Settles O39. -/
theorem burstNotesPairOrJoinNotices : Obligations.BurstNotesPairOrJoinNotices := by
  refine ⟨fun s ch bytes f accepted => ?_, isCopy_iff, fun y rate tp => rfl,
    fun s ch bytes f u y accepted partner settled still entry sync short fresh => ?_, fun s i id b t u partner entry place
      timing => ⟨offerRecord_unmatched partner entry place timing, fun j n => offerRecord_pairs partner entry place timing⟩,
    fun u t n s => ⟨completePair_kept rfl rfl, completePair_handed rfl rfl⟩⟩
  · intro p u refused
    exact (exec_burstFrame accepted).trans (congrArg Host.Outcome.next (judgeBurstNote_refused refused))
  · obtain ⟨mem, sender⟩ := entryOf_sound entry
    have again := heardAgain_still (s := s) sender (still u mem sender)
    have placed_ := exec_burstFrame_places accepted partner settled still entry sync short fresh
    rw [again] at placed_
    refine ⟨fun none_ => ⟨_, placed_.trans (congrArg Host.Outcome.next (placeNotice_joins (s := partnerHeard s ch f) none_)),
      rfl, rfl, ?_⟩, fun i t best => ⟨_, _, placed_.trans (congrArg Host.Outcome.next
        (placeNotice_pairs (s := partnerHeard s ch f) best)), rfl, rfl, rfl, ?_, ?_⟩⟩
    · exact (afterReception_same s ch).trans ((ptuSame _ _).trans (puSame (partnerHeard s ch f) _) (cs := [.ptu, .pu])
        (by simp) (by simp)) (by simp) (by simp)
    · exact afterReception_hunts s ch
    · exact (afterReception_same s ch).trans ((ptuSame _ _).trans (iwSame (partnerHeard s ch f) _) (cs := [.ptu, .iw])
        (by simp) (by simp)) (by simp) (by simp)

end Sys2Proof.Machine
end

