-- ==== Sys2Proof/Proofs/Queue.lean ====
section
/-! SUPPORT. A note offered to the queue (R156, R157) and what its leaving brings (R77, R166). -/

namespace Sys2Proof.Machine

open Sys2Proof

/-! ## The note replaced -/

/-- The note in place `i` is the one that a note of `level` replaces on a full queue: not in flight, of strictly lower
level, the oldest, of several the lowest, then the first (R157). -/
structure Victim (level : Nat) (q : List Note) (i : Nat) (v : Note) : Prop where
  place : q[i]? = some v
  resting : v.inFlight = false
  lower : v.level < level
  first : ∀ (j : Nat) (m : Note), q[j]? = some m → j ≠ i → m.inFlight = false → m.level < level →
    earlier v.enqueued m.enqueued = true ∨ (v.enqueued = m.enqueued ∧ (v.level < m.level ∨ (v.level = m.level ∧ i < j)))

theorem victimIdx_none {level : Nat} {q : List Note} :
    victimIdx level q = none ↔ ∀ m ∈ q, m.inFlight = false → level ≤ m.level := by
  rw [victimIdx, bestIdx_none]
  simp

theorem Victim.idx {level i : Nat} {q : List Note} {v : Note} (h : Victim level q i v) : victimIdx level q = some i := by
  refine bestIdx_dominant h.place (by simp [h.resting, h.lower]) fun j m place ok other => ?_
  simp only [Bool.and_eq_true, Bool.not_eq_true', decide_eq_true_eq] at ok
  simp only [Bool.or_eq_false_iff, Bool.and_eq_false_imp, Bool.or_eq_true, Bool.and_eq_true, beq_iff_eq,
    decide_eq_true_eq, decide_eq_false_iff_not]
  rcases h.first j m place other ok.1 ok.2 with older | ⟨same, lower | ⟨level, before⟩⟩
  · exact ⟨⟨earlier_asymm _ _ older, fun same => by simp [same, earlier_irrefl] at older⟩, fun _ => .inl older⟩
  · exact ⟨⟨by rw [same, earlier_irrefl], fun _ => by omega⟩, fun _ => .inr ⟨same, lower⟩⟩
  · exact ⟨⟨by rw [same, earlier_irrefl], fun _ => by omega⟩, fun _ => by omega⟩

/-! ## Joining a full queue -/

section
variable {a : Na} {n : Note} (full : 16 ≤ a.queue.length)
include full

theorem enqueue_refuses (above : ∀ m ∈ a.queue, m.inFlight = false → n.level ≤ m.level) :
    enqueue n a = (.refused, { a with dropped := min (a.dropped + 1) 65535 }) := by
  rw [enqueue, if_neg (by omega), victimIdx_none.2 above]
  rfl

theorem enqueue_replaces {i : Nat} {v : Note} (victim : Victim n.level a.queue i v) : enqueue n a =
    (.replaced v, { a with queue := a.queue.eraseIdx i ++ [n], dropped := min (a.dropped + 1) 65535 }) := by
  rw [enqueue, if_neg (by omega), victim.idx]
  dsimp only
  rw [victim.place]
  rfl

end

/-! ## The offer -/

theorem offer_off {s : State} (c : Content) (level : Nat) (deadline : Option Time) (off : s.nc.node ≠ .running) :
    offer c level deadline s = s := if_neg (by rwa [isRunning_iff])

section
variable {s : State} {c : Content} {level : Nat} {deadline : Option Time} (running : s.nc.node = .running)
  (full : 16 ≤ s.na.queue.length)
include running full

theorem offer_refuses (above : ∀ m ∈ s.na.queue, m.inFlight = false → level ≤ m.level) :
    offer c level deadline s = s.withNa { s.na with dropped := min (s.na.dropped + 1) 65535 } := by
  rw [offer, if_pos (isRunning_iff.2 running), enqueue_refuses full above]

theorem offer_replaces {i : Nat} {v : Note} (victim : Victim level s.na.queue i v) :
    offer c level deadline s = serve (noteGone v.content (s.withNa { s.na with
      queue := s.na.queue.eraseIdx i ++ [newNote s.nc.now c level deadline]
      dropped := min (s.na.dropped + 1) 65535 })) := by
  rw [offer, if_pos (isRunning_iff.2 running), enqueue_replaces full victim]

end

/-! ## The next page of a dump -/

/-- The note that carries the page built now. -/
def pageNote (s : State) (d : Dump) : Note :=
  newNote s.nc.now (.reply (buildPage s d).1) s.nc.cfg.levelReply none

theorem startPage_room {s : State} (d : Dump) (room : s.na.queue.length < 16) : startPage d s = s.withNa { s.na with
    queue := s.na.queue ++ [pageNote s d], dump := some { d with next := (buildPage s d).2 } } := by
  rw [startPage, enqueue_room _ _ room]
  rfl

theorem startPage_refuses {s : State} (d : Dump) (full : 16 ≤ s.na.queue.length)
    (above : ∀ m ∈ s.na.queue, m.inFlight = false → s.nc.cfg.levelReply ≤ m.level) :
    startPage d s = s.withNa { s.na with dropped := min (s.na.dropped + 1) 65535, dump := none } := by
  rw [startPage, enqueue_refuses full above]

theorem startPage_replaces {s : State} (d : Dump) (full : 16 ≤ s.na.queue.length) {i : Nat} {v : Note}
    (victim : Victim s.nc.cfg.levelReply s.na.queue i v) : startPage d s = s.withNa { s.na with
      queue := s.na.queue.eraseIdx i ++ [pageNote s d], dropped := min (s.na.dropped + 1) 65535
      dump := some { d with next := (buildPage s d).2 } } := by
  rw [startPage, enqueue_replaces full victim]
  rfl

/-! ## What the leaving of a note brings -/

theorem noteGone_probe {c : Content} (probe : c.isProbe = true) (s : State) : noteGone c s = unblock s := by
  cases c with
  | probe => rfl
  | _ => exact absurd probe nofun

/-- The leaving of a note that is neither a PROBE NOTE nor a page of the dump in progress brings nothing. -/
theorem noteGone_quiet {c : Content} {s : State} (probe : c.isProbe = false)
    (page : ∀ p, c = .reply p → p.sect = .state ∨ s.na.dump = none) : noteGone c s = s := by
  cases c with
  | probe => exact absurd probe nofun
  | reply p =>
    refine ite_eq_left_iff.2 fun other => ?_
    rw [pageGone, (page p rfl).resolve_left other]
  | _ => rfl

section
variable {s : State} {p : Page} {d : Dump} (sect : p.sect ≠ .state) (dump : s.na.dump = some d)
include sect dump

theorem noteGone_last (last : p.last = true) : noteGone (.reply p) s = s.withNa { s.na with dump := none } := by
  refine (if_neg sect).trans ?_
  rw [pageGone, dump]
  exact if_pos last

theorem noteGone_next (last : p.last = false) : noteGone (.reply p) s = startPage d s := by
  refine (if_neg sect).trans ?_
  rw [pageGone, dump]
  exact if_neg (by simp [last])

end

end Sys2Proof.Machine
end

