-- ==== Sys2Proof/Proofs/Mac.lean ====
section
/-! SUPPORT. The channel of the note in flight (R149, R153, R154), the note the MAC takes (R158) and its pre-emption
(R160). -/

namespace Sys2Proof.Machine

open Sys2Proof

/-! ## The channel of the note in flight -/

section
variable {s : State} {l : Link}

theorem channelChoice_a (clear : s.lc.chA.jammed = false) (unspent : l.collA < 6) : channelChoice s l = some .a :=
  if_pos (by simp [clear, unspent])

theorem channelChoice_b (notA : ¬(s.lc.chA.jammed = false ∧ l.collA < 6))
    (b : s.nc.cfg.dual = true ∧ s.lc.chB.jammed = false ∧ l.collB < 6) : channelChoice s l = some .b :=
  (if_neg (by simpa using notA)).trans (if_pos (by simp [b]))

theorem channelChoice_none (notA : ¬(s.lc.chA.jammed = false ∧ l.collA < 6))
    (notB : ¬(s.nc.cfg.dual = true ∧ s.lc.chB.jammed = false ∧ l.collB < 6)) : channelChoice s l = none :=
  (if_neg (by simpa using notA)).trans (if_neg (by simpa [and_assoc] using notB))

end

section
variable {s : State} {n : Note} (flight : s.na.flight = some n)
include flight

theorem chooseChannel_on {c : ChanId} (choice : channelChoice s (n.link.getD Link.fresh) = some c)
    (hush : s.na.hush = none) : chooseChannel s =
      (s.withNa (s.na.setFlight fun m => { m with link := some ((n.link.getD Link.fresh).on c) })).setMac .defer := by
  simp only [chooseChannel, flight, choice, hushed_eq_false.2 hush]
  rfl

theorem chooseChannel_hushed {c : ChanId} (choice : channelChoice s (n.link.getD Link.fresh) = some c)
    (hush : s.na.hush ≠ none) : chooseChannel s = hold s := by
  simp only [chooseChannel, flight, choice, hushed_iff.2 hush]
  rfl

theorem chooseChannel_none (choice : channelChoice s (n.link.getD Link.fresh) = none) :
    chooseChannel s = if (n.link.getD Link.fresh).spent then dropNote n s else hold s := by
  simp only [chooseChannel, flight, choice]

end

/-- Settles O45. -/
theorem channelIsChosenHeldOrTheNoteDropped : Obligations.ChannelIsChosenHeldOrTheNoteDropped := by
  intro s n flight l a b with_ on held
  refine ⟨fun hA hush => ?_, fun notA hB hush => ?_, fun ab hush => ?_, fun notA notB freshA freshB => ?_,
    fun notA notB spent => ?_⟩
  · exact chooseChannel_on flight (channelChoice_a hA.1 hA.2) hush
  · exact chooseChannel_on flight (channelChoice_b notA hB) hush
  · by_cases hA : a
    · exact chooseChannel_hushed flight (channelChoice_a hA.1 hA.2) hush
    · exact chooseChannel_hushed flight (channelChoice_b hA (ab.resolve_left hA)) hush
  · have unspent : l.spent = false := by simp [Link.spent, freshA, freshB]
    exact (chooseChannel_none flight (channelChoice_none notA notB)).trans (if_neg (Bool.eq_false_iff.1 unspent))
  · have used : l.spent = true := by simpa [Link.spent] using spent
    exact (chooseChannel_none flight (channelChoice_none notA notB)).trans (if_pos used)

/-! ## The note the MAC takes -/

/-- The note in place `i` is the one the MAC takes: not in flight, eligible, of the highest level, of several the oldest,
then the first (R158). -/
structure Chosen (floor : Nat) (q : List Note) (i : Nat) (n : Note) : Prop where
  place : q[i]? = some n
  resting : n.inFlight = false
  eligible : eligible floor n = true
  first : ∀ (j : Nat) (m : Note), q[j]? = some m → j ≠ i → m.inFlight = false → Machine.eligible floor m = true →
    m.level < n.level ∨ (m.level = n.level ∧ (earlier n.enqueued m.enqueued = true ∨
      (earlier m.enqueued n.enqueued = false ∧ i < j)))

theorem chosenIdx_none {a : Na} :
    chosenIdx a = none ↔ ∀ m ∈ a.queue, m.inFlight = false → eligible a.floor m = false := by
  rw [chosenIdx, bestIdx_none]
  simp

theorem Chosen.idx {a : Na} {i : Nat} {n : Note} (h : Chosen a.floor a.queue i n) : chosenIdx a = some i := by
  refine bestIdx_dominant h.place (by simp [h.resting, h.eligible]) fun j m place ok other => ?_
  simp only [Bool.and_eq_true, Bool.not_eq_true'] at ok
  simp only [Bool.or_eq_false_iff, Bool.and_eq_false_imp, Bool.or_eq_true, Bool.and_eq_true, beq_iff_eq,
    decide_eq_true_eq, decide_eq_false_iff_not]
  rcases h.first j m place other ok.1 ok.2 with lower | ⟨same, older | ⟨notOlder, before⟩⟩
  · exact ⟨⟨by omega, fun same => by omega⟩, fun _ => .inl lower⟩
  · exact ⟨⟨by omega, fun _ => earlier_asymm _ _ older⟩, fun _ => .inr ⟨same.symm, older⟩⟩
  · exact ⟨⟨by omega, fun _ => notOlder⟩, fun _ => by omega⟩

/-- No eligible note not in flight stands above the one chosen. -/
theorem Chosen.level_le {floor i : Nat} {q : List Note} {n m : Note} (h : Chosen floor q i n) (mem : m ∈ q)
    (resting : m.inFlight = false) (ok : Machine.eligible floor m = true) : m.level ≤ n.level := by
  obtain ⟨j, place⟩ := List.mem_iff_getElem?.1 mem
  by_cases same : j = i
  · obtain rfl : m = n := Option.some.inj (place.symm.trans (same ▸ h.place))
    exact le_rfl
  · rcases h.first j m place same resting ok with lower | ⟨same, _⟩ <;> omega

/-! ## The rounds of `serve` -/

section
variable {s : State} {k : Nat}

theorem serveLoop_takes {i : Nat} (idle : s.lc.mac = .idle) (running : s.nc.node = .running) (hush : s.na.hush = none)
    (chosen : chosenIdx s.na = some i) : serveLoop (k + 1) s = serveLoop k (takeNote i s) := by
  simp only [serveLoop, idle, isRunning_iff.2 running, hushed_eq_false.2 hush, chosen]
  rfl

theorem serveLoop_rests (idle : s.lc.mac = .idle) (none_ : chosenIdx s.na = none) : serveLoop k s = s := by
  cases k with
  | zero => rfl
  | succ k =>
    simp only [serveLoop, idle, none_]
    split <;> rfl

theorem serveLoop_waits (mac : s.lc.mac = .defer ∨ s.lc.mac = .backoff) (stays : mustPreempt s = false) :
    serveLoop k s = s := by
  cases k with
  | zero => rfl
  | succ k => rcases mac with mac | mac <;> simp [serveLoop, mac, stays]

theorem serveLoop_preempts (mac : s.lc.mac = .defer ∨ s.lc.mac = .backoff) (gives : mustPreempt s = true) :
    serveLoop (k + 1) s = serveLoop k (preempt s) := by
  rcases mac with mac | mac <;> simp [serveLoop, mac, gives]

end

/-- The note in flight is given up when it is not eligible itself, or an eligible note stands above it (R160). -/
theorem mustPreempt_iff {s : State} {n : Note} (flight : s.na.flight = some n) : mustPreempt s = true ↔
    ¬(n.content.isProbe = true ∨ s.na.floor < n.level) ∨
      ∃ q ∈ s.na.queue, q.inFlight = false ∧ eligible s.na.floor q = true ∧ n.level < q.level := by
  simp [mustPreempt, flight, and_assoc]

/-! ## Taking a note with channel A CLEAR -/

theorem map_inFlight_resting {q : List Note} (f : Note → Note) (rest : ∀ m ∈ q, m.inFlight = false) :
    q.map (fun m => if m.inFlight = true then f m else m) = q :=
  (List.map_congr_left (g := id) fun m hm => if_neg (by simp [rest m hm])).trans (List.map_id q)

/-- The MAC in DEFER on channel A with the note `n` of place `i`, under its link record or a new one. -/
def deferOnA (i : Nat) (n : Note) (s : State) : State :=
  { s with
    lc := { s.lc with mac := .defer }
    na := { s.na with
      queue := s.na.queue.set i { n with inFlight := true, link := some ((n.link.getD Link.fresh).on .a) } } }

section
variable {s : State} {i : Nat} {n : Note} (idle : ∀ m ∈ s.na.queue, m.inFlight = false)
include idle

theorem find?_set_inFlight {x : Note} (bound : i < s.na.queue.length) (inFlight : x.inFlight = true) :
    (s.na.queue.set i x).find? (·.inFlight) = some x := by
  refine find?_first (List.getElem?_set_self bound) inFlight fun k hk y hy => ?_
  rw [List.getElem?_set_ne (by omega)] at hy
  exact idle y (List.mem_of_getElem? hy)

theorem deferOnA_flight (bound : i < s.na.queue.length) : (deferOnA i n s).na.flight =
    some { n with inFlight := true, link := some ((n.link.getD Link.fresh).on .a) } := find?_set_inFlight idle bound rfl

theorem takeNote_clear (place : s.na.queue[i]? = some n) (hush : s.na.hush = none) (clear : s.lc.chA.jammed = false)
    (unspent : (n.link.getD Link.fresh).collA < 6) : takeNote i s = deferOnA i n s := by
  obtain ⟨bound, _⟩ := List.getElem?_eq_some_iff.1 place
  let x : Note := { n with inFlight := true, link := some (n.link.getD Link.fresh) }
  have flight : (s.withNa { s.na with queue := s.na.queue.set i x }).na.flight = some x :=
    find?_set_inFlight idle bound rfl
  rw [takeNote, modify_eq_set _ _ _ _ place, chooseChannel_on flight (channelChoice_a clear unspent) hush]
  simp only [Na.setFlight, State.withNa_na, List.map_set, map_inFlight_resting _ idle]
  rfl

/-- An IDLE MAC of a RUNNING node not hushed waits in DEFER on channel A with the note it takes (R158, R149). -/
theorem serveLoop_takes_clear (k : Nat) (mac : s.lc.mac = .idle) (running : s.nc.node = .running) (hush : s.na.hush = none)
    (clear : s.lc.chA.jammed = false) (chosen : Chosen s.na.floor s.na.queue i n)
    (unspent : (n.link.getD Link.fresh).collA < 6) : serveLoop (k + 1) s = deferOnA i n s := by
  obtain ⟨bound, _⟩ := List.getElem?_eq_some_iff.1 chosen.place
  rw [serveLoop_takes mac running hush chosen.idx, takeNote_clear idle chosen.place hush clear unspent]
  refine serveLoop_waits (.inl rfl) (Bool.eq_false_iff.2 fun gives => ?_)
  rcases (mustPreempt_iff (deferOnA_flight idle bound)).1 gives with unfit | ⟨q, mem, resting, ok, above⟩
  · exact unfit (by simpa [eligible, deferOnA] using chosen.eligible)
  · rcases List.mem_or_eq_of_mem_set mem with mem | rfl
    · have := chosen.level_le mem resting ok
      dsimp only at above
      omega
    · exact absurd resting nofun

end

end Sys2Proof.Machine
end

