-- ==== Sys2Proof/Proofs/Arbiter.lean ====
section
/-! SUPPORT. The MAC of a RUNNING node takes the best note, at once when IDLE and after a pre-emption in DEFER or BACKOFF
(R158, R160). -/

namespace Sys2Proof.Machine

open Sys2Proof

/-- Settles O48. -/
theorem idleMacTakesTheBestNote : Obligations.IdleMacTakesTheBestNote := by
  intro s i n link running hush mac clear place fresh ok first
  have idle : ∀ m ∈ s.na.queue, m.inFlight = false := by simpa [List.countP_eq_zero] using link.zero mac
  have chosen : Chosen s.na.floor s.na.queue i n :=
    ⟨place, idle n (List.mem_of_getElem? place), ok, fun j m hm other _ mok => first j m hm mok other⟩
  have unspent : (n.link.getD Link.fresh).collA < 6 := by rw [fresh]; decide
  have taken : serve s = deferOnA i n s := serveLoop_takes_clear idle 39 mac running hush clear chosen unspent
  rw [taken]
  refine ⟨rfl, ?_, by simp [unchangedBut_iff, deferOnA]⟩
  rw [deferOnA_flight idle (List.getElem?_eq_some_iff.1 place).1, fresh]
  rfl

/-! ## Pre-emption -/

theorem flight_unique {q : List Note} {n m : Note} (one : q.countP (·.inFlight) = 1) (hn : n ∈ q) (nf : n.inFlight = true)
    (hm : m ∈ q) (mf : m.inFlight = true) : m = n := by
  rw [List.countP_eq_length_filter] at one
  obtain ⟨x, only⟩ := List.length_eq_one_iff.1 one
  have isX {y : Note} (hy : y ∈ q) (yf : y.inFlight = true) : y = x := by
    have mem : y ∈ q.filter (·.inFlight) := List.mem_filter.2 ⟨hy, yf⟩
    simpa [only] using mem
  rw [isX hn nf, isX hm mf]

/-- The note in flight back in the queue, its remaining backoff cleared (R154, R160). -/
def Note.giveUp (m : Note) : Note := { m with inFlight := false, link := m.link.map fun l => { l with remaining := none } }

theorem preempt_queue (s : State) :
    (preempt s).na.queue = s.na.queue.map fun m => if m.inFlight = true then m.giveUp else m := rfl

/-- After a pre-emption no note is in flight. -/
theorem preempt_resting (s : State) : ∀ m ∈ (preempt s).na.queue, m.inFlight = false := by
  intro m mem
  obtain ⟨k, _, rfl⟩ := List.mem_map.1 mem
  split
  · rfl
  · simp_all

section
variable {s : State} {n : Note} (one : s.na.queue.countP (·.inFlight) = 1) (flight : s.na.flight = some n)
include one flight

/-- A note of the queue after a pre-emption was there before, or is the one given up. -/
theorem preempt_place {j : Nat} {m : Note} (place : (preempt s).na.queue[j]? = some m) :
    (s.na.queue[j]? = some m ∧ m.inFlight = false) ∨ m = n.giveUp := by
  obtain ⟨nMem, nFlight⟩ := flight_mem flight
  rw [preempt_queue, List.getElem?_map] at place
  obtain ⟨k, kPlace, rfl⟩ := Option.map_eq_some_iff.1 place
  split
  · next kFlight => exact .inr (congrArg _ (flight_unique one nMem nFlight (List.mem_of_getElem? kPlace) kFlight))
  · next resting => exact .inl ⟨kPlace, Bool.eq_false_iff.2 resting⟩

/-- With no other note eligible, none is taken after the pre-emption when the note given up is not eligible either. -/
theorem preempt_none (unfit : eligible s.na.floor n = false)
    (none_ : ∀ q ∈ s.na.queue, q.inFlight = false → eligible s.na.floor q = false) : chosenIdx (preempt s).na = none := by
  refine chosenIdx_none.2 fun m mem _ => ?_
  obtain ⟨j, place⟩ := List.mem_iff_getElem?.1 mem
  rcases preempt_place one flight place with ⟨before, resting⟩ | rfl
  · exact none_ m (List.mem_of_getElem? before) resting
  · exact unfit

/-- The best of the other notes is the one taken after the pre-emption, when the note given up is not eligible or one of
the others stands above it. -/
theorem preempt_chosen {i : Nat} {q : Note} (chosen : Chosen s.na.floor s.na.queue i q)
    (below : eligible s.na.floor n = true → n.level < q.level) :
    Chosen (preempt s).na.floor (preempt s).na.queue i q := by
  refine ⟨?_, chosen.resting, chosen.eligible, fun j m place other _ ok => ?_⟩
  · rw [preempt_queue, List.getElem?_map, chosen.place, Option.map_some, if_neg (by simp [chosen.resting])]
  · rcases preempt_place one flight place with ⟨before, resting⟩ | rfl
    · exact chosen.first j m before other resting ok
    · exact .inl (below ok)

end

/-- Settles O43. -/
theorem fullQueueReplacesAndFlightIsPreempted : Obligations.FullQueueReplacesAndFlightIsPreempted := by
  constructor
  · intro s c level deadline n
    refine ⟨offer_off c level deadline, fun running room => offer_room c level deadline (isRunning_iff.2 running) room,
      fun running full => ⟨offer_refuses running full, fun i v place resting lower first => ?_⟩⟩
    exact offer_replaces running full ⟨place, resting, lower, first⟩
  · intro s n link mac flight above u
    refine ⟨fun fit none_ => serveLoop_waits mac (Bool.eq_false_iff.2 fun gives => ?_), fun gives => ?_⟩
    · rcases (mustPreempt_iff flight).1 gives with unfit | ⟨q, mem, higher⟩
      · exact unfit fit
      · exact none_ q mem higher
    have one := link.one (s := s) (by rcases mac with mac | mac <;> simp [mac])
    have given (k : Nat) : serveLoop (k + 1) s = serveLoop k u :=
      serveLoop_preempts mac ((mustPreempt_iff flight).2 gives)
    refine ⟨fun none_ => ?_, fun i q running hush clear place resting ok first => ?_⟩
    · have unfit : eligible s.na.floor n = false := by
        rcases gives with unfit | ⟨q, mem, resting, ok, _⟩
        · simpa [eligible] using unfit
        · exact absurd ok (by simp [none_ q mem resting])
      exact (given 39).trans (serveLoop_rests rfl (preempt_none one flight unfit none_))
    · intro k unspent
      have chosen : Chosen s.na.floor s.na.queue i q := ⟨place, resting, ok, first⟩
      have below : eligible s.na.floor n = true → n.level < q.level := fun fit => by
        rcases gives with unfit | ⟨r, mem, rests, rok, higher⟩
        · exact absurd (by simpa [eligible] using fit) unfit
        · exact lt_of_lt_of_le higher (chosen.level_le mem rests rok)
      exact (given 39).trans (serveLoop_takes_clear (preempt_resting s) 38 rfl running hush clear
        (preempt_chosen one flight chosen below) unspent)

end Sys2Proof.Machine
end

