-- ==== Sys2Proof/Proofs/Air.lean ====
section
/-! SUPPORT. The frames on air: the backoff drawn and counted out, the frame started, heard whole or cut (R150 to R152). -/

namespace Sys2Proof.Machine

open Sys2Proof

/-! ## The frame started -/

/-- The payload of a note reads of the queue its length alone, and nothing of the MAC or the random source. -/
theorem payloadOf_relinked (s : State) (rng : Seed) (m : Mac) (f : Note → Note) (c : Content) :
    payloadOf (((s.withNc { s.nc with rng }).withNa (s.na.setFlight f)).setMac m) c = payloadOf s c := by
  cases c with
  | state =>
    refine (congrArg (stateBody _) (setFlight_length s.na f)).trans ?_
    rfl
  | _ => rfl

/-- The remaining backoff of a note in flight cleared (R151). -/
def Note.clearBackoff (m : Note) : Note := { m with link := m.link.map fun k => { k with remaining := none } }

/-- The MAC SENDING `bytes` on channel `c`, under the next sequence number. -/
def keyed (s : State) (c : ChanId) (bytes : Bytes) : Lc :=
  { s.lc with mac := .sending, tx := some ⟨c, bytes, s.nc.now, []⟩, nextSeq := s.lc.nextSeq + 1 }

theorem startFrame_eq {s : State} {n : Note} {l : Link} {c : ChanId} (flight : s.na.flight = some n)
    (link : n.link = some l) (chan : l.channel = some c) :
    startFrame s = (s.withNa (s.na.setFlight Note.clearBackoff)).withLc (keyed s c (frameOf s n)) := by
  simp only [startFrame, flight, link, Option.getD_some, chan]
  rfl

/-! ## The backoff -/

/-- The MAC in BACKOFF with a draw of `d` slots for the note in flight (R150). -/
def drawnBackoff (s : State) (l : Link) (d : Nat) (rng : Seed) : State :=
  ((s.withNc { s.nc with rng }).withNa
    (s.na.setFlight fun n => { n with link := some { l with remaining := some (slotTicks * d) } })).setMac .backoff

theorem drawnBackoff_flight {s : State} {n : Note} (l : Link) (d : Nat) (rng : Seed) (flight : s.na.flight = some n) :
    (drawnBackoff s l d rng).na.flight = some { n with link := some { l with remaining := some (slotTicks * d) } } :=
  flight_setFlight _ (fun _ h => h) flight

theorem setFlight_setFlight (a : Na) (f g : Note → Note) (keeps : ∀ n, n.inFlight = true → (f n).inFlight = true) :
    (a.setFlight f).setFlight g = a.setFlight fun n => g (f n) := by
  simp only [Na.setFlight, List.map_map, Na.mk.injEq, and_true]
  refine List.map_congr_left fun n _ => ?_
  by_cases h : n.inFlight = true
  · simp [h, keeps n h]
  · simp [h]

/-- A draw of 0 slots starts the frame, of the note as it stood in DEFER (entry 14). -/
theorem startFrame_drawn {s : State} {n : Note} {l : Link} {c : ChanId} (rng : Seed) (flight : s.na.flight = some n)
    (chan : l.channel = some c) : startFrame (drawnBackoff s l 0 rng) =
      ((s.withNc { s.nc with rng }).withNa (s.na.setFlight fun m => { m with link := some { l with remaining := none } })).withLc
        (keyed s c (frameOf s n)) := by
  have bytes : frameOf (drawnBackoff s l 0 rng) { n with link := some { l with remaining := some (slotTicks * 0) } } =
      frameOf s n := congrArg (fun p => [170, 170, 147, 11] ++ withCrc (headerAndPayload s.nc.cfg s.lc.nextSeq
        n.content.kind n.level p)) (payloadOf_relinked s rng .backoff _ n.content)
  rw [startFrame_eq (drawnBackoff_flight l 0 rng flight) rfl chan, bytes]
  have relinked : (drawnBackoff s l 0 rng).na.setFlight Note.clearBackoff =
      s.na.setFlight fun m => { m with link := some { l with remaining := none } } :=
    setFlight_setFlight s.na _ _ fun _ h => h
  rw [relinked]
  rfl

section
variable {s : State} {l : Link} (met : gapMet s = some l)
include met

theorem interframeGap_resumes {r : Nat} (remaining : l.remaining = some r) (positive : 0 < r) :
    interframeGap s = s.withLc { s.lc with mac := .backoff } := by
  simp only [interframeGap, met, remaining]
  exact if_neg (by omega)

theorem interframeGap_draws (remaining : l.remaining = none) : ∃ (d : Nat) (rng : Seed), d ≤ 2 ^ l.e - 1 ∧
    interframeGap s = if d = 0 then startFrame (drawnBackoff s l d rng) else drawnBackoff s l d rng := by
  refine ⟨(draw (2 ^ l.e - 1) s.nc.rng).1, (draw (2 ^ l.e - 1) s.nc.rng).2, draw_le _ _, ?_⟩
  simp only [interframeGap, met, remaining]
  rfl

end

/-- Settles O44. -/
theorem backoffIsDrawnAndEndsInTheFrame : Obligations.BackoffIsDrawnAndEndsInTheFrame := by
  constructor
  · intro s n l c live_ mac flight link chan carrier idle
    have met : gapMet s = some l := gapMet_eq_some.2 ⟨mac, n, c, flight, link, chan, carrier, idle⟩
    refine ⟨interframeGap s, next_live interframeGap live_, fun r => interframeGap_resumes met, fun none_ => ?_⟩
    obtain ⟨d, rng, bound, drawn⟩ := interframeGap_draws met none_
    refine ⟨d, bound, fun positive => ?_, fun zero => ?_, ?_⟩
    · rw [drawn, if_neg (by omega)]
      exact ⟨rfl, ⟨_, drawnBackoff_flight l d rng flight, rfl⟩, rfl⟩
    · subst zero
      rw [drawn, if_pos rfl, startFrame_drawn rng flight chan]
      exact ⟨rfl, rfl, rfl, rfl⟩
    · by_cases zero : d = 0
      · subst zero
        rw [drawn, if_pos rfl, startFrame_drawn rng flight chan]
        exact ⟨rfl, by simp [unchangedBut_iff]⟩
      · rw [drawn, if_neg zero]
        exact ⟨rfl, by simp [unchangedBut_iff, drawnBackoff, State.setMac]⟩
  · intro s n l c live_ mac flight link chan zero
    have over_ : backoffEnd s = startFrame s := if_pos ((backoffOver_iff s).2 ⟨mac, n, l, flight, link, zero⟩)
    refine ⟨_, (next_live backoffEnd live_).trans (congrArg Host.Outcome.next
      (over_.trans (startFrame_eq flight link chan))), rfl, ?_, rfl, by simp [unchangedBut_iff]⟩
    refine (flight_setFlight Note.clearBackoff (fun _ h => h) flight).trans ?_
    rw [Note.clearBackoff, link]
    rfl

end Sys2Proof.Machine
end

