-- ==== Sys2Proof/Proofs/Ends.lean ====
section
/-! SUPPORT. The ends of a note: sent, cut by a collision, withdrawn at its deadline (R151, R152, R161), and the timers of
the floor, the hush and the STATE NOTE (R159, R162, R163). -/

namespace Sys2Proof.Machine

open Sys2Proof

/-! ## Frame sent -/

theorem frameSent_whole {s : State} {n : Note} {x : Transmission} (mac : s.lc.mac = .sending)
    (flight : s.na.flight = some n) (tx : s.lc.tx = some x) (heard : x.heard = x.bytes.map some) :
    frameSent s = serve (noteGone n.content ((transmitterOff s .idle).withNa s.na.dropFlight)) := by
  have whole : heardWhole s = true := (onAir_any s _).2 ⟨mac, x, tx, (whole_iff x).2 heard⟩
  simp only [frameSent, flight, whole]
  rfl

/-- Settles O46. -/
theorem frameSentRemovesTheNote : Obligations.FrameSentRemovesTheNote := by
  constructor
  · intro s n x live_ mac flight tx heard
    exact (next_live frameSent live_).trans (congrArg Host.Outcome.next (frameSent_whole mac flight tx heard))
  · intro s c
    refine ⟨fun probe => noteGone_probe probe s, noteGone_quiet, fun p d page sect dump => ?_⟩
    subst page
    refine ⟨noteGone_last sect dump, fun more room => ?_, fun more full above => ?_,
      fun i v more full place resting lower first => ?_⟩
    · exact (noteGone_next sect dump more).trans (startPage_room d room)
    · exact (noteGone_next sect dump more).trans (startPage_refuses d full above)
    · exact (noteGone_next sect dump more).trans (startPage_replaces d full ⟨place, resting, lower, first⟩)

/-! ## Collision -/

theorem countWithdrawn_eq (c : Content) (s : State) : countWithdrawn c s = s.withPtu { s.ptu with
    wasted := if c.isProbe = true then min (s.ptu.wasted + 1) 65535 else s.ptu.wasted } := by
  cases probe : c.isProbe with
  | true => simp only [countWithdrawn, probe]; rfl
  | false => simp only [countWithdrawn, probe]; rfl

theorem Link.collide_eq (k : Link) (c : ChanId) : k.collide c = { k with
    e := min 6 (k.e + 1), remaining := none
    collA := if c = .a then k.collA + 1 else k.collA
    collB := if c = .b then k.collB + 1 else k.collB } := by
  cases c <;> rfl

section
variable {s : State} {n : Note} {x : Transmission} (mac : s.lc.mac = .sending) (flight : s.na.flight = some n)
  (tx : s.lc.tx = some x) (differs : x.heard ≠ (x.bytes.take x.heard.length).map some)
include mac flight tx differs

theorem collision_withdraws (passed : expired s.nc.now n.deadline = true) : collision s =
    serve (noteGone n.content (countWithdrawn n.content ((transmitterOff s .idle).withNa s.na.dropFlight))) := by
  have heard : heardDiffering s = true := (onAir_any s _).2 ⟨mac, x, tx, by
    rwa [Bool.not_eq_true', ← Bool.not_eq_true, agrees_iff]⟩
  simp only [collision, flight, tx, heard, passed]
  rfl

theorem collision_chooses (before : expired s.nc.now n.deadline = false) : collision s =
    serve (chooseChannel ((transmitterOff s .idle).withNa (s.na.setFlight fun m => { m with
      link := some ((m.link.getD Link.fresh).collide x.channel), content := refreshed s.ft.places m.content }))) := by
  have heard : heardDiffering s = true := (onAir_any s _).2 ⟨mac, x, tx, by
    rwa [Bool.not_eq_true', ← Bool.not_eq_true, agrees_iff]⟩
  simp only [collision, flight, tx, heard, before]
  rfl

end

/-- Settles O47. -/
theorem collisionCutsTheFrame : Obligations.CollisionCutsTheFrame := by
  intro s n x live_ mac flight tx differs
  refine ⟨fun before => (next_live collision live_).trans (congrArg Host.Outcome.next ?_),
    fun passed => (next_live collision live_).trans (congrArg Host.Outcome.next ?_)⟩
  · rw [collision_chooses mac flight tx differs before]
    simp only [Link.collide_eq]
    rfl
  · rw [collision_withdraws mac flight tx differs passed, countWithdrawn_eq]
    rfl

/-! ## The deadline of a note -/

/-- The queue without the note of place `i`, its withdrawal counted, the MAC IDLE when it was the note in flight (R161). -/
def withdrawn (i : Nat) (n : Note) (s : State) : State :=
  { s with
    na := { s.na with queue := s.na.queue.eraseIdx i }
    lc := { s.lc with mac := if n.inFlight = true then .idle else s.lc.mac }
    ptu := { s.ptu with wasted := if n.content.isProbe = true then min (s.ptu.wasted + 1) 65535 else s.ptu.wasted } }

theorem noteDeadline_withdraws {s : State} {i : Nat} {n : Note} (place : s.na.queue[i]? = some n)
    (passed : expired s.nc.now n.deadline = true) (quiet : ¬(n.inFlight = true ∧ s.lc.mac = .sending)) :
    noteDeadline i s = serve (noteGone n.content (withdrawn i n s)) := by
  have over_ : deadlineOver i s = some n := by
    simp only [deadlineOver, place]
    exact if_pos (by simpa [passed, imp_iff_not_or] using quiet)
  simp only [noteDeadline, over_, countWithdrawn_eq, withdrawn]
  cases n.inFlight <;> rfl

/-! ## The hush -/

theorem unblock_lc (s : State) : (unblock s).lc = s.lc := (unblock_same s).1 .lc (by simp)

theorem endHush_eq (s : State) : endHush s =
    if s.lc.mac = .held then serve (chooseChannel (unblock (s.withNa { s.na with hush := none })))
    else serve (unblock (s.withNa { s.na with hush := none })) := by
  have mac : (unblock (s.withNa { s.na with hush := none })).lc.mac = s.lc.mac := by rw [unblock_lc]; rfl
  unfold endHush
  dsimp only
  rw [mac]
  cases s.lc.mac <;> rfl

theorem endHush_frame (s : State) : SendFrame (s.withNa { s.na with hush := none }) (endHush s) := by
  rw [endHush_eq]
  split
  · exact (unblock_frame _).trans ((chooseChannel_frame _).trans (serve_frame _))
  · exact (unblock_frame _).trans (serve_frame _)

/-! ## STATE_TIMER -/

section
variable {s : State} {x : Time} (timer : s.na.stateTimer = some x) (due : reached s.nc.now x = true)
  (on : s.nc.cfg.statePeriod ≠ 0)
include timer due on

theorem stateTimer_restarts : stateTimer s =
    if s.nc.cfg.levelState = 0 ∨ ∃ n ∈ s.na.queue, n.content.isState = true then
      s.withNa { s.na with stateTimer := some (plus x (800000000 * s.nc.cfg.statePeriod : Nat)) }
    else offer .state s.nc.cfg.levelState none
      (s.withNa { s.na with stateTimer := some (plus x (800000000 * s.nc.cfg.statePeriod : Nat)) }) := by
  have period : perSecond * s.nc.cfg.statePeriod ≠ 0 := by
    unfold perSecond
    omega
  simp only [stateTimer, timer, due, if_pos, if_neg period, Bool.or_eq_true, decide_eq_true_eq, List.any_eq_true]
  rfl

end

/-- Settles O49. -/
theorem noteTimersRunOut : Obligations.NoteTimersRunOut := by
  intro s live_
  refine ⟨fun i n place passed quiet => ?_, fun passed => ?_, fun passed => ?_, fun x timer due on => ⟨fun silent => ?_,
    fun level none_ => ?_⟩⟩
  · refine ⟨withdrawn i n s, (next_live (noteDeadline i) live_).trans (congrArg Host.Outcome.next
      (noteDeadline_withdraws place passed quiet)), rfl, rfl, rfl, by simp [unchangedBut_iff, withdrawn]⟩
  · exact ⟨_, (next_live floorHoldExpiry live_).trans (congrArg Host.Outcome.next (if_pos passed)), rfl,
      by simp [unchangedBut_iff]⟩
  · have ended : hushExpiry s = endHush s := if_pos passed
    have frame := endHush_frame s
    exact ⟨endHush s, (next_live hushExpiry live_).trans (congrArg Host.Outcome.next ended), endHush_eq s, frame.hush,
      frame.floor, frame.nc, frame.cfe, frame.iw, frame.ce, frame.ft, frame.ec⟩
  · exact (next_live stateTimer live_).trans (congrArg Host.Outcome.next
      ((stateTimer_restarts timer due on).trans (if_pos silent)))
  · have offers : exec .stateTimer s = .next (offer .state s.nc.cfg.levelState none
        (s.withNa { s.na with stateTimer := some (plus x (800000000 * s.nc.cfg.statePeriod : Nat)) })) := by
      refine (next_live stateTimer live_).trans (congrArg Host.Outcome.next
        ((stateTimer_restarts timer due on).trans (if_neg ?_)))
      rintro (zero | ⟨n, mem, state⟩)
      · exact level zero
      · exact absurd state (by simp [none_ n mem])
    refine ⟨offers, fun running room => offers.trans (congrArg Host.Outcome.next ?_)⟩
    exact offer_room _ _ _ (isRunning_iff.2 running) room

end Sys2Proof.Machine
end

