-- ==== Sys2Proof/Proofs/Commands.lean ====
section
/-! SUPPORT. The command service (R147, R164): what an accepted COMMAND frame leads to, and HUSH, REBASE, CLEAR FIXES,
RESTART and the unknown command (R9, R127, R140, R162). -/

namespace Sys2Proof.Machine

open Sys2Proof

/-! ## The reception of a COMMAND frame -/

/-- The state in which an accepted command's handling begins: the receiver of the channel hunts again, and the listener's
last sequence number is the frame's (R144, R147). -/
def commandHeard (s : State) (ch : ChanId) (f : Frame) : State :=
  s.withLc { s.lc.setChannel ch { s.lc.channel ch with receiver := none } with listenerSeq := some f.seq }

section
variable {s : State} {ch : ChanId} {bytes bs : Bytes} {f : Frame} {mine : CommandPayload → Bool}
  {act : CommandPayload → State → State}

/-- A command of the row, addressed to the node, is carried out in RUNNING, and RESTART in CLASHED too (R8, R148). -/
theorem commandRow_runs {p : CommandPayload} (accepted : CommandAccepted s ch bytes f p) (own : mine p = true)
    (ready : s.nc.node = .running ∨ p.code = 5) : commandRow mine act ch bytes s = act p (commandHeard s ch f) := by
  obtain ⟨bs, done, verdict, rfl, target⟩ := accepted
  simp only [commandRow, done, verdict, own, if_true]
  refine (if_neg (by tauto)).trans (if_pos ?_)
  rwa [isRunning_iff]

/-- A command of the row for another node, and one in CLASHED other than RESTART, changes the reception alone. -/
theorem commandRow_passes (done : completed s ch bytes = some bs) (verdict : judge s bs = .command f)
    (own : mine (commandPayload f.payload) = true)
    (ignored : ((commandPayload f.payload).target ≠ s.nc.cfg.nodeId ∧ (commandPayload f.payload).target ≠ 0) ∨
      (s.nc.node = .clashed ∧ (commandPayload f.payload).code ≠ 5)) :
    commandRow mine act ch bytes s = commandHeard s ch f := by
  simp only [commandRow, done, verdict, own, if_true]
  by_cases other : (commandPayload f.payload).target ≠ s.nc.cfg.nodeId ∧ (commandPayload f.payload).target ≠ 0
  · exact if_pos other
  · obtain ⟨clashed, notRestart⟩ := ignored.resolve_left other
    refine (if_neg other).trans (if_neg ?_)
    simp [isRunning_iff, clashed, notRestart]

end

@[simp] theorem commandHeard_mac (s : State) (ch : ChanId) (f : Frame) : (commandHeard s ch f).lc.mac = s.lc.mac :=
  setChannel_mac _ _ _

theorem isQuery_iff {n : Nat} {p : CommandPayload} : isQuery n p = true ↔ p.code = 1 ∧ p.argument = n := by
  simp [isQuery]

theorem isCode_iff {n : Nat} {p : CommandPayload} : isCode n p = true ↔ p.code = n := by simp [isCode]

theorem isUnknown_iff {p : CommandPayload} :
    isUnknown p = true ↔ p.code = 0 ∨ 6 ≤ p.code ∨ (p.code = 1 ∧ (p.argument = 0 ∨ 5 ≤ p.argument)) := by
  simp only [isUnknown, Bool.or_eq_true, Bool.and_eq_true, Bool.not_eq_true', Bool.and_eq_false_iff,
    decide_eq_false_iff_not, beq_iff_eq]
  omega

/-! ## Unknown commands, and commands not for the node -/

/-- Settles O56. -/
theorem unknownCommandIsCounted : Obligations.UnknownCommandIsCounted := by
  constructor
  · intro s ch bytes f p accepted running unknown
    exact congrArg Host.Outcome.next (commandRow_runs accepted (isUnknown_iff.2 unknown) (.inl running))
  · intro s ch bytes bs f i done verdict p row ignored
    rcases row with ⟨rfl, query⟩ | ⟨rfl, query⟩ | ⟨rfl, query⟩ | ⟨rfl, query⟩ | ⟨rfl, code⟩ | ⟨rfl, code⟩ | ⟨rfl, code⟩ |
      ⟨rfl, code⟩ | ⟨rfl, unknown⟩
    · exact congrArg Host.Outcome.next (commandRow_passes done verdict (isQuery_iff.2 query) ignored)
    · exact congrArg Host.Outcome.next (commandRow_passes done verdict (isQuery_iff.2 query) ignored)
    · exact congrArg Host.Outcome.next (commandRow_passes done verdict (isQuery_iff.2 query) ignored)
    · exact congrArg Host.Outcome.next (commandRow_passes done verdict (isQuery_iff.2 query) ignored)
    · exact congrArg Host.Outcome.next (commandRow_passes done verdict (isCode_iff.2 code) ignored)
    · exact congrArg Host.Outcome.next (commandRow_passes done verdict (isCode_iff.2 code) ignored)
    · exact congrArg Host.Outcome.next (commandRow_passes done verdict (isCode_iff.2 code) ignored)
    · exact congrArg Host.Outcome.next (commandRow_passes done verdict (isCode_iff.2 code) ignored)
    · exact congrArg Host.Outcome.next (commandRow_passes done verdict (isUnknown_iff.2 unknown) ignored)

/-! ## HUSH -/

/-- The hush of `n` seconds, 600 at most, from now (R162). -/
def hushUntil (n : Nat) (s : State) : State :=
  s.withNa { s.na with hush := some (plus s.nc.now (800000000 * min n 600 : Nat)) }

theorem hushCommand_holds {s : State} {n : Nat} (positive : 1 ≤ n) (mac : s.lc.mac = .defer ∨ s.lc.mac = .backoff) :
    hushCommand n s = hold (hushUntil n s) := by
  rw [hushCommand, if_neg (by omega)]
  unfold beginHush
  dsimp only [State.withNa_lc]
  rcases mac with mac | mac <;> simp only [mac] <;> rfl

theorem hushCommand_leaves {s : State} {n : Nat} (positive : 1 ≤ n) (defer : s.lc.mac ≠ .defer)
    (backoff : s.lc.mac ≠ .backoff) : hushCommand n s = hushUntil n s := by
  rw [hushCommand, if_neg (by omega)]
  unfold beginHush
  dsimp only [State.withNa_lc]
  cases mac : s.lc.mac <;> simp_all [hushUntil, perSecond]

/-- Settles O54. -/
theorem hushHoldsTheTransmitter : Obligations.HushHoldsTheTransmitter := by
  intro s ch bytes f p accepted code running l hush
  have heard : exec (.hush ch bytes) s = .next (hushCommand p.argument (commandHeard s ch f)) :=
    congrArg Host.Outcome.next (commandRow_runs accepted (isCode_iff.2 code) (.inl running))
  have mac : (commandHeard s ch f).lc.mac = s.lc.mac := commandHeard_mac s ch f
  refine ⟨fun positive waits => ?_, fun positive defer backoff => ?_, fun zero hushed => ?_, fun zero free => ?_⟩
  · exact heard.trans (congrArg Host.Outcome.next (hushCommand_holds positive (by rwa [mac])))
  · exact heard.trans (congrArg Host.Outcome.next (hushCommand_leaves positive (by rwa [mac]) (by rwa [mac])))
  · have ends : hushCommand p.argument (commandHeard s ch f) = endHush (commandHeard s ch f) :=
      (if_pos zero).trans (if_pos (hushed_iff.2 hushed))
    rw [heard, ends, endHush_eq, mac]
    rfl
  · exact heard.trans (congrArg Host.Outcome.next ((if_pos zero).trans (if_neg (mt hushed_iff.1 (not_not.2 free)))))

/-! ## REBASE and CLEAR FIXES -/

theorem echoInFlight_iff {c : Ce} : c.echoInFlight = true ↔ ∃ j ∈ c.jobs, j.isEcho = true := by
  simp [Ce.echoInFlight, Ce.jobs, or_and_right, exists_or, Option.any_eq_true]

theorem rebaseCommand_pending {s : State} (echo : ∃ j ∈ s.ce.jobs, j.isEcho = true) :
    rebaseCommand s = s.withEc { s.ec with rebase := true } := if_pos (echoInFlight_iff.2 echo)

theorem rebaseCommand_taken {s : State} (none_ : ∀ j ∈ s.ce.jobs, j.isEcho = false) :
    rebaseCommand s = takeRebase (s.withEc { s.ec with rebase := true }) :=
  if_neg fun echo => by
    obtain ⟨j, mem, isEcho⟩ := echoInFlight_iff.1 echo
    exact absurd isEcho (by simp [none_ j mem])

/-- A FIX NOTE that stands for no record carries the content it had (R127). -/
theorem unlinkAny_eq (n : Note) : unlinkAny n = { n with content := (unlinkAny n).content } := by
  unfold unlinkAny
  split <;> rfl

theorem unlinkAny_payload (s : State) (n : Note) : payloadOf s (unlinkAny n).content = payloadOf s n.content := by
  unfold unlinkAny
  split
  · next fix => rw [fix]; rfl
  · rfl

theorem unlinkAny_standsFor (n : Note) (p : Nat) : (unlinkAny n).content.standsFor p = false := by
  unfold unlinkAny
  split
  · rfl
  · next other =>
    cases content : n.content with
    | fix q image => exact absurd content (other q image)
    | _ => rfl

/-- Settles O52. -/
theorem rebaseAndClearFixesEmptyTheStores : Obligations.RebaseAndClearFixesEmptyTheStores := by
  intro s ch bytes f p accepted running l
  refine ⟨fun code => ?_, fun code => ?_⟩
  · have heard : exec (.rebase ch bytes) s = .next (rebaseCommand (commandHeard s ch f)) :=
      congrArg Host.Outcome.next (commandRow_runs accepted (isCode_iff.2 code) (.inl running))
    refine ⟨rebaseCommand (commandHeard s ch f), heard, ?_, fun none_ => ?_, fun echo => ?_⟩
    · by_cases echo : ∃ j ∈ s.ce.jobs, j.isEcho = true
      · rw [rebaseCommand_pending (s := commandHeard s ch f) echo]
        rfl
      · have none_ : ∀ j ∈ s.ce.jobs, j.isEcho = false := by simpa using echo
        rw [rebaseCommand_taken (s := commandHeard s ch f) none_]
        rfl
    · rw [rebaseCommand_taken (s := commandHeard s ch f) none_, takeRebase_eq, followTable_eq]
      simp only [State.withEc_lc, commandHeard_mac]
      exact ⟨rfl, rfl, rfl, by simp [unchangedBut_iff, commandHeard]⟩
    · rw [rebaseCommand_pending (s := commandHeard s ch f) echo]
      exact ⟨rfl, by simp [unchangedBut_iff, commandHeard]⟩
  · have heard : exec (.clearFixes ch bytes) s = .next (clearTable (commandHeard s ch f)) :=
      congrArg Host.Outcome.next (commandRow_runs accepted (isCode_iff.2 code) (.inl running))
    refine ⟨clearTable (commandHeard s ch f), heard, rfl, rfl, rfl, List.length_map .., fun i n place => ?_,
      by simp [unchangedBut_iff, commandHeard, clearTable]⟩
    refine ⟨unlinkAny n, ?_, unlinkAny_eq n, unlinkAny_payload _ n, unlinkAny_standsFor n⟩
    change (s.na.queue.map unlinkAny)[i]? = _
    rw [List.getElem?_map, place]
    rfl

/-! ## RESTART -/

theorem restartNode_channel (s : State) (c : ChanId) :
    (restartNode s).lc.channel c = (s.lc.channel c).begin (followed s c) s.nc.now := by
  cases c <;> rfl

theorem commandHeard_begin (s : State) (ch c : ChanId) (f : Frame) (follow : Bool) (now : Time) :
    ((commandHeard s ch f).lc.channel c).begin follow now = (s.lc.channel c).begin follow now := by
  cases ch <;> cases c <;> rfl

/-- Settles O55. -/
theorem restartKeepsOnlyTheNumbers : Obligations.RestartKeepsOnlyTheNumbers := by
  intro s ch bytes f p accepted code
  refine ⟨restartNode (commandHeard s ch f), congrArg Host.Outcome.next
    (commandRow_runs accepted (isCode_iff.2 code) (.inr code)), rfl, rfl, rfl, rfl, rfl, rfl, rfl, rfl, rfl, rfl, ?_, rfl,
    rfl, rfl, rfl, fun c => ?_, rfl, rfl⟩
  · cases ch <;> rfl
  · rw [restartNode_channel, commandHeard_begin, begin_eq]
    rfl

end Sys2Proof.Machine
end

