-- ==== Sys2Proof/Proofs/Dump.lean ====
section
/-! SUPPORT. QUERY and its answers: the pages of a dump and the STATE layout (R163, R165, R166, R169). -/

namespace Sys2Proof.Machine

open Sys2Proof

/-! ## The entries of a section -/

theorem sectionEntries_pairwise (s : State) (sect : Section) : (sectionEntries s sect).Pairwise fun p q => p.1 < q.1 := by
  cases sect with
  | fixes => exact List.pairwise_map.2 (occupiedWithPlace_pairwise s.ft.places)
  | neighbours => exact List.pairwise_map.2 (occupiedWithPlace_pairwise s.ptu.table)
  | findings => exact List.pairwise_map.2 (zipIdx_pairwise s.ec.findings 0)
  | state => exact .nil

theorem mem_fixes {s : State} {i : Nat} {x : Bytes} :
    (i, x) ∈ sectionEntries s .fixes ↔ ∃ f, s.ft.places[i]? = some (some f) ∧ x = fixEntry f := by
  simp [sectionEntries, mem_occupiedWithPlace, eq_comm]

theorem mem_neighbours {s : State} {i : Nat} {x : Bytes} :
    (i, x) ∈ sectionEntries s .neighbours ↔ ∃ n, s.ptu.table[i]? = some (some n) ∧ x = neighbourEntry n := by
  simp [sectionEntries, mem_occupiedWithPlace, eq_comm]

theorem mem_findings {s : State} {i : Nat} {x : Bytes} :
    (i, x) ∈ sectionEntries s .findings ↔ ∃ f, s.ec.findings[i]? = some f ∧ x = findingEntry f := by
  simp [sectionEntries, List.mem_zipIdx_iff_getElem?, eq_comm]

/-! ## A page -/

theorem buildPage_last {s : State} {d : Dump} : (buildPage s d).1.last = true ↔
    ∀ p ∈ sectionEntries s d.sect, p.1 < (buildPage s d).2 := by
  simp only [buildPage, Bool.not_eq_true', List.any_eq_false, decide_eq_true_eq, not_le]

/-- In index order no entry stands beyond the last. -/
theorem le_getLast {xs : List (Nat × Bytes)} (ordered : xs.Pairwise fun p q => p.1 < q.1) {p : Nat × Bytes} (mem : p ∈ xs) :
    ∃ q, xs.getLast? = some q ∧ p.1 ≤ q.1 := by
  have inOrder : xs.Pairwise fun p q => p.1 ≤ q.1 := ordered.imp le_of_lt
  exact ⟨_, List.getLast?_eq_some_getLast (List.ne_nil_of_mem mem), inOrder.rel_getLast_of_rel_getLast_getLast mem le_rfl⟩

/-- A section of no more entries than a page holds goes out on one page. -/
theorem buildPage_single {s : State} {sect : Section} (fits : (sectionEntries s sect).length ≤ perPage sect) :
    (buildPage s ⟨sect, 0⟩).1.last = true ∧
      (buildPage s ⟨sect, 0⟩).1.payload.drop 4 = (sectionEntries s sect).flatMap (·.2) := by
  have taken : ((sectionEntries s sect).filter fun p => decide (0 ≤ p.1)).take (perPage sect) = sectionEntries s sect := by
    rw [List.filter_eq_self.2 (by simp), List.take_of_length_le fits]
  constructor
  · refine buildPage_last.2 fun p mem => ?_
    obtain ⟨q, last, le⟩ := le_getLast (sectionEntries_pairwise s sect) mem
    simp only [buildPage, taken, last, Option.map_some, Option.getD_some]
    omega
  · simp only [buildPage, taken]
    rfl

/-- Settles O53. -/
theorem dumpPagesFollowOneAnother : Obligations.DumpPagesFollowOneAnother := by
  refine ⟨fun s d => ⟨rfl, rfl, rfl, buildPage_last, sectionEntries_pairwise s d.sect⟩,
    fun s i x => ⟨mem_fixes, mem_neighbours, mem_findings, rfl, rfl, rfl⟩, ?_⟩
  intro s n x page d live_ mac flight tx heard content sect dump lc rest
  have sent : exec .frameSent s = .next (serve (noteGone (.reply page) ((transmitterOff s .idle).withNa s.na.dropFlight))) := by
    rw [← content]
    exact (next_live frameSent live_).trans (congrArg Host.Outcome.next (frameSent_whole mac flight tx heard))
  have dump_ : ((transmitterOff s .idle).withNa s.na.dropFlight).na.dump = some d := dump
  refine ⟨fun last => sent.trans (congrArg (fun t => Host.Outcome.next (serve t)) ?_),
    fun more room => sent.trans (congrArg (fun t => Host.Outcome.next (serve t)) ?_)⟩
  · exact noteGone_last sect dump_ last
  · exact (noteGone_next sect dump_ more).trans (startPage_room d room)

/-! ## QUERY of a table -/

theorem queryTable_starts {s : State} (sect : Section) (level : s.nc.cfg.levelReply ≠ 0) (free : s.na.dump = none) :
    queryTable sect s = serve (startPage ⟨sect, 0⟩ s) := by
  rw [queryTable, if_neg level, free]
  rfl

theorem queryTable_refuses {s : State} (sect : Section) (busy : s.nc.cfg.levelReply = 0 ∨ s.na.dump ≠ none) :
    queryTable sect s = s.withNa { s.na with refused := min (s.na.refused + 1) 65535 } := by
  rw [queryTable]
  by_cases level : s.nc.cfg.levelReply = 0
  · exact if_pos level
  · obtain ⟨d, dump⟩ := Option.ne_none_iff_exists'.1 (busy.resolve_left level)
    rw [if_neg level, dump]
    rfl

theorem exec_queryTable {s : State} {ch : ChanId} {bytes : Bytes} {f : Frame} {p : CommandPayload} {i : Instr}
    {sect : Section} (accepted : CommandAccepted s ch bytes f p) (code : p.code = 1) (running : s.nc.node = .running)
    (row : (i, p.argument, sect) ∈ [(.queryFixes ch bytes, 1, Section.fixes), (.queryFindings ch bytes, 2, Section.findings),
      (.queryNeighbours ch bytes, 3, Section.neighbours)]) :
    exec i s = .next (queryTable sect (commandHeard s ch f)) := by
  simp only [List.mem_cons, Prod.mk.injEq, List.not_mem_nil, or_false] at row
  rcases row with ⟨rfl, argument, rfl⟩ | ⟨rfl, argument, rfl⟩ | ⟨rfl, argument, rfl⟩
  · exact congrArg Host.Outcome.next (commandRow_runs accepted (isQuery_iff.2 ⟨code, argument⟩) (.inl running))
  · exact congrArg Host.Outcome.next (commandRow_runs accepted (isQuery_iff.2 ⟨code, argument⟩) (.inl running))
  · exact congrArg Host.Outcome.next (commandRow_runs accepted (isQuery_iff.2 ⟨code, argument⟩) (.inl running))

/-- Settles O50. -/
theorem tableQueryStartsDump : Obligations.TableQueryStartsDump := by
  intro s ch bytes f p i sect accepted code running row l
  have heard := exec_queryTable accepted code running row
  refine ⟨fun level free room => ?_, fun busy => ?_⟩
  · have starts : queryTable sect (commandHeard s ch f) = serve (startPage ⟨sect, 0⟩ (commandHeard s ch f)) :=
      queryTable_starts sect level free
    refine ⟨(buildPage s ⟨sect, 0⟩).1, (buildPage s ⟨sect, 0⟩).2, heard.trans (congrArg Host.Outcome.next ?_), rfl,
      buildPage_single⟩
    rw [starts, startPage_room (s := commandHeard s ch f) _ room]
    rfl
  · exact heard.trans (congrArg Host.Outcome.next (queryTable_refuses sect busy))

/-! ## The STATE layout -/

/-- Byte 1 of the STATE layout spells its five flags (R169). -/
theorem statusByte_bits (a b c d e : Bool) (bits : Byte)
    (is : bits = oneByte ((if a then 1 else 0) + (if b then 2 else 0) + (if c then 4 else 0) + (if d then 8 else 0) +
      (if e then 16 else 0))) :
    bits.getLsbD 0 = a ∧ bits.getLsbD 1 = b ∧ bits.getLsbD 2 = c ∧ bits.getLsbD 3 = d ∧ bits.getLsbD 4 = e ∧
      ∀ k, 5 ≤ k → bits.getLsbD k = false := by
  subst is
  have low : ∀ a b c d e : Bool, ∀ k : Fin 8, (oneByte ((if a then 1 else 0) + (if b then 2 else 0) +
      (if c then 4 else 0) + (if d then 8 else 0) + (if e then 16 else 0))).getLsbD k =
        [a, b, c, d, e, false, false, false][k] := by decide
  refine ⟨low a b c d e 0, low a b c d e 1, low a b c d e 2, low a b c d e 3, low a b c d e 4, fun k high => ?_⟩
  rcases Nat.lt_or_ge k 8 with inside | outside
  · interval_cases k
    · exact low a b c d e 5
    · exact low a b c d e 6
    · exact low a b c d e 7
  · exact BitVec.getLsbD_of_ge _ _ outside

theorem stateBody_layout (s : State) (queued : Nat) : StateLayout s queued (stateBody s queued) := by
  refine ⟨oneByte s.statusByte, ?_, statusByte_bits _ _ _ _ _ _ rfl⟩
  simp only [stateBody, List.append_assoc]
  rfl

theorem stateBody_commandHeard (s : State) (ch : ChanId) (f : Frame) (queued : Nat) :
    stateBody (commandHeard s ch f) queued = stateBody s queued := by
  cases ch <;> rfl

/-! ## QUERY of STATE -/

theorem queryOfState_offers {s : State} (level : s.nc.cfg.levelReply ≠ 0)
    (none_ : ∀ n ∈ s.na.queue, n.content.isStateReply = false) :
    queryOfState s = offer (.reply (stateReply s)) s.nc.cfg.levelReply none s :=
  (if_neg level).trans (if_neg (by simpa using none_))

theorem queryOfState_standing {s : State} (level : s.nc.cfg.levelReply ≠ 0)
    (stands : ∃ n ∈ s.na.queue, n.content.isStateReply = true) : queryOfState s = s :=
  (if_neg level).trans (if_pos (by simpa using stands))

/-- Settles O51. -/
theorem stateQueryOffersStateReply : Obligations.StateQueryOffersStateReply := by
  refine ⟨fun s => stateBody_layout s _, ?_⟩
  intro s ch bytes f p accepted code argument running l
  have heard : exec (.queryState ch bytes) s = .next (queryOfState (commandHeard s ch f)) :=
    congrArg Host.Outcome.next (commandRow_runs accepted (isQuery_iff.2 ⟨code, argument⟩) (.inl running))
  refine ⟨fun level none_ room => ?_, fun level stands => ?_, fun silent => ?_⟩
  · have page : stateReply (commandHeard s ch f) = ⟨.state, true, [132, 0, 1, 1] ++ stateBody s (s.na.queue.length + 1)⟩ := by
      have counted : min 16 ((commandHeard s ch f).na.queue.length + 1) = s.na.queue.length + 1 := Nat.min_eq_right room
      rw [stateReply, counted, stateBody_commandHeard]
    refine ⟨_, _, heard.trans (congrArg Host.Outcome.next ?_), rfl, stateBody_layout s _⟩
    rw [queryOfState_offers (s := commandHeard s ch f) level none_, page]
    exact offer_room (s := commandHeard s ch f) _ _ _ (isRunning_iff.2 running) room
  · exact heard.trans (congrArg Host.Outcome.next (queryOfState_standing (s := commandHeard s ch f) level stands))
  · exact heard.trans (congrArg Host.Outcome.next (if_pos silent))

end Sys2Proof.Machine
end

