-- ==== Sys2Proof/Proofs/FrameRead.lean ====
section
/-! SUPPORT. A frame as it is sent is read back as it was built (R168, R170, R171). -/

namespace Sys2Proof.Machine

open Sys2Proof

/-! ## Bytes -/

theorem oneByte_toNat {n : Nat} (bound : n ≤ 255) : (oneByte n).toNat = n := by
  rw [oneByte, Nat.min_eq_left bound, BitVec.toNat_ofNat]
  omega

theorem beBytes2_pair (n : Nat) : ∃ high low, beBytes 2 n = [high, low] := ⟨_, _, rfl⟩

/-! ## The CRC -/

theorem withCrc_length (bs : Bytes) : (withCrc bs).length = bs.length + 2 := by simp [withCrc, beBytes]

theorem withCrc_agrees (bs : Bytes) : crcAgrees (withCrc bs) = true := by
  have before : (withCrc bs).length - 2 = bs.length := by rw [withCrc_length, Nat.add_sub_cancel]
  rw [crcAgrees, before, withCrc, List.take_left, List.drop_left, beNat_beBytes2 _ (crc bs).isLt, beq_self_eq_true]

/-! ## The header -/

/-- The frame with its header byte by byte: the fields stand at the offsets at which they are read. -/
theorem withCrc_header (cfg : Cfg) (seq : Byte) (kind level : Nat) (payload : Bytes) :
    ∃ high low tail, beBytes 2 cfg.position = [high, low] ∧ tail.length = 2 ∧
      withCrc (headerAndPayload cfg seq kind level payload) =
        oneByte cfg.runNo :: oneByte (kind * 16 + level * 2) :: oneByte cfg.nodeId :: seq :: high :: low ::
          oneByte payload.length :: (payload ++ tail) := by
  obtain ⟨high, low, position⟩ := beBytes2_pair cfg.position
  obtain ⟨crcHigh, crcLow, check⟩ := beBytes2_pair (crc (headerAndPayload cfg seq kind level payload)).toNat
  refine ⟨high, low, [crcHigh, crcLow], position, rfl, ?_⟩
  rw [withCrc, check, headerAndPayload, position]
  simp

/-- Settles O57. -/
theorem sentFrameIsReadBack : Obligations.SentFrameIsReadBack := by
  intro cfg seq kind level payload run id position kindBound levelBound len bs
  obtain ⟨high, low, tail, pair, two, header⟩ := withCrc_header cfg seq kind level payload
  have lenByte : frameLen bs = payload.length := by
    rw [frameLen, show bs = _ from header]
    exact oneByte_toNat (by omega)
  have total : bs.length = payload.length + 9 := by
    rw [show bs = _ from header]
    simp [two]
  have posField : field bs 4 2 = cfg.position := by
    rw [show bs = _ from header, ← beNat_beBytes2 cfg.position (by omega), pair]
    rfl
  have payloadField : fieldBytes bs 7 payload.length = payload := by
    rw [show bs = _ from header]
    exact List.take_left
  have packed : (oneByte (kind * 16 + level * 2)).toNat = kind * 16 + level * 2 := oneByte_toNat (by omega)
  refine ⟨by simp [frameComplete, lenByte, total, len], withCrc_agrees _, ?_⟩
  rw [parseFrame, lenByte, posField, payloadField, show bs = _ from header]
  simp only [byteAt, List.getD_cons_zero, List.getD_cons_succ, Frame.mk.injEq, oneByte_toNat run, oneByte_toNat id, packed,
    true_and, and_true]
  omega

end Sys2Proof.Machine
end
